-- ==== Sys2Proof/Word.lean ====
section
/-! DEFINITION. The words and the values the KENC mode engine works on: the 64-bit command and register word, bytes,
16-bit code units, bit strings (00_scope.md R9, R10) and block values (R11). Types only; every function on them that a
test could show wrong stands in Machine/Bits.lean and Machine/Blocks.lean. -/

namespace Sys2Proof

/-- A command word, a CSR value, RESP (R9, R22, R23, R59). -/
abbrev Word := BitVec 64

/-- A byte: an opcode, a matrix element, a GF(2^8) operand (R11, R97). -/
abbrev Byte := BitVec 8

/-- A 16-bit code unit or table entry, the whole content of one IN, OUT or TMEM entry (R36, R48). -/
abbrev CodeUnit := BitVec 16

/-- A bit string of R10: position 0 is the first and most significant bit. -/
abbrev Bits := List Bool

/-- The number of a block register, `b0` .. `b7` (R15, R61). -/
abbrev Reg := Fin 8

/-- The key bank that the BANK bit selects (R34): 0 = K_F, 1 = K_S. -/
inductive Bank
  | feistel
  | sp
  deriving DecidableEq, Repr, Inhabited

/-- The content of MX(rows, cols, bytes), bytes in column-major order (R11). -/
structure ByteMatrix where
  rows  : Nat
  cols  : Nat
  bytes : List Byte
  deriving DecidableEq, Repr, Inhabited

/-- A block value (R11): a bit vector BV or a byte matrix MX. The length of a BV is the length of its bits. -/
inductive BlockVal
  | bv (bits : Bits)
  | mx (m : ByteMatrix)
  deriving DecidableEq, Repr, Inhabited

/-- RegVal of R11: INVALID (`none`) or a block value. -/
abbrev RegVal := Option BlockVal

/-- shape(v) of R11: (BV, len) or (MX, rows, cols). -/
inductive Shape
  | bv (len : Nat)
  | mx (rows cols : Nat)
  deriving DecidableEq, Repr

/-- The three memory spaces of R36. -/
inductive Space
  | input
  | output
  | table
  deriving DecidableEq, Repr

/-- The environment's answer at the end of a batch (R145). -/
inductive BatchOutcome
  | complete
  | timeout
  | interrupted
  deriving DecidableEq, Repr, Inhabited

end Sys2Proof
end

