-- ==== Sys2Proof/Config.lean ====
section
/-! DEFINITION. What is fixed for one KENC block: the parameters of 00_scope.md R7 at the document's defaults (log 15), the
nine extension ports of R8 as uninterpreted functions (log 4), and the free values of `draw()` (R12): the content of an
unwritten entry (R43, log 2), the outcome of a batch (R145, log 5) and the order in which the workers act (R144, log 6).
The opaque constants have no body: nothing can be proved about their values. -/

namespace Sys2Proof

namespace Config

/-- CSR ID (R24): ASCII "KENC". -/
abbrev id : Nat := 0x4B454E43

/-- WORKERS (R7, R33). -/
abbrev workers : Nat := 10

/-- BATCH_MAX (R7, R33). -/
abbrev batchMax : Nat := 1500

/-- MAX_BLOCKS (R7, R33). -/
abbrev maxBlocks : Nat := 128

/-- UNIT_BITS (R7, R33). -/
abbrev unitBits : Nat := 8

/-- BUF_UNITS (R7, R33). -/
abbrev bufUnits : Nat := 8192

/-- TMEM_SIZE (R7, R33). -/
abbrev tmemSize : Nat := 4096

/-- MAX_BV_BITS (R7, R33). -/
abbrev maxBvBits : Nat := 65536

/-- MX_MAX_DIM (R7). -/
abbrev mxMaxDim : Nat := 64

/-- NBR (R7, R33). -/
abbrev nbr : Nat := 8

/-- KF_SIZE (R7, R33). -/
abbrev kfSize : Nat := 64

/-- KS_SIZE (R7, R33). -/
abbrev ksSize : Nat := 65

/-- The largest FROUNDS and SPROUNDS (R28). -/
abbrev maxRounds : Nat := 64

/-- The largest TIMEOUT_MS (R31). -/
abbrev maxTimeoutMs : Nat := 1048575

/-- The largest BLOCK_BITS (R26). -/
abbrev maxBlockBits : Nat := 512

/-- PAD, the sentinel unit U+0000 (R7, R125). -/
abbrev pad : CodeUnit := 0

end Config

/-- The limits R11 sets on a block value: 1 .. MAX_BV_BITS bits, or 1 .. 64 rows and columns and rows*cols bytes. -/
def BlockVal.legal : BlockVal → Bool
  | .bv bits => decide (1 ≤ bits.length) && decide (bits.length ≤ Config.maxBvBits)
  | .mx m =>
    decide (1 ≤ m.rows) && decide (m.rows ≤ Config.mxMaxDim) && decide (1 ≤ m.cols) &&
      decide (m.cols ≤ Config.mxMaxDim) && decide (m.bytes.length = m.rows * m.cols)

/-- A value of the type BlockVal as R11 limits it; what an extension port of R8 returns ("legal block values by its
type", R78). -/
structure LegalBlock where
  val : BlockVal := .bv [false]
  ok  : val.legal = true := by decide
  deriving Inhabited

/-- The extension ports (R8). A key schedule "returns exactly count values": it is given as the value at each index below
the count, so the list it stands for has that length (log 4). -/
structure Ports where
  /-- FEISTEL_F: half block, sub-key. -/
  feistelF : Bits → BlockVal → LegalBlock
  /-- KS_F: master key, count, index. -/
  keysF    : BlockVal → Nat → Nat → LegalBlock
  spSub    : BlockVal → LegalBlock
  spPerm   : BlockVal → LegalBlock
  spIsub   : BlockVal → LegalBlock
  spIperm  : BlockVal → LegalBlock
  /-- KS_SP: master key, count, index. -/
  keysSp   : BlockVal → Nat → Nat → LegalBlock
  extE     : Bits → Bits
  extD     : Bits → Bits

namespace Config

/-- FEISTEL_F of R8. -/
opaque feistelF : Bits → BlockVal → LegalBlock

/-- KS_F of R8, by master key, count and index. -/
opaque keysF : BlockVal → Nat → Nat → LegalBlock

/-- SP_SUB of R8. -/
opaque spSub : BlockVal → LegalBlock

/-- SP_PERM of R8. -/
opaque spPerm : BlockVal → LegalBlock

/-- SP_ISUB of R8. -/
opaque spIsub : BlockVal → LegalBlock

/-- SP_IPERM of R8. -/
opaque spIperm : BlockVal → LegalBlock

/-- KS_SP of R8, by master key, count and index. -/
opaque keysSp : BlockVal → Nat → Nat → LegalBlock

/-- EXT_E of R8. -/
opaque extE : Bits → Bits

/-- EXT_D of R8. -/
opaque extD : Bits → Bits

/-- The ports of this block. The meanings call only this; a test may put other ports in its place. -/
def ports : Ports where
  feistelF := feistelF
  keysF    := keysF
  spSub    := spSub
  spPerm   := spPerm
  spIsub   := spIsub
  spIperm  := spIperm
  keysSp   := keysSp
  extE     := extE
  extD     := extD

/-- The value an entry holds from a reset until it is written (R43, 93_implementation_defined.md U1), by the reset's number,
the space and the index. -/
opaque unitDraw : Nat → Space → Nat → CodeUnit

/-- The draw at the end of a batch (R145), by the command's draw number and the batch's number. -/
opaque batchDraw : Nat → Nat → BatchOutcome

/-- Which of the possible worker events happens next (R144), by the command's draw number, the batch and the turn. -/
opaque workerDraw : Nat → Nat → Nat → Nat

end Config

end Sys2Proof
end

