-- ==== Sys2Proof/Machine/Bits.lean ====
section
/-! DEFINITION. Bit strings and bytes (00_scope.md R10), the codec between code units and bits (20_memory.md R46, R47). -/

namespace Sys2Proof.Machine

/-- slice(s, a, b): the positions a .. b-1 (R10). Also used on unit lists (R127). -/
def slice {α : Type} (s : List α) (a b : Nat) : List α := (s.drop a).take (b - a)

/-- s.bit(i) (R10); false beyond the end. -/
def bitAt (s : Bits) (i : Nat) : Bool := s.getD i false

/-- VALUE(s): the unsigned big-endian value (R10). -/
def value : Bits → Nat
  | [] => 0
  | b :: s => b.toNat * 2 ^ s.length + value s

/-- bitsOf8(x): most significant bit first (R10). -/
def bitsOfByte (x : Byte) : Bits := (List.range 8).map x.getMsbD

/-- byteOf(s, k), k counted from 1 (R10). -/
def byteOf (s : Bits) (k : Nat) : Byte := BitVec.ofNat 8 (value (slice s (8 * (k - 1)) (8 * k)))

/-- The bits of a byte list in order, each most significant first (R11). -/
def bitsOfBytes (bytes : List Byte) : Bits := bytes.flatMap bitsOfByte

/-- [byteOf(s,1), ..., byteOf(s, len(s)/8)] (R47). -/
def bytesOfBits (s : Bits) : List Byte := (List.range (s.length / 8)).map fun k => byteOf s (k + 1)

/-- s xor t, position by position (R10). -/
def xorBits (s t : Bits) : Bits := List.zipWith xor s t

/-- zeros(n) (R10). -/
def zeros (n : Nat) : Bits := List.replicate n false

/-- The bit string of length `n` whose bit at position i is `f i`. -/
def buildBits (n : Nat) (f : Nat → Bool) : Bits := (List.range n).map f

/-- BSHL's result (R84): left by `n`, zero-fill or rotate. -/
def shiftLeft (loop : Bool) (n : Nat) (s : Bits) : Bits :=
  buildBits s.length fun i =>
    if loop then bitAt s ((i + n) % s.length)
    else if i + n < s.length then bitAt s (i + n) else false

/-- SEEDSET's formatter (R76): `s` repeated or cut to exactly `n` bits. -/
def repeatTo (n : Nat) (s : Bits) : Bits := buildBits n fun i => bitAt s (i % s.length)

/-- Replace the p-th byte, p counted from 1 (R86). -/
def replaceByte (s : Bits) (p : Nat) (x : Byte) : Bits :=
  slice s 0 (8 * (p - 1)) ++ bitsOfByte x ++ slice s (8 * p) s.length

/-- The codec packs this unit (R46): it is at most 0x00FF. -/
def packable (u : CodeUnit) : Bool := decide (u.toNat ≤ 0x00FF)

/-- The byte a unit carries (R46, R48). -/
def byteOfUnit (u : CodeUnit) : Byte := u.setWidth 8

/-- A byte zero-extended to a unit (R47). -/
def unitOfByte (b : Byte) : CodeUnit := b.setWidth 16

/-- pack(u), on units the codec accepts (R46). -/
def packUnits (us : List CodeUnit) : Bits := bitsOfBytes (us.map byteOfUnit)

/-- unpack(s) (R47). -/
def unpackBits (s : Bits) : List CodeUnit := (bytesOfBits s).map unitOfByte

end Sys2Proof.Machine
end

