-- ==== Sys2Proof/Machine/Blocks.lean ====
section
/-! DEFINITION. Block values (00_scope.md R11), GF(2^8) arithmetic and the operations on byte matrices
(42_bytematrix_gf.md R97 - R107). -/

namespace Sys2Proof.Machine

/-- flat(v) (R11). -/
def flat : BlockVal → Bits
  | .bv bits => bits
  | .mx m => bitsOfBytes m.bytes

/-- len(v) (R11). -/
def blockLen (v : BlockVal) : Nat := (flat v).length

/-- shape(v) (R11). -/
def shape : BlockVal → Shape
  | .bv bits => .bv bits.length
  | .mx m => .mx m.rows m.cols

/-- withFlat(v, s): the value of v's kind and shape whose flat bits are s (R11). -/
def withFlat : BlockVal → Bits → BlockVal
  | .bv _, s => .bv s
  | .mx m, s => .mx { m with bytes := bytesOfBits s }

/-- v xor w on equal shapes (R83, R99). -/
def xorBlock (v w : BlockVal) : BlockVal := withFlat v (xorBits (flat v) (flat w))

/-- m[r][c], rows and columns from 0, column-major (R11). -/
def elem (m : ByteMatrix) (r c : Nat) : Byte := m.bytes.getD (r + c * m.rows) 0

/-- The rows x cols matrix with element `f r c`. -/
def buildMatrix (rows cols : Nat) (f : Nat → Nat → Byte) : ByteMatrix where
  rows  := rows
  cols  := cols
  bytes := (List.range (rows * cols)).map fun k => f (k % rows) (k / rows)

/-- The byte matrix that views a bit string (R102, and view(s) of R122). -/
def viewMatrix (rows cols : Nat) (s : Bits) : ByteMatrix where
  rows  := rows
  cols  := cols
  bytes := (List.range (rows * cols)).map fun k => byteOf s (k + 1)

/-- xtime(x): doubling in GF(2^8) (R97). -/
def xtime (x : Byte) : Byte := (x <<< 1) ^^^ (if 0x80 ≤ x.toNat then 0x1B#8 else 0x00#8)

/-- xtime^n(x) (R98). -/
def xtimePow : Nat → Byte → Byte
  | 0, x => x
  | n + 1, x => xtime (xtimePow n x)

/-- XOR of the bytes of a list; the empty XOR is 0x00 (R98). -/
def xorAll : List Byte → Byte
  | [] => 0
  | b :: bs => b ^^^ xorAll bs

/-- gmul(a, b): multiplication in GF(2^8) (R98). -/
def gmul (a b : Byte) : Byte :=
  xorAll ((List.range 8).map fun i => if b.getLsbD i then xtimePow i a else 0)

/-- MXSUB's result (R104): every byte through the table. -/
def substitute (table : List CodeUnit) (m : ByteMatrix) : ByteMatrix :=
  { m with bytes := m.bytes.map fun b => byteOfUnit (table.getD b.toNat 0) }

/-- MXROTL's result (R105): row r moves left by r. -/
def rotateRowsLeft (m : ByteMatrix) : ByteMatrix :=
  buildMatrix m.rows m.cols fun r c => elem m r ((c + r) % m.cols)

/-- MXROTR's result (R106): row r moves right by r; `(c - r) mod cols` is the non-negative remainder (R9). -/
def rotateRowsRight (m : ByteMatrix) : ByteMatrix :=
  buildMatrix m.rows m.cols fun r c => elem m r (((c : Int) - (r : Int)) % (m.cols : Int)).toNat

/-- MXMUL's result (R107): factor x state. -/
def matMul (f s : ByteMatrix) : ByteMatrix :=
  buildMatrix f.rows s.cols fun r c => xorAll ((List.range f.cols).map fun k => gmul (elem f r k) (elem s k c))

end Sys2Proof.Machine
end

