-- ==== Sys2Proof/Syntax.lean ====
section
/-! DEFINITION. The KENC command set (30_encoding.md R63): one constructor per row of the opcode map, its operands as the
numbers R62 reads from the word. Register operands are block registers 0 .. 7 by type; the range of each immediate is
checked in WellFormed.lean (log 18). -/

namespace Sys2Proof

/-- A command. Operand order is that of the syntax column of R63. -/
inductive Instr
  -- control, host-port, seed and key commands (40_control.md)
  | nop
  | csrr (csr : Nat)
  | csrw (csr value : Nat)
  | inwr (idx : Nat) (u : CodeUnit)
  | outrd (idx : Nat)
  | tmwr (idx : Nat) (entry : CodeUnit)
  | tmrd (idx : Nat)
  | seedset (rs1 : Reg)
  | kset (bank : Bank) (idx : Nat) (rs1 : Reg)
  | kexp (bank : Bank) (rs1 : Reg)
  | poolInit
  | poolRecycle
  -- block capability and bit-vector commands (41_bitvector.md)
  | bzero (rd : Reg) (len : Nat)
  | bmov (rd rs1 : Reg)
  | bxor (rd rs1 rs2 : Reg)
  | bshl (rd rs1 : Reg) (loop : Bool) (n : Int)
  | bgetb (rs1 : Reg) (pos : Nat)
  | bsetb (rd rs1 : Reg) (pos : Nat) (val : Byte)
  | bsize (rs1 : Reg)
  | bvslice (rd rs1 : Reg) (lo hi : Int)
  | bvcat (rd rs1 rs2 : Reg)
  | bvperm (rd rs1 : Reg) (tbase tlen : Nat)
  | bvcmp (rs1 rs2 : Reg)
  | bvsum (rs1 : Reg)
  | bvfromu (rd : Reg) (base count : Nat)
  | bvtou (rs1 : Reg) (base : Nat)
  -- byte matrix and GF(2^8) commands (42_bytematrix_gf.md)
  | mxfrombv (rd rs1 : Reg) (rows cols : Nat)
  | mxtobv (rd rs1 : Reg)
  | mxsub (rd rs1 : Reg) (tbase tlen : Nat)
  | mxrotl (rd rs1 : Reg)
  | mxrotr (rd rs1 : Reg)
  | mxmul (rd rs1 rs2 : Reg)
  | gfxtime (a : Byte)
  | gfmul (a b : Byte)
  -- structures (43_structures.md)
  | fen (rd rs1 : Reg)
  | fde (rd rs1 : Reg)
  | spen (rd rs1 : Reg)
  | spde (rd rs1 : Reg)
  -- modes of operation (44_modes.md)
  | ecbe
  | ecbd
  | cbce
  | cbcd
  | cfbe
  | cfbd
  | ofbe
  | ofbd
  -- multithreaded modes (45_executor.md)
  | ecbeMt
  | ecbdMt
  | cbceMt
  | cbcdMt
  deriving DecidableEq, Repr

end Sys2Proof
end

