-- ==== Sys2Proof/WellFormed.lean ====
section
/-! DEFINITION. Which commands have a word: every immediate fits the field of 30_encoding.md R60 it is read from, unsigned
or signed as R62 says. -/

namespace Sys2Proof

/-- `n` is zext_20 of some 20-bit field (R62). -/
abbrev FitsUnsigned20 (n : Nat) : Prop := n < 2 ^ 20

/-- `n` is sext_20 of some 20-bit field (R62). -/
abbrev FitsSigned20 (n : Int) : Prop := -(2 ^ 19) ≤ n ∧ n < 2 ^ 19

/-- The immediates of a command fit their fields. Bytes and code units fit by their type, registers by theirs. -/
def Instr.wellFormed : Instr → Bool
  | .nop => true
  | .csrr csr => decide (FitsUnsigned20 csr)
  | .csrw csr value => decide (FitsUnsigned20 csr) && decide (FitsUnsigned20 value)
  | .inwr idx _ => decide (FitsUnsigned20 idx)
  | .outrd idx => decide (FitsUnsigned20 idx)
  | .tmwr idx _ => decide (FitsUnsigned20 idx)
  | .tmrd idx => decide (FitsUnsigned20 idx)
  | .seedset _ => true
  | .kset _ idx _ => decide (FitsUnsigned20 idx)
  | .kexp _ _ => true
  | .poolInit => true
  | .poolRecycle => true
  | .bzero _ len => decide (FitsUnsigned20 len)
  | .bmov _ _ => true
  | .bxor _ _ _ => true
  | .bshl _ _ _ n => decide (FitsSigned20 n)
  | .bgetb _ pos => decide (FitsUnsigned20 pos)
  | .bsetb _ _ pos _ => decide (FitsUnsigned20 pos)
  | .bsize _ => true
  | .bvslice _ _ lo hi => decide (FitsSigned20 lo) && decide (FitsSigned20 hi)
  | .bvcat _ _ _ => true
  | .bvperm _ _ tbase tlen => decide (FitsUnsigned20 tbase) && decide (FitsUnsigned20 tlen)
  | .bvcmp _ _ => true
  | .bvsum _ => true
  | .bvfromu _ base count => decide (FitsUnsigned20 base) && decide (FitsUnsigned20 count)
  | .bvtou _ base => decide (FitsUnsigned20 base)
  | .mxfrombv _ _ rows cols => decide (FitsUnsigned20 rows) && decide (FitsUnsigned20 cols)
  | .mxtobv _ _ => true
  | .mxsub _ _ tbase tlen => decide (FitsUnsigned20 tbase) && decide (FitsUnsigned20 tlen)
  | .mxrotl _ _ => true
  | .mxrotr _ _ => true
  | .mxmul _ _ _ => true
  | .gfxtime _ => true
  | .gfmul _ _ => true
  | .fen _ _ => true
  | .fde _ _ => true
  | .spen _ _ => true
  | .spde _ _ => true
  | .ecbe => true
  | .ecbd => true
  | .cbce => true
  | .cbcd => true
  | .cfbe => true
  | .cfbd => true
  | .ofbe => true
  | .ofbd => true
  | .ecbeMt => true
  | .ecbdMt => true
  | .cbceMt => true
  | .cbcdMt => true

end Sys2Proof
end

