-- ==== Sys2Proof/Decode.lean ====
section
/-! DEFINITION. The command word (30_encoding.md R59), the formats and their reserved masks (R60), the opcode map (R63), the
decoder of R64, total on every 64-bit word and rejecting by name, and the encoder written from the same tables. -/

namespace Sys2Proof

/-- Why a word is no command (R64, class ILLEGAL_COMMAND of R154). -/
inductive Illegal
  /-- An OPC value not in R63. -/
  | opcode
  /-- A nonzero reserved bit. -/
  | reserved
  /-- A used register field with a value 8 .. 15. -/
  | regIdx
  deriving DecidableEq, Repr

/-- The formats of R60. -/
inductive Format
  | n | i1 | i2 | i2h | b8 | b88 | s | ss | si | k | kx | di | dii | ds | dss | dsil | dsii | dsib
  deriving DecidableEq, Repr

/-- The reserved mask of R60: the bits that must be zero, OPC aside. -/
def Format.reservedMask : Format → Word
  | .n    => 0x00FFFFFFFFFFFFFF#64
  | .i1   => 0x00FFFF00000FFFFF#64
  | .i2   => 0x00FFFF0000000000#64
  | .i2h  => 0x00FFFF00000F0000#64
  | .b8   => 0x00FFFFFFF00FFFFF#64
  | .b88  => 0x00FFFFFFF00FFF00#64
  | .s    => 0x00F0FFFFFFFFFFFF#64
  | .ss   => 0x00F00FFFFFFFFFFF#64
  | .si   => 0x00F0FF00000FFFFF#64
  | .k    => 0x00F0FD00000FFFFF#64
  | .kx   => 0x00F0FDFFFFFFFFFF#64
  | .di   => 0x000FFF00000FFFFF#64
  | .dii  => 0x000FFF0000000000#64
  | .ds   => 0x0000FFFFFFFFFFFF#64
  | .dss  => 0x00000FFFFFFFFFFF#64
  | .dsil => 0x0000FE00000FFFFF#64
  | .dsii => 0x0000FF0000000000#64
  | .dsib => 0x0000FF00000FFF00#64

/-- The format has a destination register field RD (R60). -/
def Format.usesRd : Format → Bool
  | .di | .dii | .ds | .dss | .dsil | .dsii | .dsib => true
  | .n | .i1 | .i2 | .i2h | .b8 | .b88 | .s | .ss | .si | .k | .kx => false

/-- The format has a source register field RS1 (R60). -/
def Format.usesRs1 : Format → Bool
  | .s | .ss | .si | .k | .kx | .ds | .dss | .dsil | .dsii | .dsib => true
  | .n | .i1 | .i2 | .i2h | .b8 | .b88 | .di | .dii => false

/-- The format has a source register field RS2 (R60). -/
def Format.usesRs2 : Format → Bool
  | .ss | .dss => true
  | .n | .i1 | .i2 | .i2h | .b8 | .b88 | .s | .si | .k | .kx | .di | .dii | .ds | .dsil | .dsii | .dsib => false

/-- The fields of the command word, by the bit positions of R59. -/
def opcField (cw : Word) : Byte := cw.extractLsb' 56 8
def rdField (cw : Word) : BitVec 4 := cw.extractLsb' 52 4
def rs1Field (cw : Word) : BitVec 4 := cw.extractLsb' 48 4
def rs2Field (cw : Word) : BitVec 4 := cw.extractLsb' 44 4
def bankBit (cw : Word) : Bool := cw.getLsbD 41
def loopBit (cw : Word) : Bool := cw.getLsbD 40
def immaField (cw : Word) : BitVec 20 := cw.extractLsb' 20 20
def immbField (cw : Word) : BitVec 20 := cw.extractLsb' 0 20

/-- The register a register field names (R61). The decoder has refused 8 .. 15 before it is used. -/
def regOf (f : BitVec 4) : Reg := Fin.ofNat 8 f.toNat

/-- BANK (R59, R34). -/
def bankOf (b : Bool) : Bank := if b then .sp else .feistel

def rdOf (cw : Word) : Reg := regOf (rdField cw)
def rs1Of (cw : Word) : Reg := regOf (rs1Field cw)
def rs2Of (cw : Word) : Reg := regOf (rs2Field cw)

/-- The readings of an immediate (R62). -/
def immaU (cw : Word) : Nat := (immaField cw).toNat
def immbU (cw : Word) : Nat := (immbField cw).toNat
def immaS (cw : Word) : Int := (immaField cw).toInt
def immbS (cw : Word) : Int := (immbField cw).toInt
def immaByte (cw : Word) : Byte := (immaField cw).setWidth 8
def immbByte (cw : Word) : Byte := (immbField cw).setWidth 8
def immbUnit (cw : Word) : CodeUnit := (immbField cw).setWidth 16

/-- A row of the opcode map: the opcode, the format, and the command its fields give. -/
structure OpRow where
  opc    : Byte
  format : Format
  build  : Word → Instr

/-- R63, opcodes 0x00 - 0x0B: control and executor lifecycle. -/
def controlRows : List OpRow :=
  [ ⟨0x00#8, .n,    fun _ => .nop⟩,
    ⟨0x01#8, .i1,   fun w => .csrr (immaU w)⟩,
    ⟨0x02#8, .i2,   fun w => .csrw (immaU w) (immbU w)⟩,
    ⟨0x03#8, .i2h,  fun w => .inwr (immaU w) (immbUnit w)⟩,
    ⟨0x04#8, .i1,   fun w => .outrd (immaU w)⟩,
    ⟨0x05#8, .i2h,  fun w => .tmwr (immaU w) (immbUnit w)⟩,
    ⟨0x06#8, .i1,   fun w => .tmrd (immaU w)⟩,
    ⟨0x07#8, .s,    fun w => .seedset (rs1Of w)⟩,
    ⟨0x08#8, .k,    fun w => .kset (bankOf (bankBit w)) (immaU w) (rs1Of w)⟩,
    ⟨0x09#8, .kx,   fun w => .kexp (bankOf (bankBit w)) (rs1Of w)⟩,
    ⟨0x0A#8, .n,    fun _ => .poolInit⟩,
    ⟨0x0B#8, .n,    fun _ => .poolRecycle⟩ ]

/-- R63, opcodes 0x10 - 0x1D: block capability and bit-vector. -/
def bitVectorRows : List OpRow :=
  [ ⟨0x10#8, .di,   fun w => .bzero (rdOf w) (immaU w)⟩,
    ⟨0x11#8, .ds,   fun w => .bmov (rdOf w) (rs1Of w)⟩,
    ⟨0x12#8, .dss,  fun w => .bxor (rdOf w) (rs1Of w) (rs2Of w)⟩,
    ⟨0x13#8, .dsil, fun w => .bshl (rdOf w) (rs1Of w) (loopBit w) (immaS w)⟩,
    ⟨0x14#8, .si,   fun w => .bgetb (rs1Of w) (immaU w)⟩,
    ⟨0x15#8, .dsib, fun w => .bsetb (rdOf w) (rs1Of w) (immaU w) (immbByte w)⟩,
    ⟨0x16#8, .s,    fun w => .bsize (rs1Of w)⟩,
    ⟨0x17#8, .dsii, fun w => .bvslice (rdOf w) (rs1Of w) (immaS w) (immbS w)⟩,
    ⟨0x18#8, .dss,  fun w => .bvcat (rdOf w) (rs1Of w) (rs2Of w)⟩,
    ⟨0x19#8, .dsii, fun w => .bvperm (rdOf w) (rs1Of w) (immaU w) (immbU w)⟩,
    ⟨0x1A#8, .ss,   fun w => .bvcmp (rs1Of w) (rs2Of w)⟩,
    ⟨0x1B#8, .s,    fun w => .bvsum (rs1Of w)⟩,
    ⟨0x1C#8, .dii,  fun w => .bvfromu (rdOf w) (immaU w) (immbU w)⟩,
    ⟨0x1D#8, .si,   fun w => .bvtou (rs1Of w) (immaU w)⟩ ]

/-- R63, opcodes 0x20 - 0x27 and 0x30 - 0x33: byte matrix, GF(2^8) and structures. -/
def matrixRows : List OpRow :=
  [ ⟨0x20#8, .dsii, fun w => .mxfrombv (rdOf w) (rs1Of w) (immaU w) (immbU w)⟩,
    ⟨0x21#8, .ds,   fun w => .mxtobv (rdOf w) (rs1Of w)⟩,
    ⟨0x22#8, .dsii, fun w => .mxsub (rdOf w) (rs1Of w) (immaU w) (immbU w)⟩,
    ⟨0x23#8, .ds,   fun w => .mxrotl (rdOf w) (rs1Of w)⟩,
    ⟨0x24#8, .ds,   fun w => .mxrotr (rdOf w) (rs1Of w)⟩,
    ⟨0x25#8, .dss,  fun w => .mxmul (rdOf w) (rs1Of w) (rs2Of w)⟩,
    ⟨0x26#8, .b8,   fun w => .gfxtime (immaByte w)⟩,
    ⟨0x27#8, .b88,  fun w => .gfmul (immaByte w) (immbByte w)⟩,
    ⟨0x30#8, .ds,   fun w => .fen (rdOf w) (rs1Of w)⟩,
    ⟨0x31#8, .ds,   fun w => .fde (rdOf w) (rs1Of w)⟩,
    ⟨0x32#8, .ds,   fun w => .spen (rdOf w) (rs1Of w)⟩,
    ⟨0x33#8, .ds,   fun w => .spde (rdOf w) (rs1Of w)⟩ ]

/-- R63, opcodes 0x40 - 0x4B: the modes, single- and multithreaded. -/
def modeRows : List OpRow :=
  [ ⟨0x40#8, .n,    fun _ => .ecbe⟩,
    ⟨0x41#8, .n,    fun _ => .ecbd⟩,
    ⟨0x42#8, .n,    fun _ => .cbce⟩,
    ⟨0x43#8, .n,    fun _ => .cbcd⟩,
    ⟨0x44#8, .n,    fun _ => .cfbe⟩,
    ⟨0x45#8, .n,    fun _ => .cfbd⟩,
    ⟨0x46#8, .n,    fun _ => .ofbe⟩,
    ⟨0x47#8, .n,    fun _ => .ofbd⟩,
    ⟨0x48#8, .n,    fun _ => .ecbeMt⟩,
    ⟨0x49#8, .n,    fun _ => .ecbdMt⟩,
    ⟨0x4A#8, .n,    fun _ => .cbceMt⟩,
    ⟨0x4B#8, .n,    fun _ => .cbcdMt⟩ ]

/-- The whole opcode map (R63). -/
def opcodeMap : List OpRow := controlRows ++ bitVectorRows ++ matrixRows ++ modeRows

/-- The row of an opcode, if R63 has one. -/
def rowOf (opc : Byte) : Option OpRow := opcodeMap.find? (fun r => r.opc == opc)

/-- Every register field the format uses names one of the eight registers (R64, third check). -/
def regFieldsLegal (f : Format) (cw : Word) : Bool :=
  (!f.usesRd || decide ((rdField cw).toNat < 8)) &&
  (!f.usesRs1 || decide ((rs1Field cw).toNat < 8)) &&
  (!f.usesRs2 || decide ((rs2Field cw).toNat < 8))

/-- The decoder of R64: OPCODE, then RESERVED, then REGIDX. -/
def decode (cw : Word) : Except Illegal Instr :=
  match rowOf (opcField cw) with
  | none => .error .opcode
  | some row =>
    if cw &&& row.format.reservedMask ≠ 0#64 then .error .reserved
    else if regFieldsLegal row.format cw then .ok (row.build cw)
    else .error .regIdx

/-- The opcode of a command (R63); also the OPC field of its error record (R153). -/
def Instr.opcode : Instr → Byte
  | .nop => 0x00#8
  | .csrr _ => 0x01#8
  | .csrw _ _ => 0x02#8
  | .inwr _ _ => 0x03#8
  | .outrd _ => 0x04#8
  | .tmwr _ _ => 0x05#8
  | .tmrd _ => 0x06#8
  | .seedset _ => 0x07#8
  | .kset _ _ _ => 0x08#8
  | .kexp _ _ => 0x09#8
  | .poolInit => 0x0A#8
  | .poolRecycle => 0x0B#8
  | .bzero _ _ => 0x10#8
  | .bmov _ _ => 0x11#8
  | .bxor _ _ _ => 0x12#8
  | .bshl _ _ _ _ => 0x13#8
  | .bgetb _ _ => 0x14#8
  | .bsetb _ _ _ _ => 0x15#8
  | .bsize _ => 0x16#8
  | .bvslice _ _ _ _ => 0x17#8
  | .bvcat _ _ _ => 0x18#8
  | .bvperm _ _ _ _ => 0x19#8
  | .bvcmp _ _ => 0x1A#8
  | .bvsum _ => 0x1B#8
  | .bvfromu _ _ _ => 0x1C#8
  | .bvtou _ _ => 0x1D#8
  | .mxfrombv _ _ _ _ => 0x20#8
  | .mxtobv _ _ => 0x21#8
  | .mxsub _ _ _ _ => 0x22#8
  | .mxrotl _ _ => 0x23#8
  | .mxrotr _ _ => 0x24#8
  | .mxmul _ _ _ => 0x25#8
  | .gfxtime _ => 0x26#8
  | .gfmul _ _ => 0x27#8
  | .fen _ _ => 0x30#8
  | .fde _ _ => 0x31#8
  | .spen _ _ => 0x32#8
  | .spde _ _ => 0x33#8
  | .ecbe => 0x40#8
  | .ecbd => 0x41#8
  | .cbce => 0x42#8
  | .cbcd => 0x43#8
  | .cfbe => 0x44#8
  | .cfbd => 0x45#8
  | .ofbe => 0x46#8
  | .ofbd => 0x47#8
  | .ecbeMt => 0x48#8
  | .ecbdMt => 0x49#8
  | .cbceMt => 0x4A#8
  | .cbcdMt => 0x4B#8

/-- The fields below OPC, side by side as R59 lays them out: RD, RS1, RS2, FL, IMMA, IMMB. -/
structure Fields where
  rd   : BitVec 4 := 0
  rs1  : BitVec 4 := 0
  rs2  : BitVec 4 := 0
  fl   : BitVec 4 := 0
  imma : BitVec 20 := 0
  immb : BitVec 20 := 0
  deriving DecidableEq, Repr

/-- The command word of an opcode and its fields (R59). -/
def assemble (opc : Byte) (f : Fields) : Word :=
  opc ++ f.rd ++ f.rs1 ++ f.rs2 ++ f.fl ++ f.imma ++ f.immb

/-- A register number in its 4-bit field (R61). -/
def regField (r : Reg) : BitVec 4 := BitVec.ofNat 4 r.val

/-- FL with BANK in bit 1 (R59). -/
def bankFl : Bank → BitVec 4
  | .feistel => 0x0#4
  | .sp => 0x2#4

/-- FL with LOOP in bit 0 (R59). -/
def loopFl (loop : Bool) : BitVec 4 := if loop then 0x1#4 else 0x0#4

/-- An unsigned and a signed 20-bit immediate (R62). -/
def immU (n : Nat) : BitVec 20 := BitVec.ofNat 20 n
def immS (n : Int) : BitVec 20 := BitVec.ofInt 20 n

/-- The fields of a command; a field its format does not use is zero (R60). -/
def Instr.fields : Instr → Fields
  | .nop => {}
  | .csrr csr => { imma := immU csr }
  | .csrw csr value => { imma := immU csr, immb := immU value }
  | .inwr idx u => { imma := immU idx, immb := u.setWidth 20 }
  | .outrd idx => { imma := immU idx }
  | .tmwr idx entry => { imma := immU idx, immb := entry.setWidth 20 }
  | .tmrd idx => { imma := immU idx }
  | .seedset rs1 => { rs1 := regField rs1 }
  | .kset bank idx rs1 => { rs1 := regField rs1, fl := bankFl bank, imma := immU idx }
  | .kexp bank rs1 => { rs1 := regField rs1, fl := bankFl bank }
  | .poolInit => {}
  | .poolRecycle => {}
  | .bzero rd len => { rd := regField rd, imma := immU len }
  | .bmov rd rs1 => { rd := regField rd, rs1 := regField rs1 }
  | .bxor rd rs1 rs2 => { rd := regField rd, rs1 := regField rs1, rs2 := regField rs2 }
  | .bshl rd rs1 loop n => { rd := regField rd, rs1 := regField rs1, fl := loopFl loop, imma := immS n }
  | .bgetb rs1 pos => { rs1 := regField rs1, imma := immU pos }
  | .bsetb rd rs1 pos val =>
    { rd := regField rd, rs1 := regField rs1, imma := immU pos, immb := val.setWidth 20 }
  | .bsize rs1 => { rs1 := regField rs1 }
  | .bvslice rd rs1 lo hi => { rd := regField rd, rs1 := regField rs1, imma := immS lo, immb := immS hi }
  | .bvcat rd rs1 rs2 => { rd := regField rd, rs1 := regField rs1, rs2 := regField rs2 }
  | .bvperm rd rs1 tbase tlen =>
    { rd := regField rd, rs1 := regField rs1, imma := immU tbase, immb := immU tlen }
  | .bvcmp rs1 rs2 => { rs1 := regField rs1, rs2 := regField rs2 }
  | .bvsum rs1 => { rs1 := regField rs1 }
  | .bvfromu rd base count => { rd := regField rd, imma := immU base, immb := immU count }
  | .bvtou rs1 base => { rs1 := regField rs1, imma := immU base }
  | .mxfrombv rd rs1 rows cols =>
    { rd := regField rd, rs1 := regField rs1, imma := immU rows, immb := immU cols }
  | .mxtobv rd rs1 => { rd := regField rd, rs1 := regField rs1 }
  | .mxsub rd rs1 tbase tlen =>
    { rd := regField rd, rs1 := regField rs1, imma := immU tbase, immb := immU tlen }
  | .mxrotl rd rs1 => { rd := regField rd, rs1 := regField rs1 }
  | .mxrotr rd rs1 => { rd := regField rd, rs1 := regField rs1 }
  | .mxmul rd rs1 rs2 => { rd := regField rd, rs1 := regField rs1, rs2 := regField rs2 }
  | .gfxtime a => { imma := a.setWidth 20 }
  | .gfmul a b => { imma := a.setWidth 20, immb := b.setWidth 20 }
  | .fen rd rs1 => { rd := regField rd, rs1 := regField rs1 }
  | .fde rd rs1 => { rd := regField rd, rs1 := regField rs1 }
  | .spen rd rs1 => { rd := regField rd, rs1 := regField rs1 }
  | .spde rd rs1 => { rd := regField rd, rs1 := regField rs1 }
  | .ecbe => {}
  | .ecbd => {}
  | .cbce => {}
  | .cbcd => {}
  | .cfbe => {}
  | .cfbd => {}
  | .ofbe => {}
  | .ofbd => {}
  | .ecbeMt => {}
  | .ecbdMt => {}
  | .cbceMt => {}
  | .cbcdMt => {}

/-- The word of a well-formed command. -/
def encode (i : Instr) : Word := assemble i.opcode i.fields

/-- The command word in the numbering of spec/opcode_table.json: every command is one 64-bit word (R66), its bits above
`nbits` zero. -/
def tableWord (nbits w : Nat) : Word := BitVec.ofNat 64 (w % 2 ^ nbits)

/-- The command the decoder reads from a table word, none where it refuses. -/
def decodeTableWord (nbits w : Nat) : Option Instr :=
  match decode (tableWord nbits w) with
  | .ok i => some i
  | .error _ => none

end Sys2Proof
end

