-- ==== Sys2Proof/Machine/State.lean ====
section
/-! DEFINITION. What the KENC block holds (10_state.md), the errors it records (60_exceptions.md R154), the reasons a step
can stop, and the state right after reset (R38, R169). Plain data. -/

namespace Sys2Proof.Machine

/-- The errors of R154, one constructor per DETAIL; the docstring gives CLASS and DETAIL. -/
inductive Err
  /-- INVALID_ARGUMENT 0x01: a source register, a needed key or the seed is absent. -/
  | absent
  /-- INVALID_ARGUMENT 0x02: shapes that do not match. -/
  | mismatch
  /-- INVALID_ARGUMENT 0x03: negative shift amount. -/
  | negShift
  /-- INVALID_ARGUMENT 0x04: ciphertext not a multiple of the chunk. -/
  | notMult
  /-- INVALID_ARGUMENT 0x05: message over MAX_BLOCKS blocks. -/
  | bound
  /-- INVALID_ARGUMENT 0x06: malformed permutation or substitution table. -/
  | badTable
  /-- INVALID_ARGUMENT 0x07: structure input of the wrong width. -/
  | width
  /-- INVALID_ARGUMENT 0x08: BV where MX is needed, or the reverse. -/
  | kind
  /-- INVALID_ARGUMENT 0x09: illegal CSR value, no cipher, or an SP view that does not fit. -/
  | config
  /-- INVALID_ARGUMENT 0x0A: a code unit above 0x00FF where it is packed. -/
  | unitRange
  /-- INVALID_ARGUMENT 0x0B: an illegal block length. -/
  | length
  /-- INVALID_ARGUMENT 0x0C: a reserved CSR number. -/
  | csrNum
  /-- INVALID_ARGUMENT 0x0D: a write of a read-only CSR. -/
  | readOnly
  /-- OUT_OF_BOUNDS 0x01: a slice outside the vector. -/
  | slice
  /-- OUT_OF_BOUNDS 0x02: a byte position outside the block. -/
  | bytePos
  /-- OUT_OF_BOUNDS 0x03: an IN or OUT index or range. -/
  | bufIdx
  /-- OUT_OF_BOUNDS 0x04: a TMEM index or range. -/
  | tmemIdx
  /-- OUT_OF_BOUNDS 0x05: a key index. -/
  | keyIdx
  /-- CONCURRENCY 0x01: the pool was never created. -/
  | poolAbsent
  /-- CONCURRENCY 0x02: the pool was shut down. -/
  | poolShutdown
  /-- CONCURRENCY 0x03: a batch timed out (a draw). -/
  | timeout
  /-- CONCURRENCY 0x04: a batch was interrupted (a draw). -/
  | interrupted
  /-- ILLEGAL_COMMAND 0x01 .. 0x03: the word is no command. -/
  | illegal (why : Illegal)
  deriving DecidableEq, Repr

/-- CIPHER_SEL (R27). -/
inductive CipherSel
  | noCipher
  | feistel
  | sp
  | external
  | identity
  deriving DecidableEq, Repr

/-- POOL_STATE (R30). -/
inductive PoolState
  | absent
  | ready
  | shutdown
  deriving DecidableEq, Repr

/-- The control and status registers of R23. -/
inductive Csr
  | id | status | errcode | blockBits | cipherSel | frounds | sprounds | sprows | inLen | outLen | poolState | timeoutMs
  | batchCount | workers | batchMax | maxBlocks | unitBits | bufUnits | tmemSize | maxBvBits | nbr | kfSize | ksSize
  deriving DecidableEq, Repr

/-- The entries of one memory space: (index, entry), indices strictly rising. An index that is not listed has not been
written since reset (R43, log 1). -/
abbrev Memory := List (Nat × CodeUnit)

/-- What the host does at one clock edge of the port (R39, R169, log 9). -/
inductive PortInput
  /-- RST = 0 and CMD_VALID = 0. -/
  | idle
  /-- RST = 0, CMD_VALID = 1 and CMD = `cw`. -/
  | present (cw : Word)
  /-- RST = 1. -/
  | rst
  deriving DecidableEq, Repr

/-- The state of the block (10_state.md), with the host's coming inputs and the draw counter beside it. -/
structure State where
  /-- BR0 .. BR7 (R15). -/
  br         : Vector RegVal Config.nbr
  /-- K_F[0 .. 63] (R34). -/
  keyF       : Vector RegVal Config.kfSize
  /-- K_S[0 .. 64] (R34). -/
  keyS       : Vector RegVal Config.ksSize
  /-- SEED (R35); its bits mean nothing while SEED_VALID = 0. -/
  seed       : Bits
  /-- The command word in execution (R37, R39): present iff STATUS.BUSY = 1. -/
  running    : Option Word
  /-- STATUS.ERR (R20). -/
  err        : Bool
  /-- STATUS.STICKY (R20). -/
  sticky     : Bool
  /-- STATUS.OUT_VALID (R20). -/
  outValid   : Bool
  /-- STATUS.SEED_VALID (R20). -/
  seedValid  : Bool
  /-- ERRCODE (R21). -/
  errcode    : Word
  /-- RESP (R22). -/
  resp       : Word
  /-- BLOCK_BITS (R26). -/
  blockBits  : Word
  /-- CIPHER_SEL (R27). -/
  cipherSel  : CipherSel
  /-- FROUNDS (R28). -/
  frounds    : Word
  /-- SPROUNDS (R28). -/
  sprounds   : Word
  /-- SPROWS (R28). -/
  sprows     : Word
  /-- IN_LEN (R29). -/
  inLen      : Word
  /-- OUT_LEN (R29). -/
  outLen     : Word
  /-- POOL_STATE (R30). -/
  poolState  : PoolState
  /-- TIMEOUT_MS (R31). -/
  timeoutMs  : Word
  /-- BATCH_COUNT (R32). -/
  batchCount : Word
  /-- IN (R36, R40). -/
  inBuf      : Memory
  /-- OUT (R36, R41). -/
  outBuf     : Memory
  /-- TMEM (R36, R42). -/
  tmem       : Memory
  /-- RST has been asserted at least once (R170, log 11). -/
  resetSeen  : Bool
  /-- What the host does at the coming clock edges, the next one first (R39, log 9). -/
  port       : List PortInput
  /-- The model's own counter of commands, which selects the free values a command draws (R12, log 3). -/
  draws      : Nat
  /-- The model's own number of the last reset, which selects the free values unwritten entries hold (R43, log 2). -/
  epoch      : Nat
  deriving DecidableEq, Repr

/-- Why the machine stops. No command's meaning faults. -/
inductive Fault
  /-- Raised by the port when a command is presented, or is in execution, before RST has been asserted once, and no RST is to
  come: "no rule of this spec applies" (R170). Safe: the model makes no further step there. -/
  | beforeReset
  deriving DecidableEq, Repr

/-- Why a command has no meaning. No command of this model is refused. -/
inductive Refusal
  /-- Raised by exec's arm of a command that has no meaning yet. Safe. No arm raises it. -/
  | notModelled (mnemonic : String)
  deriving DecidableEq, Repr

/-- The state right after reset (R38, R169). `seed` (log 8), `port` (log 9), `draws` (log 3) and `epoch` (log 2) are values
the spec does not give. -/
def State.reset : State where
  br         := Vector.replicate Config.nbr none
  keyF       := Vector.replicate Config.kfSize none
  keyS       := Vector.replicate Config.ksSize none
  seed       := List.replicate 64 false
  running    := none
  err        := false
  sticky     := false
  outValid   := false
  seedValid  := false
  errcode    := 0
  resp       := 0
  blockBits  := 64
  cipherSel  := .noCipher
  frounds    := 16
  sprounds   := 0
  sprows     := 4
  inLen      := 0
  outLen     := 0
  poolState  := .absent
  timeoutMs  := 30000
  batchCount := 0
  inBuf      := []
  outBuf     := []
  tmem       := []
  resetSeen  := true
  port       := []
  draws      := 0
  epoch      := 0

end Sys2Proof.Machine
end

