-- ==== Sys2Proof/Machine/Flags.lean ====
section
/-! DEFINITION. The STATUS word (10_state.md R20), the error record (60_exceptions.md R153, R154) and the numbers of the named
values of CIPHER_SEL and POOL_STATE (R27, R30). There are no arithmetic flags (R96). -/

namespace Sys2Proof.Machine

/-- STATUS.BUSY (R20): a command is in execution. -/
def State.busy (s : State) : Bool := s.running.isSome

/-- CMD_READY = NOT BUSY (R39). -/
def State.cmdReady (s : State) : Bool := !s.busy

/-- The 64-bit STATUS word with a given BUSY bit; bits 63:5 read as 0 (R20). -/
def State.statusWord (s : State) (busy : Bool) : Word :=
  BitVec.ofNat 64
    (busy.toNat + 2 * s.err.toNat + 4 * s.sticky.toNat + 8 * s.outValid.toNat + 16 * s.seedValid.toNat)

/-- The STATUS port (R39). -/
def State.statusPort (s : State) : Word := s.statusWord s.busy

/-- CLASS of R154. -/
def Err.classCode : Err → Nat
  | .absent | .mismatch | .negShift | .notMult | .bound | .badTable | .width | .kind | .config | .unitRange | .length
  | .csrNum | .readOnly => 1
  | .slice | .bytePos | .bufIdx | .tmemIdx | .keyIdx => 2
  | .poolAbsent | .poolShutdown | .timeout | .interrupted => 3
  | .illegal _ => 4

/-- DETAIL of R154. -/
def Err.detailCode : Err → Nat
  | .absent => 0x01
  | .mismatch => 0x02
  | .negShift => 0x03
  | .notMult => 0x04
  | .bound => 0x05
  | .badTable => 0x06
  | .width => 0x07
  | .kind => 0x08
  | .config => 0x09
  | .unitRange => 0x0A
  | .length => 0x0B
  | .csrNum => 0x0C
  | .readOnly => 0x0D
  | .slice => 0x01
  | .bytePos => 0x02
  | .bufIdx => 0x03
  | .tmemIdx => 0x04
  | .keyIdx => 0x05
  | .poolAbsent => 0x01
  | .poolShutdown => 0x02
  | .timeout => 0x03
  | .interrupted => 0x04
  | .illegal .opcode => 0x01
  | .illegal .reserved => 0x02
  | .illegal .regIdx => 0x03

/-- The ERRCODE a failure leaves: CLASS + 256 * DETAIL + 65536 * OPC (R153). -/
def errorRecord (opc : Byte) (e : Err) : Word :=
  BitVec.ofNat 64 (e.classCode + 256 * e.detailCode + 65536 * opc.toNat)

/-- The number of a CIPHER_SEL value (R27). -/
def CipherSel.code : CipherSel → Nat
  | .noCipher => 0
  | .feistel => 1
  | .sp => 2
  | .external => 3
  | .identity => 4

/-- The CIPHER_SEL value of a number; 5 and above are illegal (R27). -/
def CipherSel.ofCode : Nat → Option CipherSel
  | 0 => some .noCipher
  | 1 => some .feistel
  | 2 => some .sp
  | 3 => some .external
  | 4 => some .identity
  | _ => .none

/-- The number of a POOL_STATE value (R30). -/
def PoolState.code : PoolState → Nat
  | .absent => 0
  | .ready => 1
  | .shutdown => 2

end Sys2Proof.Machine
end

