-- ==== Sys2Proof/Machine/Memory.lean ====
section
/-! DEFINITION. The memory spaces IN, OUT and TMEM as lists in one canonical form (20_memory.md R36, R40 - R44, R48). There
is no entry an unlisted index "reads as": an unlisted index was never written, and what it holds is a draw (R43, log 2). So
every written entry is listed, and equal contents are equal lists. -/

namespace Sys2Proof.Machine

/-- The number of entries of a space (R36). -/
def Space.size : Space → Nat
  | .input => Config.bufUnits
  | .output => Config.bufUnits
  | .table => Config.tmemSize

/-- The entry written at an index, none if it was not written since reset. -/
def Memory.find (m : Memory) (a : Nat) : Option CodeUnit :=
  match m with
  | [] => none
  | (b, v) :: rest => if a = b then some v else Memory.find rest a

/-- Write one entry, keeping the indices strictly rising. -/
def Memory.write (m : Memory) (a : Nat) (v : CodeUnit) : Memory :=
  match m with
  | [] => [(a, v)]
  | (b, w) :: rest =>
    if a < b then (a, v) :: (b, w) :: rest
    else if a = b then (a, v) :: rest
    else (b, w) :: Memory.write rest a v

/-- MemWrite: write a list of entries from an index on (R12). -/
def Memory.writeAll (m : Memory) (a : Nat) (vs : List CodeUnit) : Memory :=
  match vs with
  | [] => m
  | v :: rest => Memory.writeAll (Memory.write m a v) (a + 1) rest

/-- Every index of the list is above `lo`, the first first, strictly rising. -/
def Memory.risesFrom (lo : Nat) : Memory → Bool
  | [] => true
  | (a, _) :: rest => decide (lo ≤ a) && Memory.risesFrom (a + 1) rest

/-- The canonical form: strictly rising indices, all below the space's size. -/
def Memory.wf (size : Nat) (m : Memory) : Bool :=
  Memory.risesFrom 0 m && m.all fun e => decide (e.1 < size)

end Sys2Proof.Machine
end

