-- ==== Sys2Proof/Machine/Ops.lean ====
section
/-! DEFINITION. The named operations on the state: checks (R13), registers, keys, memory spaces and CSRs (00_scope.md R12),
completion with success, taking an error (60_exceptions.md R153, R156, R157), and the port's moves (20_memory.md R39,
70_reset_and_hazards.md R169). There is no return from an error: no handler runs and nothing is saved (R159). -/

namespace Sys2Proof.Machine

/-- `need P else E` (R13). -/
def need (p : Prop) [Decidable p] (e : Err) : Except Err Unit := if p then .ok () else .error e

/-- What a command does before it completes: the state it leaves and RESP, or the error it raises. -/
abbrev Effect := Except Err (State × Word)

/-! ### Completion -/

/-- Completion with success (R153): ERR and ERRCODE clear, RESP <- `resp`, BUSY <- 0; the next command draws anew (log 3). -/
def State.succeed (s : State) (resp : Word) : State :=
  { s with err := false, errcode := 0, resp := resp, running := none, draws := s.draws + 1 }

/-- Taking an error (R153, R156): ERR and STICKY set, ERRCODE the record, RESP <- 0, BUSY <- 0, nothing else; the next
command draws anew (log 3). -/
def State.raise (s : State) (opc : Byte) (e : Err) : State :=
  { s with
    err := true, sticky := true, errcode := errorRecord opc e, resp := 0, running := none, draws := s.draws + 1 }

/-- A mode command taking an error (R157): also OUT_VALID and OUT_LEN clear. OUT "may have been overwritten with any
values": the model forgets its entries (log 7). -/
def State.raiseMode (s : State) (opc : Byte) (e : Err) : State :=
  { s.raise opc e with outValid := false, outLen := 0, outBuf := [] }

/-- A command completes (R153). Every command that is no mode command ends here. -/
def complete (opc : Byte) (s : State) (r : Effect) : Host.Outcome State Fault Refusal :=
  match r with
  | .ok (t, resp) => .next (t.succeed resp)
  | .error e => .next (s.raise opc e)

/-! ### Block registers and keys -/

/-- BR[r] (R12). -/
def State.readBr (s : State) (r : Reg) : RegVal := s.br[r.val]

/-- BR[r] <- v (R12). -/
def State.writeBr (s : State) (r : Reg) (v : BlockVal) : State :=
  { s with br := s.br.set r.val (some v) r.isLt }

/-- The number of entries of a key bank (R34). -/
def Bank.size : Bank → Nat
  | .feistel => Config.kfSize
  | .sp => Config.ksSize

/-- The entries of a key bank in ascending order (R34). -/
def State.keys (s : State) : Bank → List RegVal
  | .feistel => s.keyF.toList
  | .sp => s.keyS.toList

/-- K[j] <- v in a bank (R77). -/
def State.writeKey (s : State) (bank : Bank) (j : Nat) (v : BlockVal) : State :=
  match bank with
  | .feistel => { s with keyF := s.keyF.setIfInBounds j (some v) }
  | .sp => { s with keyS := s.keyS.setIfInBounds j (some v) }

/-- The entries of a bank with entry j replaced by `f j` for every j below `k` (R78). -/
def fillEntries {size : Nat} (bank : Vector RegVal size) (k : Nat) (f : Nat → BlockVal) : Vector RegVal size :=
  Vector.ofFn fun j => if j.val < k then some (f j.val) else bank[j.val]

/-- K[j] <- f j for every j below `n`, the other entries unchanged (R78). -/
def State.fillKeys (s : State) (bank : Bank) (n : Nat) (f : Nat → BlockVal) : State :=
  match bank with
  | .feistel => { s with keyF := fillEntries s.keyF n f }
  | .sp => { s with keyS := fillEntries s.keyS n f }

/-- SEED <- t; SEED_VALID <- 1 (R76). -/
def State.writeSeed (s : State) (t : Bits) : State := { s with seed := t, seedValid := true }

/-! ### Memory spaces -/

/-- A memory space (R36). -/
def State.space (s : State) : Space → Memory
  | .input => s.inBuf
  | .output => s.outBuf
  | .table => s.tmem

/-- The one-entry read of a space (R12): the entry last written, or where none was written since reset a draw, any 16-bit
value (R43), "fixed once drawn until the entry is written" (93_implementation_defined.md U1, log 2). -/
def State.entry (s : State) (sp : Space) (a : Nat) : CodeUnit :=
  ((s.space sp).find a).getD (Config.unitDraw s.epoch sp a)

/-- MemRead(sp, a, n) (R12). -/
def State.entries (s : State) (sp : Space) (a n : Nat) : List CodeUnit :=
  (List.range n).map fun i => s.entry sp (a + i)

/-- IN[a] <- u (R72). -/
def State.writeIn (s : State) (a : Nat) (u : CodeUnit) : State := { s with inBuf := s.inBuf.write a u }

/-- TMEM[a] <- e (R74). -/
def State.writeTable (s : State) (a : Nat) (e : CodeUnit) : State := { s with tmem := s.tmem.write a e }

/-- MemWrite(OUT, a, len(us), us) (R12), with OUT_LEN <- `len` and OUT_VALID <- 1 (R95, R128). -/
def State.writeOut (s : State) (a : Nat) (us : List CodeUnit) (len : Nat) : State :=
  { s with outBuf := s.outBuf.writeAll a us, outLen := BitVec.ofNat 64 len, outValid := true }

/-- Output(w) of R128. -/
def State.output (s : State) (w : List CodeUnit) : State := s.writeOut 0 w w.length

/-! ### Control and status registers -/

/-- The CSR of a number; every number not in R23 is reserved. -/
def Csr.ofNumber : Nat → Option Csr
  | 0x00 => some .id
  | 0x01 => some .status
  | 0x02 => some .errcode
  | 0x03 => some .blockBits
  | 0x04 => some .cipherSel
  | 0x05 => some .frounds
  | 0x06 => some .sprounds
  | 0x07 => some .sprows
  | 0x08 => some .inLen
  | 0x09 => some .outLen
  | 0x0A => some .poolState
  | 0x0B => some .timeoutMs
  | 0x0C => some .batchCount
  | 0x10 => some .workers
  | 0x11 => some .batchMax
  | 0x12 => some .maxBlocks
  | 0x13 => some .unitBits
  | 0x14 => some .bufUnits
  | 0x15 => some .tmemSize
  | 0x16 => some .maxBvBits
  | 0x17 => some .nbr
  | 0x18 => some .kfSize
  | 0x19 => some .ksSize
  | _ => none

/-- csr(c): the value CSRR answers (R23, R24, R33). STATUS reads with BUSY = 0 (R70). -/
def State.readCsr (s : State) : Csr → Word
  | .id => BitVec.ofNat 64 Config.id
  | .status => s.statusWord false
  | .errcode => s.errcode
  | .blockBits => s.blockBits
  | .cipherSel => BitVec.ofNat 64 s.cipherSel.code
  | .frounds => s.frounds
  | .sprounds => s.sprounds
  | .sprows => s.sprows
  | .inLen => s.inLen
  | .outLen => s.outLen
  | .poolState => BitVec.ofNat 64 s.poolState.code
  | .timeoutMs => s.timeoutMs
  | .batchCount => s.batchCount
  | .workers => BitVec.ofNat 64 Config.workers
  | .batchMax => BitVec.ofNat 64 Config.batchMax
  | .maxBlocks => BitVec.ofNat 64 Config.maxBlocks
  | .unitBits => BitVec.ofNat 64 Config.unitBits
  | .bufUnits => BitVec.ofNat 64 Config.bufUnits
  | .tmemSize => BitVec.ofNat 64 Config.tmemSize
  | .maxBvBits => BitVec.ofNat 64 Config.maxBvBits
  | .nbr => BitVec.ofNat 64 Config.nbr
  | .kfSize => BitVec.ofNat 64 Config.kfSize
  | .ksSize => BitVec.ofNat 64 Config.ksSize

/-- RW in the table of R23. STATUS, whose bit 2 is write-one-to-clear, is treated apart (R25). -/
def Csr.writable : Csr → Bool
  | .blockBits | .cipherSel | .frounds | .sprounds | .sprows | .inLen | .timeoutMs => true
  | .id | .status | .errcode | .outLen | .poolState | .batchCount | .workers | .batchMax | .maxBlocks | .unitBits
  | .bufUnits | .tmemSize | .maxBvBits | .nbr | .kfSize | .ksSize => false

/-- The legal values of a writable CSR (R23, R26 - R29, R31). -/
def Csr.legalValue : Csr → Nat → Bool
  | .blockBits, v => decide (8 ≤ v) && decide (v ≤ Config.maxBlockBits) && decide (v % 8 = 0)
  | .cipherSel, v => (CipherSel.ofCode v).isSome
  | .frounds, v => decide (v ≤ Config.maxRounds)
  | .sprounds, v => decide (v ≤ Config.maxRounds)
  | .sprows, v => decide (1 ≤ v) && decide (v ≤ Config.mxMaxDim)
  | .inLen, v => decide (v ≤ Config.bufUnits)
  | .timeoutMs, v => decide (1 ≤ v) && decide (v ≤ Config.maxTimeoutMs)
  | .id, _ | .status, _ | .errcode, _ | .outLen, _ | .poolState, _ | .batchCount, _ | .workers, _ | .batchMax, _
  | .maxBlocks, _ | .unitBits, _ | .bufUnits, _ | .tmemSize, _ | .maxBvBits, _ | .nbr, _ | .kfSize, _ | .ksSize, _ => false

/-- csr(c) <- v for a writable CSR and a legal value (R71). A write of BLOCK_BITS clears SEED_VALID (R26). -/
def State.writeCsr (s : State) (c : Csr) (v : Nat) : State :=
  match c with
  | .blockBits => { s with blockBits := BitVec.ofNat 64 v, seedValid := false }
  | .cipherSel => { s with cipherSel := (CipherSel.ofCode v).getD s.cipherSel }
  | .frounds => { s with frounds := BitVec.ofNat 64 v }
  | .sprounds => { s with sprounds := BitVec.ofNat 64 v }
  | .sprows => { s with sprows := BitVec.ofNat 64 v }
  | .inLen => { s with inLen := BitVec.ofNat 64 v }
  | .timeoutMs => { s with timeoutMs := BitVec.ofNat 64 v }
  | .id | .status | .errcode | .outLen | .poolState | .batchCount | .workers | .batchMax | .maxBlocks | .unitBits
  | .bufUnits | .tmemSize | .maxBvBits | .nbr | .kfSize | .ksSize => s

/-- The write of STATUS: bit 2 of the value clears STICKY, the other bits are ignored (R25). -/
def State.writeStatus (s : State) (v : Nat) : State := if v.testBit 2 then { s with sticky := false } else s

/-- POOL_STATE <- p (R140, R141). -/
def State.writePool (s : State) (p : PoolState) : State := { s with poolState := p }

/-- BATCH_COUNT <- b (R146). -/
def State.writeBatchCount (s : State) (b : Nat) : State := { s with batchCount := BitVec.ofNat 64 b }

/-- Nu = BLOCK_BITS / 8, the code units of a chunk (R26). -/
def State.nu (s : State) : Nat := s.blockBits.toNat / 8

/-- The columns of the SP view, BLOCK_BITS / (8 * SPROWS) (R28). -/
def State.spCols (s : State) : Nat := s.blockBits.toNat / (8 * s.sprows.toNat)

/-! ### The port -/

/-- RST = 1 at an edge (R169): every piece of state takes its reset value and a running command leaves no record. The
host's coming inputs are not the block's, the draws go on, and every entry holds a new draw (log 2, log 3, log 10). -/
def State.applyReset (s : State) (rest : List PortInput) : State :=
  { State.reset with port := rest, draws := s.draws + 1, epoch := s.epoch + 1 }

/-- A command before the first reset (R170): no rule applies and the block is stuck until RST is asserted
(93_implementation_defined.md U5, log 11). RST replaces whatever the edges before it did; with none to come, the stop. -/
def State.stuckUntilReset (s : State) : Host.Outcome State Fault Refusal :=
  match s.port.dropWhile fun p => p != .rst with
  | [] => .fault .beforeReset
  | _ :: rest => .next (s.applyReset rest)

/-- A word presented while CMD_READY = 1 is accepted: BUSY <- 1 (R39). -/
def State.accept (s : State) (cw : Word) (rest : List PortInput) : State :=
  { s with running := some cw, port := rest }

/-- The edge at which a command completes: an idle input passes, a word held on CMD waits (R172). -/
def State.passIdle (s : State) : State :=
  match s.port with
  | .idle :: rest => { s with port := rest }
  | .present _ :: _ | .rst :: _ | [] => s

/-- An edge at which the block is idle and no word is presented: it keeps all its state (R168). -/
def State.waitIdle (s : State) (rest : List PortInput) : State := { s with port := rest }

/-- The word the command in execution fails to decode as: an error that no command's effect precedes (R64, R156, R157). -/
def State.raiseIllegal (s : State) (cw : Word) (why : Illegal) : State := s.raise (opcField cw) (.illegal why)

/-- `s` with a command accepted and in execution, the first reset past and no RST at the coming edge (log 12). -/
def State.loadCommand (s : State) (cw : Word) : State :=
  { s with running := some cw, port := s.port.dropWhile (fun p => p == .rst), resetSeen := true }

end Sys2Proof.Machine
end

