-- ==== Sys2Proof/Machine/Operands.lean ====
section
/-! DEFINITION. The operand forms: a source block register, which must hold a value (10_state.md R16), as a value of either
kind, as a BV or as an MX (the KIND checks of 60_exceptions.md R154), the keys a structure needs (43_structures.md R111,
R117) and the seed (44_modes.md R124). -/

namespace Sys2Proof.Machine

/-- A source register's value, ABSENT if it is INVALID (R16). -/
def State.source (s : State) (r : Reg) : Except Err BlockVal :=
  match s.readBr r with
  | some v => .ok v
  | none => .error .absent

/-- `need v is BV else KIND`, with its bits. -/
def asBv : BlockVal → Except Err Bits
  | .bv bits => .ok bits
  | .mx _ => .error .kind

/-- `need v is MX else KIND`, with its matrix. -/
def asMx : BlockVal → Except Err ByteMatrix
  | .bv _ => .error .kind
  | .mx m => .ok m

/-- The values of a list of key entries, ABSENT at the first that is INVALID (R111, R117). -/
def presentKeys : List RegVal → Except Err (List BlockVal)
  | [] => .ok []
  | none :: _ => .error .absent
  | some v :: rest =>
    match presentKeys rest with
    | .ok vs => .ok (v :: vs)
    | .error e => .error e

/-- FeistelReady() (R111): K_F[0 .. FROUNDS-1]. -/
def State.feistelKeys (s : State) : Except Err (List BlockVal) :=
  presentKeys ((s.keys .feistel).take s.frounds.toNat)

/-- SPKeysPresent() (R117): K_S[0 .. SPROUNDS]. -/
def State.spKeys (s : State) : Except Err (List BlockVal) :=
  presentKeys ((s.keys .sp).take (s.sprounds.toNat + 1))

/-- SPKeysShape() (R117): every key is an MX of SPROWS rows and `spCols` columns. -/
def State.spKeysShape (s : State) (keys : List BlockVal) : Except Err Unit :=
  need (∀ k ∈ keys, shape k = .mx s.sprows.toNat s.spCols) .mismatch

/-- The units of a range, UNITRANGE if one is above 0x00FF, else their bits: pack of R46. -/
def packChecked (us : List CodeUnit) : Except Err Bits :=
  if us.all packable then .ok (packUnits us) else .error .unitRange

end Sys2Proof.Machine
end

