-- ==== Sys2Proof/Machine/BitVector.lean ====
section
/-! DEFINITION. Block capability and bit-vector commands (41_bitvector.md R79 - R96). The capability commands BXOR, BSHL,
BGETB, BSETB and BSIZE take both kinds (R79); the bit-vector commands take BV only, but for BVTOU. -/

namespace Sys2Proof.Machine

/-- BZERO (R81). -/
def execBzero (rd : Reg) (len : Nat) (s : State) : Host.Outcome State Fault Refusal :=
  complete (Instr.opcode (.bzero rd len)) s do
    need (1 ≤ len ∧ len ≤ Config.maxBvBits) .length
    return (s.writeBr rd (.bv (zeros len)), 0)

/-- BMOV (R82). -/
def execBmov (rd rs1 : Reg) (s : State) : Host.Outcome State Fault Refusal :=
  complete (Instr.opcode (.bmov rd rs1)) s do
    let v ← s.source rs1
    return (s.writeBr rd v, 0)

/-- BXOR (R83). -/
def execBxor (rd rs1 rs2 : Reg) (s : State) : Host.Outcome State Fault Refusal :=
  complete (Instr.opcode (.bxor rd rs1 rs2)) s do
    let a ← s.source rs1
    let b ← s.source rs2
    need (shape a = shape b) .mismatch
    return (s.writeBr rd (xorBlock a b), 0)

/-- BSHL and BSHL.L (R84). -/
def execBshl (rd rs1 : Reg) (loop : Bool) (n : Int) (s : State) : Host.Outcome State Fault Refusal :=
  complete (Instr.opcode (.bshl rd rs1 loop n)) s do
    let v ← s.source rs1
    need (0 ≤ n) .negShift
    return (s.writeBr rd (withFlat v (shiftLeft loop n.toNat (flat v))), 0)

/-- BGETB (R85). -/
def execBgetb (rs1 : Reg) (pos : Nat) (s : State) : Host.Outcome State Fault Refusal :=
  complete (Instr.opcode (.bgetb rs1 pos)) s do
    let v ← s.source rs1
    need (1 ≤ pos ∧ pos ≤ blockLen v / 8) .bytePos
    return (s, (byteOf (flat v) pos).setWidth 64)

/-- BSETB (R86). -/
def execBsetb (rd rs1 : Reg) (pos : Nat) (val : Byte) (s : State) : Host.Outcome State Fault Refusal :=
  complete (Instr.opcode (.bsetb rd rs1 pos val)) s do
    let v ← s.source rs1
    need (1 ≤ pos ∧ pos ≤ blockLen v / 8) .bytePos
    return (s.writeBr rd (withFlat v (replaceByte (flat v) pos val)), 0)

/-- BSIZE (R87). -/
def execBsize (rs1 : Reg) (s : State) : Host.Outcome State Fault Refusal :=
  complete (Instr.opcode (.bsize rs1)) s do
    let v ← s.source rs1
    return (s, BitVec.ofNat 32 (blockLen v / 8) ++ BitVec.ofNat 32 (blockLen v))

/-- BVSLICE (R88). -/
def execBvslice (rd rs1 : Reg) (lo hi : Int) (s : State) : Host.Outcome State Fault Refusal :=
  complete (Instr.opcode (.bvslice rd rs1 lo hi)) s do
    let v ← s.source rs1
    let bits ← asBv v
    need (0 ≤ lo ∧ hi ≤ bits.length ∧ lo < hi) .slice
    return (s.writeBr rd (.bv (slice bits lo.toNat hi.toNat)), 0)

/-- BVCAT (R89). -/
def execBvcat (rd rs1 rs2 : Reg) (s : State) : Host.Outcome State Fault Refusal :=
  complete (Instr.opcode (.bvcat rd rs1 rs2)) s do
    let a ← s.source rs1
    let b ← s.source rs2
    let x ← asBv a
    let y ← asBv b
    need (x.length + y.length ≤ Config.maxBvBits) .length
    return (s.writeBr rd (.bv (x ++ y)), 0)

/-- The bits a permutation table picks (R90): output position i takes input position map[i] - 1. -/
def permute (map : List CodeUnit) (bits : Bits) : Bits := map.map fun e => bitAt bits (e.toNat - 1)

/-- BVPERM (R90). -/
def execBvperm (rd rs1 : Reg) (tbase tlen : Nat) (s : State) : Host.Outcome State Fault Refusal :=
  complete (Instr.opcode (.bvperm rd rs1 tbase tlen)) s do
    let v ← s.source rs1
    let bits ← asBv v
    need (1 ≤ tlen) .badTable
    need (tbase + tlen ≤ Config.tmemSize) .tmemIdx
    let map := s.entries .table tbase tlen
    need ((map.all fun e => decide (1 ≤ e.toNat) && decide (e.toNat ≤ bits.length)) = true) .badTable
    return (s.writeBr rd (.bv (permute map bits)), 0)

/-- The answer of BVCMP (R92): by value, then by length. -/
def compareBits (x y : Bits) : Word :=
  if value x > value y ∨ (value x = value y ∧ x.length > y.length) then 1
  else if value x = value y ∧ x.length = y.length then 0
  else 0xFFFFFFFFFFFFFFFF

/-- BVCMP (R92). -/
def execBvcmp (rs1 rs2 : Reg) (s : State) : Host.Outcome State Fault Refusal :=
  complete (Instr.opcode (.bvcmp rs1 rs2)) s do
    let a ← s.source rs1
    let b ← s.source rs2
    let x ← asBv a
    let y ← asBv b
    return (s, compareBits x y)

/-- BVSUM (R93). -/
def execBvsum (rs1 : Reg) (s : State) : Host.Outcome State Fault Refusal :=
  complete (Instr.opcode (.bvsum rs1)) s do
    let v ← s.source rs1
    let bits ← asBv v
    return (s, BitVec.ofNat 64 (value bits))

/-- BVFROMU (R94). -/
def execBvfromu (rd : Reg) (base count : Nat) (s : State) : Host.Outcome State Fault Refusal :=
  complete (Instr.opcode (.bvfromu rd base count)) s do
    need (1 ≤ count ∧ 8 * count ≤ Config.maxBvBits) .length
    need (base + count ≤ Config.bufUnits) .bufIdx
    let bits ← packChecked (s.entries .input base count)
    return (s.writeBr rd (.bv bits), 0)

/-- The length of the current result in OUT (R95). -/
def State.outCurrent (s : State) : Nat := if s.outValid then s.outLen.toNat else 0

/-- BVTOU (R95). -/
def execBvtou (rs1 : Reg) (base : Nat) (s : State) : Host.Outcome State Fault Refusal :=
  complete (Instr.opcode (.bvtou rs1 base)) s do
    let v ← s.source rs1
    need (blockLen v % 8 = 0) .length
    let m := blockLen v / 8
    need (base ≤ s.outCurrent ∧ base + m ≤ Config.bufUnits) .bufIdx
    return (s.writeOut base (unpackBits (flat v)) (max s.outCurrent (base + m)), 0)

end Sys2Proof.Machine
end

