-- ==== Sys2Proof/Machine/Control.lean ====
section
/-! DEFINITION. Control, host-port, seed and key commands (40_control.md R69 - R78) and the pool commands (45_executor.md
R140, R141). -/

namespace Sys2Proof.Machine

/-- NOP (R69). -/
def execNop (s : State) : Host.Outcome State Fault Refusal :=
  complete (Instr.opcode .nop) s (.ok (s, 0))

/-- CSRR (R70). -/
def execCsrr (csr : Nat) (s : State) : Host.Outcome State Fault Refusal :=
  complete (Instr.opcode (.csrr csr)) s <|
    match Csr.ofNumber csr with
    | none => .error .csrNum
    | some c => .ok (s, s.readCsr c)

/-- The effect of CSRW on a CSR of the map (R71): STATUS by its own rule, the others RW and legal. -/
def csrwEffect (s : State) (c : Csr) (v : Nat) : Effect :=
  match c with
  | .status => .ok (s.writeStatus v, 0)
  | c => do
    need (c.writable = true) .readOnly
    need (c.legalValue v = true) .config
    return (s.writeCsr c v, 0)

/-- CSRW (R71). -/
def execCsrw (csr v : Nat) (s : State) : Host.Outcome State Fault Refusal :=
  complete (Instr.opcode (.csrw csr v)) s <|
    match Csr.ofNumber csr with
    | none => .error .csrNum
    | some c => csrwEffect s c v

/-- INWR (R72). -/
def execInwr (idx : Nat) (u : CodeUnit) (s : State) : Host.Outcome State Fault Refusal :=
  complete (Instr.opcode (.inwr idx u)) s do
    need (idx < Config.bufUnits) .bufIdx
    return (s.writeIn idx u, 0)

/-- OUTRD (R73). -/
def execOutrd (idx : Nat) (s : State) : Host.Outcome State Fault Refusal :=
  complete (Instr.opcode (.outrd idx)) s do
    need (s.outValid = true ∧ idx < s.outLen.toNat) .bufIdx
    return (s, (s.entry .output idx).setWidth 64)

/-- TMWR (R74). -/
def execTmwr (idx : Nat) (e : CodeUnit) (s : State) : Host.Outcome State Fault Refusal :=
  complete (Instr.opcode (.tmwr idx e)) s do
    need (idx < Config.tmemSize) .tmemIdx
    return (s.writeTable idx e, 0)

/-- TMRD (R75). -/
def execTmrd (idx : Nat) (s : State) : Host.Outcome State Fault Refusal :=
  complete (Instr.opcode (.tmrd idx)) s do
    need (idx < Config.tmemSize) .tmemIdx
    return (s, (s.entry .table idx).setWidth 64)

/-- SEEDSET (R76). -/
def execSeedset (rs1 : Reg) (s : State) : Host.Outcome State Fault Refusal :=
  complete (Instr.opcode (.seedset rs1)) s do
    let v ← s.source rs1
    return (s.writeSeed (repeatTo s.blockBits.toNat (flat v)), 0)

/-- KSET (R77). -/
def execKset (bank : Bank) (idx : Nat) (rs1 : Reg) (s : State) : Host.Outcome State Fault Refusal :=
  complete (Instr.opcode (.kset bank idx rs1)) s do
    let v ← s.source rs1
    need (idx < Bank.size bank) .keyIdx
    return (s.writeKey bank idx v, 0)

/-- What KEXP stores (R78): KS_F of FROUNDS values, or KS_SP of SPROUNDS + 1. -/
def expandKeys (p : Ports) (s : State) (bank : Bank) (master : BlockVal) : State :=
  match bank with
  | .feistel => s.fillKeys .feistel s.frounds.toNat fun j => (p.keysF master s.frounds.toNat j).val
  | .sp => s.fillKeys .sp (s.sprounds.toNat + 1) fun j => (p.keysSp master (s.sprounds.toNat + 1) j).val

/-- KEXP (R78). -/
def execKexp (bank : Bank) (rs1 : Reg) (s : State) : Host.Outcome State Fault Refusal :=
  complete (Instr.opcode (.kexp bank rs1)) s do
    let m ← s.source rs1
    return (expandKeys Config.ports s bank m, 0)

/-- POOL_INIT (R140). -/
def execPoolInit (s : State) : Host.Outcome State Fault Refusal :=
  complete (Instr.opcode .poolInit) s (.ok (s.writePool .ready, 0))

/-- POOL_RECYCLE (R141). -/
def execPoolRecycle (s : State) : Host.Outcome State Fault Refusal :=
  complete (Instr.opcode .poolRecycle) s
    (.ok (if s.poolState ≠ .absent then s.writePool .shutdown else s, 0))

end Sys2Proof.Machine
end

