-- ==== Sys2Proof/Machine/Structures.lean ====
section
/-! DEFINITION. The Feistel and SP structures (43_structures.md R110 - R121). The recurrences take the extension ports as an
argument; the commands run them on the block's own ports. -/

namespace Sys2Proof.Machine

/-! ### Feistel -/

/-- The round function's result on a half block: it must be a BV of the half's length (R112). -/
def roundF (p : Ports) (half : Bits) (key : BlockVal) : Except Err Bits :=
  match (p.feistelF half key).val with
  | .bv f => if f.length = half.length then .ok f else .error .mismatch
  | .mx _ => .error .mismatch

/-- Rounds of encryption over the keys in order: `(L, R) <- (R, L xor F(R, K))` (R112). -/
def feistelEncRounds (p : Ports) : List BlockVal → Bits → Bits → Except Err (Bits × Bits)
  | [], l, r => .ok (l, r)
  | k :: ks, l, r => do
    let f ← roundF p r k
    feistelEncRounds p ks r (xorBits l f)

/-- Rounds of decryption over the keys in the order given: `(R, L) <- (L, R xor F(L, K))` (R112). -/
def feistelDecRounds (p : Ports) : List BlockVal → Bits → Bits → Except Err (Bits × Bits)
  | [], l, r => .ok (l, r)
  | k :: ks, l, r => do
    let f ← roundF p l k
    feistelDecRounds p ks (xorBits r f) l

/-- FeistelEnc(s) on the keys K_F[0 .. FROUNDS-1] (R112): no final swap. -/
def feistelEnc (p : Ports) (keys : List BlockVal) (s : Bits) : Except Err Bits := do
  let h := s.length / 2
  let (l, r) ← feistelEncRounds p keys (slice s 0 h) (slice s h (2 * h))
  return l ++ r

/-- FeistelDec(s) (R112): the rounds descend. -/
def feistelDec (p : Ports) (keys : List BlockVal) (s : Bits) : Except Err Bits := do
  let h := s.length / 2
  let (l, r) ← feistelDecRounds p keys.reverse (slice s 0 h) (slice s h (2 * h))
  return l ++ r

/-- The input checks of FEN and FDE (R114, R115), in their order. -/
def feistelInput (s : State) (v : BlockVal) : Except Err Bits := do
  let bits ← asBv v
  need (bits.length % 2 = 0) .width
  need (bits.length = s.blockBits.toNat) .width
  return bits

/-- FEN (R114). -/
def execFen (rd rs1 : Reg) (s : State) : Host.Outcome State Fault Refusal :=
  complete (Instr.opcode (.fen rd rs1)) s do
    let v ← s.source rs1
    let keys ← s.feistelKeys
    let bits ← feistelInput s v
    let res ← feistelEnc Config.ports keys bits
    return (s.writeBr rd (.bv res), 0)

/-- FDE (R115). -/
def execFde (rd rs1 : Reg) (s : State) : Host.Outcome State Fault Refusal :=
  complete (Instr.opcode (.fde rd rs1)) s do
    let v ← s.source rs1
    let keys ← s.feistelKeys
    let bits ← feistelInput s v
    let res ← feistelDec Config.ports keys bits
    return (s.writeBr rd (.bv res), 0)

/-! ### SP network -/

/-- A layer's result: an MX of the shape of its argument, else MISMATCH (R118). -/
def layer (f : BlockVal → LegalBlock) (x : BlockVal) : Except Err BlockVal :=
  if shape (f x).val = shape x then .ok (f x).val else .error .mismatch

/-- Rounds 1 .. N of encryption: substitute, permute, whiten (R118). -/
def spEncRounds (p : Ports) : List BlockVal → BlockVal → Except Err BlockVal
  | [], x => .ok x
  | k :: ks, x => do
    let y ← layer p.spSub x
    let z ← layer p.spPerm y
    spEncRounds p ks (xorBlock z k)

/-- Rounds N .. 1 of decryption, over the keys in that order: whiten, inverse-permute, inverse-substitute (R118). -/
def spDecRounds (p : Ports) : List BlockVal → BlockVal → Except Err BlockVal
  | [], x => .ok x
  | k :: ks, x => do
    let y ← layer p.spIperm (xorBlock x k)
    let z ← layer p.spIsub y
    spDecRounds p ks z

/-- SPEnc(x) on the keys K_S[0 .. SPROUNDS] (R118). -/
def spEnc (p : Ports) (keys : List BlockVal) (x : BlockVal) : Except Err BlockVal :=
  match keys with
  | [] => .ok x
  | k0 :: ks => spEncRounds p ks (xorBlock x k0)

/-- SPDec(x) (R118). -/
def spDec (p : Ports) (keys : List BlockVal) (x : BlockVal) : Except Err BlockVal :=
  match keys with
  | [] => .ok x
  | k0 :: ks => do
    let y ← spDecRounds p ks.reverse x
    return xorBlock y k0

/-- The input checks of SPEN and SPDE (R120, R121), in their order. -/
def spInput (s : State) (v : BlockVal) (keys : List BlockVal) : Except Err Unit := do
  let m ← asMx v
  need (m.rows = s.sprows.toNat ∧ 8 * m.rows * m.cols = s.blockBits.toNat) .width
  s.spKeysShape keys

/-- SPEN (R120). -/
def execSpen (rd rs1 : Reg) (s : State) : Host.Outcome State Fault Refusal :=
  complete (Instr.opcode (.spen rd rs1)) s do
    let v ← s.source rs1
    let keys ← s.spKeys
    spInput s v keys
    let res ← spEnc Config.ports keys v
    return (s.writeBr rd res, 0)

/-- SPDE (R121). -/
def execSpde (rd rs1 : Reg) (s : State) : Host.Outcome State Fault Refusal :=
  complete (Instr.opcode (.spde rd rs1)) s do
    let v ← s.source rs1
    let keys ← s.spKeys
    spInput s v keys
    let res ← spDec Config.ports keys v
    return (s.writeBr rd res, 0)

end Sys2Proof.Machine
end

