-- ==== Sys2Proof/Machine/Modes.lean ====
section
/-! DEFINITION. The mode-of-operation engine (44_modes.md R122 - R137): the selected cipher, the checks every mode command
makes, padding, stripping and chunking, and ECB, CBC, CFB and OFB. Each mode is a function of the ports and the state that
answers the result's code units or the error raised; the commands run it on the block's own ports. -/

namespace Sys2Proof.Machine

/-! ### The selected cipher -/

/-- The selected cipher (R122) with what it reads: the keys of its structure, the SP view's shape, the block width. -/
inductive Cipher
  | feistel (keys : List BlockVal)
  | sp (rows cols : Nat) (keys : List BlockVal)
  | external (width : Nat)
  | identity
  deriving DecidableEq, Repr

/-- An external cipher's result: it must have the block's length (R122). -/
def extResult (width : Nat) (r : Bits) : Except Err Bits :=
  if r.length = width then .ok r else .error .mismatch

/-- E(s) (R122). -/
def Cipher.enc (p : Ports) (c : Cipher) (s : Bits) : Except Err Bits :=
  match c with
  | .feistel keys => feistelEnc p keys s
  | .sp rows cols keys => do
    let x ← spEnc p keys (.mx (viewMatrix rows cols s))
    return flat x
  | .external width => extResult width (p.extE s)
  | .identity => .ok s

/-- D(s) (R122). -/
def Cipher.dec (p : Ports) (c : Cipher) (s : Bits) : Except Err Bits :=
  match c with
  | .feistel keys => feistelDec p keys s
  | .sp rows cols keys => do
    let x ← spDec p keys (.mx (viewMatrix rows cols s))
    return flat x
  | .external width => extResult width (p.extD s)
  | .identity => .ok s

/-- CipherPresent() (R123): a cipher is selected and its keys are present. -/
def State.cipherPresent (s : State) : Except Err Cipher :=
  match s.cipherSel with
  | .noCipher => .error .config
  | .feistel => do
    let keys ← s.feistelKeys
    return .feistel keys
  | .sp => do
    let keys ← s.spKeys
    return .sp s.sprows.toNat s.spCols keys
  | .external => .ok (.external s.blockBits.toNat)
  | .identity => .ok .identity

/-- CipherShape() (R123): the SP view fits BLOCK_BITS and every SP key has its shape. -/
def State.cipherShape (s : State) (c : Cipher) : Except Err Unit :=
  match c with
  | .sp _ _ keys => do
    need (s.nu % s.sprows.toNat = 0 ∧ s.spCols ≤ Config.mxMaxDim) .config
    s.spKeysShape keys
  | .feistel _ | .external _ | .identity => .ok ()

/-! ### Common mode rules -/

/-- The message IN[0 .. IN_LEN-1] (R124). -/
def State.message (s : State) : List CodeUnit := s.entries .input 0 s.inLen.toNat

/-- ModeCheck (R124): the checks every mode command makes, in their order; it answers the selected cipher. -/
def State.modeCheck (s : State) (chained blockDecrypt : Bool) : Except Err Cipher := do
  let c ← s.cipherPresent
  need (chained = true → s.seedValid = true) .absent
  s.cipherShape c
  need (s.inLen.toNat ≤ Config.maxBlocks * s.nu) .bound
  need (blockDecrypt = true → s.inLen.toNat % s.nu = 0) .notMult
  need (s.message.all packable = true) .unitRange
  return c

/-- Pad(u) (R125): sentinel units up to a multiple of the chunk size. -/
def padUnits (nu : Nat) (u : List CodeUnit) : List CodeUnit :=
  u ++ List.replicate ((nu - u.length % nu) % nu) Config.pad

/-- Strip(w) (R126): the longest prefix that does not end with the sentinel. -/
def stripUnits : List CodeUnit → List CodeUnit
  | [] => []
  | u :: us =>
    match stripUnits us with
    | [] => if u = Config.pad then [] else [u]
    | v :: vs => u :: v :: vs

/-- The chunks of a unit list, packed (R127). -/
def chunks (nu : Nat) (p : List CodeUnit) : List Bits :=
  (List.range (p.length / nu)).map fun i => packUnits (slice p (i * nu) ((i + 1) * nu))

/-- unpack of the chunks in order (R127). -/
def unitsOfChunks (cs : List Bits) : List CodeUnit := cs.flatMap unpackBits

/-- A transform on every chunk in chunk order; the first error ends it (R155). -/
def eachChunk (f : Bits → Except Err Bits) : List Bits → Except Err (List Bits)
  | [] => .ok []
  | c :: cs => do
    let x ← f c
    let xs ← eachChunk f cs
    return x :: xs

/-! ### ECB and CBC -/

/-- ECBE's result (R130). -/
def ecbeUnits (p : Ports) (s : State) : Except Err (List CodeUnit) := do
  let c ← s.modeCheck false false
  let out ← eachChunk (c.enc p) (chunks s.nu (padUnits s.nu s.message))
  return unitsOfChunks out

/-- ECBD's result (R131). -/
def ecbdUnits (p : Ports) (s : State) : Except Err (List CodeUnit) := do
  let c ← s.modeCheck false true
  let out ← eachChunk (c.dec p) (chunks s.nu s.message)
  return stripUnits (unitsOfChunks out)

/-- The CBC encryption chain from CH on (R132): C_i = E(P_i xor CH), then CH <- C_i. -/
def cbcEncChain (e : Bits → Except Err Bits) : Bits → List Bits → Except Err (List Bits)
  | _, [] => .ok []
  | ch, x :: xs => do
    let c ← e (xorBits x ch)
    let cs ← cbcEncChain e c xs
    return c :: cs

/-- The CBC decryption chain from CH on (R133): X_i = D(C_i) xor CH, then CH <- C_i. -/
def cbcDecChain (d : Bits → Except Err Bits) : Bits → List Bits → Except Err (List Bits)
  | _, [] => .ok []
  | ch, c :: cs => do
    let x ← d c
    let xs ← cbcDecChain d c cs
    return xorBits x ch :: xs

/-- CBCE's result (R132). -/
def cbceUnits (p : Ports) (s : State) : Except Err (List CodeUnit) := do
  let c ← s.modeCheck true false
  let out ← cbcEncChain (c.enc p) s.seed (chunks s.nu (padUnits s.nu s.message))
  return unitsOfChunks out

/-- CBCD's result (R133). -/
def cbcdUnits (p : Ports) (s : State) : Except Err (List CodeUnit) := do
  let c ← s.modeCheck true true
  let out ← cbcDecChain (c.dec p) s.seed (chunks s.nu s.message)
  return stripUnits (unitsOfChunks out)

/-! ### CFB and OFB -/

/-- SR, the stream register of a CFB or OFB command (R37, R129). It exists only while the command runs (log 13). -/
structure StreamReg where
  bits : Bits
  deriving DecidableEq, Repr

/-- KeyByte(): the first byte of E(SR) (R129). -/
def StreamReg.keyByte (sr : StreamReg) (e : Bits → Except Err Bits) : Except Err Byte := do
  let x ← e sr.bits
  return byteOf x 1

/-- Shift(b): SR left by one byte, `b` at the low end (R129). -/
def StreamReg.shift (sr : StreamReg) (b : Byte) : StreamReg where
  bits := slice sr.bits 8 sr.bits.length ++ bitsOfByte b

/-- Which byte a stream mode shifts into SR: from the key byte, the unit read and the unit made. -/
abbrev Feedback := Byte → CodeUnit → CodeUnit → Byte

/-- CFB encryption feeds the byte of the output unit (R134). -/
def cfbEncFeedback : Feedback := fun _ _ made => byteOfUnit made

/-- CFB decryption feeds the byte of the ciphertext unit read (R135). -/
def cfbDecFeedback : Feedback := fun _ read _ => byteOfUnit read

/-- OFB feeds the key byte (R136). -/
def ofbFeedback : Feedback := fun k _ _ => k

/-- The unit loop of the stream modes (R134 - R137): each unit XOR the key byte, then SR shifts. -/
def streamUnits (e : Bits → Except Err Bits) (fb : Feedback) : StreamReg → List CodeUnit → Except Err (List CodeUnit)
  | _, [] => .ok []
  | sr, u :: us => do
    let k ← sr.keyByte e
    let y := u ^^^ unitOfByte k
    let ys ← streamUnits e fb (sr.shift (fb k u y)) us
    return y :: ys

/-- CFBE's result (R134). -/
def cfbeUnits (p : Ports) (s : State) : Except Err (List CodeUnit) := do
  let c ← s.modeCheck true false
  streamUnits (c.enc p) cfbEncFeedback ⟨s.seed⟩ s.message

/-- CFBD's result (R135). -/
def cfbdUnits (p : Ports) (s : State) : Except Err (List CodeUnit) := do
  let c ← s.modeCheck true false
  streamUnits (c.enc p) cfbDecFeedback ⟨s.seed⟩ s.message

/-- OFBE's result (R136). -/
def ofbeUnits (p : Ports) (s : State) : Except Err (List CodeUnit) := do
  let c ← s.modeCheck true false
  streamUnits (c.enc p) ofbFeedback ⟨s.seed⟩ s.message

/-- OFBD's result (R137): "exactly the pseudocode of rule R136". -/
def ofbdUnits (p : Ports) (s : State) : Except Err (List CodeUnit) := do
  let c ← s.modeCheck true false
  streamUnits (c.enc p) ofbFeedback ⟨s.seed⟩ s.message

/-! ### The commands -/

/-- A single-threaded mode command completes (R128, R153, R157). -/
def completeMode (opc : Byte) (s : State) (r : Except Err (List CodeUnit)) : Host.Outcome State Fault Refusal :=
  match r with
  | .ok w => .next ((s.output w).succeed 0)
  | .error e => .next (s.raiseMode opc e)

/-- ECBE (R130). -/
def execEcbe (s : State) : Host.Outcome State Fault Refusal :=
  completeMode (Instr.opcode .ecbe) s (ecbeUnits Config.ports s)

/-- ECBD (R131). -/
def execEcbd (s : State) : Host.Outcome State Fault Refusal :=
  completeMode (Instr.opcode .ecbd) s (ecbdUnits Config.ports s)

/-- CBCE (R132). -/
def execCbce (s : State) : Host.Outcome State Fault Refusal :=
  completeMode (Instr.opcode .cbce) s (cbceUnits Config.ports s)

/-- CBCD (R133). -/
def execCbcd (s : State) : Host.Outcome State Fault Refusal :=
  completeMode (Instr.opcode .cbcd) s (cbcdUnits Config.ports s)

/-- CFBE (R134). -/
def execCfbe (s : State) : Host.Outcome State Fault Refusal :=
  completeMode (Instr.opcode .cfbe) s (cfbeUnits Config.ports s)

/-- CFBD (R135). -/
def execCfbd (s : State) : Host.Outcome State Fault Refusal :=
  completeMode (Instr.opcode .cfbd) s (cfbdUnits Config.ports s)

/-- OFBE (R136). -/
def execOfbe (s : State) : Host.Outcome State Fault Refusal :=
  completeMode (Instr.opcode .ofbe) s (ofbeUnits Config.ports s)

/-- OFBD (R137). -/
def execOfbd (s : State) : Host.Outcome State Fault Refusal :=
  completeMode (Instr.opcode .ofbd) s (ofbdUnits Config.ports s)

end Sys2Proof.Machine
end

