-- ==== Sys2Proof/Machine/Executor.lean ====
section
/-! DEFINITION. The bounded batch executor and the multithreaded commands (45_executor.md R139, R142 - R150). A batch is
plain data that `take` and `finish` events of the ten workers change; which possible event happens next is left open
(R144, log 6). Slots are written once. When no event is possible the batch ends (R145, log 5). -/

namespace Sys2Proof.Machine

/-- The chain input of a task. -/
inductive ChainInput
  /-- ECB has none. -/
  | noChain
  /-- A value known when the batch is constructed (R149 for i = 0, R150). -/
  | value (v : Bits)
  /-- The value of a result slot (R149 for i > 0): the task is runnable only when it is written. -/
  | slot (j : Nat)
  deriving DecidableEq, Repr

/-- A task with its captured inputs (R143). -/
structure Task where
  idx   : Nat
  chunk : Bits
  chain : ChainInput
  deriving DecidableEq, Repr

/-- The result array: slot i, once it is written (R143). -/
abbrev Slots := List (Option Bits)

/-- What tasks compute: from the chunk and the chain value (R143). -/
abbrev Work := Bits → Bits → Except Err Bits

/-- A batch in execution (R37, R143, R144). It exists only while the command runs (log 13). -/
structure Batch where
  /-- Tasks no worker has taken. -/
  pending : List Task
  /-- What each of the WORKERS workers is running. -/
  workers : List (Option Task)
  slots   : Slots
  /-- The errors of failed tasks, with the task's index. -/
  errors  : List (Nat × Err)
  deriving DecidableEq, Repr

/-- An event of a worker: it takes the pending task at a position, or finishes the task it runs. -/
inductive WorkerEvent
  | take (worker pos : Nat)
  | finish (worker : Nat)
  deriving DecidableEq, Repr

/-- The chain value of a task, if it is known. -/
def Task.chainValue (t : Task) (slots : Slots) : Option Bits :=
  match t.chain with
  | .noChain => some []
  | .value v => some v
  | .slot j => slots.getD j none

/-- The positions at which a list holds what `q` asks for. -/
def positions {α : Type} (q : α → Bool) (l : List α) : List Nat :=
  (List.range l.length).filter fun i => (l[i]?.map q).getD false

/-- The positions of the runnable pending tasks (R144, R149). -/
def Batch.runnable (b : Batch) : List Nat := positions (fun t => (t.chainValue b.slots).isSome) b.pending

/-- The events possible now: an idle worker takes a runnable task, or a busy worker finishes. -/
def Batch.events (b : Batch) : List WorkerEvent :=
  (positions Option.isNone b.workers).flatMap (fun w => b.runnable.map fun i => .take w i) ++
    (positions Option.isSome b.workers).map .finish

/-- A task's end: it writes its slot, or records its error (R143). -/
def Batch.finishTask (b : Batch) (work : Work) (t : Task) : Batch :=
  match t.chainValue b.slots with
  | none => b
  | some ch =>
    match work t.chunk ch with
    | .ok r => { b with slots := b.slots.set t.idx (some r) }
    | .error e => { b with errors := (t.idx, e) :: b.errors }

/-- One event. -/
def Batch.apply (work : Work) (b : Batch) : WorkerEvent → Batch
  | .take w i =>
    match b.pending[i]? with
    | none => b
    | some t => { b with pending := b.pending.eraseIdx i, workers := b.workers.set w (some t) }
  | .finish w =>
    match b.workers.getD w none with
    | none => b
    | some t => { b.finishTask work t with workers := b.workers.set w none }

/-- The batch runs until no event is possible; `pick` chooses among the possible events at each turn (R144). A task gives two
events, so `fuel` is twice the number of tasks. -/
def Batch.run (work : Work) (pick : Nat → Nat) : Nat → Nat → Batch → Batch
  | 0, _, b => b
  | fuel + 1, turn, b =>
    match b.events with
    | [] => b
    | ev :: evs => Batch.run work pick fuel (turn + 1) (b.apply work ((ev :: evs).getD (pick turn % (evs.length + 1)) ev))

/-- A new batch: its tasks pending, every worker idle (R143, R166). -/
def Batch.start (tasks : List Task) (slots : Slots) : Batch where
  pending := tasks
  workers := List.replicate Config.workers none
  slots   := slots
  errors  := []

/-- The error of the failing task with the lowest index (R145). -/
def lowestError : List (Nat × Err) → Option (Nat × Err)
  | [] => none
  | e :: es =>
    match lowestError es with
    | none => some e
    | some f => if e.1 < f.1 then some e else some f

/-- BatchEnd (R145): the tasks' errors first, then the draw. -/
def batchEnd (b : Batch) (outcome : BatchOutcome) : Except Err Slots :=
  match lowestError b.errors with
  | some (_, e) => .error e
  | none =>
    match outcome with
    | .complete => .ok b.slots
    | .timeout => .error .timeout
    | .interrupted => .error .interrupted

/-- What the environment decides for one multithreaded command: each batch's outcome, and the workers' order. -/
structure BatchEnv where
  outcome : Nat → BatchOutcome
  pick    : Nat → Nat → Nat

/-- The environment of the command that is drawn for at `draws` (log 5, log 6). -/
def environmentAt (draws : Nat) : BatchEnv where
  outcome := Config.batchDraw draws
  pick    := Config.workerDraw draws

/-- B = ceil(m / BATCH_MAX) (R144). -/
def batchCountOf (m : Nat) : Nat := (m + Config.batchMax - 1) / Config.batchMax

/-- The tasks of each batch (R144): batch b holds T_i for BATCH_MAX*b <= i < BATCH_MAX*(b+1). -/
def batchesOf (tasks : List Task) : List (List Task) :=
  (List.range (batchCountOf tasks.length)).map fun b =>
    slice tasks (Config.batchMax * b) (Config.batchMax * (b + 1))

/-- The batches one after another, numbered from `b` (R144, R146). -/
def runBatches (env : BatchEnv) (work : Work) : Nat → List (List Task) → Slots → Except Err Slots
  | _, [], slots => .ok slots
  | b, tasks :: rest, slots => do
    let done := Batch.run work (env.pick b) (2 * tasks.length) 0 (Batch.start tasks slots)
    let slots' ← batchEnd done (env.outcome b)
    runBatches env work (b + 1) rest slots'

/-- MTRun (R146): the result slots 0 .. m-1 in index order. -/
def mtRun (env : BatchEnv) (work : Work) (tasks : List Task) : Except Err (List Bits) := do
  let slots ← runBatches env work 0 (batchesOf tasks) (List.replicate tasks.length none)
  return slots.map fun r => r.getD []

/-- PoolCheck() (R142). -/
def State.poolCheck (s : State) : Except Err Unit := do
  need (s.poolState ≠ .absent) .poolAbsent
  need (s.poolState ≠ .shutdown) .poolShutdown

/-- Task i of chunk list `cs`, with the chain input `chain i` (R143). -/
def tasksOf (cs : List Bits) (chain : Nat → ChainInput) : List Task :=
  cs.zipIdx.map fun ci => { idx := ci.2, chunk := ci.1, chain := chain ci.2 }

/-- The chain inputs of CBCE.MT (R149). -/
def cbcEncInput (seed : Bits) : Nat → ChainInput
  | 0 => .value seed
  | i + 1 => .slot i

/-- The chain inputs of CBCD.MT (R150): the seed, then the ciphertext chunk before. -/
def cbcDecInput (seed : Bits) (cs : List Bits) : Nat → ChainInput
  | 0 => .value seed
  | i + 1 => .value (cs.getD i [])

/-- The result of a multithreaded command: its units and the number of batches it built. -/
abbrev MtResult := Except Err (List CodeUnit × Nat)

/-- ECBE.MT's result (R147). -/
def ecbeMtUnits (p : Ports) (env : BatchEnv) (s : State) : MtResult := do
  let c ← s.modeCheck false false
  s.poolCheck
  let cs := chunks s.nu (padUnits s.nu s.message)
  let out ← mtRun env (fun x _ => c.enc p x) (tasksOf cs fun _ => .noChain)
  return (unitsOfChunks out, batchCountOf cs.length)

/-- ECBD.MT's result (R148). -/
def ecbdMtUnits (p : Ports) (env : BatchEnv) (s : State) : MtResult := do
  let c ← s.modeCheck false true
  s.poolCheck
  let cs := chunks s.nu s.message
  let out ← mtRun env (fun x _ => c.dec p x) (tasksOf cs fun _ => .noChain)
  return (stripUnits (unitsOfChunks out), batchCountOf cs.length)

/-- CBCE.MT's result (R149). -/
def cbceMtUnits (p : Ports) (env : BatchEnv) (s : State) : MtResult := do
  let c ← s.modeCheck true false
  s.poolCheck
  let cs := chunks s.nu (padUnits s.nu s.message)
  let out ← mtRun env (fun x ch => c.enc p (xorBits x ch)) (tasksOf cs (cbcEncInput s.seed))
  return (unitsOfChunks out, batchCountOf cs.length)

/-- CBCD.MT's work (R150): D(C_i) xor prev_i. -/
def cbcDecWork (d : Bits → Except Err Bits) : Work := fun x ch => do
  let y ← d x
  return xorBits y ch

/-- CBCD.MT's result (R150). -/
def cbcdMtUnits (p : Ports) (env : BatchEnv) (s : State) : MtResult := do
  let c ← s.modeCheck true true
  s.poolCheck
  let cs := chunks s.nu s.message
  let out ← mtRun env (cbcDecWork (c.dec p)) (tasksOf cs (cbcDecInput s.seed cs))
  return (stripUnits (unitsOfChunks out), batchCountOf cs.length)

/-- A multithreaded command completes: Output(w) and BATCH_COUNT <- B, or the error (R146, R153, R157). -/
def completeMt (opc : Byte) (s : State) (r : MtResult) : Host.Outcome State Fault Refusal :=
  match r with
  | .ok (w, b) => .next (((s.output w).writeBatchCount b).succeed 0)
  | .error e => .next (s.raiseMode opc e)

/-- ECBE.MT (R147). -/
def execEcbeMt (s : State) : Host.Outcome State Fault Refusal :=
  completeMt (Instr.opcode .ecbeMt) s (ecbeMtUnits Config.ports (environmentAt s.draws) s)

/-- ECBD.MT (R148). -/
def execEcbdMt (s : State) : Host.Outcome State Fault Refusal :=
  completeMt (Instr.opcode .ecbdMt) s (ecbdMtUnits Config.ports (environmentAt s.draws) s)

/-- CBCE.MT (R149). -/
def execCbceMt (s : State) : Host.Outcome State Fault Refusal :=
  completeMt (Instr.opcode .cbceMt) s (cbceMtUnits Config.ports (environmentAt s.draws) s)

/-- CBCD.MT (R150). -/
def execCbcdMt (s : State) : Host.Outcome State Fault Refusal :=
  completeMt (Instr.opcode .cbcdMt) s (cbcdMtUnits Config.ports (environmentAt s.draws) s)

end Sys2Proof.Machine
end

