-- ==== Sys2Proof/Machine/Matrix.lean ====
section
/-! DEFINITION. Byte-matrix and GF(2^8) commands (42_bytematrix_gf.md R102 - R109). -/

namespace Sys2Proof.Machine

/-- MXFROMBV (R102). -/
def execMxfrombv (rd rs1 : Reg) (rows cols : Nat) (s : State) : Host.Outcome State Fault Refusal :=
  complete (Instr.opcode (.mxfrombv rd rs1 rows cols)) s do
    let v ← s.source rs1
    let bits ← asBv v
    need ((1 ≤ rows ∧ rows ≤ Config.mxMaxDim) ∧ 1 ≤ cols ∧ cols ≤ Config.mxMaxDim) .length
    need (bits.length = 8 * rows * cols) .length
    return (s.writeBr rd (.mx (viewMatrix rows cols bits)), 0)

/-- MXTOBV (R103). -/
def execMxtobv (rd rs1 : Reg) (s : State) : Host.Outcome State Fault Refusal :=
  complete (Instr.opcode (.mxtobv rd rs1)) s do
    let v ← s.source rs1
    let m ← asMx v
    return (s.writeBr rd (.bv (bitsOfBytes m.bytes)), 0)

/-- MXSUB (R104). -/
def execMxsub (rd rs1 : Reg) (tbase tlen : Nat) (s : State) : Host.Outcome State Fault Refusal :=
  complete (Instr.opcode (.mxsub rd rs1 tbase tlen)) s do
    let v ← s.source rs1
    let m ← asMx v
    need (256 ≤ tlen) .badTable
    need (tbase + tlen ≤ Config.tmemSize) .tmemIdx
    let table := s.entries .table tbase 256
    need ((table.all fun e => decide (e.toNat ≤ 0xFF)) = true) .badTable
    return (s.writeBr rd (.mx (substitute table m)), 0)

/-- MXROTL (R105). -/
def execMxrotl (rd rs1 : Reg) (s : State) : Host.Outcome State Fault Refusal :=
  complete (Instr.opcode (.mxrotl rd rs1)) s do
    let v ← s.source rs1
    let m ← asMx v
    return (s.writeBr rd (.mx (rotateRowsLeft m)), 0)

/-- MXROTR (R106). -/
def execMxrotr (rd rs1 : Reg) (s : State) : Host.Outcome State Fault Refusal :=
  complete (Instr.opcode (.mxrotr rd rs1)) s do
    let v ← s.source rs1
    let m ← asMx v
    return (s.writeBr rd (.mx (rotateRowsRight m)), 0)

/-- MXMUL (R107): the factor is RS1, the state RS2. -/
def execMxmul (rd rs1 rs2 : Reg) (s : State) : Host.Outcome State Fault Refusal :=
  complete (Instr.opcode (.mxmul rd rs1 rs2)) s do
    let a ← s.source rs1
    let b ← s.source rs2
    let f ← asMx a
    let m ← asMx b
    need (f.cols = m.rows) .mismatch
    return (s.writeBr rd (.mx (matMul f m)), 0)

/-- GFXTIME (R108). -/
def execGfxtime (a : Byte) (s : State) : Host.Outcome State Fault Refusal :=
  complete (Instr.opcode (.gfxtime a)) s (.ok (s, (xtime a).setWidth 64))

/-- GFMUL (R109). -/
def execGfmul (a b : Byte) (s : State) : Host.Outcome State Fault Refusal :=
  complete (Instr.opcode (.gfmul a b)) s (.ok (s, (gmul a b).setWidth 64))

end Sys2Proof.Machine
end

