-- ==== Sys2Proof/Machine/Dispatch.lean ====
section
/-! DEFINITION. One arm per command of the opcode map (30_encoding.md R63): which meaning each has. -/

namespace Sys2Proof.Machine

/-- A command in execution: its effect and its completion (R153). -/
def exec (i : Instr) (s : State) : Host.Outcome State Fault Refusal :=
  match i with
  | .nop => Sys2Proof.Machine.execNop s
  | .csrr csr => Sys2Proof.Machine.execCsrr csr s
  | .csrw csr value => Sys2Proof.Machine.execCsrw csr value s
  | .inwr idx u => Sys2Proof.Machine.execInwr idx u s
  | .outrd idx => Sys2Proof.Machine.execOutrd idx s
  | .tmwr idx entry => Sys2Proof.Machine.execTmwr idx entry s
  | .tmrd idx => Sys2Proof.Machine.execTmrd idx s
  | .seedset rs1 => Sys2Proof.Machine.execSeedset rs1 s
  | .kset bank idx rs1 => Sys2Proof.Machine.execKset bank idx rs1 s
  | .kexp bank rs1 => Sys2Proof.Machine.execKexp bank rs1 s
  | .poolInit => Sys2Proof.Machine.execPoolInit s
  | .poolRecycle => Sys2Proof.Machine.execPoolRecycle s
  | .bzero rd len => Sys2Proof.Machine.execBzero rd len s
  | .bmov rd rs1 => Sys2Proof.Machine.execBmov rd rs1 s
  | .bxor rd rs1 rs2 => Sys2Proof.Machine.execBxor rd rs1 rs2 s
  | .bshl rd rs1 loop n => Sys2Proof.Machine.execBshl rd rs1 loop n s
  | .bgetb rs1 pos => Sys2Proof.Machine.execBgetb rs1 pos s
  | .bsetb rd rs1 pos val => Sys2Proof.Machine.execBsetb rd rs1 pos val s
  | .bsize rs1 => Sys2Proof.Machine.execBsize rs1 s
  | .bvslice rd rs1 lo hi => Sys2Proof.Machine.execBvslice rd rs1 lo hi s
  | .bvcat rd rs1 rs2 => Sys2Proof.Machine.execBvcat rd rs1 rs2 s
  | .bvperm rd rs1 tbase tlen => Sys2Proof.Machine.execBvperm rd rs1 tbase tlen s
  | .bvcmp rs1 rs2 => Sys2Proof.Machine.execBvcmp rs1 rs2 s
  | .bvsum rs1 => Sys2Proof.Machine.execBvsum rs1 s
  | .bvfromu rd base count => Sys2Proof.Machine.execBvfromu rd base count s
  | .bvtou rs1 base => Sys2Proof.Machine.execBvtou rs1 base s
  | .mxfrombv rd rs1 rows cols => Sys2Proof.Machine.execMxfrombv rd rs1 rows cols s
  | .mxtobv rd rs1 => Sys2Proof.Machine.execMxtobv rd rs1 s
  | .mxsub rd rs1 tbase tlen => Sys2Proof.Machine.execMxsub rd rs1 tbase tlen s
  | .mxrotl rd rs1 => Sys2Proof.Machine.execMxrotl rd rs1 s
  | .mxrotr rd rs1 => Sys2Proof.Machine.execMxrotr rd rs1 s
  | .mxmul rd rs1 rs2 => Sys2Proof.Machine.execMxmul rd rs1 rs2 s
  | .gfxtime a => Sys2Proof.Machine.execGfxtime a s
  | .gfmul a b => Sys2Proof.Machine.execGfmul a b s
  | .fen rd rs1 => Sys2Proof.Machine.execFen rd rs1 s
  | .fde rd rs1 => Sys2Proof.Machine.execFde rd rs1 s
  | .spen rd rs1 => Sys2Proof.Machine.execSpen rd rs1 s
  | .spde rd rs1 => Sys2Proof.Machine.execSpde rd rs1 s
  | .ecbe => Sys2Proof.Machine.execEcbe s
  | .ecbd => Sys2Proof.Machine.execEcbd s
  | .cbce => Sys2Proof.Machine.execCbce s
  | .cbcd => Sys2Proof.Machine.execCbcd s
  | .cfbe => Sys2Proof.Machine.execCfbe s
  | .cfbd => Sys2Proof.Machine.execCfbd s
  | .ofbe => Sys2Proof.Machine.execOfbe s
  | .ofbd => Sys2Proof.Machine.execOfbd s
  | .ecbeMt => Sys2Proof.Machine.execEcbeMt s
  | .ecbdMt => Sys2Proof.Machine.execEcbdMt s
  | .cbceMt => Sys2Proof.Machine.execCbceMt s
  | .cbcdMt => Sys2Proof.Machine.execCbcdMt s

end Sys2Proof.Machine
end

