-- ==== Sys2Proof/Machine/Step.lean ====
section
/-! DEFINITION. One step is one clock edge at which something happens at the port (20_memory.md R39, 70_reset_and_hazards.md
R169, R172, log 9). RST comes first (R169). A command in execution is decoded, runs and completes. Otherwise a presented
word is accepted, or the block stays idle. -/

namespace Sys2Proof.Machine

/-- The command in execution completes (R64, R153). -/
def runCommand (cw : Word) (s : State) : Host.Outcome State Fault Refusal :=
  match decode cw with
  | .ok i => exec i s
  | .error why => .next (s.raiseIllegal cw why)

/-- One step (R39, R169, R172). Before the first reset a command has no rule: the block is stuck until RST (R170, log 11). -/
def step (s : State) : Host.Outcome State Fault Refusal :=
  match s.port, s.running with
  | .rst :: rest, _ => .next (s.applyReset rest)
  | _, some cw => if s.resetSeen then runCommand cw s.passIdle else s.stuckUntilReset
  | .present cw :: rest, none => if s.resetSeen then .next (s.accept cw rest) else s.stuckUntilReset
  | .idle :: rest, none => .next (s.waitIdle rest)
  | [], none => .next s

/-- `s` with the word of spec/opcode_table.json accepted, so that the next step runs it (log 12). -/
def State.withFetchWord (s : State) (nbits w : Nat) : State := s.loadCommand (tableWord nbits w)

end Sys2Proof.Machine
end

