-- ==== Sys2Proof/Machine/Reference.lean ====
section
/-! DEFINITION. Constants of the spec that are no state of the block: the match and mask columns of 30_encoding.md R63 as the
table prints them, the permutation tables of 41_bitvector.md R91 and the matrix of 42_bytematrix_gf.md R100. No command
reads them; statements and tests hold the decoder and the operations against them. -/

namespace Sys2Proof.Machine

/-- A row of R63's two columns. -/
structure MaskRow where
  opc   : Byte
  mtch  : Word
  mask  : Word
  deriving DecidableEq, Repr

/-- R63, opcodes 0x00 - 0x0B. -/
def controlMasks : List MaskRow :=
  [ ⟨0x00#8, 0x0000000000000000#64, 0xFFFFFFFFFFFFFFFF#64⟩,
    ⟨0x01#8, 0x0100000000000000#64, 0xFFFFFF00000FFFFF#64⟩,
    ⟨0x02#8, 0x0200000000000000#64, 0xFFFFFF0000000000#64⟩,
    ⟨0x03#8, 0x0300000000000000#64, 0xFFFFFF00000F0000#64⟩,
    ⟨0x04#8, 0x0400000000000000#64, 0xFFFFFF00000FFFFF#64⟩,
    ⟨0x05#8, 0x0500000000000000#64, 0xFFFFFF00000F0000#64⟩,
    ⟨0x06#8, 0x0600000000000000#64, 0xFFFFFF00000FFFFF#64⟩,
    ⟨0x07#8, 0x0700000000000000#64, 0xFFF8FFFFFFFFFFFF#64⟩,
    ⟨0x08#8, 0x0800000000000000#64, 0xFFF8FD00000FFFFF#64⟩,
    ⟨0x09#8, 0x0900000000000000#64, 0xFFF8FDFFFFFFFFFF#64⟩,
    ⟨0x0A#8, 0x0A00000000000000#64, 0xFFFFFFFFFFFFFFFF#64⟩,
    ⟨0x0B#8, 0x0B00000000000000#64, 0xFFFFFFFFFFFFFFFF#64⟩ ]

/-- R63, opcodes 0x10 - 0x1D. -/
def bitVectorMasks : List MaskRow :=
  [ ⟨0x10#8, 0x1000000000000000#64, 0xFF8FFF00000FFFFF#64⟩,
    ⟨0x11#8, 0x1100000000000000#64, 0xFF88FFFFFFFFFFFF#64⟩,
    ⟨0x12#8, 0x1200000000000000#64, 0xFF888FFFFFFFFFFF#64⟩,
    ⟨0x13#8, 0x1300000000000000#64, 0xFF88FE00000FFFFF#64⟩,
    ⟨0x14#8, 0x1400000000000000#64, 0xFFF8FF00000FFFFF#64⟩,
    ⟨0x15#8, 0x1500000000000000#64, 0xFF88FF00000FFF00#64⟩,
    ⟨0x16#8, 0x1600000000000000#64, 0xFFF8FFFFFFFFFFFF#64⟩,
    ⟨0x17#8, 0x1700000000000000#64, 0xFF88FF0000000000#64⟩,
    ⟨0x18#8, 0x1800000000000000#64, 0xFF888FFFFFFFFFFF#64⟩,
    ⟨0x19#8, 0x1900000000000000#64, 0xFF88FF0000000000#64⟩,
    ⟨0x1A#8, 0x1A00000000000000#64, 0xFFF88FFFFFFFFFFF#64⟩,
    ⟨0x1B#8, 0x1B00000000000000#64, 0xFFF8FFFFFFFFFFFF#64⟩,
    ⟨0x1C#8, 0x1C00000000000000#64, 0xFF8FFF0000000000#64⟩,
    ⟨0x1D#8, 0x1D00000000000000#64, 0xFFF8FF00000FFFFF#64⟩ ]

/-- R63, opcodes 0x20 - 0x33. -/
def matrixMasks : List MaskRow :=
  [ ⟨0x20#8, 0x2000000000000000#64, 0xFF88FF0000000000#64⟩,
    ⟨0x21#8, 0x2100000000000000#64, 0xFF88FFFFFFFFFFFF#64⟩,
    ⟨0x22#8, 0x2200000000000000#64, 0xFF88FF0000000000#64⟩,
    ⟨0x23#8, 0x2300000000000000#64, 0xFF88FFFFFFFFFFFF#64⟩,
    ⟨0x24#8, 0x2400000000000000#64, 0xFF88FFFFFFFFFFFF#64⟩,
    ⟨0x25#8, 0x2500000000000000#64, 0xFF888FFFFFFFFFFF#64⟩,
    ⟨0x26#8, 0x2600000000000000#64, 0xFFFFFFFFF00FFFFF#64⟩,
    ⟨0x27#8, 0x2700000000000000#64, 0xFFFFFFFFF00FFF00#64⟩,
    ⟨0x30#8, 0x3000000000000000#64, 0xFF88FFFFFFFFFFFF#64⟩,
    ⟨0x31#8, 0x3100000000000000#64, 0xFF88FFFFFFFFFFFF#64⟩,
    ⟨0x32#8, 0x3200000000000000#64, 0xFF88FFFFFFFFFFFF#64⟩,
    ⟨0x33#8, 0x3300000000000000#64, 0xFF88FFFFFFFFFFFF#64⟩ ]

/-- R63, opcodes 0x40 - 0x4B. -/
def modeMasks : List MaskRow :=
  [ ⟨0x40#8, 0x4000000000000000#64, 0xFFFFFFFFFFFFFFFF#64⟩,
    ⟨0x41#8, 0x4100000000000000#64, 0xFFFFFFFFFFFFFFFF#64⟩,
    ⟨0x42#8, 0x4200000000000000#64, 0xFFFFFFFFFFFFFFFF#64⟩,
    ⟨0x43#8, 0x4300000000000000#64, 0xFFFFFFFFFFFFFFFF#64⟩,
    ⟨0x44#8, 0x4400000000000000#64, 0xFFFFFFFFFFFFFFFF#64⟩,
    ⟨0x45#8, 0x4500000000000000#64, 0xFFFFFFFFFFFFFFFF#64⟩,
    ⟨0x46#8, 0x4600000000000000#64, 0xFFFFFFFFFFFFFFFF#64⟩,
    ⟨0x47#8, 0x4700000000000000#64, 0xFFFFFFFFFFFFFFFF#64⟩,
    ⟨0x48#8, 0x4800000000000000#64, 0xFFFFFFFFFFFFFFFF#64⟩,
    ⟨0x49#8, 0x4900000000000000#64, 0xFFFFFFFFFFFFFFFF#64⟩,
    ⟨0x4A#8, 0x4A00000000000000#64, 0xFFFFFFFFFFFFFFFF#64⟩,
    ⟨0x4B#8, 0x4B00000000000000#64, 0xFFFFFFFFFFFFFFFF#64⟩ ]

/-- The match and mask columns of R63, whole. -/
def maskTable : List MaskRow := controlMasks ++ bitVectorMasks ++ matrixMasks ++ modeMasks

/-- The permutation table IP (R91). -/
def ipTable : List CodeUnit :=
  ([58, 50, 42, 34, 26, 18, 10, 2, 60, 52, 44, 36, 28, 20, 12, 4] ++
   [62, 54, 46, 38, 30, 22, 14, 6, 64, 56, 48, 40, 32, 24, 16, 8] ++
   [57, 49, 41, 33, 25, 17, 9, 1, 59, 51, 43, 35, 27, 19, 11, 3] ++
   [61, 53, 45, 37, 29, 21, 13, 5, 63, 55, 47, 39, 31, 23, 15, 7])

/-- The permutation table IPR, the inverse of IP (R91). -/
def iprTable : List CodeUnit :=
  ([40, 8, 48, 16, 56, 24, 64, 32, 39, 7, 47, 15, 55, 23, 63, 31] ++
   [38, 6, 46, 14, 54, 22, 62, 30, 37, 5, 45, 13, 53, 21, 61, 29] ++
   [36, 4, 44, 12, 52, 20, 60, 28, 35, 3, 43, 11, 51, 19, 59, 27] ++
   [34, 2, 42, 10, 50, 18, 58, 26, 33, 1, 41, 9, 49, 17, 57, 25])

/-- The canonical diffusion matrix `02 03 01 01 / 01 02 03 01 / 01 01 02 03 / 03 01 01 02` (R100), in column-major order. -/
def mixColumnsMatrix : ByteMatrix where
  rows  := 4
  cols  := 4
  bytes := [0x02, 0x01, 0x01, 0x03, 0x03, 0x02, 0x01, 0x01, 0x01, 0x03, 0x02, 0x01, 0x01, 0x01, 0x03, 0x02]

/-- The n x n identity factor (R107): 1 on the diagonal, 0 elsewhere. -/
def identityMatrix (n : Nat) : ByteMatrix := buildMatrix n n fun r c => if r = c then 1 else 0

end Sys2Proof.Machine
end

