-- ==== Sys2Proof/Safety.lean ====
section
/-! DEFINITION. The terms claims use. What a legal state of the KENC block is: the limits the rules of 10_state.md put on what
the block holds, and the promises the rules of 20_memory.md and 60_exceptions.md make about it. Which registers a command
names, which commands are mode commands, and what a command that succeeds, fails or outputs leaves, written from
60_exceptions.md R153, R156, R157 and 44_modes.md R128 with their own numbers. -/

namespace Sys2Proof.Machine

/-- A RegVal is INVALID or a value within R11's limits. -/
def legalReg (v : RegVal) : Bool := v.all BlockVal.legal

/-- The writable CSRs hold legal values (R23, R26, R28, R29, R31). -/
structure State.CsrsLegal (s : State) : Prop where
  blockBits : Csr.legalValue .blockBits s.blockBits.toNat = true
  frounds   : Csr.legalValue .frounds s.frounds.toNat = true
  sprounds  : Csr.legalValue .sprounds s.sprounds.toNat = true
  sprows    : Csr.legalValue .sprows s.sprows.toNat = true
  inLen     : Csr.legalValue .inLen s.inLen.toNat = true
  timeoutMs : Csr.legalValue .timeoutMs s.timeoutMs.toNat = true

/-- Every block register and key entry is INVALID or a legal block value (R11, R15, R34). -/
structure State.BlocksLegal (s : State) : Prop where
  br   : ∀ v ∈ s.br.toList, legalReg v = true
  keyF : ∀ v ∈ s.keyF.toList, legalReg v = true
  keyS : ∀ v ∈ s.keyS.toList, legalReg v = true

/-- The spaces are in canonical form, within their sizes (R36, R51). -/
structure State.SpacesCanonical (s : State) : Prop where
  inBuf  : Memory.wf Config.bufUnits s.inBuf = true
  outBuf : Memory.wf Config.bufUnits s.outBuf = true
  tmem   : Memory.wf Config.tmemSize s.tmem = true

/-- OUT_VALID covers only written entries, each a byte; with OUT_VALID = 0, OUT_LEN = 0 (R20, R29, R41, R47, R157). -/
structure State.ResultComplete (s : State) : Prop where
  len     : s.outLen.toNat ≤ Config.bufUnits
  empty   : s.outValid = false → s.outLen = 0
  written : ∀ a, a < s.outLen.toNat → ∃ u, s.outBuf.find a = some u ∧ u.toNat ≤ 0xFF

/-- ERR, ERRCODE and STICKY agree (R20, R21, R153): no error means ERRCODE 0, an error means a class 1 .. 4 and STICKY. -/
structure State.RecordConsistent (s : State) : Prop where
  clean  : s.err = false → s.errcode = 0
  failed : s.err = true → s.sticky = true ∧ 1 ≤ s.errcode.toNat % 256 ∧ s.errcode.toNat % 256 ≤ 4
  high   : s.errcode.toNat < 2 ^ 24

/-- A legal state. -/
structure State.Legal (s : State) : Prop where
  csrs   : s.CsrsLegal
  blocks : s.BlocksLegal
  spaces : s.SpacesCanonical
  result : s.ResultComplete
  record : s.RecordConsistent
  /-- A loaded seed has BLOCK_BITS bits (R35). -/
  seed   : s.seedValid = true → s.seed.length = s.blockBits.toNat
  /-- A message has at most MAX_BLOCKS chunks, so at most one batch (R151). -/
  batch  : s.batchCount.toNat ≤ 1
  /-- The block has been reset (R170). -/
  begun  : s.resetSeen = true

/-! ### The outcomes of a command -/

/-- The outcome of a command that succeeds with its effects in `t` (R153). The draw counter is the model's own (log 3). -/
def succeedsWith (t : State) (resp : Word) : Host.Outcome State Fault Refusal :=
  .next { t with err := false, errcode := 0, resp := resp, running := none, draws := t.draws + 1 }

/-- The outcome of a command that raises CLASS(DETAIL): the record, and nothing else (R153, R156). -/
def failsWith (s : State) (opc cls detail : Nat) : Host.Outcome State Fault Refusal :=
  .next { s with
    err := true, sticky := true, errcode := BitVec.ofNat 64 (cls + 256 * detail + 65536 * opc), resp := 0,
    running := none, draws := s.draws + 1 }

/-- A mode command raised CLASS(DETAIL): the record, OUT_VALID and OUT_LEN clear, OUT's entries with any values (R157). -/
structure ModeFails (s t : State) (opc cls detail : Nat) : Prop where
  frame : t = { s with
    err := true, sticky := true, errcode := BitVec.ofNat 64 (cls + 256 * detail + 65536 * opc), resp := 0,
    running := none, outValid := false, outLen := 0, outBuf := t.outBuf, draws := s.draws + 1 }

/-- Output(w) and completion (R128, R153): OUT holds `w` from index 0 on, its other entries and all other state as before,
but for BATCH_COUNT, which is `batches`. -/
structure OutputsOnly (s t : State) (w : List CodeUnit) (batches : Word) : Prop where
  written : ∀ a, t.outBuf.find a = if a < w.length then w[a]? else s.outBuf.find a
  frame   : t = { s with
    err := false, errcode := 0, resp := 0, running := none, outValid := true, outLen := BitVec.ofNat 64 w.length,
    outBuf := t.outBuf, batchCount := batches, draws := s.draws + 1 }

end Sys2Proof.Machine

namespace Sys2Proof

/-- RD, for the commands that name one (R17, R60). -/
def Instr.destination : Instr → Option Reg
  | .bzero rd _ | .bmov rd _ | .bxor rd _ _ | .bshl rd _ _ _ | .bsetb rd _ _ _ | .bvslice rd _ _ _ | .bvcat rd _ _
  | .bvperm rd _ _ _ | .bvfromu rd _ _ | .mxfrombv rd _ _ _ | .mxtobv rd _ | .mxsub rd _ _ _ | .mxrotl rd _
  | .mxrotr rd _ | .mxmul rd _ _ | .fen rd _ | .fde rd _ | .spen rd _ | .spde rd _ => some rd
  | .nop | .csrr _ | .csrw _ _ | .inwr _ _ | .outrd _ | .tmwr _ _ | .tmrd _ | .seedset _ | .kset _ _ _ | .kexp _ _
  | .poolInit | .poolRecycle | .bgetb _ _ | .bsize _ | .bvcmp _ _ | .bvsum _ | .bvtou _ _ | .gfxtime _ | .gfmul _ _
  | .ecbe | .ecbd | .cbce | .cbcd | .cfbe | .cfbd | .ofbe | .ofbd | .ecbeMt | .ecbdMt | .cbceMt | .cbcdMt => none

/-- RS1 and RS2, for the commands that name them (R16, R60). -/
def Instr.sources : Instr → List Reg
  | .seedset r | .kset _ _ r | .kexp _ r | .bmov _ r | .bshl _ r _ _ | .bgetb r _ | .bsetb _ r _ _ | .bsize r
  | .bvslice _ r _ _ | .bvperm _ r _ _ | .bvsum r | .bvtou r _ | .mxfrombv _ r _ _ | .mxtobv _ r | .mxsub _ r _ _
  | .mxrotl _ r | .mxrotr _ r | .fen _ r | .fde _ r | .spen _ r | .spde _ r => [r]
  | .bxor _ r q | .bvcat _ r q | .bvcmp r q | .mxmul _ r q => [r, q]
  | .nop | .csrr _ | .csrw _ _ | .inwr _ _ | .outrd _ | .tmwr _ _ | .tmrd _ | .poolInit | .poolRecycle | .bzero _ _
  | .bvfromu _ _ _ | .gfxtime _ | .gfmul _ _ | .ecbe | .ecbd | .cbce | .cbcd | .cfbe | .cfbd | .ofbe | .ofbd
  | .ecbeMt | .ecbdMt | .cbceMt | .cbcdMt => []

/-- A multithreaded mode command (R142). -/
def Instr.isMt (i : Instr) : Bool := i == .ecbeMt || i == .ecbdMt || i == .cbceMt || i == .cbcdMt

/-- A mode command (R157). -/
def Instr.isMode (i : Instr) : Bool :=
  i == .ecbe || i == .ecbd || i == .cbce || i == .cbcd || i == .cfbe || i == .cfbd || i == .ofbe || i == .ofbd || i.isMt

/-- The nine commands whose result is RESP (R22). -/
def Instr.answers : Instr → Bool
  | .csrr _ | .outrd _ | .tmrd _ | .bgetb _ _ | .bsize _ | .bvcmp _ _ | .bvsum _ | .gfxtime _ | .gfmul _ _ => true
  | .nop | .csrw _ _ | .inwr _ _ | .tmwr _ _ | .seedset _ | .kset _ _ _ | .kexp _ _ | .poolInit | .poolRecycle
  | .bzero _ _ | .bmov _ _ | .bxor _ _ _ | .bshl _ _ _ _ | .bsetb _ _ _ _ | .bvslice _ _ _ _ | .bvcat _ _ _
  | .bvperm _ _ _ _ | .bvfromu _ _ _ | .bvtou _ _ | .mxfrombv _ _ _ _ | .mxtobv _ _ | .mxsub _ _ _ _ | .mxrotl _ _
  | .mxrotr _ _ | .mxmul _ _ _ | .fen _ _ | .fde _ _ | .spen _ _ | .spde _ _ | .ecbe | .ecbd | .cbce | .cbcd | .cfbe
  | .cfbd | .ofbe | .ofbd | .ecbeMt | .ecbdMt | .cbceMt | .cbcdMt => false

/-- The (CLASS, DETAIL) pairs of R154 that a command can raise after its word decodes. -/
def commandErrors : List (Nat × Nat) :=
  [(1, 0x01), (1, 0x02), (1, 0x03), (1, 0x04), (1, 0x05), (1, 0x06), (1, 0x07), (1, 0x08), (1, 0x09), (1, 0x0A),
   (1, 0x0B), (1, 0x0C), (1, 0x0D), (2, 0x01), (2, 0x02), (2, 0x03), (2, 0x04), (2, 0x05), (3, 0x01), (3, 0x02),
   (3, 0x03), (3, 0x04)]

end Sys2Proof
end

