-- ==== Sys2Proof/Certificates/Slice0/Obligations.lean ====
section
/-! DEFINITION. The statements about the model, one definition each. Where a docstring names a rule, the statement formalises
it; where it names a log entry, that part is the model's choice. The outcomes `succeedsWith`, `failsWith`, `ModeFails` and
`OutputsOnly` are those of Safety.lean: each fixes every field of the next state, so each statement is its own frame. -/

open Sys2Proof Sys2Proof.Machine

/-! ### The command word -/

/-- Words the spec prints as examples decode to the commands it prints beside them (R60 - R64). -/
def Obligations.SpecWordsDecode : Prop :=
  decode 0x0000000000000000#64 = .ok .nop ∧
  decode 0x0200000000300080#64 = .ok (.csrw 0x03 128) ∧
  decode 0x050000000000003A#64 = .ok (.tmwr 0 58) ∧
  decode 0x0802020000000000#64 = .ok (.kset .sp 0 2) ∧
  decode 0x0901000000000000#64 = .ok (.kexp .feistel 1) ∧
  decode 0x131000FFFFF00000#64 = .ok (.bshl 1 0 false (-1)) ∧
  decode 0x1310010000100000#64 = .ok (.bshl 1 0 true 1) ∧
  decode 0x15100000001000FF#64 = .ok (.bsetb 1 0 1 0xFF) ∧
  decode 0x171000000040000C#64 = .ok (.bvslice 1 0 4 12) ∧
  decode 0x2521000000000000#64 = .ok (.mxmul 2 1 0) ∧
  decode 0x2700000005700083#64 = .ok (.gfmul 0x57 0x83) ∧
  decode 0x3010000000000000#64 = .ok (.fen 1 0) ∧
  decode 0x4B00000000000000#64 = .ok .cbcdMt

/-- Decoding the word of a well-formed command gives the command back, with every operand (R59 - R63). -/
def Obligations.DecodeOfEncode : Prop :=
  ∀ i : Instr, i.wellFormed = true → decode (encode i) = .ok i

/-- A word that decodes is the word of the command it decodes to, and that command is well formed: each command has exactly
one word (R59 - R64, R66). -/
def Obligations.EncodeOfDecode : Prop :=
  ∀ (cw : Word) (i : Instr), decode cw = .ok i → i.wellFormed = true ∧ encode i = cw

/-- The match and mask columns of R63, as printed, decide which command a word is. -/
def Obligations.MaskAndMatchDecide : Prop :=
  (∀ row ∈ maskTable, ∀ cw : Word, (∃ i, decode cw = .ok i ∧ i.opcode = row.opc) ↔ cw &&& row.mask = row.mtch) ∧
  (∀ i : Instr, ∃ row ∈ maskTable, row.opc = i.opcode)

/-- R64, R65, R152: which refusal a word gets, and that a word that passes the three checks is a command of its opcode. The
undefined opcodes are exactly 0x0C-0x0F, 0x1E-0x1F, 0x28-0x2F, 0x34-0x3F and 0x4C-0xFF. -/
def Obligations.DecodeChecksInOrder : Prop :=
  ∀ cw : Word,
    (decode cw = .error .opcode ↔
      let n := (opcField cw).toNat
      (0x0C ≤ n ∧ n ≤ 0x0F) ∨ (0x1E ≤ n ∧ n ≤ 0x1F) ∨ (0x28 ≤ n ∧ n ≤ 0x2F) ∨ (0x34 ≤ n ∧ n ≤ 0x3F) ∨ 0x4C ≤ n) ∧
    (∀ row, rowOf (opcField cw) = some row →
      (cw &&& row.format.reservedMask ≠ 0#64 → decode cw = .error .reserved) ∧
      (cw &&& row.format.reservedMask = 0#64 →
        ((row.format.usesRd = true ∧ 8 ≤ (rdField cw).toNat) ∨ (row.format.usesRs1 = true ∧ 8 ≤ (rs1Field cw).toNat) ∨
          (row.format.usesRs2 = true ∧ 8 ≤ (rs2Field cw).toNat) → decode cw = .error .regIdx) ∧
        ((row.format.usesRd = true → (rdField cw).toNat < 8) ∧ (row.format.usesRs1 = true → (rs1Field cw).toNat < 8) ∧
          (row.format.usesRs2 = true → (rs2Field cw).toNat < 8) → ∃ i, decode cw = .ok i ∧ i.opcode = opcField cw)))

/-! ### The port -/

/-- A step with a command in execution and no RST, the block reset before (R170), runs the command its word decodes to. Around
it the step lets an idle port input pass and leaves a held word waiting (log 9, R172). A word that withFetchWord places is run
by the very next step (log 12). -/
def Obligations.StepRunsDecodedCommand : Prop :=
  (∀ (s : State) (cw : Word) (i : Instr), s.resetSeen = true → s.running = some cw → s.port.head? ≠ some .rst →
    decode cw = .ok i →
    step s = exec i { s with port := if s.port.head? = some .idle then s.port.tail else s.port }) ∧
  (∀ (s : State) (nbits w : Nat) (i : Instr), decodeTableWord nbits w = some i →
    ∃ rest, step (s.withFetchWord nbits w) =
      exec i { s with running := some (tableWord nbits w), port := rest, resetSeen := true })

/-- R64, R153, R156, R157: a word in execution that fails decoding completes with the record of class 4, and OUT_VALID,
OUT_LEN and OUT are as they were. -/
def Obligations.StepRecordsIllegalWord : Prop :=
  ∀ (s : State) (cw : Word) (why : Illegal), s.resetSeen = true → s.running = some cw → s.port.head? ≠ some .rst →
    decode cw = .error why →
    step s = failsWith { s with port := if s.port.head? = some .idle then s.port.tail else s.port }
      (opcField cw).toNat 4 (match why with | .opcode => 1 | .reserved => 2 | .regIdx => 3)

/-- R39, R172: a word is accepted exactly when CMD_READY = NOT BUSY is 1, acceptance sets BUSY and changes nothing else of
the block; a word held while a command executes still waits after the command completes, and then BUSY is 0. BUSY is bit 0
of the STATUS port. R168: with no command in execution and none presented the block keeps all its state. The list of coming
port inputs is the model's (log 9). -/
def Obligations.PortAcceptsWhenReady : Prop :=
  (∀ (s : State) (cw : Word) (rest : List PortInput), s.resetSeen = true → s.running = none →
    s.port = .present cw :: rest → step s = .next { s with running := some cw, port := rest }) ∧
  (∀ (s : State) (cw held : Word) (rest : List PortInput), s.resetSeen = true → s.running = some cw →
    s.port = .present held :: rest →
    ∃ t, step s = .next t ∧ t.running = none ∧ t.port = .present held :: rest) ∧
  (∀ s : State, s.cmdReady = !s.busy ∧ (s.statusPort.getLsbD 0 = true ↔ s.busy = true) ∧
    (s.busy = true ↔ s.running ≠ none)) ∧
  (∀ (s : State) (rest : List PortInput), s.running = none → s.port = .idle :: rest →
    step s = .next { s with port := rest }) ∧
  (∀ s : State, s.running = none → s.port = [] → step s = .next s)

/-- R38, R169: RST, also while a command runs, leaves every piece of state at the value the spec states for reset, and no
record of the aborted command. Every entry of the three spaces is unwritten, so a read of it is a draw. -/
def Obligations.ResetLeavesStatedValues : Prop :=
  ∀ (s : State) (rest : List PortInput), s.port = .rst :: rest →
    ∃ t, step s = .next t ∧
      (∀ r, t.readBr r = none) ∧ (∀ v ∈ t.keyF.toList, v = none) ∧ (∀ v ∈ t.keyS.toList, v = none) ∧
      t.statusPort = 0 ∧ t.running = none ∧ t.seedValid = false ∧ t.outValid = false ∧ t.err = false ∧ t.sticky = false ∧
      t.errcode = 0 ∧ t.resp = 0 ∧
      t.blockBits = 64 ∧ t.cipherSel = .noCipher ∧ t.frounds = 16 ∧ t.sprounds = 0 ∧ t.sprows = 4 ∧ t.inLen = 0 ∧
      t.outLen = 0 ∧ t.poolState = .absent ∧ t.timeoutMs = 30000 ∧ t.batchCount = 0 ∧
      (∀ sp a, (t.space sp).find a = none)

/-- Before RST has been asserted once, the block with a word presented or in execution is stuck until RST is asserted: with no
RST to come the model stops, and otherwise the next RST brings it to the state after reset, whatever stood before (R170; the
treatment is `stuck` of 93_implementation_defined.md U5, log 11). RST always gets through. -/
def Obligations.CommandBeforeResetStops : Prop :=
  (∀ (s : State) (cw : Word), s.resetSeen = false → (s.running = some cw ∨ s.port.head? = some (.present cw)) →
    (.rst ∉ s.port → step s = .fault .beforeReset) ∧
    (∀ pre rest : List PortInput, s.port = pre ++ .rst :: rest → .rst ∉ pre → ∃ t, step s = .next t ∧
      t = { State.reset with port := rest, draws := t.draws, epoch := t.epoch })) ∧
  (∀ (s : State) (rest : List PortInput), s.port = .rst :: rest → ∃ t, step s = .next t ∧ t.resetSeen = true)

/-! ### The whole machine -/

/-- The state right after reset is legal. -/
def Obligations.ResetStateIsLegal : Prop := State.reset.Legal

/-- Every step keeps the state legal: block values within R11's limits, CSRs at legal values, the spaces in canonical form
and within their sizes, OUT_VALID only over written bytes, the error record consistent, the loaded seed of BLOCK_BITS
bits. -/
def Obligations.StepKeepsLegalState : Prop :=
  ∀ s t : State, s.Legal → step s = .next t → t.Legal

/-- R153: every command completes, with BUSY = 0, and either with ERR = 0 and ERRCODE = 0, or with ERR = STICKY = 1, RESP = 0
and ERRCODE = CLASS + 256 * DETAIL + 65536 * OPC for a pair of R154. -/
def Obligations.EveryCommandCompletesWithRecord : Prop :=
  ∀ (i : Instr) (s : State), ∃ t, exec i s = .next t ∧ t.running = none ∧
    ((t.err = false ∧ t.errcode = 0) ∨
      (t.err = true ∧ t.sticky = true ∧ t.resp = 0 ∧
        ∃ p ∈ commandErrors, t.errcode = BitVec.ofNat 64 (p.1 + 256 * p.2 + 65536 * i.opcode.toNat)))

/-- R156: a failing command changes only the record, RESP, BUSY and, for a mode command, OUT_VALID, OUT_LEN and what OUT
holds. R174, last sentence: a failing command of another family leaves OUT as it was. R157, R41: a failing mode command
leaves OUT_VALID = 0 and OUT_LEN = 0, so no OUTRD that follows reads an entry; a word that fails decoding changes neither. The
draw counter is the model's own (log 3). -/
def Obligations.FailingCommandChangesOnlyRecord : Prop :=
  (∀ (i : Instr) (s t : State), exec i s = .next t → t.err = true →
    t = { s with
      err := true, sticky := true, errcode := t.errcode, resp := 0, running := none, outValid := t.outValid,
      outLen := t.outLen, outBuf := t.outBuf, draws := t.draws } ∧
    (i.isMode = false → t.outValid = s.outValid ∧ t.outLen = s.outLen ∧ t.outBuf = s.outBuf) ∧
    (i.isMode = true → t.outValid = false ∧ t.outLen = 0 ∧ ∀ idx, exec (.outrd idx) t = failsWith t 0x04 2 0x03)) ∧
  (∀ (cw : Word) (why : Illegal) (s : State), decode cw = .error why → ∃ t, runCommand cw s = .next t ∧
    t = { s with
      err := true, sticky := true, errcode := t.errcode, resp := 0, running := none, draws := t.draws })

/-- R17: a command writes no block register but its RD, and a command that succeeds and names RD leaves a value there. -/
def Obligations.OnlyNamedRegisterWritten : Prop :=
  ∀ (i : Instr) (s t : State), exec i s = .next t →
    (∀ r, i.destination ≠ some r → t.readBr r = s.readBr r) ∧
    (∀ r, i.destination = some r → t.err = false → t.readBr r ≠ none)

/-- R16, R155: a command that names an INVALID source register raises INVALID_ARGUMENT(ABSENT), before every check of its
own. A register that no command has written since reset holds INVALID: it is INVALID at reset, and stays so unless a command
names it as RD. -/
def Obligations.InvalidSourceIsAbsent : Prop :=
  (∀ (i : Instr) (s : State) (r : Reg), r ∈ i.sources → s.readBr r = none →
    exec i s = failsWith s i.opcode.toNat 1 0x01) ∧
  (∀ r : Reg, State.reset.readBr r = none) ∧
  (∀ (i : Instr) (s t : State) (r : Reg), exec i s = .next t → s.readBr r = none → i.destination ≠ some r →
    t.readBr r = none)

/-- R20, R25: STICKY is set by every failing command; only CSRW STATUS with bit 2 set clears it. R22: RESP is 0 after every
failing command and after every command but the nine that answer. -/
def Obligations.StickyAndRespRules : Prop :=
  ∀ (i : Instr) (s t : State), exec i s = .next t →
    (t.err = true → t.sticky = true) ∧
    ((∃ v, i = .csrw 0x01 v ∧ v.testBit 2 = true) → t.sticky = false) ∧
    (t.err = false → (∀ v, i = .csrw 0x01 v → v.testBit 2 = false) → t.sticky = s.sticky) ∧
    (i.answers = false ∨ t.err = true → t.resp = 0)

/-- Who writes the state that is no register named RD: IN only INWR, OUT only the mode commands and BVTOU, TMEM only TMWR
(R40 - R42); POOL_STATE the two pool commands (R30); BATCH_COUNT a multithreaded command that succeeds (R32); the key banks
KSET and KEXP (R34); SEED SEEDSET, and SEED_VALID also a write of BLOCK_BITS (R35); the configuration CSRs CSRW (R23). -/
def Obligations.StateWrittenOnlyByItsCommands : Prop :=
  ∀ (i : Instr) (s t : State), exec i s = .next t →
    ((∀ idx u, i ≠ .inwr idx u) → t.inBuf = s.inBuf) ∧
    (i.isMode = false → (∀ r base, i ≠ .bvtou r base) → t.outBuf = s.outBuf ∧ t.outLen = s.outLen ∧ t.outValid = s.outValid) ∧
    ((∀ idx e, i ≠ .tmwr idx e) → t.tmem = s.tmem) ∧
    (i ≠ .poolInit → i ≠ .poolRecycle → t.poolState = s.poolState) ∧
    (i.isMt = false ∨ t.err = true → t.batchCount = s.batchCount) ∧
    ((∀ b j r, i ≠ .kset b j r) → (∀ b r, i ≠ .kexp b r) → t.keyF = s.keyF ∧ t.keyS = s.keyS) ∧
    ((∀ r, i ≠ .seedset r) → t.seed = s.seed ∧ ((∀ v, i ≠ .csrw 0x03 v) → t.seedValid = s.seedValid)) ∧
    ((∀ c v, i ≠ .csrw c v) →
      t.blockBits = s.blockBits ∧ t.cipherSel = s.cipherSel ∧ t.frounds = s.frounds ∧ t.sprounds = s.sprounds ∧
      t.sprows = s.sprows ∧ t.inLen = s.inLen ∧ t.timeoutMs = s.timeoutMs) ∧
    t.resetSeen = s.resetSeen ∧ t.port = s.port ∧ t.epoch = s.epoch

/-! ### Control, host-port, seed and key commands -/

/-- R69, R140, R141: NOP has no effect but its completion; POOL_INIT makes the pool READY from every state; POOL_RECYCLE
shuts down a pool that exists and leaves an ABSENT one. -/
def Obligations.NopAndPoolCommands : Prop :=
  ∀ s : State,
    exec .nop s = succeedsWith s 0 ∧
    exec .poolInit s = succeedsWith { s with poolState := .ready } 0 ∧
    (s.poolState = .absent → exec .poolRecycle s = succeedsWith s 0) ∧
    (s.poolState ≠ .absent → exec .poolRecycle s = succeedsWith { s with poolState := .shutdown } 0)

/-- R70, R23, R24, R33: CSRR answers the register of each number of the map, STATUS as the previous command left it with
BUSY = 0, and refuses every other number with CSRNUM. -/
def Obligations.CsrrReadsEveryRegister : Prop :=
  ∀ s : State,
    exec (.csrr 0x00) s = succeedsWith s 0x000000004B454E43 ∧
    exec (.csrr 0x01) s = succeedsWith s
      ((if s.err then 2 else 0) + (if s.sticky then 4 else 0) + (if s.outValid then 8 else 0) +
        (if s.seedValid then 16 else 0)) ∧
    exec (.csrr 0x02) s = succeedsWith s s.errcode ∧
    exec (.csrr 0x03) s = succeedsWith s s.blockBits ∧
    exec (.csrr 0x04) s = succeedsWith s
      (match s.cipherSel with | .noCipher => 0 | .feistel => 1 | .sp => 2 | .external => 3 | .identity => 4) ∧
    exec (.csrr 0x05) s = succeedsWith s s.frounds ∧
    exec (.csrr 0x06) s = succeedsWith s s.sprounds ∧
    exec (.csrr 0x07) s = succeedsWith s s.sprows ∧
    exec (.csrr 0x08) s = succeedsWith s s.inLen ∧
    exec (.csrr 0x09) s = succeedsWith s s.outLen ∧
    exec (.csrr 0x0A) s = succeedsWith s (match s.poolState with | .absent => 0 | .ready => 1 | .shutdown => 2) ∧
    exec (.csrr 0x0B) s = succeedsWith s s.timeoutMs ∧
    exec (.csrr 0x0C) s = succeedsWith s s.batchCount ∧
    exec (.csrr 0x10) s = succeedsWith s 10 ∧
    exec (.csrr 0x11) s = succeedsWith s 1500 ∧
    exec (.csrr 0x12) s = succeedsWith s 128 ∧
    exec (.csrr 0x13) s = succeedsWith s 8 ∧
    exec (.csrr 0x14) s = succeedsWith s 8192 ∧
    exec (.csrr 0x15) s = succeedsWith s 4096 ∧
    exec (.csrr 0x16) s = succeedsWith s 65536 ∧
    exec (.csrr 0x17) s = succeedsWith s 8 ∧
    exec (.csrr 0x18) s = succeedsWith s 64 ∧
    exec (.csrr 0x19) s = succeedsWith s 65 ∧
    (∀ c, (0x0D ≤ c ∧ c ≤ 0x0F) ∨ 0x1A ≤ c → exec (.csrr c) s = failsWith s 0x01 1 0x0C)

/-- R71, R25 - R29, R31: CSRW of a legal value writes the register and nothing else, but for SEED_VALID when it is
BLOCK_BITS; of STATUS, it clears STICKY if bit 2 is set. It refuses a reserved number with CSRNUM, a read-only register with
READONLY, whatever the value, and a value outside a register's legal values with CONFIG (R23). -/
def Obligations.CsrwWritesOrRefuses : Prop :=
  ∀ (s : State) (v : Nat),
    (v.testBit 2 = true → exec (.csrw 0x01 v) s = succeedsWith { s with sticky := false } 0) ∧
    (v.testBit 2 = false → exec (.csrw 0x01 v) s = succeedsWith s 0) ∧
    (8 ≤ v ∧ v ≤ 512 ∧ v % 8 = 0 →
      exec (.csrw 0x03 v) s = succeedsWith { s with blockBits := BitVec.ofNat 64 v, seedValid := false } 0) ∧
    exec (.csrw 0x04 0) s = succeedsWith { s with cipherSel := .noCipher } 0 ∧
    exec (.csrw 0x04 1) s = succeedsWith { s with cipherSel := .feistel } 0 ∧
    exec (.csrw 0x04 2) s = succeedsWith { s with cipherSel := .sp } 0 ∧
    exec (.csrw 0x04 3) s = succeedsWith { s with cipherSel := .external } 0 ∧
    exec (.csrw 0x04 4) s = succeedsWith { s with cipherSel := .identity } 0 ∧
    (v ≤ 64 → exec (.csrw 0x05 v) s = succeedsWith { s with frounds := BitVec.ofNat 64 v } 0) ∧
    (v ≤ 64 → exec (.csrw 0x06 v) s = succeedsWith { s with sprounds := BitVec.ofNat 64 v } 0) ∧
    (1 ≤ v ∧ v ≤ 64 → exec (.csrw 0x07 v) s = succeedsWith { s with sprows := BitVec.ofNat 64 v } 0) ∧
    (v ≤ 8192 → exec (.csrw 0x08 v) s = succeedsWith { s with inLen := BitVec.ofNat 64 v } 0) ∧
    (1 ≤ v ∧ v ≤ 1048575 → exec (.csrw 0x0B v) s = succeedsWith { s with timeoutMs := BitVec.ofNat 64 v } 0) ∧
    (∀ c, (0x0D ≤ c ∧ c ≤ 0x0F) ∨ 0x1A ≤ c → exec (.csrw c v) s = failsWith s 0x02 1 0x0C) ∧
    (∀ c, c = 0x00 ∨ c = 0x02 ∨ c = 0x09 ∨ c = 0x0A ∨ c = 0x0C ∨ (0x10 ≤ c ∧ c ≤ 0x19) →
      exec (.csrw c v) s = failsWith s 0x02 1 0x0D) ∧
    (v < 8 ∨ 512 < v ∨ v % 8 ≠ 0 → exec (.csrw 0x03 v) s = failsWith s 0x02 1 0x09) ∧
    (5 ≤ v → exec (.csrw 0x04 v) s = failsWith s 0x02 1 0x09) ∧
    (64 < v → exec (.csrw 0x05 v) s = failsWith s 0x02 1 0x09 ∧ exec (.csrw 0x06 v) s = failsWith s 0x02 1 0x09) ∧
    (v = 0 ∨ 64 < v → exec (.csrw 0x07 v) s = failsWith s 0x02 1 0x09) ∧
    (8192 < v → exec (.csrw 0x08 v) s = failsWith s 0x02 1 0x09) ∧
    (v = 0 ∨ 1048575 < v → exec (.csrw 0x0B v) s = failsWith s 0x02 1 0x09)

/-- R72, R74, R43: INWR and TMWR store one entry, every other entry reads as before, and an index beyond the space is
refused. -/
def Obligations.EntryWrites : Prop :=
  ∀ (s : State) (idx : Nat) (u : CodeUnit),
    (idx < 8192 → ∃ m : Memory, exec (.inwr idx u) s = succeedsWith { s with inBuf := m } 0 ∧
      ∀ a, m.find a = if a = idx then some u else s.inBuf.find a) ∧
    (8192 ≤ idx → exec (.inwr idx u) s = failsWith s 0x03 2 0x03) ∧
    (idx < 4096 → ∃ m : Memory, exec (.tmwr idx u) s = succeedsWith { s with tmem := m } 0 ∧
      ∀ a, m.find a = if a = idx then some u else s.tmem.find a) ∧
    (4096 ≤ idx → exec (.tmwr idx u) s = failsWith s 0x05 2 0x04)

/-- R73, R75, R41, R43: OUTRD and TMRD answer the entry, zero-extended: the entry last written, or a free 16-bit value where
none was written since reset; OUTRD refuses an index no valid result covers, TMRD one beyond TMEM. The value of an unwritten
entry is fixed until the entry is written: whatever command runs, an entry written neither before nor by it reads the same
after (93_implementation_defined.md U1, log 2). -/
def Obligations.EntryReads : Prop :=
  (∀ (s : State) (idx : Nat),
    (s.outValid = true → idx < s.outLen.toNat → exec (.outrd idx) s = succeedsWith s ((s.entry .output idx).setWidth 64)) ∧
    (s.outValid = false ∨ s.outLen.toNat ≤ idx → exec (.outrd idx) s = failsWith s 0x04 2 0x03) ∧
    (idx < 4096 → exec (.tmrd idx) s = succeedsWith s ((s.entry .table idx).setWidth 64)) ∧
    (4096 ≤ idx → exec (.tmrd idx) s = failsWith s 0x06 2 0x04)) ∧
  (∀ (s : State) (sp : Space) (a : Nat) (u : CodeUnit), (s.space sp).find a = some u → s.entry sp a = u) ∧
  (∀ (i : Instr) (s t : State) (sp : Space) (a : Nat), exec i s = .next t → (s.space sp).find a = none →
    (t.space sp).find a = none → t.entry sp a = s.entry sp a)

/-- R76: SEEDSET loads BLOCK_BITS bits, bit i the source's flat bit i mod its length. -/
def Obligations.SeedsetRepeatsTheSource : Prop :=
  ∀ (s : State) (rs1 : Reg) (v : BlockVal), s.readBr rs1 = some v →
    ∃ t : Bits, exec (.seedset rs1) s = succeedsWith { s with seed := t, seedValid := true } 0 ∧
      t.length = s.blockBits.toNat ∧ ∀ i, i < s.blockBits.toNat → bitAt t i = bitAt (flat v) (i % blockLen v)

/-- R77: KSET stores the source in the entry of the bank it names; an index beyond the bank is refused with KEYIDX. -/
def Obligations.KsetStoresOneKey : Prop :=
  ∀ (s : State) (j : Nat) (rs1 : Reg) (v : BlockVal), s.readBr rs1 = some v →
    (∀ h : j < 64, exec (.kset .feistel j rs1) s = succeedsWith { s with keyF := s.keyF.set j (some v) h } 0) ∧
    (64 ≤ j → exec (.kset .feistel j rs1) s = failsWith s 0x08 2 0x05) ∧
    (∀ h : j < 65, exec (.kset .sp j rs1) s = succeedsWith { s with keyS := s.keyS.set j (some v) h } 0) ∧
    (65 ≤ j → exec (.kset .sp j rs1) s = failsWith s 0x08 2 0x05)

/-- R78: KEXP stores the key schedule's FROUNDS values in K_F, or its SPROUNDS + 1 values in K_S, and leaves the entries above
unchanged. The schedules are the block's own ports (R8, log 4). -/
def Obligations.KexpFillsTheBank : Prop :=
  ∀ (s : State) (rs1 : Reg) (v : BlockVal), s.readBr rs1 = some v →
    (∃ ks : Vector RegVal 64, exec (.kexp .feistel rs1) s = succeedsWith { s with keyF := ks } 0 ∧
      ∀ (j : Nat) (h : j < 64), ks[j] =
        if j < s.frounds.toNat then some (Config.keysF v s.frounds.toNat j).val else s.keyF[j]) ∧
    (∃ ks : Vector RegVal 65, exec (.kexp .sp rs1) s = succeedsWith { s with keyS := ks } 0 ∧
      ∀ (j : Nat) (h : j < 65), ks[j] =
        if j ≤ s.sprounds.toNat then some (Config.keysSp v (s.sprounds.toNat + 1) j).val else s.keyS[j])

/-! ### Block capability and bit-vector commands -/

/-- R81, R82: BZERO makes a zero vector of 1 .. 65536 bits and refuses another length; BMOV copies a block value. -/
def Obligations.BzeroAndBmov : Prop :=
  ∀ (s : State) (rd rs1 : Reg) (len : Nat),
    (1 ≤ len → len ≤ 65536 → exec (.bzero rd len) s =
      succeedsWith { s with br := s.br.set rd.val (some (.bv (List.replicate len false))) rd.isLt } 0) ∧
    (len = 0 ∨ 65536 < len → exec (.bzero rd len) s = failsWith s 0x10 1 0x0B) ∧
    (∀ v, s.readBr rs1 = some v → exec (.bmov rd rs1) s =
      succeedsWith { s with br := s.br.set rd.val (some v) rd.isLt } 0)

/-- R83, R79, R99: BXOR of equal shapes gives a value of that shape whose every flat bit is the XOR of the operands' bits;
other shapes mismatch. The operands are legal block values (R11). -/
def Obligations.BxorOfEqualShapes : Prop :=
  ∀ (s : State) (rd rs1 rs2 : Reg) (a b : BlockVal), s.readBr rs1 = some a → s.readBr rs2 = some b →
    (a.legal = true → b.legal = true → shape a = shape b →
      ∃ v, exec (.bxor rd rs1 rs2) s = succeedsWith { s with br := s.br.set rd.val (some v) rd.isLt } 0 ∧
        shape v = shape a ∧ blockLen v = blockLen a ∧
        ∀ i, bitAt (flat v) i = (bitAt (flat a) i ^^ bitAt (flat b) i)) ∧
    (shape a ≠ shape b → exec (.bxor rd rs1 rs2) s = failsWith s 0x12 1 0x02)

/-- R84, R79: BSHL moves the flat bits towards position 0 by n, zero-filling or rotating, keeps kind and shape, and refuses a
negative amount. -/
def Obligations.BshlShiftsTheFlatBits : Prop :=
  ∀ (s : State) (rd rs1 : Reg) (loop : Bool) (n : Int) (a : BlockVal), s.readBr rs1 = some a →
    (0 ≤ n → ∃ v, exec (.bshl rd rs1 loop n) s = succeedsWith { s with br := s.br.set rd.val (some v) rd.isLt } 0 ∧
      shape v = shape a ∧ blockLen v = blockLen a ∧
      ∀ i, i < blockLen a → bitAt (flat v) i =
        if loop = true then bitAt (flat a) ((i + n.toNat) % blockLen a)
        else if i + n.toNat < blockLen a then bitAt (flat a) (i + n.toNat) else false) ∧
    (n < 0 → exec (.bshl rd rs1 loop n) s = failsWith s 0x13 1 0x03)

/-- R85, R86, R87, R45: BGETB answers the p-th byte, positions from 1 and most significant bit first; BSETB replaces it and
keeps kind, shape and every other bit; both refuse a position outside 1 .. len div 8. BSIZE answers the byte length and the
bit length of a legal block value. -/
def Obligations.ByteAccessAndSize : Prop :=
  ∀ (s : State) (rd rs1 : Reg) (pos : Nat) (x : Byte) (a : BlockVal), s.readBr rs1 = some a →
    (1 ≤ pos ∧ pos ≤ blockLen a / 8 →
      (∃ b : Byte, exec (.bgetb rs1 pos) s = succeedsWith s (b.setWidth 64) ∧
        ∀ k, k < 8 → b.getMsbD k = bitAt (flat a) (8 * (pos - 1) + k)) ∧
      (∃ v, exec (.bsetb rd rs1 pos x) s = succeedsWith { s with br := s.br.set rd.val (some v) rd.isLt } 0 ∧
        shape v = shape a ∧ blockLen v = blockLen a ∧
        ∀ i, bitAt (flat v) i =
          if 8 * (pos - 1) ≤ i ∧ i < 8 * pos then x.getMsbD (i - 8 * (pos - 1)) else bitAt (flat a) i)) ∧
    (pos = 0 ∨ blockLen a / 8 < pos →
      exec (.bgetb rs1 pos) s = failsWith s 0x14 2 0x02 ∧ exec (.bsetb rd rs1 pos x) s = failsWith s 0x15 2 0x02) ∧
    (a.legal = true →
      exec (.bsize rs1) s = succeedsWith s (BitVec.ofNat 64 (blockLen a / 8 * 2 ^ 32 + blockLen a)))

/-- R79, R154: which operand kinds are refused with KIND, all sources holding a value: an MX where a BV is needed, a BV where
an MX is needed. -/
def Obligations.WrongKindRefused : Prop :=
  ∀ (s : State) (rd rs1 rs2 : Reg) (a b : BlockVal), s.readBr rs1 = some a → s.readBr rs2 = some b →
    ((∃ m, a = .mx m) →
      (∀ lo hi, exec (.bvslice rd rs1 lo hi) s = failsWith s 0x17 1 0x08) ∧
      (∀ tb n, exec (.bvperm rd rs1 tb n) s = failsWith s 0x19 1 0x08) ∧
      exec (.bvsum rs1) s = failsWith s 0x1B 1 0x08 ∧
      (∀ r c, exec (.mxfrombv rd rs1 r c) s = failsWith s 0x20 1 0x08)) ∧
    ((∃ m, a = .mx m) ∨ (∃ m, b = .mx m) →
      exec (.bvcat rd rs1 rs2) s = failsWith s 0x18 1 0x08 ∧ exec (.bvcmp rs1 rs2) s = failsWith s 0x1A 1 0x08) ∧
    ((∃ x, a = .bv x) →
      exec (.mxtobv rd rs1) s = failsWith s 0x21 1 0x08 ∧
      (∀ tb n, exec (.mxsub rd rs1 tb n) s = failsWith s 0x22 1 0x08) ∧
      exec (.mxrotl rd rs1) s = failsWith s 0x23 1 0x08 ∧ exec (.mxrotr rd rs1) s = failsWith s 0x24 1 0x08) ∧
    ((∃ x, a = .bv x) ∨ (∃ x, b = .bv x) → exec (.mxmul rd rs1 rs2) s = failsWith s 0x25 1 0x08)

/-- R88, R89: BVSLICE takes the bits from .. to - 1 and refuses a slice outside the vector or empty; BVCAT appends RS2 to RS1
and refuses more than 65536 bits. -/
def Obligations.SliceAndConcatenate : Prop :=
  ∀ (s : State) (rd rs1 rs2 : Reg) (lo hi : Int) (x y : Bits), s.readBr rs1 = some (.bv x) → s.readBr rs2 = some (.bv y) →
    (0 ≤ lo → hi ≤ x.length → lo < hi → ∃ t : Bits,
      exec (.bvslice rd rs1 lo hi) s = succeedsWith { s with br := s.br.set rd.val (some (.bv t)) rd.isLt } 0 ∧
        (t.length : Int) = hi - lo ∧ ∀ i, i < t.length → bitAt t i = bitAt x (lo.toNat + i)) ∧
    (lo < 0 ∨ (x.length : Int) < hi ∨ hi ≤ lo → exec (.bvslice rd rs1 lo hi) s = failsWith s 0x17 2 0x01) ∧
    (x.length + y.length ≤ 65536 →
      exec (.bvcat rd rs1 rs2) s = succeedsWith { s with br := s.br.set rd.val (some (.bv (x ++ y))) rd.isLt } 0) ∧
    (65536 < x.length + y.length → exec (.bvcat rd rs1 rs2) s = failsWith s 0x18 1 0x0B)

/-- R90, R155: BVPERM refuses an empty table, then a range beyond TMEM, then an entry outside 1 .. len; else output bit i is
the input bit the table's entry i names, counted from 1. -/
def Obligations.BvpermFollowsTheTable : Prop :=
  ∀ (s : State) (rd rs1 : Reg) (tb n : Nat) (x : Bits), s.readBr rs1 = some (.bv x) →
    (n = 0 → exec (.bvperm rd rs1 tb n) s = failsWith s 0x19 1 0x06) ∧
    (1 ≤ n → 4096 < tb + n → exec (.bvperm rd rs1 tb n) s = failsWith s 0x19 2 0x04) ∧
    (1 ≤ n → tb + n ≤ 4096 →
      ((∃ i, i < n ∧ ((s.entry .table (tb + i)).toNat = 0 ∨ x.length < (s.entry .table (tb + i)).toNat)) →
        exec (.bvperm rd rs1 tb n) s = failsWith s 0x19 1 0x06) ∧
      ((∀ i, i < n → 1 ≤ (s.entry .table (tb + i)).toNat ∧ (s.entry .table (tb + i)).toNat ≤ x.length) →
        ∃ t : Bits,
          exec (.bvperm rd rs1 tb n) s = succeedsWith { s with br := s.br.set rd.val (some (.bv t)) rd.isLt } 0 ∧
          t.length = n ∧ ∀ i, i < n → bitAt t i = bitAt x ((s.entry .table (tb + i)).toNat - 1)))

/-- R91: with the tables of the spec, permuting by IP and then by IPR gives every 64-bit vector back, and the other way
round. -/
def Obligations.IpTablesAreInverse : Prop :=
  ∀ x : Bits, x.length = 64 → permute iprTable (permute ipTable x) = x ∧ permute ipTable (permute iprTable x) = x

/-- R92, R93: BVCMP answers 1, 0 or all ones by the unsigned big-endian value and then by the length; it answers 0 exactly on
identical bit patterns, and the exchanged command answers the negative. BVSUM answers the value modulo 2^64, here computed
bit by bit from the first. -/
def Obligations.CompareAndSum : Prop :=
  ∀ (s : State) (rs1 rs2 : Reg) (x y : Bits), s.readBr rs1 = some (.bv x) → s.readBr rs2 = some (.bv y) →
    (∃ r : Word, exec (.bvcmp rs1 rs2) s = succeedsWith s r ∧ exec (.bvcmp rs2 rs1) s = succeedsWith s (-r) ∧
      (r = 1 ∨ r = 0 ∨ r = 0xFFFFFFFFFFFFFFFF) ∧ (r = 0 ↔ x = y) ∧
      (r = 1 ↔ value y < value x ∨ (value x = value y ∧ y.length < x.length))) ∧
    exec (.bvsum rs1) s = succeedsWith s (BitVec.ofNat 64 (x.foldl (fun n b => 2 * n + b.toNat) 0))

/-- R94, R46, R155: BVFROMU refuses a count of 0 or of more than 65536 bits, then a range beyond IN, then a unit above 0xFF;
else unit k gives bits 8k .. 8k+7, most significant first. -/
def Obligations.BvfromuPacksUnits : Prop :=
  ∀ (s : State) (rd : Reg) (base n : Nat),
    (n = 0 ∨ 65536 < 8 * n → exec (.bvfromu rd base n) s = failsWith s 0x1C 1 0x0B) ∧
    (1 ≤ n → 8 * n ≤ 65536 → 8192 < base + n → exec (.bvfromu rd base n) s = failsWith s 0x1C 2 0x03) ∧
    (1 ≤ n → 8 * n ≤ 65536 → base + n ≤ 8192 →
      ((∃ k, k < n ∧ 0xFF < (s.entry .input (base + k)).toNat) → exec (.bvfromu rd base n) s = failsWith s 0x1C 1 0x0A) ∧
      ((∀ k, k < n → (s.entry .input (base + k)).toNat ≤ 0xFF) → ∃ t : Bits,
        exec (.bvfromu rd base n) s = succeedsWith { s with br := s.br.set rd.val (some (.bv t)) rd.isLt } 0 ∧
        t.length = 8 * n ∧
        ∀ i, i < 8 * n → bitAt t i = (s.entry .input (base + i / 8)).getLsbD (7 - i % 8)))

/-- R95, R47, R155: BVTOU refuses a length that is no multiple of 8, then a base that would leave a hole or a range beyond
OUT; else it writes the block's bytes from the base on and nothing else of OUT, sets OUT_LEN to the larger of its old value
and the end of the write, and OUT_VALID. -/
def Obligations.BvtouUnpacksToOut : Prop :=
  ∀ (s : State) (rs1 : Reg) (base : Nat) (a : BlockVal), s.readBr rs1 = some a →
    let cur := if s.outValid = true then s.outLen.toNat else 0
    let m := blockLen a / 8
    (blockLen a % 8 ≠ 0 → exec (.bvtou rs1 base) s = failsWith s 0x1D 1 0x0B) ∧
    (blockLen a % 8 = 0 → cur < base ∨ 8192 < base + m → exec (.bvtou rs1 base) s = failsWith s 0x1D 2 0x03) ∧
    (blockLen a % 8 = 0 → base ≤ cur → base + m ≤ 8192 → ∃ out : Memory,
      exec (.bvtou rs1 base) s =
        succeedsWith { s with outBuf := out, outLen := BitVec.ofNat 64 (max cur (base + m)), outValid := true } 0 ∧
      ∀ i, out.find i =
        if base ≤ i ∧ i < base + m then some ((byteOf (flat a) (i - base + 1)).setWidth 16) else s.outBuf.find i)

/-- R47: unpack gives the bytes of the bit string in order, each zero-extended to a unit, and the codec's two directions
undo each other (pack: R46). -/
def Obligations.CodecRoundTrip : Prop :=
  (∀ x : Bits, x.length % 8 = 0 → (unpackBits x).length = x.length / 8 ∧
    ∀ k, 1 ≤ k → k ≤ x.length / 8 → (unpackBits x)[k - 1]? = some ((byteOf x k).setWidth 16)) ∧
  (∀ us : List CodeUnit, (∀ u ∈ us, u.toNat ≤ 0xFF) → unpackBits (packUnits us) = us) ∧
  (∀ x : Bits, x.length % 8 = 0 → packUnits (unpackBits x) = x)

/-! ### Byte matrix and GF(2^8) commands -/

/-- R102, R103, R45: MXFROMBV views the vector column by column, byte 1 + r + c * rows the element (r, c), and keeps the flat
bits; it refuses dimensions outside 1 .. 64 and a length that is not 8 * rows * cols. MXTOBV gives the flat bits. -/
def Obligations.MatrixViewsOfVectors : Prop :=
  ∀ (s : State) (rd rs1 : Reg),
    (∀ (rows cols : Nat) (x : Bits), s.readBr rs1 = some (.bv x) →
      (rows = 0 ∨ 64 < rows ∨ cols = 0 ∨ 64 < cols ∨ x.length ≠ 8 * rows * cols →
        exec (.mxfrombv rd rs1 rows cols) s = failsWith s 0x20 1 0x0B) ∧
      (1 ≤ rows → rows ≤ 64 → 1 ≤ cols → cols ≤ 64 → x.length = 8 * rows * cols → ∃ m : ByteMatrix,
        exec (.mxfrombv rd rs1 rows cols) s = succeedsWith { s with br := s.br.set rd.val (some (.mx m)) rd.isLt } 0 ∧
        m.rows = rows ∧ m.cols = cols ∧ m.bytes.length = rows * cols ∧ flat (.mx m) = x ∧
        ∀ r c, r < rows → c < cols → elem m r c = byteOf x (1 + r + c * rows))) ∧
    (∀ m, s.readBr rs1 = some (.mx m) →
      exec (.mxtobv rd rs1) s = succeedsWith { s with br := s.br.set rd.val (some (.bv (flat (.mx m)))) rd.isLt } 0)

/-- R104, R155: MXSUB refuses a table shorter than 256, then a range beyond TMEM, then an entry above 0xFF among the first
256; else every byte goes through the table and the shape stays. -/
def Obligations.MxsubSubstitutesBytes : Prop :=
  ∀ (s : State) (rd rs1 : Reg) (tb n : Nat) (m : ByteMatrix), s.readBr rs1 = some (.mx m) →
    (n < 256 → exec (.mxsub rd rs1 tb n) s = failsWith s 0x22 1 0x06) ∧
    (256 ≤ n → 4096 < tb + n → exec (.mxsub rd rs1 tb n) s = failsWith s 0x22 2 0x04) ∧
    (256 ≤ n → tb + n ≤ 4096 →
      ((∃ i, i < 256 ∧ 0xFF < (s.entry .table (tb + i)).toNat) → exec (.mxsub rd rs1 tb n) s = failsWith s 0x22 1 0x06) ∧
      ((∀ i, i < 256 → (s.entry .table (tb + i)).toNat ≤ 0xFF) → ∃ t : ByteMatrix,
        exec (.mxsub rd rs1 tb n) s = succeedsWith { s with br := s.br.set rd.val (some (.mx t)) rd.isLt } 0 ∧
        t.rows = m.rows ∧ t.cols = m.cols ∧ t.bytes.length = m.bytes.length ∧
        ∀ (k : Nat) (h : k < m.bytes.length) (h' : k < t.bytes.length),
          t.bytes[k].toNat = (s.entry .table (tb + m.bytes[k].toNat)).toNat))

/-- R105, R106: MXROTL moves row r left by r positions, MXROTR moves it right by r; the shape stays. -/
def Obligations.RowRotations : Prop :=
  ∀ (s : State) (rd rs1 : Reg) (m : ByteMatrix), s.readBr rs1 = some (.mx m) →
    (∃ t : ByteMatrix,
      exec (.mxrotl rd rs1) s = succeedsWith { s with br := s.br.set rd.val (some (.mx t)) rd.isLt } 0 ∧
      t.rows = m.rows ∧ t.cols = m.cols ∧ t.bytes.length = m.rows * m.cols ∧
      ∀ r c, r < m.rows → c < m.cols → elem t r c = elem m r ((c + r) % m.cols)) ∧
    (∃ t : ByteMatrix,
      exec (.mxrotr rd rs1) s = succeedsWith { s with br := s.br.set rd.val (some (.mx t)) rd.isLt } 0 ∧
      t.rows = m.rows ∧ t.cols = m.cols ∧ t.bytes.length = m.rows * m.cols ∧
      ∀ r c, r < m.rows → c < m.cols → elem t r ((c + r) % m.cols) = elem m r c)

/-- R107: MXMUL gives the product of the factor RS1 and the state RS2, and refuses shapes that do not fit. -/
def Obligations.MxmulIsTheProduct : Prop :=
  ∀ (s : State) (rd rs1 rs2 : Reg) (f m : ByteMatrix), s.readBr rs1 = some (.mx f) → s.readBr rs2 = some (.mx m) →
    (f.cols = m.rows → ∃ t : ByteMatrix,
      exec (.mxmul rd rs1 rs2) s = succeedsWith { s with br := s.br.set rd.val (some (.mx t)) rd.isLt } 0 ∧
      t.rows = f.rows ∧ t.cols = m.cols ∧ t.bytes.length = f.rows * m.cols ∧
      ∀ r c, r < f.rows → c < m.cols →
        elem t r c = (List.range f.cols).foldl (fun acc k => acc ^^^ gmul (elem f r k) (elem m k c)) 0) ∧
    (f.cols ≠ m.rows → exec (.mxmul rd rs1 rs2) s = failsWith s 0x25 1 0x02)

/-- R105 - R107, R100: rotating left and then right, or right and then left, gives every legal matrix back; the identity
factor returns every legal state; the diffusion matrix of the spec gives each column's first element as 2 a + 3 b + c + d in
GF(2^8). -/
def Obligations.MatrixLaws : Prop :=
  (∀ m : ByteMatrix, (BlockVal.mx m).legal = true →
    rotateRowsRight (rotateRowsLeft m) = m ∧ rotateRowsLeft (rotateRowsRight m) = m ∧
    matMul (identityMatrix m.rows) m = m) ∧
  (∀ (m : ByteMatrix) (c : Nat), m.rows = 4 → c < m.cols →
    elem (matMul mixColumnsMatrix m) 0 c =
      xtime (elem m 0 c) ^^^ xtime (elem m 1 c) ^^^ elem m 1 c ^^^ elem m 2 c ^^^ elem m 3 c)

/-- R108, R109, R97: GFXTIME answers the doubled byte, reduced by 0x1B where the high bit was 1; GFMUL answers the product,
for instance 0x57 * 0x83 = 0xC1. -/
def Obligations.ScalarGfCommands : Prop :=
  ∀ (s : State) (a b : Byte),
    exec (.gfxtime a) s = succeedsWith s
      (BitVec.ofNat 64 (if a.toNat < 0x80 then 2 * a.toNat else (2 * a.toNat - 256) ^^^ 0x1B)) ∧
    exec (.gfmul a b) s = succeedsWith s ((gmul a b).setWidth 64) ∧
    exec (.gfmul 0x57 0x83) s = succeedsWith s 0xC1

/-- R97, R98, R101: doubling is 2x mod 256, XOR 0x1B where the high bit was 1, and is linear; multiplication is the XOR of
the doublings of `a` that the bits of `b` select, is commutative, has 1 as unit and 0 as zero, distributes over XOR, and
multiplying by 2 is doubling; eight doublings multiply by 0x1B, and a nonzero byte first returns to itself after exactly 51
doublings. -/
def Obligations.GfFieldLaws : Prop :=
  (∀ x, (xtime x).toNat = (2 * x.toNat % 256) ^^^ (if 0x80 ≤ x.toNat then 0x1B else 0)) ∧
  xtime 0 = 0 ∧ (∀ a b, xtime (a ^^^ b) = xtime a ^^^ xtime b) ∧
  (∀ a b, gmul a b =
    (List.range 8).foldl (fun acc i => if b.getLsbD i = true then acc ^^^ xtimePow i a else acc) 0) ∧
  (∀ a b, gmul a b = gmul b a) ∧ (∀ b, gmul 1 b = b) ∧ (∀ b, gmul 0 b = 0) ∧
  (∀ a b c, gmul a (b ^^^ c) = gmul a b ^^^ gmul a c) ∧ (∀ a, gmul a 2 = xtime a) ∧
  (∀ x : Byte, xtimePow 8 x = gmul x 0x1B) ∧
  (∀ x : Byte, x ≠ 0 → xtimePow 51 x = x ∧ ∀ n, 0 < n → n < 51 → xtimePow n x ≠ x)

/-! ### Structures -/

/-- R111, R114, R115, R155: FEN and FDE refuse a missing key among K_F[0 .. FROUNDS-1], then an MX, then a width that is odd
or not BLOCK_BITS; else they write the vector R112 gives, or refuse with MISMATCH where the round function's result has the
wrong size. With FROUNDS = 0 they copy. -/
def Obligations.FeistelCommands : Prop :=
  ∀ (s : State) (rd rs1 : Reg) (a : BlockVal), s.readBr rs1 = some a →
    (none ∈ s.keyF.toList.take s.frounds.toNat →
      exec (.fen rd rs1) s = failsWith s 0x30 1 0x01 ∧ exec (.fde rd rs1) s = failsWith s 0x31 1 0x01) ∧
    (∀ keys : List BlockVal, s.keyF.toList.take s.frounds.toNat = keys.map some →
      (∀ m, a = .mx m → exec (.fen rd rs1) s = failsWith s 0x30 1 0x08 ∧ exec (.fde rd rs1) s = failsWith s 0x31 1 0x08) ∧
      (∀ x, a = .bv x →
        (x.length % 2 ≠ 0 ∨ x.length ≠ s.blockBits.toNat →
          exec (.fen rd rs1) s = failsWith s 0x30 1 0x07 ∧ exec (.fde rd rs1) s = failsWith s 0x31 1 0x07) ∧
        (x.length % 2 = 0 → x.length = s.blockBits.toNat →
          exec (.fen rd rs1) s = (match feistelEnc Config.ports keys x with
            | .ok t => succeedsWith { s with br := s.br.set rd.val (some (.bv t)) rd.isLt } 0
            | .error _ => failsWith s 0x30 1 0x02) ∧
          exec (.fde rd rs1) s = (match feistelDec Config.ports keys x with
            | .ok t => succeedsWith { s with br := s.br.set rd.val (some (.bv t)) rd.isLt } 0
            | .error _ => failsWith s 0x31 1 0x02) ∧
          (s.frounds.toNat = 0 →
            exec (.fen rd rs1) s = succeedsWith { s with br := s.br.set rd.val (some (.bv x)) rd.isLt } 0 ∧
            exec (.fde rd rs1) s = succeedsWith { s with br := s.br.set rd.val (some (.bv x)) rd.isLt } 0))))

/-- R113, R115: decryption undoes encryption and encryption undoes decryption, whatever the round function, for every key
list and every even vector on which no error is raised; with no round both are the identity. FDE after FEN of the same state
returns the original block. -/
def Obligations.FeistelInvolution : Prop :=
  (∀ (p : Ports) (keys : List BlockVal) (x y : Bits), x.length % 2 = 0 →
    (feistelEnc p keys x = .ok y → feistelDec p keys y = .ok x) ∧
    (feistelDec p keys x = .ok y → feistelEnc p keys y = .ok x) ∧
    (keys = [] → feistelEnc p keys x = .ok x ∧ feistelDec p keys x = .ok x)) ∧
  (∀ (s t : State) (rd rs1 rd' : Reg), exec (.fen rd rs1) s = .next t → t.err = false →
    ∃ u, exec (.fde rd' rd) t = .next u ∧ u.err = false ∧ u.readBr rd' = s.readBr rs1)

/-- R117, R120, R121, R155: SPEN and SPDE refuse a missing key among K_S[0 .. SPROUNDS], then a BV, then rows that are not
SPROWS or a length that is not BLOCK_BITS, then a key of another shape; else they write what R118 gives, or refuse with
MISMATCH where a layer's result has another shape. With SPROUNDS = 0 both give x xor K_S[0]. -/
def Obligations.SpCommands : Prop :=
  ∀ (s : State) (rd rs1 : Reg) (a : BlockVal), s.readBr rs1 = some a →
    (none ∈ s.keyS.toList.take (s.sprounds.toNat + 1) →
      exec (.spen rd rs1) s = failsWith s 0x32 1 0x01 ∧ exec (.spde rd rs1) s = failsWith s 0x33 1 0x01) ∧
    (∀ keys : List BlockVal, s.keyS.toList.take (s.sprounds.toNat + 1) = keys.map some →
      (∀ x, a = .bv x → exec (.spen rd rs1) s = failsWith s 0x32 1 0x08 ∧ exec (.spde rd rs1) s = failsWith s 0x33 1 0x08) ∧
      (∀ m, a = .mx m →
        (m.rows ≠ s.sprows.toNat ∨ 8 * m.rows * m.cols ≠ s.blockBits.toNat →
          exec (.spen rd rs1) s = failsWith s 0x32 1 0x07 ∧ exec (.spde rd rs1) s = failsWith s 0x33 1 0x07) ∧
        (m.rows = s.sprows.toNat → 8 * m.rows * m.cols = s.blockBits.toNat →
          ((∃ k ∈ keys, shape k ≠ .mx s.sprows.toNat (s.blockBits.toNat / (8 * s.sprows.toNat))) →
            exec (.spen rd rs1) s = failsWith s 0x32 1 0x02 ∧ exec (.spde rd rs1) s = failsWith s 0x33 1 0x02) ∧
          ((∀ k ∈ keys, shape k = .mx s.sprows.toNat (s.blockBits.toNat / (8 * s.sprows.toNat))) →
            exec (.spen rd rs1) s = (match spEnc Config.ports keys a with
              | .ok t => succeedsWith { s with br := s.br.set rd.val (some t) rd.isLt } 0
              | .error _ => failsWith s 0x32 1 0x02) ∧
            exec (.spde rd rs1) s = (match spDec Config.ports keys a with
              | .ok t => succeedsWith { s with br := s.br.set rd.val (some t) rd.isLt } 0
              | .error _ => failsWith s 0x33 1 0x02) ∧
            (∀ k, keys = [k] →
              exec (.spen rd rs1) s = succeedsWith { s with br := s.br.set rd.val (some (xorBlock a k)) rd.isLt } 0 ∧
              exec (.spde rd rs1) s = succeedsWith { s with br := s.br.set rd.val (some (xorBlock a k)) rd.isLt } 0)))))

/-- R112, R118: the recurrences, one round at a time, for any ports `p` (R8). A Feistel encryption round more, on the last key,
takes (L, R) to (R, L xor F(R, K)), with no final swap; decryption starts with the last key and takes (L, R) to
(R xor F(L, K), L); a result of F that is an MX or of the wrong length is MISMATCH. An SP encryption round more substitutes,
permutes and whitens; decryption starts with the last key, whitens, inverse-permutes and inverse-substitutes; a layer's
result of another shape is MISMATCH. An error of an earlier round stays. Whitening is the bitwise XOR of equal shapes
(R99). -/
def Obligations.RoundRecurrences : Prop :=
  (∀ (p : Ports) (keys : List BlockVal) (k : BlockVal) (x l r : Bits), x.length = l.length + r.length →
    l.length = r.length → feistelEnc p keys x = .ok (l ++ r) →
    feistelEnc p (keys ++ [k]) x = match (p.feistelF r k).val with
      | .bv f => if f.length = r.length then .ok (r ++ List.zipWith xor l f) else .error .mismatch
      | .mx _ => .error .mismatch) ∧
  (∀ (p : Ports) (keys : List BlockVal) (k : BlockVal) (x : Bits) (e : Err), feistelEnc p keys x = .error e →
    feistelEnc p (keys ++ [k]) x = .error e) ∧
  (∀ (p : Ports) (keys : List BlockVal) (k : BlockVal) (l r : Bits), l.length = r.length →
    feistelDec p (keys ++ [k]) (l ++ r) = match (p.feistelF l k).val with
      | .bv f => if f.length = l.length then feistelDec p keys (List.zipWith xor r f ++ l) else .error .mismatch
      | .mx _ => .error .mismatch) ∧
  (∀ (p : Ports) (k0 : BlockVal) (keys : List BlockVal) (k x y : BlockVal), spEnc p (k0 :: keys) x = .ok y →
    let sub := (p.spSub y).val
    let perm := (p.spPerm sub).val
    spEnc p (k0 :: (keys ++ [k])) x =
      if shape sub = shape y ∧ shape perm = shape sub then .ok (xorBlock perm k) else .error .mismatch) ∧
  (∀ (p : Ports) (k0 : BlockVal) (keys : List BlockVal) (k x : BlockVal) (e : Err), spEnc p (k0 :: keys) x = .error e →
    spEnc p (k0 :: (keys ++ [k])) x = .error e) ∧
  (∀ (p : Ports) (k0 : BlockVal) (keys : List BlockVal) (k x : BlockVal),
    let white := xorBlock x k
    let perm := (p.spIperm white).val
    let sub := (p.spIsub perm).val
    spDec p (k0 :: (keys ++ [k])) x =
      if shape perm = shape white ∧ shape sub = shape perm then spDec p (k0 :: keys) sub else .error .mismatch) ∧
  (∀ a b : BlockVal, a.legal = true → b.legal = true → shape a = shape b →
    shape (xorBlock a b) = shape a ∧ flat (xorBlock a b) = List.zipWith xor (flat a) (flat b))

/-- R119: where the inverse layers undo the layers on every legal matrix of the block's shape, SPDec undoes SPEnc, for every
legal block and keys of its shape on which no error is raised. With SPROUNDS = 0, one key, both are x xor K_S[0]. -/
def Obligations.SpInverse : Prop :=
  (∀ (p : Ports) (k x : BlockVal), spEnc p [k] x = .ok (xorBlock x k) ∧ spDec p [k] x = .ok (xorBlock x k)) ∧
  ∀ (p : Ports) (rows cols : Nat) (keys : List BlockVal) (x y : BlockVal),
    (∀ m : BlockVal, m.legal = true → shape m = .mx rows cols →
      (p.spIsub (p.spSub m).val).val = m ∧ (p.spIperm (p.spPerm m).val).val = m) →
    x.legal = true → shape x = .mx rows cols → (∀ k ∈ keys, k.legal = true ∧ shape k = .mx rows cols) →
    spEnc p keys x = .ok y → spDec p keys y = .ok x

/-! ### Modes of operation -/

/-- R123, R124, R117, R155: the checks every mode command makes, in their order, each with the error the first failing one
raises: the selection, the keys, the seed, the SP view and key shapes, the bound, the multiple, the units. `chained` is true
for CBC, CFB and OFB, `dec` for ECB and CBC decryption. -/
def Obligations.ModeChecksInOrder : Prop :=
  ∀ (s : State) (chained dec : Bool),
    let nu := s.blockBits.toNat / 8
    let cols := s.blockBits.toNat / (8 * s.sprows.toNat)
    (s.cipherSel = .noCipher → s.modeCheck chained dec = .error .config) ∧
    (s.cipherSel = .feistel → none ∈ s.keyF.toList.take s.frounds.toNat → s.modeCheck chained dec = .error .absent) ∧
    (s.cipherSel = .sp → none ∈ s.keyS.toList.take (s.sprounds.toNat + 1) → s.modeCheck chained dec = .error .absent) ∧
    (∀ c, s.cipherPresent = .ok c →
      (chained = true → s.seedValid = false → s.modeCheck chained dec = .error .absent) ∧
      ((chained = true → s.seedValid = true) →
        (s.cipherSel = .sp → nu % s.sprows.toNat ≠ 0 ∨ 64 < cols → s.modeCheck chained dec = .error .config) ∧
        (s.cipherSel = .sp → nu % s.sprows.toNat = 0 → cols ≤ 64 →
          (∃ k, some k ∈ s.keyS.toList.take (s.sprounds.toNat + 1) ∧ shape k ≠ .mx s.sprows.toNat cols) →
          s.modeCheck chained dec = .error .mismatch) ∧
        ((s.cipherSel = .sp → nu % s.sprows.toNat = 0 ∧ cols ≤ 64 ∧
            ∀ k, some k ∈ s.keyS.toList.take (s.sprounds.toNat + 1) → shape k = .mx s.sprows.toNat cols) →
          (128 * nu < s.inLen.toNat → s.modeCheck chained dec = .error .bound) ∧
          (s.inLen.toNat ≤ 128 * nu →
            (dec = true → s.inLen.toNat % nu ≠ 0 → s.modeCheck chained dec = .error .notMult) ∧
            ((dec = true → s.inLen.toNat % nu = 0) →
              ((∃ j, j < s.inLen.toNat ∧ 0xFF < (s.entry .input j).toNat) → s.modeCheck chained dec = .error .unitRange) ∧
              ((∀ j, j < s.inLen.toNat → (s.entry .input j).toNat ≤ 0xFF) → s.modeCheck chained dec = .ok c))))))

/-- R122 - R124, R142, R154, R155, R157: a mode command whose ModeCheck fails completes with that record, OUT_VALID = 0 and
OUT_LEN = 0. A multithreaded command whose ModeCheck passes raises POOL_ABSENT or POOL_SHUTDOWN unless the pool is READY,
even when the message has no chunk. The numbers CLASS and DETAIL of every error are those of R154. -/
def Obligations.ModeRefusalsRecorded : Prop :=
  (∀ q ∈ [(Err.absent, 1, 0x01), (.mismatch, 1, 0x02), (.negShift, 1, 0x03), (.notMult, 1, 0x04), (.bound, 1, 0x05),
      (.badTable, 1, 0x06), (.width, 1, 0x07), (.kind, 1, 0x08), (.config, 1, 0x09), (.unitRange, 1, 0x0A),
      (.length, 1, 0x0B), (.csrNum, 1, 0x0C), (.readOnly, 1, 0x0D), (.slice, 2, 0x01), (.bytePos, 2, 0x02),
      (.bufIdx, 2, 0x03), (.tmemIdx, 2, 0x04), (.keyIdx, 2, 0x05), (.poolAbsent, 3, 0x01), (.poolShutdown, 3, 0x02),
      (.timeout, 3, 0x03), (.interrupted, 3, 0x04), (.illegal .opcode, 4, 0x01), (.illegal .reserved, 4, 0x02),
      (.illegal .regIdx, 4, 0x03)],
    q.1.classCode = q.2.1 ∧ q.1.detailCode = q.2.2) ∧
  ∀ (s : State) (e : Err),
    (s.modeCheck false false = .error e → ∀ i ∈ [Instr.ecbe, .ecbeMt],
      ∃ t, exec i s = .next t ∧ ModeFails s t i.opcode.toNat e.classCode e.detailCode) ∧
    (s.modeCheck false true = .error e → ∀ i ∈ [Instr.ecbd, .ecbdMt],
      ∃ t, exec i s = .next t ∧ ModeFails s t i.opcode.toNat e.classCode e.detailCode) ∧
    (s.modeCheck true false = .error e → ∀ i ∈ [Instr.cbce, .cfbe, .cfbd, .ofbe, .ofbd, .cbceMt],
      ∃ t, exec i s = .next t ∧ ModeFails s t i.opcode.toNat e.classCode e.detailCode) ∧
    (s.modeCheck true true = .error e → ∀ i ∈ [Instr.cbcd, .cbcdMt],
      ∃ t, exec i s = .next t ∧ ModeFails s t i.opcode.toNat e.classCode e.detailCode) ∧
    (∀ (i : Instr) (chained dec : Bool) (c : Cipher),
      (i, chained, dec) ∈
        [(Instr.ecbeMt, false, false), (.ecbdMt, false, true), (.cbceMt, true, false), (.cbcdMt, true, true)] →
      s.modeCheck chained dec = .ok c →
      (s.poolState = .absent → ∃ t, exec i s = .next t ∧ ModeFails s t i.opcode.toNat 3 0x01) ∧
      (s.poolState = .shutdown → ∃ t, exec i s = .next t ∧ ModeFails s t i.opcode.toNat 3 0x02))

/-- R125 - R127, R130 - R133: what ECBE, ECBD, CBCE and CBCD output, for the cipher `c` their ModeCheck selects: the padded
message's chunks through E, the message's chunks through D and stripped, with the chain value of CBC before E or after D.
Where E or D raises an error the command fails with MISMATCH. The ports are the block's own (R8). What these words mean: padding
appends the fewest 0x0000 units that reach a multiple of Nu; stripping removes exactly the trailing 0x0000 units; chunk i packs
the units i * Nu .. i * Nu + Nu - 1, most significant bit first; the chunks go through E or D in order up to the first error; in
CBC a chunk's output is E(x xor chain), which is the next chain value, or D(x) xor chain, with x the next chain value. -/
def Obligations.BlockModeResults : Prop :=
  (∀ (nu : Nat) (u : List CodeUnit), 0 < nu →
    ∃ k, padUnits nu u = u ++ List.replicate k 0 ∧ k < nu ∧ (u.length + k) % nu = 0) ∧
  (∀ w : List CodeUnit, ∃ k, w = stripUnits w ++ List.replicate k 0 ∧ (stripUnits w).getLast? ≠ some 0) ∧
  (∀ (nu : Nat) (u : List CodeUnit), (chunks nu u).length = u.length / nu ∧
    ∀ i, i < u.length / nu → ∃ x, (chunks nu u)[i]? = some x ∧ x.length = 8 * nu ∧
      ∀ j, j < 8 * nu → bitAt x j = (u.getD (i * nu + j / 8) 0).getLsbD (7 - j % 8)) ∧
  (∀ f : Bits → Except Err Bits, eachChunk f [] = .ok [] ∧
    ∀ x xs, eachChunk f (x :: xs) = match f x with
      | .ok y => (eachChunk f xs).map (y :: ·)
      | .error e => .error e) ∧
  (∀ (f : Bits → Except Err Bits) (chain : Bits), cbcEncChain f chain [] = .ok [] ∧ cbcDecChain f chain [] = .ok [] ∧
    ∀ x xs,
      (cbcEncChain f chain (x :: xs) = match f (List.zipWith xor x chain) with
        | .ok y => (cbcEncChain f y xs).map (y :: ·)
        | .error e => .error e) ∧
      (cbcDecChain f chain (x :: xs) = match f x with
        | .ok y => (cbcDecChain f x xs).map (List.zipWith xor y chain :: ·)
        | .error e => .error e)) ∧
  ∀ (s : State) (c : Cipher),
    (s.modeCheck false false = .ok c → ∃ t, exec .ecbe s = .next t ∧
      match eachChunk (c.enc Config.ports) (chunks s.nu (padUnits s.nu s.message)) with
      | .ok out => OutputsOnly s t (out.flatMap unpackBits) s.batchCount
      | .error _ => ModeFails s t 0x40 1 0x02) ∧
    (s.modeCheck false true = .ok c → ∃ t, exec .ecbd s = .next t ∧
      match eachChunk (c.dec Config.ports) (chunks s.nu s.message) with
      | .ok out => OutputsOnly s t (stripUnits (out.flatMap unpackBits)) s.batchCount
      | .error _ => ModeFails s t 0x41 1 0x02) ∧
    (s.modeCheck true false = .ok c → ∃ t, exec .cbce s = .next t ∧
      match cbcEncChain (c.enc Config.ports) s.seed (chunks s.nu (padUnits s.nu s.message)) with
      | .ok out => OutputsOnly s t (out.flatMap unpackBits) s.batchCount
      | .error _ => ModeFails s t 0x42 1 0x02) ∧
    (s.modeCheck true true = .ok c → ∃ t, exec .cbcd s = .next t ∧
      match cbcDecChain (c.dec Config.ports) s.seed (chunks s.nu s.message) with
      | .ok out => OutputsOnly s t (stripUnits (out.flatMap unpackBits)) s.batchCount
      | .error _ => ModeFails s t 0x43 1 0x02)

/-- R129, R134 - R137: what CFBE, CFBD, OFBE and OFBD output, for the cipher `c` their ModeCheck selects; the stream register
starts at the seed and is fed the output byte, the ciphertext byte read, or the key byte. Where E raises an error the
command fails with MISMATCH. The ports are the block's own (R8). One unit at a time: the key byte k is the first 8 bits of
E(SR), the output unit is the unit read xor k, and SR becomes its bits from position 8 on followed by the bits of the byte fed
back, most significant first. -/
def Obligations.StreamModeResults : Prop :=
  (∀ (e : Bits → Except Err Bits) (fb : Feedback) (sr : Bits), streamUnits e fb ⟨sr⟩ [] = .ok [] ∧
    ∀ (u : CodeUnit) (us : List CodeUnit),
      (∀ er, e sr = .error er → streamUnits e fb ⟨sr⟩ (u :: us) = .error er) ∧
      (∀ z, e sr = .ok z → ∃ k : Byte, (8 ≤ z.length → ∀ j, j < 8 → k.getMsbD j = bitAt z j) ∧
        streamUnits e fb ⟨sr⟩ (u :: us) =
          (streamUnits e fb ⟨sr.drop 8 ++ (List.range 8).map (fb k u (u ^^^ k.setWidth 16)).getMsbD⟩ us).map
            ((u ^^^ k.setWidth 16) :: ·))) ∧
  (∀ (k : Byte) (u y : CodeUnit),
    cfbEncFeedback k u y = y.setWidth 8 ∧ cfbDecFeedback k u y = u.setWidth 8 ∧ ofbFeedback k u y = k) ∧
  ∀ (s : State) (c : Cipher), s.modeCheck true false = .ok c →
    ∀ i fb, (i, fb) ∈ [(Instr.cfbe, cfbEncFeedback), (.cfbd, cfbDecFeedback), (.ofbe, ofbFeedback), (.ofbd, ofbFeedback)] →
      ∃ t, exec i s = .next t ∧
        match streamUnits (c.enc Config.ports) fb ⟨s.seed⟩ s.message with
        | .ok w => OutputsOnly s t w s.batchCount
        | .error _ => ModeFails s t i.opcode.toNat 1 0x02

/-- With CIPHER_SEL = IDENTITY, the message's units at most 0xFF and within the bound, a multiple of the chunk for ECBD and
CBCD, and the seed loaded for the chained modes, each of the eight single-threaded mode commands completes and outputs
(R122, R125, R126, R130 - R137). Of a legal state. -/
def Obligations.IdentityCipherModesComplete : Prop :=
  ∀ s : State, s.Legal → s.cipherSel = .identity → s.inLen.toNat ≤ 128 * s.nu →
    (∀ j, j < s.inLen.toNat → (s.entry .input j).toNat ≤ 0xFF) →
    (∃ t, exec .ecbe s = .next t ∧ OutputsOnly s t (padUnits s.nu s.message) s.batchCount) ∧
    (s.inLen.toNat % s.nu = 0 → ∃ t, exec .ecbd s = .next t ∧ OutputsOnly s t (stripUnits s.message) s.batchCount) ∧
    (s.seedValid = true →
      (∃ t w, exec .cbce s = .next t ∧ OutputsOnly s t w s.batchCount ∧ w.length = (padUnits s.nu s.message).length) ∧
      (s.inLen.toNat % s.nu = 0 →
        ∃ t w, exec .cbcd s = .next t ∧ OutputsOnly s t (stripUnits w) s.batchCount ∧ w.length = s.inLen.toNat) ∧
      (∀ i ∈ [Instr.cfbe, .cfbd, .ofbe, .ofbd],
        ∃ t w, exec i s = .next t ∧ OutputsOnly s t w s.batchCount ∧ w.length = s.inLen.toNat))

/-- R138, stream modes: decrypting the output of CFB or OFB gives the message back, for every cipher and every state; and
OFBE undoes itself. `t` is the state with the output as its input message; its other state that the commands read is that of
`s`. Ports `p` are any (R8). -/
def Obligations.StreamModesRoundTrip : Prop :=
  ∀ (p : Ports) (s : State) (w : List CodeUnit) (m : Memory) (d : Nat), (∀ i, i < w.length → m.find i = w[i]?) →
    let t : State := { s with inBuf := m, inLen := BitVec.ofNat 64 w.length, draws := d }
    (cfbeUnits p s = .ok w → cfbdUnits p t = .ok s.message) ∧
    (ofbeUnits p s = .ok w → ofbdUnits p t = .ok s.message ∧ ofbeUnits p t = .ok s.message)

/-- R138, block modes: where D undoes E on every vector of BLOCK_BITS bits, decrypting the output of ECB or CBC gives the
message without its trailing 0x0000 units, the message itself where it does not end with one. Of a legal state. -/
def Obligations.BlockModesRoundTrip : Prop :=
  ∀ (p : Ports) (s : State) (c : Cipher) (w : List CodeUnit) (m : Memory) (d : Nat), s.Legal → s.cipherPresent = .ok c →
    (∀ x y : Bits, x.length = s.blockBits.toNat → c.enc p x = .ok y → c.dec p y = .ok x) →
    (∀ i, i < w.length → m.find i = w[i]?) →
    let t : State := { s with inBuf := m, inLen := BitVec.ofNat 64 w.length, draws := d }
    (ecbeUnits p s = .ok w → ecbdUnits p t = .ok (stripUnits s.message)) ∧
    (cbceUnits p s = .ok w → cbcdUnits p t = .ok (stripUnits s.message)) ∧
    (s.message.getLast? ≠ some 0 → stripUnits s.message = s.message)

/-! ### The executor -/

/-- R147 - R150, R32: with the pool READY, CIPHER_SEL = IDENTITY, the message's units at most 0xFF and within the bound, a
multiple of the chunk for decryption, and the seed loaded for CBC, a multithreaded command outputs, with BATCH_COUNT = 1,
when its batch draws COMPLETE; it fails with TIMEOUT or INTERRUPTED when it draws that; and an empty message outputs nothing
with BATCH_COUNT = 0 and no draw. The draw is a free value (log 5). Of a legal state. -/
def Obligations.IdentityCipherMtComplete : Prop :=
  ∀ s : State, s.Legal → s.poolState = .ready → s.cipherSel = .identity → s.inLen.toNat ≤ 128 * s.nu →
    (∀ j, j < s.inLen.toNat → (s.entry .input j).toNat ≤ 0xFF) →
    ∀ (i : Instr) (chained dec : Bool),
      (i, chained, dec) ∈ [(Instr.ecbeMt, false, false), (.ecbdMt, false, true), (.cbceMt, true, false), (.cbcdMt, true, true)] →
      (chained = true → s.seedValid = true) → (dec = true → s.inLen.toNat % s.nu = 0) →
      (s.inLen = 0 → ∃ t, exec i s = .next t ∧ OutputsOnly s t [] 0) ∧
      (s.inLen ≠ 0 → ∃ t, exec i s = .next t ∧
        match Config.batchDraw s.draws 0 with
        | .complete => ∃ w, OutputsOnly s t w 1 ∧ (i = .ecbeMt → w = padUnits s.nu s.message) ∧
            (i = .ecbdMt → w = stripUnits s.message)
        | .timeout => ModeFails s t i.opcode.toNat 3 0x03
        | .interrupted => ModeFails s t i.opcode.toNat 3 0x04)

/-- R151, R54: with the pool READY and every batch drawn COMPLETE, each multithreaded command gives exactly the result of the
single-threaded one, value or error, whatever order the workers take and finish the tasks in (`env.pick`), for every cipher.
Ports `p` are any (R8). At the commands: a multithreaded command that succeeds leaves OUT, OUT_LEN and OUT_VALID as the
single-threaded one does from the same state, which succeeds too. -/
def Obligations.MultithreadedEqualsSinglethreaded : Prop :=
  (∀ (p : Ports) (env : BatchEnv) (s : State), s.poolState = .ready → (∀ b, env.outcome b = .complete) →
    (ecbeMtUnits p env s).map Prod.fst = ecbeUnits p s ∧ (ecbdMtUnits p env s).map Prod.fst = ecbdUnits p s ∧
    (cbceMtUnits p env s).map Prod.fst = cbceUnits p s ∧ (cbcdMtUnits p env s).map Prod.fst = cbcdUnits p s) ∧
  (∀ (s t : State) (i j : Instr),
    (i, j) ∈ [(Instr.ecbeMt, Instr.ecbe), (.ecbdMt, .ecbd), (.cbceMt, .cbce), (.cbcdMt, .cbcd)] →
    exec i s = .next t → t.err = false →
    ∃ u, exec j s = .next u ∧ u.err = false ∧ t.outBuf = u.outBuf ∧ t.outLen = u.outLen ∧ t.outValid = u.outValid)

/-! ### The selected cipher -/

/-- R122, R123, R27, R8: which cipher the mode commands use. NONE is refused. FEISTEL takes the keys K_F[0 .. FROUNDS-1], and E
and D are FeistelEnc and FeistelDec; SP takes SPROWS, the columns BLOCK_BITS / (8 * SPROWS) and the keys K_S[0 .. SPROUNDS],
and E and D are the flat bits of SPEnc and SPDec of the column-major view of the chunk; EXTERNAL uses the port EXT_E for E and
EXT_D for D, whose result must have BLOCK_BITS bits, else MISMATCH; for IDENTITY both are the identity. Ports `p` are any. -/
def Obligations.SelectedCipherTransforms : Prop :=
  (∀ s : State,
    (s.cipherSel = .noCipher → s.cipherPresent = .error .config) ∧
    (∀ keys : List BlockVal, s.cipherSel = .feistel → s.keyF.toList.take s.frounds.toNat = keys.map some →
      s.cipherPresent = .ok (.feistel keys)) ∧
    (∀ keys : List BlockVal, s.cipherSel = .sp → s.keyS.toList.take (s.sprounds.toNat + 1) = keys.map some →
      s.cipherPresent = .ok (.sp s.sprows.toNat (s.blockBits.toNat / (8 * s.sprows.toNat)) keys)) ∧
    (s.cipherSel = .external → s.cipherPresent = .ok (.external s.blockBits.toNat)) ∧
    (s.cipherSel = .identity → s.cipherPresent = .ok .identity)) ∧
  (∀ (p : Ports) (x : Bits),
    (∀ keys : List BlockVal,
      (Cipher.feistel keys).enc p x = feistelEnc p keys x ∧ (Cipher.feistel keys).dec p x = feistelDec p keys x) ∧
    (∀ (rows cols : Nat) (keys : List BlockVal), ∃ m : ByteMatrix,
      m.rows = rows ∧ m.cols = cols ∧ m.bytes.length = rows * cols ∧
      (∀ r c, r < rows → c < cols → elem m r c = byteOf x (1 + r + c * rows)) ∧
      (Cipher.sp rows cols keys).enc p x = (spEnc p keys (.mx m)).map flat ∧
      (Cipher.sp rows cols keys).dec p x = (spDec p keys (.mx m)).map flat) ∧
    (∀ width : Nat,
      (Cipher.external width).enc p x = (if (p.extE x).length = width then .ok (p.extE x) else .error .mismatch) ∧
      (Cipher.external width).dec p x = (if (p.extD x).length = width then .ok (p.extD x) else .error .mismatch)) ∧
    Cipher.identity.enc p x = .ok x ∧ Cipher.identity.dec p x = .ok x)
end

