-- ==== Sys2Proof/Laws/Bits.lean ====
section
/-! SUPPORT. Bit strings, bytes and block values (00_scope.md R10, R11): lengths, single bits, and the two directions between
bytes and their bits. -/

namespace Sys2Proof.Machine

/-! ### Single bits -/

theorem bits_ext {x y : Bits} (hl : x.length = y.length) (h : ∀ i, i < x.length → bitAt x i = bitAt y i) : x = y := by
  refine List.ext_getElem hl fun i h₁ h₂ => ?_
  have := h i h₁
  simpa [bitAt, List.getD_eq_getElem?_getD, h₁, h₂] using this

theorem bitAt_eq_getElem {x : Bits} {i : Nat} (h : i < x.length) : bitAt x i = x[i] := by
  simp [bitAt, List.getD_eq_getElem?_getD, h]

theorem bitAt_of_le {x : Bits} {i : Nat} (h : x.length ≤ i) : bitAt x i = false := by
  simp [bitAt, List.getD_eq_getElem?_getD, h]

@[simp] theorem buildBits_length (n : Nat) (f : Nat → Bool) : (buildBits n f).length = n := by simp [buildBits]

theorem bitAt_buildBits {n i : Nat} (f : Nat → Bool) (h : i < n) : bitAt (buildBits n f) i = f i := by
  simp [buildBits, bitAt, List.getD_eq_getElem?_getD, h]

theorem bitAt_append (x y : Bits) (i : Nat) :
    bitAt (x ++ y) i = if i < x.length then bitAt x i else bitAt y (i - x.length) := by
  split
  · simp [bitAt, List.getD_eq_getElem?_getD, List.getElem?_append_left, *]
  · simp [bitAt, List.getD_eq_getElem?_getD, List.getElem?_append_right, Nat.not_lt.mp, *]

/-! ### Slices -/

theorem slice_length {α : Type} (x : List α) (a b : Nat) : (slice x a b).length = min (b - a) (x.length - a) := by
  simp [slice]

theorem slice_getElem? {α : Type} (x : List α) (a b i : Nat) :
    (slice x a b)[i]? = if i < b - a then x[a + i]? else none := by
  simp only [slice]
  split
  · rw [List.getElem?_take_of_lt ‹_›, List.getElem?_drop]
  · rw [List.getElem?_take_eq_none (by omega)]

theorem bitAt_slice {x : Bits} {a b i : Nat} (h : i < b - a) : bitAt (slice x a b) i = bitAt x (a + i) := by
  simp [bitAt, List.getD_eq_getElem?_getD, slice_getElem?, h]

@[simp] theorem slice_all {α : Type} (x : List α) : slice x 0 x.length = x := by simp [slice]

theorem slice_append_slice {α : Type} (x : List α) {a b c : Nat} (h₁ : a ≤ b) (h₂ : b ≤ c) :
    slice x a b ++ slice x b c = slice x a c := by
  have h₃ : c - a = (b - a) + (c - b) := by omega
  have h₄ : a + (b - a) = b := by omega
  simp only [slice, h₃, List.take_add, List.drop_drop, h₄]

/-! ### XOR -/

@[simp] theorem xorBits_length (x y : Bits) : (xorBits x y).length = min x.length y.length := by simp [xorBits]

theorem bitAt_xorBits {x y : Bits} (h : x.length = y.length) (i : Nat) :
    bitAt (xorBits x y) i = (bitAt x i ^^ bitAt y i) := by
  by_cases hi : i < x.length
  · have hy : i < y.length := h ▸ hi
    rw [bitAt_eq_getElem (by simp [h, hy]), bitAt_eq_getElem hi, bitAt_eq_getElem hy]
    simp [xorBits]
  · rw [bitAt_of_le (by simp; omega), bitAt_of_le (by omega), bitAt_of_le (by omega)]; rfl

theorem xorBits_self_right {x y : Bits} (h : x.length ≤ y.length) : xorBits (xorBits x y) y = x := by
  induction x generalizing y with
  | nil => simp [xorBits]
  | cons b xs ih =>
    cases y with
    | nil => simp at h
    | cons c ys =>
      have := ih (y := ys) (by simpa using h)
      simp only [xorBits, List.zipWith_cons_cons, List.cons.injEq] at *
      exact ⟨by cases b <;> cases c <;> rfl, this⟩

/-! ### Bytes -/

@[simp] theorem bitsOfByte_length (x : Byte) : (bitsOfByte x).length = 8 := by simp [bitsOfByte]

theorem bitAt_bitsOfByte {x : Byte} {i : Nat} (h : i < 8) : bitAt (bitsOfByte x) i = x.getMsbD i := by
  simp [bitsOfByte, bitAt, List.getD_eq_getElem?_getD, h]

theorem value_lt (x : Bits) : value x < 2 ^ x.length := by
  induction x with
  | nil => simp [value]
  | cons b xs ih =>
    simp only [value, List.length_cons, Nat.pow_succ]
    cases b <;> simp <;> omega

/-- A bit of a value, counted from the most significant of its `n` bits. -/
theorem value_testBit (x : Bits) : ∀ i, i < x.length → (value x).testBit (x.length - 1 - i) = bitAt x i := by
  induction x with
  | nil => simp
  | cons b xs ih =>
    intro i hi
    simp only [value, List.length_cons, Nat.add_sub_cancel]
    have hlt := value_lt xs
    cases i with
    | zero =>
      rw [Nat.mul_comm, Nat.sub_zero, Nat.testBit_two_pow_mul_add _ hlt]
      cases b <;> simp [bitAt]
    | succ k =>
      have hk : k < xs.length := by simpa using hi
      rw [Nat.mul_comm, Nat.testBit_two_pow_mul_add _ hlt, if_pos (by omega)]
      have : xs.length - (k + 1) = xs.length - 1 - k := by omega
      rw [this, ih k hk]
      simp [bitAt]

/-- The bits of the k-th byte. -/
theorem byteOf_getMsbD {x : Bits} {k j : Nat} (hk : 8 * (k + 1) ≤ x.length) (hj : j < 8) :
    (byteOf x (k + 1)).getMsbD j = bitAt x (8 * k + j) := by
  have hlen : (slice x (8 * k) (8 * (k + 1))).length = 8 := by rw [slice_length]; omega
  have hv := value_lt (slice x (8 * k) (8 * (k + 1)))
  have ht := value_testBit (slice x (8 * k) (8 * (k + 1))) j (by omega)
  rw [hlen] at hv ht
  rw [bitAt_slice (by omega)] at ht
  simp only [byteOf, Nat.add_sub_cancel, BitVec.getMsbD, BitVec.getLsbD, BitVec.toNat_ofNat, Nat.mod_eq_of_lt hv, hj,
    decide_true, Bool.true_and]
  exact ht

theorem bitsOfByte_byteOf {x : Bits} {k : Nat} (hk : 8 * (k + 1) ≤ x.length) :
    bitsOfByte (byteOf x (k + 1)) = slice x (8 * k) (8 * (k + 1)) := by
  refine bits_ext (by rw [bitsOfByte_length, slice_length]; omega) fun i hi => ?_
  rw [bitsOfByte_length] at hi
  rw [bitAt_bitsOfByte hi, byteOf_getMsbD hk hi, bitAt_slice (by omega)]

theorem byte_ext {a b : Byte} (h : ∀ j, j < 8 → a.getMsbD j = b.getMsbD j) : a = b :=
  BitVec.eq_of_getMsbD_eq fun i hi => h i hi

@[simp] theorem bitsOfBytes_nil : bitsOfBytes [] = [] := rfl
@[simp] theorem bitsOfBytes_cons (b : Byte) (bs : List Byte) : bitsOfBytes (b :: bs) = bitsOfByte b ++ bitsOfBytes bs := rfl

theorem bitsOfBytes_append (a b : List Byte) : bitsOfBytes (a ++ b) = bitsOfBytes a ++ bitsOfBytes b := by
  simp [bitsOfBytes]

@[simp] theorem bitsOfBytes_length (bs : List Byte) : (bitsOfBytes bs).length = 8 * bs.length := by
  induction bs with
  | nil => rfl
  | cons b bs ih => simp [ih]; omega

/-- A bit of a byte list's bits. -/
theorem bitAt_bitsOfBytes (bs : List Byte) : ∀ {k j : Nat}, j < 8 → bitAt (bitsOfBytes bs) (8 * k + j) = (bs.getD k 0).getMsbD j := by
  induction bs with
  | nil => intro k j h; simp [bitAt]
  | cons b bs ih =>
    intro k j h
    rw [bitsOfBytes_cons, bitAt_append, bitsOfByte_length]
    cases k with
    | zero => rw [if_pos (by omega)]; simpa using bitAt_bitsOfByte h
    | succ k =>
      rw [if_neg (by omega)]
      have : 8 * (k + 1) + j - 8 = 8 * k + j := by omega
      rw [this, ih h]
      simp

@[simp] theorem bytesOfBits_length (x : Bits) : (bytesOfBits x).length = x.length / 8 := by simp [bytesOfBits]

theorem bytesOfBits_getElem {x : Bits} {k : Nat} (h : k < (bytesOfBits x).length) :
    (bytesOfBits x)[k] = byteOf x (k + 1) := by
  simp [bytesOfBits]

/-- Bytes to bits and back. -/
@[simp] theorem bytesOfBits_bitsOfBytes (bs : List Byte) : bytesOfBits (bitsOfBytes bs) = bs := by
  refine List.ext_getElem (by simp) fun k h₁ h₂ => ?_
  rw [bytesOfBits_getElem]
  refine byte_ext fun j hj => ?_
  rw [byteOf_getMsbD (by simp; omega) hj, bitAt_bitsOfBytes bs hj]
  simp [List.getD_eq_getElem?_getD, h₂]

/-- Bits to bytes and back, on a whole number of bytes. -/
theorem bitsOfBytes_bytesOfBits {x : Bits} (h : x.length % 8 = 0) : bitsOfBytes (bytesOfBits x) = x := by
  refine bits_ext (by simp; omega) fun i hi => ?_
  simp only [bitsOfBytes_length, bytesOfBits_length] at hi
  obtain ⟨k, j, hj, rfl⟩ : ∃ k j, j < 8 ∧ i = 8 * k + j := ⟨i / 8, i % 8, by omega, by omega⟩
  rw [bitAt_bitsOfBytes _ hj]
  have hk : k < (bytesOfBits x).length := by simp; omega
  rw [List.getD_eq_getElem?_getD, List.getElem?_eq_getElem hk, Option.getD_some, bytesOfBits_getElem,
    byteOf_getMsbD (by omega) hj]

/-! ### Block values -/

theorem flat_withFlat_mx {m : ByteMatrix} {x : Bits} (h : x.length % 8 = 0) : flat (withFlat (.mx m) x) = x := by
  simpa [withFlat, flat] using bitsOfBytes_bytesOfBits h

@[simp] theorem flat_withFlat_bv (b x : Bits) : flat (withFlat (.bv b) x) = x := rfl

/-- withFlat gives back the bits it is given, where they are as many as the value's own. -/
theorem flat_withFlat {v : BlockVal} {x : Bits} (h : x.length = blockLen v) : flat (withFlat v x) = x := by
  cases v with
  | bv b => rfl
  | mx m => exact flat_withFlat_mx (by simp only [blockLen, flat, bitsOfBytes_length] at h; omega)

theorem shape_withFlat {v : BlockVal} {x : Bits} (h : x.length = blockLen v) : shape (withFlat v x) = shape v := by
  cases v with
  | bv b => simpa [withFlat, shape, blockLen, flat] using h
  | mx m => rfl

theorem blockLen_withFlat {v : BlockVal} {x : Bits} (h : x.length = blockLen v) : blockLen (withFlat v x) = blockLen v := by
  rw [blockLen, flat_withFlat h, h]

theorem legal_mx {m : ByteMatrix} : (BlockVal.mx m).legal = true ↔
    (1 ≤ m.rows ∧ m.rows ≤ 64) ∧ (1 ≤ m.cols ∧ m.cols ≤ 64) ∧ m.bytes.length = m.rows * m.cols := by
  simp [BlockVal.legal, and_assoc]

theorem legal_bv {x : Bits} : (BlockVal.bv x).legal = true ↔ 1 ≤ x.length ∧ x.length ≤ 65536 := by
  simp [BlockVal.legal]

/-! ### Matrices -/

@[simp] theorem buildMatrix_rows (r c : Nat) (f : Nat → Nat → Byte) : (buildMatrix r c f).rows = r := rfl
@[simp] theorem buildMatrix_cols (r c : Nat) (f : Nat → Nat → Byte) : (buildMatrix r c f).cols = c := rfl
@[simp] theorem buildMatrix_bytes_length (r c : Nat) (f : Nat → Nat → Byte) : (buildMatrix r c f).bytes.length = r * c := by
  simp [buildMatrix]

theorem index_lt {r c rows cols : Nat} (hr : r < rows) (hc : c < cols) : r + c * rows < rows * cols := by
  calc r + c * rows < rows + c * rows := by omega
    _ = (c + 1) * rows := by rw [Nat.add_mul]; omega
    _ ≤ cols * rows := Nat.mul_le_mul_right _ hc
    _ = rows * cols := Nat.mul_comm _ _

theorem elem_buildMatrix {rows cols r c : Nat} (f : Nat → Nat → Byte) (hr : r < rows) (hc : c < cols) :
    elem (buildMatrix rows cols f) r c = f r c := by
  have hi := index_lt hr hc
  simp only [elem, buildMatrix, List.getD_eq_getElem?_getD, List.getElem?_map]
  rw [List.getElem?_range hi]
  simp only [Option.map_some, Option.getD_some]
  rw [Nat.add_mul_mod_self_right, Nat.mod_eq_of_lt hr, Nat.add_mul_div_right _ _ (by omega), Nat.div_eq_of_lt hr, Nat.zero_add]

/-- Two matrices of one shape with the same elements are equal. -/
theorem matrix_ext {m n : ByteMatrix} (hr : m.rows = n.rows) (hc : m.cols = n.cols) (hm : m.bytes.length = m.rows * m.cols)
    (hn : n.bytes.length = n.rows * n.cols) (h : ∀ r c, r < m.rows → c < m.cols → elem m r c = elem n r c) : m = n := by
  obtain ⟨rows, cols, bytes⟩ := m
  obtain ⟨rows', cols', bytes'⟩ := n
  simp only at hr hc hm hn
  subst hr hc
  congr 1
  refine List.ext_getElem (by omega) fun k h₁ h₂ => ?_
  have hk : k < rows * cols := by omega
  have hpos : 0 < rows := by
    rcases Nat.eq_zero_or_pos rows with h0 | h0
    · subst h0; simp at hk
    · exact h0
  have := h (k % rows) (k / rows) (Nat.mod_lt _ hpos) (Nat.div_lt_of_lt_mul hk)
  simp only [elem, Nat.mod_add_div', List.getD_eq_getElem?_getD, h₁, h₂, List.getElem?_eq_getElem, Option.getD_some] at this
  exact this

end Sys2Proof.Machine
end

