-- ==== Sys2Proof/Laws/State.lean ====
section
/-! SUPPORT. Beside State: what each named update of the state (Machine/Ops.lean) does to each field, so that no later proof
unfolds a record update. -/

namespace Sys2Proof.Machine

variable (s : State)

/-! ### succeed -/

@[simp] theorem succeed_br (resp : Word) : (s.succeed resp).br = s.br := rfl
@[simp] theorem succeed_keyF (resp : Word) : (s.succeed resp).keyF = s.keyF := rfl
@[simp] theorem succeed_keyS (resp : Word) : (s.succeed resp).keyS = s.keyS := rfl
@[simp] theorem succeed_seed (resp : Word) : (s.succeed resp).seed = s.seed := rfl
@[simp] theorem succeed_running (resp : Word) : (s.succeed resp).running = none := rfl
@[simp] theorem succeed_err (resp : Word) : (s.succeed resp).err = false := rfl
@[simp] theorem succeed_sticky (resp : Word) : (s.succeed resp).sticky = s.sticky := rfl
@[simp] theorem succeed_outValid (resp : Word) : (s.succeed resp).outValid = s.outValid := rfl
@[simp] theorem succeed_seedValid (resp : Word) : (s.succeed resp).seedValid = s.seedValid := rfl
@[simp] theorem succeed_errcode (resp : Word) : (s.succeed resp).errcode = 0 := rfl
@[simp] theorem succeed_resp (resp : Word) : (s.succeed resp).resp = resp := rfl
@[simp] theorem succeed_blockBits (resp : Word) : (s.succeed resp).blockBits = s.blockBits := rfl
@[simp] theorem succeed_cipherSel (resp : Word) : (s.succeed resp).cipherSel = s.cipherSel := rfl
@[simp] theorem succeed_frounds (resp : Word) : (s.succeed resp).frounds = s.frounds := rfl
@[simp] theorem succeed_sprounds (resp : Word) : (s.succeed resp).sprounds = s.sprounds := rfl
@[simp] theorem succeed_sprows (resp : Word) : (s.succeed resp).sprows = s.sprows := rfl
@[simp] theorem succeed_inLen (resp : Word) : (s.succeed resp).inLen = s.inLen := rfl
@[simp] theorem succeed_outLen (resp : Word) : (s.succeed resp).outLen = s.outLen := rfl
@[simp] theorem succeed_poolState (resp : Word) : (s.succeed resp).poolState = s.poolState := rfl
@[simp] theorem succeed_timeoutMs (resp : Word) : (s.succeed resp).timeoutMs = s.timeoutMs := rfl
@[simp] theorem succeed_batchCount (resp : Word) : (s.succeed resp).batchCount = s.batchCount := rfl
@[simp] theorem succeed_inBuf (resp : Word) : (s.succeed resp).inBuf = s.inBuf := rfl
@[simp] theorem succeed_outBuf (resp : Word) : (s.succeed resp).outBuf = s.outBuf := rfl
@[simp] theorem succeed_tmem (resp : Word) : (s.succeed resp).tmem = s.tmem := rfl
@[simp] theorem succeed_resetSeen (resp : Word) : (s.succeed resp).resetSeen = s.resetSeen := rfl
@[simp] theorem succeed_port (resp : Word) : (s.succeed resp).port = s.port := rfl
@[simp] theorem succeed_draws (resp : Word) : (s.succeed resp).draws = s.draws + 1 := rfl
@[simp] theorem succeed_epoch (resp : Word) : (s.succeed resp).epoch = s.epoch := rfl

/-! ### raise -/

@[simp] theorem raise_br (opc : Byte) (e : Err) : (s.raise opc e).br = s.br := rfl
@[simp] theorem raise_keyF (opc : Byte) (e : Err) : (s.raise opc e).keyF = s.keyF := rfl
@[simp] theorem raise_keyS (opc : Byte) (e : Err) : (s.raise opc e).keyS = s.keyS := rfl
@[simp] theorem raise_seed (opc : Byte) (e : Err) : (s.raise opc e).seed = s.seed := rfl
@[simp] theorem raise_running (opc : Byte) (e : Err) : (s.raise opc e).running = none := rfl
@[simp] theorem raise_err (opc : Byte) (e : Err) : (s.raise opc e).err = true := rfl
@[simp] theorem raise_sticky (opc : Byte) (e : Err) : (s.raise opc e).sticky = true := rfl
@[simp] theorem raise_outValid (opc : Byte) (e : Err) : (s.raise opc e).outValid = s.outValid := rfl
@[simp] theorem raise_seedValid (opc : Byte) (e : Err) : (s.raise opc e).seedValid = s.seedValid := rfl
@[simp] theorem raise_errcode (opc : Byte) (e : Err) : (s.raise opc e).errcode = errorRecord opc e := rfl
@[simp] theorem raise_resp (opc : Byte) (e : Err) : (s.raise opc e).resp = 0 := rfl
@[simp] theorem raise_blockBits (opc : Byte) (e : Err) : (s.raise opc e).blockBits = s.blockBits := rfl
@[simp] theorem raise_cipherSel (opc : Byte) (e : Err) : (s.raise opc e).cipherSel = s.cipherSel := rfl
@[simp] theorem raise_frounds (opc : Byte) (e : Err) : (s.raise opc e).frounds = s.frounds := rfl
@[simp] theorem raise_sprounds (opc : Byte) (e : Err) : (s.raise opc e).sprounds = s.sprounds := rfl
@[simp] theorem raise_sprows (opc : Byte) (e : Err) : (s.raise opc e).sprows = s.sprows := rfl
@[simp] theorem raise_inLen (opc : Byte) (e : Err) : (s.raise opc e).inLen = s.inLen := rfl
@[simp] theorem raise_outLen (opc : Byte) (e : Err) : (s.raise opc e).outLen = s.outLen := rfl
@[simp] theorem raise_poolState (opc : Byte) (e : Err) : (s.raise opc e).poolState = s.poolState := rfl
@[simp] theorem raise_timeoutMs (opc : Byte) (e : Err) : (s.raise opc e).timeoutMs = s.timeoutMs := rfl
@[simp] theorem raise_batchCount (opc : Byte) (e : Err) : (s.raise opc e).batchCount = s.batchCount := rfl
@[simp] theorem raise_inBuf (opc : Byte) (e : Err) : (s.raise opc e).inBuf = s.inBuf := rfl
@[simp] theorem raise_outBuf (opc : Byte) (e : Err) : (s.raise opc e).outBuf = s.outBuf := rfl
@[simp] theorem raise_tmem (opc : Byte) (e : Err) : (s.raise opc e).tmem = s.tmem := rfl
@[simp] theorem raise_resetSeen (opc : Byte) (e : Err) : (s.raise opc e).resetSeen = s.resetSeen := rfl
@[simp] theorem raise_port (opc : Byte) (e : Err) : (s.raise opc e).port = s.port := rfl
@[simp] theorem raise_draws (opc : Byte) (e : Err) : (s.raise opc e).draws = s.draws + 1 := rfl
@[simp] theorem raise_epoch (opc : Byte) (e : Err) : (s.raise opc e).epoch = s.epoch := rfl

/-! ### raiseMode -/

@[simp] theorem raiseMode_br (opc : Byte) (e : Err) : (s.raiseMode opc e).br = s.br := rfl
@[simp] theorem raiseMode_keyF (opc : Byte) (e : Err) : (s.raiseMode opc e).keyF = s.keyF := rfl
@[simp] theorem raiseMode_keyS (opc : Byte) (e : Err) : (s.raiseMode opc e).keyS = s.keyS := rfl
@[simp] theorem raiseMode_seed (opc : Byte) (e : Err) : (s.raiseMode opc e).seed = s.seed := rfl
@[simp] theorem raiseMode_running (opc : Byte) (e : Err) : (s.raiseMode opc e).running = none := rfl
@[simp] theorem raiseMode_err (opc : Byte) (e : Err) : (s.raiseMode opc e).err = true := rfl
@[simp] theorem raiseMode_sticky (opc : Byte) (e : Err) : (s.raiseMode opc e).sticky = true := rfl
@[simp] theorem raiseMode_outValid (opc : Byte) (e : Err) : (s.raiseMode opc e).outValid = false := rfl
@[simp] theorem raiseMode_seedValid (opc : Byte) (e : Err) : (s.raiseMode opc e).seedValid = s.seedValid := rfl
@[simp] theorem raiseMode_errcode (opc : Byte) (e : Err) : (s.raiseMode opc e).errcode = errorRecord opc e := rfl
@[simp] theorem raiseMode_resp (opc : Byte) (e : Err) : (s.raiseMode opc e).resp = 0 := rfl
@[simp] theorem raiseMode_blockBits (opc : Byte) (e : Err) : (s.raiseMode opc e).blockBits = s.blockBits := rfl
@[simp] theorem raiseMode_cipherSel (opc : Byte) (e : Err) : (s.raiseMode opc e).cipherSel = s.cipherSel := rfl
@[simp] theorem raiseMode_frounds (opc : Byte) (e : Err) : (s.raiseMode opc e).frounds = s.frounds := rfl
@[simp] theorem raiseMode_sprounds (opc : Byte) (e : Err) : (s.raiseMode opc e).sprounds = s.sprounds := rfl
@[simp] theorem raiseMode_sprows (opc : Byte) (e : Err) : (s.raiseMode opc e).sprows = s.sprows := rfl
@[simp] theorem raiseMode_inLen (opc : Byte) (e : Err) : (s.raiseMode opc e).inLen = s.inLen := rfl
@[simp] theorem raiseMode_outLen (opc : Byte) (e : Err) : (s.raiseMode opc e).outLen = 0 := rfl
@[simp] theorem raiseMode_poolState (opc : Byte) (e : Err) : (s.raiseMode opc e).poolState = s.poolState := rfl
@[simp] theorem raiseMode_timeoutMs (opc : Byte) (e : Err) : (s.raiseMode opc e).timeoutMs = s.timeoutMs := rfl
@[simp] theorem raiseMode_batchCount (opc : Byte) (e : Err) : (s.raiseMode opc e).batchCount = s.batchCount := rfl
@[simp] theorem raiseMode_inBuf (opc : Byte) (e : Err) : (s.raiseMode opc e).inBuf = s.inBuf := rfl
@[simp] theorem raiseMode_outBuf (opc : Byte) (e : Err) : (s.raiseMode opc e).outBuf = [] := rfl
@[simp] theorem raiseMode_tmem (opc : Byte) (e : Err) : (s.raiseMode opc e).tmem = s.tmem := rfl
@[simp] theorem raiseMode_resetSeen (opc : Byte) (e : Err) : (s.raiseMode opc e).resetSeen = s.resetSeen := rfl
@[simp] theorem raiseMode_port (opc : Byte) (e : Err) : (s.raiseMode opc e).port = s.port := rfl
@[simp] theorem raiseMode_draws (opc : Byte) (e : Err) : (s.raiseMode opc e).draws = s.draws + 1 := rfl
@[simp] theorem raiseMode_epoch (opc : Byte) (e : Err) : (s.raiseMode opc e).epoch = s.epoch := rfl

/-! ### writeBr -/

@[simp] theorem writeBr_br (r : Reg) (v : BlockVal) : (s.writeBr r v).br = s.br.set r.val (some v) r.isLt := rfl
@[simp] theorem writeBr_keyF (r : Reg) (v : BlockVal) : (s.writeBr r v).keyF = s.keyF := rfl
@[simp] theorem writeBr_keyS (r : Reg) (v : BlockVal) : (s.writeBr r v).keyS = s.keyS := rfl
@[simp] theorem writeBr_seed (r : Reg) (v : BlockVal) : (s.writeBr r v).seed = s.seed := rfl
@[simp] theorem writeBr_running (r : Reg) (v : BlockVal) : (s.writeBr r v).running = s.running := rfl
@[simp] theorem writeBr_err (r : Reg) (v : BlockVal) : (s.writeBr r v).err = s.err := rfl
@[simp] theorem writeBr_sticky (r : Reg) (v : BlockVal) : (s.writeBr r v).sticky = s.sticky := rfl
@[simp] theorem writeBr_outValid (r : Reg) (v : BlockVal) : (s.writeBr r v).outValid = s.outValid := rfl
@[simp] theorem writeBr_seedValid (r : Reg) (v : BlockVal) : (s.writeBr r v).seedValid = s.seedValid := rfl
@[simp] theorem writeBr_errcode (r : Reg) (v : BlockVal) : (s.writeBr r v).errcode = s.errcode := rfl
@[simp] theorem writeBr_resp (r : Reg) (v : BlockVal) : (s.writeBr r v).resp = s.resp := rfl
@[simp] theorem writeBr_blockBits (r : Reg) (v : BlockVal) : (s.writeBr r v).blockBits = s.blockBits := rfl
@[simp] theorem writeBr_cipherSel (r : Reg) (v : BlockVal) : (s.writeBr r v).cipherSel = s.cipherSel := rfl
@[simp] theorem writeBr_frounds (r : Reg) (v : BlockVal) : (s.writeBr r v).frounds = s.frounds := rfl
@[simp] theorem writeBr_sprounds (r : Reg) (v : BlockVal) : (s.writeBr r v).sprounds = s.sprounds := rfl
@[simp] theorem writeBr_sprows (r : Reg) (v : BlockVal) : (s.writeBr r v).sprows = s.sprows := rfl
@[simp] theorem writeBr_inLen (r : Reg) (v : BlockVal) : (s.writeBr r v).inLen = s.inLen := rfl
@[simp] theorem writeBr_outLen (r : Reg) (v : BlockVal) : (s.writeBr r v).outLen = s.outLen := rfl
@[simp] theorem writeBr_poolState (r : Reg) (v : BlockVal) : (s.writeBr r v).poolState = s.poolState := rfl
@[simp] theorem writeBr_timeoutMs (r : Reg) (v : BlockVal) : (s.writeBr r v).timeoutMs = s.timeoutMs := rfl
@[simp] theorem writeBr_batchCount (r : Reg) (v : BlockVal) : (s.writeBr r v).batchCount = s.batchCount := rfl
@[simp] theorem writeBr_inBuf (r : Reg) (v : BlockVal) : (s.writeBr r v).inBuf = s.inBuf := rfl
@[simp] theorem writeBr_outBuf (r : Reg) (v : BlockVal) : (s.writeBr r v).outBuf = s.outBuf := rfl
@[simp] theorem writeBr_tmem (r : Reg) (v : BlockVal) : (s.writeBr r v).tmem = s.tmem := rfl
@[simp] theorem writeBr_resetSeen (r : Reg) (v : BlockVal) : (s.writeBr r v).resetSeen = s.resetSeen := rfl
@[simp] theorem writeBr_port (r : Reg) (v : BlockVal) : (s.writeBr r v).port = s.port := rfl
@[simp] theorem writeBr_draws (r : Reg) (v : BlockVal) : (s.writeBr r v).draws = s.draws := rfl
@[simp] theorem writeBr_epoch (r : Reg) (v : BlockVal) : (s.writeBr r v).epoch = s.epoch := rfl

/-! ### writeKey -/

@[simp] theorem writeKey_br (bank : Bank) (j : Nat) (v : BlockVal) : (s.writeKey bank j v).br = s.br := by cases bank <;> rfl
@[simp] theorem writeKey_seed (bank : Bank) (j : Nat) (v : BlockVal) : (s.writeKey bank j v).seed = s.seed := by cases bank <;> rfl
@[simp] theorem writeKey_running (bank : Bank) (j : Nat) (v : BlockVal) : (s.writeKey bank j v).running = s.running := by cases bank <;> rfl
@[simp] theorem writeKey_err (bank : Bank) (j : Nat) (v : BlockVal) : (s.writeKey bank j v).err = s.err := by cases bank <;> rfl
@[simp] theorem writeKey_sticky (bank : Bank) (j : Nat) (v : BlockVal) : (s.writeKey bank j v).sticky = s.sticky := by cases bank <;> rfl
@[simp] theorem writeKey_outValid (bank : Bank) (j : Nat) (v : BlockVal) : (s.writeKey bank j v).outValid = s.outValid := by cases bank <;> rfl
@[simp] theorem writeKey_seedValid (bank : Bank) (j : Nat) (v : BlockVal) : (s.writeKey bank j v).seedValid = s.seedValid := by cases bank <;> rfl
@[simp] theorem writeKey_errcode (bank : Bank) (j : Nat) (v : BlockVal) : (s.writeKey bank j v).errcode = s.errcode := by cases bank <;> rfl
@[simp] theorem writeKey_resp (bank : Bank) (j : Nat) (v : BlockVal) : (s.writeKey bank j v).resp = s.resp := by cases bank <;> rfl
@[simp] theorem writeKey_blockBits (bank : Bank) (j : Nat) (v : BlockVal) : (s.writeKey bank j v).blockBits = s.blockBits := by cases bank <;> rfl
@[simp] theorem writeKey_cipherSel (bank : Bank) (j : Nat) (v : BlockVal) : (s.writeKey bank j v).cipherSel = s.cipherSel := by cases bank <;> rfl
@[simp] theorem writeKey_frounds (bank : Bank) (j : Nat) (v : BlockVal) : (s.writeKey bank j v).frounds = s.frounds := by cases bank <;> rfl
@[simp] theorem writeKey_sprounds (bank : Bank) (j : Nat) (v : BlockVal) : (s.writeKey bank j v).sprounds = s.sprounds := by cases bank <;> rfl
@[simp] theorem writeKey_sprows (bank : Bank) (j : Nat) (v : BlockVal) : (s.writeKey bank j v).sprows = s.sprows := by cases bank <;> rfl
@[simp] theorem writeKey_inLen (bank : Bank) (j : Nat) (v : BlockVal) : (s.writeKey bank j v).inLen = s.inLen := by cases bank <;> rfl
@[simp] theorem writeKey_outLen (bank : Bank) (j : Nat) (v : BlockVal) : (s.writeKey bank j v).outLen = s.outLen := by cases bank <;> rfl
@[simp] theorem writeKey_poolState (bank : Bank) (j : Nat) (v : BlockVal) : (s.writeKey bank j v).poolState = s.poolState := by cases bank <;> rfl
@[simp] theorem writeKey_timeoutMs (bank : Bank) (j : Nat) (v : BlockVal) : (s.writeKey bank j v).timeoutMs = s.timeoutMs := by cases bank <;> rfl
@[simp] theorem writeKey_batchCount (bank : Bank) (j : Nat) (v : BlockVal) : (s.writeKey bank j v).batchCount = s.batchCount := by cases bank <;> rfl
@[simp] theorem writeKey_inBuf (bank : Bank) (j : Nat) (v : BlockVal) : (s.writeKey bank j v).inBuf = s.inBuf := by cases bank <;> rfl
@[simp] theorem writeKey_outBuf (bank : Bank) (j : Nat) (v : BlockVal) : (s.writeKey bank j v).outBuf = s.outBuf := by cases bank <;> rfl
@[simp] theorem writeKey_tmem (bank : Bank) (j : Nat) (v : BlockVal) : (s.writeKey bank j v).tmem = s.tmem := by cases bank <;> rfl
@[simp] theorem writeKey_resetSeen (bank : Bank) (j : Nat) (v : BlockVal) : (s.writeKey bank j v).resetSeen = s.resetSeen := by cases bank <;> rfl
@[simp] theorem writeKey_port (bank : Bank) (j : Nat) (v : BlockVal) : (s.writeKey bank j v).port = s.port := by cases bank <;> rfl
@[simp] theorem writeKey_draws (bank : Bank) (j : Nat) (v : BlockVal) : (s.writeKey bank j v).draws = s.draws := by cases bank <;> rfl
@[simp] theorem writeKey_epoch (bank : Bank) (j : Nat) (v : BlockVal) : (s.writeKey bank j v).epoch = s.epoch := by cases bank <;> rfl

/-! ### fillKeys -/

@[simp] theorem fillKeys_br (bank : Bank) (n : Nat) (f : Nat → BlockVal) : (s.fillKeys bank n f).br = s.br := by
  cases bank <;> simp only [State.fillKeys]
@[simp] theorem fillKeys_seed (bank : Bank) (n : Nat) (f : Nat → BlockVal) : (s.fillKeys bank n f).seed = s.seed := by
  cases bank <;> simp only [State.fillKeys]
@[simp] theorem fillKeys_running (bank : Bank) (n : Nat) (f : Nat → BlockVal) : (s.fillKeys bank n f).running = s.running := by
  cases bank <;> simp only [State.fillKeys]
@[simp] theorem fillKeys_err (bank : Bank) (n : Nat) (f : Nat → BlockVal) : (s.fillKeys bank n f).err = s.err := by
  cases bank <;> simp only [State.fillKeys]
@[simp] theorem fillKeys_sticky (bank : Bank) (n : Nat) (f : Nat → BlockVal) : (s.fillKeys bank n f).sticky = s.sticky := by
  cases bank <;> simp only [State.fillKeys]
@[simp] theorem fillKeys_outValid (bank : Bank) (n : Nat) (f : Nat → BlockVal) : (s.fillKeys bank n f).outValid = s.outValid := by
  cases bank <;> simp only [State.fillKeys]
@[simp] theorem fillKeys_seedValid (bank : Bank) (n : Nat) (f : Nat → BlockVal) : (s.fillKeys bank n f).seedValid = s.seedValid := by
  cases bank <;> simp only [State.fillKeys]
@[simp] theorem fillKeys_errcode (bank : Bank) (n : Nat) (f : Nat → BlockVal) : (s.fillKeys bank n f).errcode = s.errcode := by
  cases bank <;> simp only [State.fillKeys]
@[simp] theorem fillKeys_resp (bank : Bank) (n : Nat) (f : Nat → BlockVal) : (s.fillKeys bank n f).resp = s.resp := by
  cases bank <;> simp only [State.fillKeys]
@[simp] theorem fillKeys_blockBits (bank : Bank) (n : Nat) (f : Nat → BlockVal) : (s.fillKeys bank n f).blockBits = s.blockBits := by
  cases bank <;> simp only [State.fillKeys]
@[simp] theorem fillKeys_cipherSel (bank : Bank) (n : Nat) (f : Nat → BlockVal) : (s.fillKeys bank n f).cipherSel = s.cipherSel := by
  cases bank <;> simp only [State.fillKeys]
@[simp] theorem fillKeys_frounds (bank : Bank) (n : Nat) (f : Nat → BlockVal) : (s.fillKeys bank n f).frounds = s.frounds := by
  cases bank <;> simp only [State.fillKeys]
@[simp] theorem fillKeys_sprounds (bank : Bank) (n : Nat) (f : Nat → BlockVal) : (s.fillKeys bank n f).sprounds = s.sprounds := by
  cases bank <;> simp only [State.fillKeys]
@[simp] theorem fillKeys_sprows (bank : Bank) (n : Nat) (f : Nat → BlockVal) : (s.fillKeys bank n f).sprows = s.sprows := by
  cases bank <;> simp only [State.fillKeys]
@[simp] theorem fillKeys_inLen (bank : Bank) (n : Nat) (f : Nat → BlockVal) : (s.fillKeys bank n f).inLen = s.inLen := by
  cases bank <;> simp only [State.fillKeys]
@[simp] theorem fillKeys_outLen (bank : Bank) (n : Nat) (f : Nat → BlockVal) : (s.fillKeys bank n f).outLen = s.outLen := by
  cases bank <;> simp only [State.fillKeys]
@[simp] theorem fillKeys_poolState (bank : Bank) (n : Nat) (f : Nat → BlockVal) : (s.fillKeys bank n f).poolState = s.poolState := by
  cases bank <;> simp only [State.fillKeys]
@[simp] theorem fillKeys_timeoutMs (bank : Bank) (n : Nat) (f : Nat → BlockVal) : (s.fillKeys bank n f).timeoutMs = s.timeoutMs := by
  cases bank <;> simp only [State.fillKeys]
@[simp] theorem fillKeys_batchCount (bank : Bank) (n : Nat) (f : Nat → BlockVal) : (s.fillKeys bank n f).batchCount = s.batchCount := by
  cases bank <;> simp only [State.fillKeys]
@[simp] theorem fillKeys_inBuf (bank : Bank) (n : Nat) (f : Nat → BlockVal) : (s.fillKeys bank n f).inBuf = s.inBuf := by
  cases bank <;> simp only [State.fillKeys]
@[simp] theorem fillKeys_outBuf (bank : Bank) (n : Nat) (f : Nat → BlockVal) : (s.fillKeys bank n f).outBuf = s.outBuf := by
  cases bank <;> simp only [State.fillKeys]
@[simp] theorem fillKeys_tmem (bank : Bank) (n : Nat) (f : Nat → BlockVal) : (s.fillKeys bank n f).tmem = s.tmem := by
  cases bank <;> simp only [State.fillKeys]
@[simp] theorem fillKeys_resetSeen (bank : Bank) (n : Nat) (f : Nat → BlockVal) : (s.fillKeys bank n f).resetSeen = s.resetSeen := by
  cases bank <;> simp only [State.fillKeys]
@[simp] theorem fillKeys_port (bank : Bank) (n : Nat) (f : Nat → BlockVal) : (s.fillKeys bank n f).port = s.port := by
  cases bank <;> simp only [State.fillKeys]
@[simp] theorem fillKeys_draws (bank : Bank) (n : Nat) (f : Nat → BlockVal) : (s.fillKeys bank n f).draws = s.draws := by
  cases bank <;> simp only [State.fillKeys]
@[simp] theorem fillKeys_epoch (bank : Bank) (n : Nat) (f : Nat → BlockVal) : (s.fillKeys bank n f).epoch = s.epoch := by
  cases bank <;> simp only [State.fillKeys]

/-! ### writeSeed -/

@[simp] theorem writeSeed_br (t : Bits) : (s.writeSeed t).br = s.br := rfl
@[simp] theorem writeSeed_keyF (t : Bits) : (s.writeSeed t).keyF = s.keyF := rfl
@[simp] theorem writeSeed_keyS (t : Bits) : (s.writeSeed t).keyS = s.keyS := rfl
@[simp] theorem writeSeed_seed (t : Bits) : (s.writeSeed t).seed = t := rfl
@[simp] theorem writeSeed_running (t : Bits) : (s.writeSeed t).running = s.running := rfl
@[simp] theorem writeSeed_err (t : Bits) : (s.writeSeed t).err = s.err := rfl
@[simp] theorem writeSeed_sticky (t : Bits) : (s.writeSeed t).sticky = s.sticky := rfl
@[simp] theorem writeSeed_outValid (t : Bits) : (s.writeSeed t).outValid = s.outValid := rfl
@[simp] theorem writeSeed_seedValid (t : Bits) : (s.writeSeed t).seedValid = true := rfl
@[simp] theorem writeSeed_errcode (t : Bits) : (s.writeSeed t).errcode = s.errcode := rfl
@[simp] theorem writeSeed_resp (t : Bits) : (s.writeSeed t).resp = s.resp := rfl
@[simp] theorem writeSeed_blockBits (t : Bits) : (s.writeSeed t).blockBits = s.blockBits := rfl
@[simp] theorem writeSeed_cipherSel (t : Bits) : (s.writeSeed t).cipherSel = s.cipherSel := rfl
@[simp] theorem writeSeed_frounds (t : Bits) : (s.writeSeed t).frounds = s.frounds := rfl
@[simp] theorem writeSeed_sprounds (t : Bits) : (s.writeSeed t).sprounds = s.sprounds := rfl
@[simp] theorem writeSeed_sprows (t : Bits) : (s.writeSeed t).sprows = s.sprows := rfl
@[simp] theorem writeSeed_inLen (t : Bits) : (s.writeSeed t).inLen = s.inLen := rfl
@[simp] theorem writeSeed_outLen (t : Bits) : (s.writeSeed t).outLen = s.outLen := rfl
@[simp] theorem writeSeed_poolState (t : Bits) : (s.writeSeed t).poolState = s.poolState := rfl
@[simp] theorem writeSeed_timeoutMs (t : Bits) : (s.writeSeed t).timeoutMs = s.timeoutMs := rfl
@[simp] theorem writeSeed_batchCount (t : Bits) : (s.writeSeed t).batchCount = s.batchCount := rfl
@[simp] theorem writeSeed_inBuf (t : Bits) : (s.writeSeed t).inBuf = s.inBuf := rfl
@[simp] theorem writeSeed_outBuf (t : Bits) : (s.writeSeed t).outBuf = s.outBuf := rfl
@[simp] theorem writeSeed_tmem (t : Bits) : (s.writeSeed t).tmem = s.tmem := rfl
@[simp] theorem writeSeed_resetSeen (t : Bits) : (s.writeSeed t).resetSeen = s.resetSeen := rfl
@[simp] theorem writeSeed_port (t : Bits) : (s.writeSeed t).port = s.port := rfl
@[simp] theorem writeSeed_draws (t : Bits) : (s.writeSeed t).draws = s.draws := rfl
@[simp] theorem writeSeed_epoch (t : Bits) : (s.writeSeed t).epoch = s.epoch := rfl

/-! ### writeIn -/

@[simp] theorem writeIn_br (a : Nat) (u : CodeUnit) : (s.writeIn a u).br = s.br := rfl
@[simp] theorem writeIn_keyF (a : Nat) (u : CodeUnit) : (s.writeIn a u).keyF = s.keyF := rfl
@[simp] theorem writeIn_keyS (a : Nat) (u : CodeUnit) : (s.writeIn a u).keyS = s.keyS := rfl
@[simp] theorem writeIn_seed (a : Nat) (u : CodeUnit) : (s.writeIn a u).seed = s.seed := rfl
@[simp] theorem writeIn_running (a : Nat) (u : CodeUnit) : (s.writeIn a u).running = s.running := rfl
@[simp] theorem writeIn_err (a : Nat) (u : CodeUnit) : (s.writeIn a u).err = s.err := rfl
@[simp] theorem writeIn_sticky (a : Nat) (u : CodeUnit) : (s.writeIn a u).sticky = s.sticky := rfl
@[simp] theorem writeIn_outValid (a : Nat) (u : CodeUnit) : (s.writeIn a u).outValid = s.outValid := rfl
@[simp] theorem writeIn_seedValid (a : Nat) (u : CodeUnit) : (s.writeIn a u).seedValid = s.seedValid := rfl
@[simp] theorem writeIn_errcode (a : Nat) (u : CodeUnit) : (s.writeIn a u).errcode = s.errcode := rfl
@[simp] theorem writeIn_resp (a : Nat) (u : CodeUnit) : (s.writeIn a u).resp = s.resp := rfl
@[simp] theorem writeIn_blockBits (a : Nat) (u : CodeUnit) : (s.writeIn a u).blockBits = s.blockBits := rfl
@[simp] theorem writeIn_cipherSel (a : Nat) (u : CodeUnit) : (s.writeIn a u).cipherSel = s.cipherSel := rfl
@[simp] theorem writeIn_frounds (a : Nat) (u : CodeUnit) : (s.writeIn a u).frounds = s.frounds := rfl
@[simp] theorem writeIn_sprounds (a : Nat) (u : CodeUnit) : (s.writeIn a u).sprounds = s.sprounds := rfl
@[simp] theorem writeIn_sprows (a : Nat) (u : CodeUnit) : (s.writeIn a u).sprows = s.sprows := rfl
@[simp] theorem writeIn_inLen (a : Nat) (u : CodeUnit) : (s.writeIn a u).inLen = s.inLen := rfl
@[simp] theorem writeIn_outLen (a : Nat) (u : CodeUnit) : (s.writeIn a u).outLen = s.outLen := rfl
@[simp] theorem writeIn_poolState (a : Nat) (u : CodeUnit) : (s.writeIn a u).poolState = s.poolState := rfl
@[simp] theorem writeIn_timeoutMs (a : Nat) (u : CodeUnit) : (s.writeIn a u).timeoutMs = s.timeoutMs := rfl
@[simp] theorem writeIn_batchCount (a : Nat) (u : CodeUnit) : (s.writeIn a u).batchCount = s.batchCount := rfl
@[simp] theorem writeIn_inBuf (a : Nat) (u : CodeUnit) : (s.writeIn a u).inBuf = s.inBuf.write a u := rfl
@[simp] theorem writeIn_outBuf (a : Nat) (u : CodeUnit) : (s.writeIn a u).outBuf = s.outBuf := rfl
@[simp] theorem writeIn_tmem (a : Nat) (u : CodeUnit) : (s.writeIn a u).tmem = s.tmem := rfl
@[simp] theorem writeIn_resetSeen (a : Nat) (u : CodeUnit) : (s.writeIn a u).resetSeen = s.resetSeen := rfl
@[simp] theorem writeIn_port (a : Nat) (u : CodeUnit) : (s.writeIn a u).port = s.port := rfl
@[simp] theorem writeIn_draws (a : Nat) (u : CodeUnit) : (s.writeIn a u).draws = s.draws := rfl
@[simp] theorem writeIn_epoch (a : Nat) (u : CodeUnit) : (s.writeIn a u).epoch = s.epoch := rfl

/-! ### writeTable -/

@[simp] theorem writeTable_br (a : Nat) (u : CodeUnit) : (s.writeTable a u).br = s.br := rfl
@[simp] theorem writeTable_keyF (a : Nat) (u : CodeUnit) : (s.writeTable a u).keyF = s.keyF := rfl
@[simp] theorem writeTable_keyS (a : Nat) (u : CodeUnit) : (s.writeTable a u).keyS = s.keyS := rfl
@[simp] theorem writeTable_seed (a : Nat) (u : CodeUnit) : (s.writeTable a u).seed = s.seed := rfl
@[simp] theorem writeTable_running (a : Nat) (u : CodeUnit) : (s.writeTable a u).running = s.running := rfl
@[simp] theorem writeTable_err (a : Nat) (u : CodeUnit) : (s.writeTable a u).err = s.err := rfl
@[simp] theorem writeTable_sticky (a : Nat) (u : CodeUnit) : (s.writeTable a u).sticky = s.sticky := rfl
@[simp] theorem writeTable_outValid (a : Nat) (u : CodeUnit) : (s.writeTable a u).outValid = s.outValid := rfl
@[simp] theorem writeTable_seedValid (a : Nat) (u : CodeUnit) : (s.writeTable a u).seedValid = s.seedValid := rfl
@[simp] theorem writeTable_errcode (a : Nat) (u : CodeUnit) : (s.writeTable a u).errcode = s.errcode := rfl
@[simp] theorem writeTable_resp (a : Nat) (u : CodeUnit) : (s.writeTable a u).resp = s.resp := rfl
@[simp] theorem writeTable_blockBits (a : Nat) (u : CodeUnit) : (s.writeTable a u).blockBits = s.blockBits := rfl
@[simp] theorem writeTable_cipherSel (a : Nat) (u : CodeUnit) : (s.writeTable a u).cipherSel = s.cipherSel := rfl
@[simp] theorem writeTable_frounds (a : Nat) (u : CodeUnit) : (s.writeTable a u).frounds = s.frounds := rfl
@[simp] theorem writeTable_sprounds (a : Nat) (u : CodeUnit) : (s.writeTable a u).sprounds = s.sprounds := rfl
@[simp] theorem writeTable_sprows (a : Nat) (u : CodeUnit) : (s.writeTable a u).sprows = s.sprows := rfl
@[simp] theorem writeTable_inLen (a : Nat) (u : CodeUnit) : (s.writeTable a u).inLen = s.inLen := rfl
@[simp] theorem writeTable_outLen (a : Nat) (u : CodeUnit) : (s.writeTable a u).outLen = s.outLen := rfl
@[simp] theorem writeTable_poolState (a : Nat) (u : CodeUnit) : (s.writeTable a u).poolState = s.poolState := rfl
@[simp] theorem writeTable_timeoutMs (a : Nat) (u : CodeUnit) : (s.writeTable a u).timeoutMs = s.timeoutMs := rfl
@[simp] theorem writeTable_batchCount (a : Nat) (u : CodeUnit) : (s.writeTable a u).batchCount = s.batchCount := rfl
@[simp] theorem writeTable_inBuf (a : Nat) (u : CodeUnit) : (s.writeTable a u).inBuf = s.inBuf := rfl
@[simp] theorem writeTable_outBuf (a : Nat) (u : CodeUnit) : (s.writeTable a u).outBuf = s.outBuf := rfl
@[simp] theorem writeTable_tmem (a : Nat) (u : CodeUnit) : (s.writeTable a u).tmem = s.tmem.write a u := rfl
@[simp] theorem writeTable_resetSeen (a : Nat) (u : CodeUnit) : (s.writeTable a u).resetSeen = s.resetSeen := rfl
@[simp] theorem writeTable_port (a : Nat) (u : CodeUnit) : (s.writeTable a u).port = s.port := rfl
@[simp] theorem writeTable_draws (a : Nat) (u : CodeUnit) : (s.writeTable a u).draws = s.draws := rfl
@[simp] theorem writeTable_epoch (a : Nat) (u : CodeUnit) : (s.writeTable a u).epoch = s.epoch := rfl

/-! ### writeOut -/

@[simp] theorem writeOut_br (a : Nat) (us : List CodeUnit) (len : Nat) : (s.writeOut a us len).br = s.br := rfl
@[simp] theorem writeOut_keyF (a : Nat) (us : List CodeUnit) (len : Nat) : (s.writeOut a us len).keyF = s.keyF := rfl
@[simp] theorem writeOut_keyS (a : Nat) (us : List CodeUnit) (len : Nat) : (s.writeOut a us len).keyS = s.keyS := rfl
@[simp] theorem writeOut_seed (a : Nat) (us : List CodeUnit) (len : Nat) : (s.writeOut a us len).seed = s.seed := rfl
@[simp] theorem writeOut_running (a : Nat) (us : List CodeUnit) (len : Nat) : (s.writeOut a us len).running = s.running := rfl
@[simp] theorem writeOut_err (a : Nat) (us : List CodeUnit) (len : Nat) : (s.writeOut a us len).err = s.err := rfl
@[simp] theorem writeOut_sticky (a : Nat) (us : List CodeUnit) (len : Nat) : (s.writeOut a us len).sticky = s.sticky := rfl
@[simp] theorem writeOut_outValid (a : Nat) (us : List CodeUnit) (len : Nat) : (s.writeOut a us len).outValid = true := rfl
@[simp] theorem writeOut_seedValid (a : Nat) (us : List CodeUnit) (len : Nat) : (s.writeOut a us len).seedValid = s.seedValid := rfl
@[simp] theorem writeOut_errcode (a : Nat) (us : List CodeUnit) (len : Nat) : (s.writeOut a us len).errcode = s.errcode := rfl
@[simp] theorem writeOut_resp (a : Nat) (us : List CodeUnit) (len : Nat) : (s.writeOut a us len).resp = s.resp := rfl
@[simp] theorem writeOut_blockBits (a : Nat) (us : List CodeUnit) (len : Nat) : (s.writeOut a us len).blockBits = s.blockBits := rfl
@[simp] theorem writeOut_cipherSel (a : Nat) (us : List CodeUnit) (len : Nat) : (s.writeOut a us len).cipherSel = s.cipherSel := rfl
@[simp] theorem writeOut_frounds (a : Nat) (us : List CodeUnit) (len : Nat) : (s.writeOut a us len).frounds = s.frounds := rfl
@[simp] theorem writeOut_sprounds (a : Nat) (us : List CodeUnit) (len : Nat) : (s.writeOut a us len).sprounds = s.sprounds := rfl
@[simp] theorem writeOut_sprows (a : Nat) (us : List CodeUnit) (len : Nat) : (s.writeOut a us len).sprows = s.sprows := rfl
@[simp] theorem writeOut_inLen (a : Nat) (us : List CodeUnit) (len : Nat) : (s.writeOut a us len).inLen = s.inLen := rfl
@[simp] theorem writeOut_outLen (a : Nat) (us : List CodeUnit) (len : Nat) : (s.writeOut a us len).outLen = BitVec.ofNat 64 len := rfl
@[simp] theorem writeOut_poolState (a : Nat) (us : List CodeUnit) (len : Nat) : (s.writeOut a us len).poolState = s.poolState := rfl
@[simp] theorem writeOut_timeoutMs (a : Nat) (us : List CodeUnit) (len : Nat) : (s.writeOut a us len).timeoutMs = s.timeoutMs := rfl
@[simp] theorem writeOut_batchCount (a : Nat) (us : List CodeUnit) (len : Nat) : (s.writeOut a us len).batchCount = s.batchCount := rfl
@[simp] theorem writeOut_inBuf (a : Nat) (us : List CodeUnit) (len : Nat) : (s.writeOut a us len).inBuf = s.inBuf := rfl
@[simp] theorem writeOut_outBuf (a : Nat) (us : List CodeUnit) (len : Nat) : (s.writeOut a us len).outBuf = s.outBuf.writeAll a us := rfl
@[simp] theorem writeOut_tmem (a : Nat) (us : List CodeUnit) (len : Nat) : (s.writeOut a us len).tmem = s.tmem := rfl
@[simp] theorem writeOut_resetSeen (a : Nat) (us : List CodeUnit) (len : Nat) : (s.writeOut a us len).resetSeen = s.resetSeen := rfl
@[simp] theorem writeOut_port (a : Nat) (us : List CodeUnit) (len : Nat) : (s.writeOut a us len).port = s.port := rfl
@[simp] theorem writeOut_draws (a : Nat) (us : List CodeUnit) (len : Nat) : (s.writeOut a us len).draws = s.draws := rfl
@[simp] theorem writeOut_epoch (a : Nat) (us : List CodeUnit) (len : Nat) : (s.writeOut a us len).epoch = s.epoch := rfl

/-! ### output -/

@[simp] theorem output_br (w : List CodeUnit) : (s.output w).br = s.br := rfl
@[simp] theorem output_keyF (w : List CodeUnit) : (s.output w).keyF = s.keyF := rfl
@[simp] theorem output_keyS (w : List CodeUnit) : (s.output w).keyS = s.keyS := rfl
@[simp] theorem output_seed (w : List CodeUnit) : (s.output w).seed = s.seed := rfl
@[simp] theorem output_running (w : List CodeUnit) : (s.output w).running = s.running := rfl
@[simp] theorem output_err (w : List CodeUnit) : (s.output w).err = s.err := rfl
@[simp] theorem output_sticky (w : List CodeUnit) : (s.output w).sticky = s.sticky := rfl
@[simp] theorem output_outValid (w : List CodeUnit) : (s.output w).outValid = true := rfl
@[simp] theorem output_seedValid (w : List CodeUnit) : (s.output w).seedValid = s.seedValid := rfl
@[simp] theorem output_errcode (w : List CodeUnit) : (s.output w).errcode = s.errcode := rfl
@[simp] theorem output_resp (w : List CodeUnit) : (s.output w).resp = s.resp := rfl
@[simp] theorem output_blockBits (w : List CodeUnit) : (s.output w).blockBits = s.blockBits := rfl
@[simp] theorem output_cipherSel (w : List CodeUnit) : (s.output w).cipherSel = s.cipherSel := rfl
@[simp] theorem output_frounds (w : List CodeUnit) : (s.output w).frounds = s.frounds := rfl
@[simp] theorem output_sprounds (w : List CodeUnit) : (s.output w).sprounds = s.sprounds := rfl
@[simp] theorem output_sprows (w : List CodeUnit) : (s.output w).sprows = s.sprows := rfl
@[simp] theorem output_inLen (w : List CodeUnit) : (s.output w).inLen = s.inLen := rfl
@[simp] theorem output_outLen (w : List CodeUnit) : (s.output w).outLen = BitVec.ofNat 64 w.length := rfl
@[simp] theorem output_poolState (w : List CodeUnit) : (s.output w).poolState = s.poolState := rfl
@[simp] theorem output_timeoutMs (w : List CodeUnit) : (s.output w).timeoutMs = s.timeoutMs := rfl
@[simp] theorem output_batchCount (w : List CodeUnit) : (s.output w).batchCount = s.batchCount := rfl
@[simp] theorem output_inBuf (w : List CodeUnit) : (s.output w).inBuf = s.inBuf := rfl
@[simp] theorem output_outBuf (w : List CodeUnit) : (s.output w).outBuf = s.outBuf.writeAll 0 w := rfl
@[simp] theorem output_tmem (w : List CodeUnit) : (s.output w).tmem = s.tmem := rfl
@[simp] theorem output_resetSeen (w : List CodeUnit) : (s.output w).resetSeen = s.resetSeen := rfl
@[simp] theorem output_port (w : List CodeUnit) : (s.output w).port = s.port := rfl
@[simp] theorem output_draws (w : List CodeUnit) : (s.output w).draws = s.draws := rfl
@[simp] theorem output_epoch (w : List CodeUnit) : (s.output w).epoch = s.epoch := rfl

/-! ### writeCsr -/

@[simp] theorem writeCsr_br (c : Csr) (v : Nat) : (s.writeCsr c v).br = s.br := by cases c <;> rfl
@[simp] theorem writeCsr_keyF (c : Csr) (v : Nat) : (s.writeCsr c v).keyF = s.keyF := by cases c <;> rfl
@[simp] theorem writeCsr_keyS (c : Csr) (v : Nat) : (s.writeCsr c v).keyS = s.keyS := by cases c <;> rfl
@[simp] theorem writeCsr_seed (c : Csr) (v : Nat) : (s.writeCsr c v).seed = s.seed := by cases c <;> rfl
@[simp] theorem writeCsr_running (c : Csr) (v : Nat) : (s.writeCsr c v).running = s.running := by cases c <;> rfl
@[simp] theorem writeCsr_err (c : Csr) (v : Nat) : (s.writeCsr c v).err = s.err := by cases c <;> rfl
@[simp] theorem writeCsr_sticky (c : Csr) (v : Nat) : (s.writeCsr c v).sticky = s.sticky := by cases c <;> rfl
@[simp] theorem writeCsr_outValid (c : Csr) (v : Nat) : (s.writeCsr c v).outValid = s.outValid := by cases c <;> rfl
@[simp] theorem writeCsr_errcode (c : Csr) (v : Nat) : (s.writeCsr c v).errcode = s.errcode := by cases c <;> rfl
@[simp] theorem writeCsr_resp (c : Csr) (v : Nat) : (s.writeCsr c v).resp = s.resp := by cases c <;> rfl
@[simp] theorem writeCsr_outLen (c : Csr) (v : Nat) : (s.writeCsr c v).outLen = s.outLen := by cases c <;> rfl
@[simp] theorem writeCsr_poolState (c : Csr) (v : Nat) : (s.writeCsr c v).poolState = s.poolState := by cases c <;> rfl
@[simp] theorem writeCsr_batchCount (c : Csr) (v : Nat) : (s.writeCsr c v).batchCount = s.batchCount := by cases c <;> rfl
@[simp] theorem writeCsr_inBuf (c : Csr) (v : Nat) : (s.writeCsr c v).inBuf = s.inBuf := by cases c <;> rfl
@[simp] theorem writeCsr_outBuf (c : Csr) (v : Nat) : (s.writeCsr c v).outBuf = s.outBuf := by cases c <;> rfl
@[simp] theorem writeCsr_tmem (c : Csr) (v : Nat) : (s.writeCsr c v).tmem = s.tmem := by cases c <;> rfl
@[simp] theorem writeCsr_resetSeen (c : Csr) (v : Nat) : (s.writeCsr c v).resetSeen = s.resetSeen := by cases c <;> rfl
@[simp] theorem writeCsr_port (c : Csr) (v : Nat) : (s.writeCsr c v).port = s.port := by cases c <;> rfl
@[simp] theorem writeCsr_draws (c : Csr) (v : Nat) : (s.writeCsr c v).draws = s.draws := by cases c <;> rfl
@[simp] theorem writeCsr_epoch (c : Csr) (v : Nat) : (s.writeCsr c v).epoch = s.epoch := by cases c <;> rfl

/-! ### writeStatus -/

@[simp] theorem writeStatus_br (v : Nat) : (s.writeStatus v).br = s.br := by unfold State.writeStatus; split <;> rfl
@[simp] theorem writeStatus_keyF (v : Nat) : (s.writeStatus v).keyF = s.keyF := by unfold State.writeStatus; split <;> rfl
@[simp] theorem writeStatus_keyS (v : Nat) : (s.writeStatus v).keyS = s.keyS := by unfold State.writeStatus; split <;> rfl
@[simp] theorem writeStatus_seed (v : Nat) : (s.writeStatus v).seed = s.seed := by unfold State.writeStatus; split <;> rfl
@[simp] theorem writeStatus_running (v : Nat) : (s.writeStatus v).running = s.running := by unfold State.writeStatus; split <;> rfl
@[simp] theorem writeStatus_err (v : Nat) : (s.writeStatus v).err = s.err := by unfold State.writeStatus; split <;> rfl
@[simp] theorem writeStatus_outValid (v : Nat) : (s.writeStatus v).outValid = s.outValid := by unfold State.writeStatus; split <;> rfl
@[simp] theorem writeStatus_seedValid (v : Nat) : (s.writeStatus v).seedValid = s.seedValid := by unfold State.writeStatus; split <;> rfl
@[simp] theorem writeStatus_errcode (v : Nat) : (s.writeStatus v).errcode = s.errcode := by unfold State.writeStatus; split <;> rfl
@[simp] theorem writeStatus_resp (v : Nat) : (s.writeStatus v).resp = s.resp := by unfold State.writeStatus; split <;> rfl
@[simp] theorem writeStatus_blockBits (v : Nat) : (s.writeStatus v).blockBits = s.blockBits := by unfold State.writeStatus; split <;> rfl
@[simp] theorem writeStatus_cipherSel (v : Nat) : (s.writeStatus v).cipherSel = s.cipherSel := by unfold State.writeStatus; split <;> rfl
@[simp] theorem writeStatus_frounds (v : Nat) : (s.writeStatus v).frounds = s.frounds := by unfold State.writeStatus; split <;> rfl
@[simp] theorem writeStatus_sprounds (v : Nat) : (s.writeStatus v).sprounds = s.sprounds := by unfold State.writeStatus; split <;> rfl
@[simp] theorem writeStatus_sprows (v : Nat) : (s.writeStatus v).sprows = s.sprows := by unfold State.writeStatus; split <;> rfl
@[simp] theorem writeStatus_inLen (v : Nat) : (s.writeStatus v).inLen = s.inLen := by unfold State.writeStatus; split <;> rfl
@[simp] theorem writeStatus_outLen (v : Nat) : (s.writeStatus v).outLen = s.outLen := by unfold State.writeStatus; split <;> rfl
@[simp] theorem writeStatus_poolState (v : Nat) : (s.writeStatus v).poolState = s.poolState := by unfold State.writeStatus; split <;> rfl
@[simp] theorem writeStatus_timeoutMs (v : Nat) : (s.writeStatus v).timeoutMs = s.timeoutMs := by unfold State.writeStatus; split <;> rfl
@[simp] theorem writeStatus_batchCount (v : Nat) : (s.writeStatus v).batchCount = s.batchCount := by unfold State.writeStatus; split <;> rfl
@[simp] theorem writeStatus_inBuf (v : Nat) : (s.writeStatus v).inBuf = s.inBuf := by unfold State.writeStatus; split <;> rfl
@[simp] theorem writeStatus_outBuf (v : Nat) : (s.writeStatus v).outBuf = s.outBuf := by unfold State.writeStatus; split <;> rfl
@[simp] theorem writeStatus_tmem (v : Nat) : (s.writeStatus v).tmem = s.tmem := by unfold State.writeStatus; split <;> rfl
@[simp] theorem writeStatus_resetSeen (v : Nat) : (s.writeStatus v).resetSeen = s.resetSeen := by unfold State.writeStatus; split <;> rfl
@[simp] theorem writeStatus_port (v : Nat) : (s.writeStatus v).port = s.port := by unfold State.writeStatus; split <;> rfl
@[simp] theorem writeStatus_draws (v : Nat) : (s.writeStatus v).draws = s.draws := by unfold State.writeStatus; split <;> rfl
@[simp] theorem writeStatus_epoch (v : Nat) : (s.writeStatus v).epoch = s.epoch := by unfold State.writeStatus; split <;> rfl

/-! ### writePool -/

@[simp] theorem writePool_br (p : PoolState) : (s.writePool p).br = s.br := rfl
@[simp] theorem writePool_keyF (p : PoolState) : (s.writePool p).keyF = s.keyF := rfl
@[simp] theorem writePool_keyS (p : PoolState) : (s.writePool p).keyS = s.keyS := rfl
@[simp] theorem writePool_seed (p : PoolState) : (s.writePool p).seed = s.seed := rfl
@[simp] theorem writePool_running (p : PoolState) : (s.writePool p).running = s.running := rfl
@[simp] theorem writePool_err (p : PoolState) : (s.writePool p).err = s.err := rfl
@[simp] theorem writePool_sticky (p : PoolState) : (s.writePool p).sticky = s.sticky := rfl
@[simp] theorem writePool_outValid (p : PoolState) : (s.writePool p).outValid = s.outValid := rfl
@[simp] theorem writePool_seedValid (p : PoolState) : (s.writePool p).seedValid = s.seedValid := rfl
@[simp] theorem writePool_errcode (p : PoolState) : (s.writePool p).errcode = s.errcode := rfl
@[simp] theorem writePool_resp (p : PoolState) : (s.writePool p).resp = s.resp := rfl
@[simp] theorem writePool_blockBits (p : PoolState) : (s.writePool p).blockBits = s.blockBits := rfl
@[simp] theorem writePool_cipherSel (p : PoolState) : (s.writePool p).cipherSel = s.cipherSel := rfl
@[simp] theorem writePool_frounds (p : PoolState) : (s.writePool p).frounds = s.frounds := rfl
@[simp] theorem writePool_sprounds (p : PoolState) : (s.writePool p).sprounds = s.sprounds := rfl
@[simp] theorem writePool_sprows (p : PoolState) : (s.writePool p).sprows = s.sprows := rfl
@[simp] theorem writePool_inLen (p : PoolState) : (s.writePool p).inLen = s.inLen := rfl
@[simp] theorem writePool_outLen (p : PoolState) : (s.writePool p).outLen = s.outLen := rfl
@[simp] theorem writePool_poolState (p : PoolState) : (s.writePool p).poolState = p := rfl
@[simp] theorem writePool_timeoutMs (p : PoolState) : (s.writePool p).timeoutMs = s.timeoutMs := rfl
@[simp] theorem writePool_batchCount (p : PoolState) : (s.writePool p).batchCount = s.batchCount := rfl
@[simp] theorem writePool_inBuf (p : PoolState) : (s.writePool p).inBuf = s.inBuf := rfl
@[simp] theorem writePool_outBuf (p : PoolState) : (s.writePool p).outBuf = s.outBuf := rfl
@[simp] theorem writePool_tmem (p : PoolState) : (s.writePool p).tmem = s.tmem := rfl
@[simp] theorem writePool_resetSeen (p : PoolState) : (s.writePool p).resetSeen = s.resetSeen := rfl
@[simp] theorem writePool_port (p : PoolState) : (s.writePool p).port = s.port := rfl
@[simp] theorem writePool_draws (p : PoolState) : (s.writePool p).draws = s.draws := rfl
@[simp] theorem writePool_epoch (p : PoolState) : (s.writePool p).epoch = s.epoch := rfl

/-! ### writeBatchCount -/

@[simp] theorem writeBatchCount_br (b : Nat) : (s.writeBatchCount b).br = s.br := rfl
@[simp] theorem writeBatchCount_keyF (b : Nat) : (s.writeBatchCount b).keyF = s.keyF := rfl
@[simp] theorem writeBatchCount_keyS (b : Nat) : (s.writeBatchCount b).keyS = s.keyS := rfl
@[simp] theorem writeBatchCount_seed (b : Nat) : (s.writeBatchCount b).seed = s.seed := rfl
@[simp] theorem writeBatchCount_running (b : Nat) : (s.writeBatchCount b).running = s.running := rfl
@[simp] theorem writeBatchCount_err (b : Nat) : (s.writeBatchCount b).err = s.err := rfl
@[simp] theorem writeBatchCount_sticky (b : Nat) : (s.writeBatchCount b).sticky = s.sticky := rfl
@[simp] theorem writeBatchCount_outValid (b : Nat) : (s.writeBatchCount b).outValid = s.outValid := rfl
@[simp] theorem writeBatchCount_seedValid (b : Nat) : (s.writeBatchCount b).seedValid = s.seedValid := rfl
@[simp] theorem writeBatchCount_errcode (b : Nat) : (s.writeBatchCount b).errcode = s.errcode := rfl
@[simp] theorem writeBatchCount_resp (b : Nat) : (s.writeBatchCount b).resp = s.resp := rfl
@[simp] theorem writeBatchCount_blockBits (b : Nat) : (s.writeBatchCount b).blockBits = s.blockBits := rfl
@[simp] theorem writeBatchCount_cipherSel (b : Nat) : (s.writeBatchCount b).cipherSel = s.cipherSel := rfl
@[simp] theorem writeBatchCount_frounds (b : Nat) : (s.writeBatchCount b).frounds = s.frounds := rfl
@[simp] theorem writeBatchCount_sprounds (b : Nat) : (s.writeBatchCount b).sprounds = s.sprounds := rfl
@[simp] theorem writeBatchCount_sprows (b : Nat) : (s.writeBatchCount b).sprows = s.sprows := rfl
@[simp] theorem writeBatchCount_inLen (b : Nat) : (s.writeBatchCount b).inLen = s.inLen := rfl
@[simp] theorem writeBatchCount_outLen (b : Nat) : (s.writeBatchCount b).outLen = s.outLen := rfl
@[simp] theorem writeBatchCount_poolState (b : Nat) : (s.writeBatchCount b).poolState = s.poolState := rfl
@[simp] theorem writeBatchCount_timeoutMs (b : Nat) : (s.writeBatchCount b).timeoutMs = s.timeoutMs := rfl
@[simp] theorem writeBatchCount_batchCount (b : Nat) : (s.writeBatchCount b).batchCount = BitVec.ofNat 64 b := rfl
@[simp] theorem writeBatchCount_inBuf (b : Nat) : (s.writeBatchCount b).inBuf = s.inBuf := rfl
@[simp] theorem writeBatchCount_outBuf (b : Nat) : (s.writeBatchCount b).outBuf = s.outBuf := rfl
@[simp] theorem writeBatchCount_tmem (b : Nat) : (s.writeBatchCount b).tmem = s.tmem := rfl
@[simp] theorem writeBatchCount_resetSeen (b : Nat) : (s.writeBatchCount b).resetSeen = s.resetSeen := rfl
@[simp] theorem writeBatchCount_port (b : Nat) : (s.writeBatchCount b).port = s.port := rfl
@[simp] theorem writeBatchCount_draws (b : Nat) : (s.writeBatchCount b).draws = s.draws := rfl
@[simp] theorem writeBatchCount_epoch (b : Nat) : (s.writeBatchCount b).epoch = s.epoch := rfl

/-! ### accept -/

@[simp] theorem accept_br (cw : Word) (rest : List PortInput) : (s.accept cw rest).br = s.br := rfl
@[simp] theorem accept_keyF (cw : Word) (rest : List PortInput) : (s.accept cw rest).keyF = s.keyF := rfl
@[simp] theorem accept_keyS (cw : Word) (rest : List PortInput) : (s.accept cw rest).keyS = s.keyS := rfl
@[simp] theorem accept_seed (cw : Word) (rest : List PortInput) : (s.accept cw rest).seed = s.seed := rfl
@[simp] theorem accept_running (cw : Word) (rest : List PortInput) : (s.accept cw rest).running = some cw := rfl
@[simp] theorem accept_err (cw : Word) (rest : List PortInput) : (s.accept cw rest).err = s.err := rfl
@[simp] theorem accept_sticky (cw : Word) (rest : List PortInput) : (s.accept cw rest).sticky = s.sticky := rfl
@[simp] theorem accept_outValid (cw : Word) (rest : List PortInput) : (s.accept cw rest).outValid = s.outValid := rfl
@[simp] theorem accept_seedValid (cw : Word) (rest : List PortInput) : (s.accept cw rest).seedValid = s.seedValid := rfl
@[simp] theorem accept_errcode (cw : Word) (rest : List PortInput) : (s.accept cw rest).errcode = s.errcode := rfl
@[simp] theorem accept_resp (cw : Word) (rest : List PortInput) : (s.accept cw rest).resp = s.resp := rfl
@[simp] theorem accept_blockBits (cw : Word) (rest : List PortInput) : (s.accept cw rest).blockBits = s.blockBits := rfl
@[simp] theorem accept_cipherSel (cw : Word) (rest : List PortInput) : (s.accept cw rest).cipherSel = s.cipherSel := rfl
@[simp] theorem accept_frounds (cw : Word) (rest : List PortInput) : (s.accept cw rest).frounds = s.frounds := rfl
@[simp] theorem accept_sprounds (cw : Word) (rest : List PortInput) : (s.accept cw rest).sprounds = s.sprounds := rfl
@[simp] theorem accept_sprows (cw : Word) (rest : List PortInput) : (s.accept cw rest).sprows = s.sprows := rfl
@[simp] theorem accept_inLen (cw : Word) (rest : List PortInput) : (s.accept cw rest).inLen = s.inLen := rfl
@[simp] theorem accept_outLen (cw : Word) (rest : List PortInput) : (s.accept cw rest).outLen = s.outLen := rfl
@[simp] theorem accept_poolState (cw : Word) (rest : List PortInput) : (s.accept cw rest).poolState = s.poolState := rfl
@[simp] theorem accept_timeoutMs (cw : Word) (rest : List PortInput) : (s.accept cw rest).timeoutMs = s.timeoutMs := rfl
@[simp] theorem accept_batchCount (cw : Word) (rest : List PortInput) : (s.accept cw rest).batchCount = s.batchCount := rfl
@[simp] theorem accept_inBuf (cw : Word) (rest : List PortInput) : (s.accept cw rest).inBuf = s.inBuf := rfl
@[simp] theorem accept_outBuf (cw : Word) (rest : List PortInput) : (s.accept cw rest).outBuf = s.outBuf := rfl
@[simp] theorem accept_tmem (cw : Word) (rest : List PortInput) : (s.accept cw rest).tmem = s.tmem := rfl
@[simp] theorem accept_resetSeen (cw : Word) (rest : List PortInput) : (s.accept cw rest).resetSeen = s.resetSeen := rfl
@[simp] theorem accept_port (cw : Word) (rest : List PortInput) : (s.accept cw rest).port = rest := rfl
@[simp] theorem accept_draws (cw : Word) (rest : List PortInput) : (s.accept cw rest).draws = s.draws := rfl
@[simp] theorem accept_epoch (cw : Word) (rest : List PortInput) : (s.accept cw rest).epoch = s.epoch := rfl

/-! ### waitIdle -/

@[simp] theorem waitIdle_br (rest : List PortInput) : (s.waitIdle rest).br = s.br := rfl
@[simp] theorem waitIdle_keyF (rest : List PortInput) : (s.waitIdle rest).keyF = s.keyF := rfl
@[simp] theorem waitIdle_keyS (rest : List PortInput) : (s.waitIdle rest).keyS = s.keyS := rfl
@[simp] theorem waitIdle_seed (rest : List PortInput) : (s.waitIdle rest).seed = s.seed := rfl
@[simp] theorem waitIdle_running (rest : List PortInput) : (s.waitIdle rest).running = s.running := rfl
@[simp] theorem waitIdle_err (rest : List PortInput) : (s.waitIdle rest).err = s.err := rfl
@[simp] theorem waitIdle_sticky (rest : List PortInput) : (s.waitIdle rest).sticky = s.sticky := rfl
@[simp] theorem waitIdle_outValid (rest : List PortInput) : (s.waitIdle rest).outValid = s.outValid := rfl
@[simp] theorem waitIdle_seedValid (rest : List PortInput) : (s.waitIdle rest).seedValid = s.seedValid := rfl
@[simp] theorem waitIdle_errcode (rest : List PortInput) : (s.waitIdle rest).errcode = s.errcode := rfl
@[simp] theorem waitIdle_resp (rest : List PortInput) : (s.waitIdle rest).resp = s.resp := rfl
@[simp] theorem waitIdle_blockBits (rest : List PortInput) : (s.waitIdle rest).blockBits = s.blockBits := rfl
@[simp] theorem waitIdle_cipherSel (rest : List PortInput) : (s.waitIdle rest).cipherSel = s.cipherSel := rfl
@[simp] theorem waitIdle_frounds (rest : List PortInput) : (s.waitIdle rest).frounds = s.frounds := rfl
@[simp] theorem waitIdle_sprounds (rest : List PortInput) : (s.waitIdle rest).sprounds = s.sprounds := rfl
@[simp] theorem waitIdle_sprows (rest : List PortInput) : (s.waitIdle rest).sprows = s.sprows := rfl
@[simp] theorem waitIdle_inLen (rest : List PortInput) : (s.waitIdle rest).inLen = s.inLen := rfl
@[simp] theorem waitIdle_outLen (rest : List PortInput) : (s.waitIdle rest).outLen = s.outLen := rfl
@[simp] theorem waitIdle_poolState (rest : List PortInput) : (s.waitIdle rest).poolState = s.poolState := rfl
@[simp] theorem waitIdle_timeoutMs (rest : List PortInput) : (s.waitIdle rest).timeoutMs = s.timeoutMs := rfl
@[simp] theorem waitIdle_batchCount (rest : List PortInput) : (s.waitIdle rest).batchCount = s.batchCount := rfl
@[simp] theorem waitIdle_inBuf (rest : List PortInput) : (s.waitIdle rest).inBuf = s.inBuf := rfl
@[simp] theorem waitIdle_outBuf (rest : List PortInput) : (s.waitIdle rest).outBuf = s.outBuf := rfl
@[simp] theorem waitIdle_tmem (rest : List PortInput) : (s.waitIdle rest).tmem = s.tmem := rfl
@[simp] theorem waitIdle_resetSeen (rest : List PortInput) : (s.waitIdle rest).resetSeen = s.resetSeen := rfl
@[simp] theorem waitIdle_port (rest : List PortInput) : (s.waitIdle rest).port = rest := rfl
@[simp] theorem waitIdle_draws (rest : List PortInput) : (s.waitIdle rest).draws = s.draws := rfl
@[simp] theorem waitIdle_epoch (rest : List PortInput) : (s.waitIdle rest).epoch = s.epoch := rfl

/-! ### passIdle -/

@[simp] theorem passIdle_br : s.passIdle.br = s.br := by unfold State.passIdle; split <;> rfl
@[simp] theorem passIdle_keyF : s.passIdle.keyF = s.keyF := by unfold State.passIdle; split <;> rfl
@[simp] theorem passIdle_keyS : s.passIdle.keyS = s.keyS := by unfold State.passIdle; split <;> rfl
@[simp] theorem passIdle_seed : s.passIdle.seed = s.seed := by unfold State.passIdle; split <;> rfl
@[simp] theorem passIdle_running : s.passIdle.running = s.running := by unfold State.passIdle; split <;> rfl
@[simp] theorem passIdle_err : s.passIdle.err = s.err := by unfold State.passIdle; split <;> rfl
@[simp] theorem passIdle_sticky : s.passIdle.sticky = s.sticky := by unfold State.passIdle; split <;> rfl
@[simp] theorem passIdle_outValid : s.passIdle.outValid = s.outValid := by unfold State.passIdle; split <;> rfl
@[simp] theorem passIdle_seedValid : s.passIdle.seedValid = s.seedValid := by unfold State.passIdle; split <;> rfl
@[simp] theorem passIdle_errcode : s.passIdle.errcode = s.errcode := by unfold State.passIdle; split <;> rfl
@[simp] theorem passIdle_resp : s.passIdle.resp = s.resp := by unfold State.passIdle; split <;> rfl
@[simp] theorem passIdle_blockBits : s.passIdle.blockBits = s.blockBits := by unfold State.passIdle; split <;> rfl
@[simp] theorem passIdle_cipherSel : s.passIdle.cipherSel = s.cipherSel := by unfold State.passIdle; split <;> rfl
@[simp] theorem passIdle_frounds : s.passIdle.frounds = s.frounds := by unfold State.passIdle; split <;> rfl
@[simp] theorem passIdle_sprounds : s.passIdle.sprounds = s.sprounds := by unfold State.passIdle; split <;> rfl
@[simp] theorem passIdle_sprows : s.passIdle.sprows = s.sprows := by unfold State.passIdle; split <;> rfl
@[simp] theorem passIdle_inLen : s.passIdle.inLen = s.inLen := by unfold State.passIdle; split <;> rfl
@[simp] theorem passIdle_outLen : s.passIdle.outLen = s.outLen := by unfold State.passIdle; split <;> rfl
@[simp] theorem passIdle_poolState : s.passIdle.poolState = s.poolState := by unfold State.passIdle; split <;> rfl
@[simp] theorem passIdle_timeoutMs : s.passIdle.timeoutMs = s.timeoutMs := by unfold State.passIdle; split <;> rfl
@[simp] theorem passIdle_batchCount : s.passIdle.batchCount = s.batchCount := by unfold State.passIdle; split <;> rfl
@[simp] theorem passIdle_inBuf : s.passIdle.inBuf = s.inBuf := by unfold State.passIdle; split <;> rfl
@[simp] theorem passIdle_outBuf : s.passIdle.outBuf = s.outBuf := by unfold State.passIdle; split <;> rfl
@[simp] theorem passIdle_tmem : s.passIdle.tmem = s.tmem := by unfold State.passIdle; split <;> rfl
@[simp] theorem passIdle_resetSeen : s.passIdle.resetSeen = s.resetSeen := by unfold State.passIdle; split <;> rfl
@[simp] theorem passIdle_draws : s.passIdle.draws = s.draws := by unfold State.passIdle; split <;> rfl
@[simp] theorem passIdle_epoch : s.passIdle.epoch = s.epoch := by unfold State.passIdle; split <;> rfl

/-! ### loadCommand -/

@[simp] theorem loadCommand_br (cw : Word) : (s.loadCommand cw).br = s.br := rfl
@[simp] theorem loadCommand_keyF (cw : Word) : (s.loadCommand cw).keyF = s.keyF := rfl
@[simp] theorem loadCommand_keyS (cw : Word) : (s.loadCommand cw).keyS = s.keyS := rfl
@[simp] theorem loadCommand_seed (cw : Word) : (s.loadCommand cw).seed = s.seed := rfl
@[simp] theorem loadCommand_running (cw : Word) : (s.loadCommand cw).running = some cw := rfl
@[simp] theorem loadCommand_err (cw : Word) : (s.loadCommand cw).err = s.err := rfl
@[simp] theorem loadCommand_sticky (cw : Word) : (s.loadCommand cw).sticky = s.sticky := rfl
@[simp] theorem loadCommand_outValid (cw : Word) : (s.loadCommand cw).outValid = s.outValid := rfl
@[simp] theorem loadCommand_seedValid (cw : Word) : (s.loadCommand cw).seedValid = s.seedValid := rfl
@[simp] theorem loadCommand_errcode (cw : Word) : (s.loadCommand cw).errcode = s.errcode := rfl
@[simp] theorem loadCommand_resp (cw : Word) : (s.loadCommand cw).resp = s.resp := rfl
@[simp] theorem loadCommand_blockBits (cw : Word) : (s.loadCommand cw).blockBits = s.blockBits := rfl
@[simp] theorem loadCommand_cipherSel (cw : Word) : (s.loadCommand cw).cipherSel = s.cipherSel := rfl
@[simp] theorem loadCommand_frounds (cw : Word) : (s.loadCommand cw).frounds = s.frounds := rfl
@[simp] theorem loadCommand_sprounds (cw : Word) : (s.loadCommand cw).sprounds = s.sprounds := rfl
@[simp] theorem loadCommand_sprows (cw : Word) : (s.loadCommand cw).sprows = s.sprows := rfl
@[simp] theorem loadCommand_inLen (cw : Word) : (s.loadCommand cw).inLen = s.inLen := rfl
@[simp] theorem loadCommand_outLen (cw : Word) : (s.loadCommand cw).outLen = s.outLen := rfl
@[simp] theorem loadCommand_poolState (cw : Word) : (s.loadCommand cw).poolState = s.poolState := rfl
@[simp] theorem loadCommand_timeoutMs (cw : Word) : (s.loadCommand cw).timeoutMs = s.timeoutMs := rfl
@[simp] theorem loadCommand_batchCount (cw : Word) : (s.loadCommand cw).batchCount = s.batchCount := rfl
@[simp] theorem loadCommand_inBuf (cw : Word) : (s.loadCommand cw).inBuf = s.inBuf := rfl
@[simp] theorem loadCommand_outBuf (cw : Word) : (s.loadCommand cw).outBuf = s.outBuf := rfl
@[simp] theorem loadCommand_tmem (cw : Word) : (s.loadCommand cw).tmem = s.tmem := rfl
@[simp] theorem loadCommand_resetSeen (cw : Word) : (s.loadCommand cw).resetSeen = true := rfl
@[simp] theorem loadCommand_draws (cw : Word) : (s.loadCommand cw).draws = s.draws := rfl
@[simp] theorem loadCommand_epoch (cw : Word) : (s.loadCommand cw).epoch = s.epoch := rfl

/-! ### The key banks -/

@[simp] theorem writeKey_feistel_keyF (j : Nat) (v : BlockVal) :
    (s.writeKey .feistel j v).keyF = s.keyF.setIfInBounds j (some v) := rfl
@[simp] theorem writeKey_feistel_keyS (j : Nat) (v : BlockVal) : (s.writeKey .feistel j v).keyS = s.keyS := rfl
@[simp] theorem writeKey_sp_keyF (j : Nat) (v : BlockVal) : (s.writeKey .sp j v).keyF = s.keyF := rfl
@[simp] theorem writeKey_sp_keyS (j : Nat) (v : BlockVal) :
    (s.writeKey .sp j v).keyS = s.keyS.setIfInBounds j (some v) := rfl
@[simp] theorem fillKeys_feistel_keyS (n : Nat) (f : Nat → BlockVal) : (s.fillKeys .feistel n f).keyS = s.keyS := by simp only [State.fillKeys]
@[simp] theorem fillKeys_sp_keyF (n : Nat) (f : Nat → BlockVal) : (s.fillKeys .sp n f).keyF = s.keyF := by simp only [State.fillKeys]

/-! ### Reads after updates -/

@[simp] theorem readBr_writeBr_same (r : Reg) (v : BlockVal) : (s.writeBr r v).readBr r = some v := by
  simp [State.readBr]

theorem readBr_writeBr_other (r q : Reg) (v : BlockVal) (h : q ≠ r) : (s.writeBr r v).readBr q = s.readBr q := by
  have : r.val ≠ q.val := fun e => h (Fin.ext e.symm)
  simp [State.readBr, Vector.getElem_set_ne, this]

theorem readBr_of_br_eq {t : State} (h : t.br = s.br) (r : Reg) : t.readBr r = s.readBr r := by
  simp [State.readBr, h]

/-! ### Reset -/

@[simp] theorem applyReset_port (rest : List PortInput) : (s.applyReset rest).port = rest := rfl
@[simp] theorem applyReset_draws (rest : List PortInput) : (s.applyReset rest).draws = s.draws + 1 := rfl
@[simp] theorem applyReset_epoch (rest : List PortInput) : (s.applyReset rest).epoch = s.epoch + 1 := rfl
@[simp] theorem applyReset_running (rest : List PortInput) : (s.applyReset rest).running = none := rfl
@[simp] theorem applyReset_resetSeen (rest : List PortInput) : (s.applyReset rest).resetSeen = true := rfl

end Sys2Proof.Machine
end

