-- ==== Sys2Proof/Laws/Effects.lean ====
section
/-! SUPPORT. The checks and the completion of a command (00_scope.md R13, 60_exceptions.md R153): what `need`, `source` and the
three completions can do, said once. -/

namespace Sys2Proof.Machine

@[simp] theorem need_true {p : Prop} [Decidable p] (h : p) (e : Err) : need p e = .ok () := if_pos h
@[simp] theorem need_false {p : Prop} [Decidable p] (h : ¬p) (e : Err) : need p e = .error e := if_neg h

theorem need_eq_ok {p : Prop} [Decidable p] {e : Err} {u : Unit} : need p e = .ok u ↔ p := by
  by_cases h : p <;> simp [h]

theorem need_eq_error {p : Prop} [Decidable p] {e f : Err} : need p e = .error f ↔ ¬p ∧ f = e := by
  by_cases h : p <;> simp [h, eq_comm]

@[simp] theorem ok_bind {ε α β : Type} (a : α) (f : α → Except ε β) : (Except.ok a >>= f) = f a := rfl
@[simp] theorem error_bind {ε α β : Type} (e : ε) (f : α → Except ε β) : (Except.error e >>= f) = .error e := rfl
@[simp] theorem pure_eq_ok {ε α : Type} (a : α) : (pure a : Except ε α) = .ok a := rfl

/-- A sequence answers a value exactly when its first part does and the rest does on it. -/
theorem bind_eq_ok {ε α β : Type} {x : Except ε α} {f : α → Except ε β} {b : β} :
    (x >>= f) = .ok b ↔ ∃ a, x = .ok a ∧ f a = .ok b := by
  cases x <;> simp

/-- A sequence fails exactly when its first part does, or the rest does on its value. -/
theorem bind_eq_error {ε α β : Type} {x : Except ε α} {f : α → Except ε β} {e : ε} :
    (x >>= f) = .error e ↔ x = .error e ∨ ∃ a, x = .ok a ∧ f a = .error e := by
  cases x <;> simp

theorem source_eq_ok {s : State} {r : Reg} {v : BlockVal} : s.source r = .ok v ↔ s.readBr r = some v := by
  unfold State.source; cases s.readBr r <;> simp

theorem source_eq_error {s : State} {r : Reg} {e : Err} : s.source r = .error e ↔ s.readBr r = none ∧ e = .absent := by
  unfold State.source; cases s.readBr r <;> simp [eq_comm]

theorem asBv_eq_ok {v : BlockVal} {b : Bits} : asBv v = .ok b ↔ v = .bv b := by
  cases v <;> simp [asBv]

theorem asMx_eq_ok {v : BlockVal} {m : ByteMatrix} : asMx v = .ok m ↔ v = .mx m := by
  cases v <;> simp [asMx]

/-- What a command that is no mode command can leave. -/
theorem complete_cases {opc : Byte} {s t : State} {r : Effect} (h : complete opc s r = .next t) :
    (∃ u resp, r = .ok (u, resp) ∧ t = u.succeed resp) ∨ (∃ e, r = .error e ∧ t = s.raise opc e) := by
  cases r with
  | ok p => exact .inl ⟨p.1, p.2, rfl, by cases h; rfl⟩
  | error e => exact .inr ⟨e, rfl, by cases h; rfl⟩

/-- What a single-threaded mode command can leave. -/
theorem completeMode_cases {opc : Byte} {s t : State} {r : Except Err (List CodeUnit)}
    (h : completeMode opc s r = .next t) :
    (∃ w, r = .ok w ∧ t = (s.output w).succeed 0) ∨ (∃ e, r = .error e ∧ t = s.raiseMode opc e) := by
  cases r with
  | ok w => exact .inl ⟨w, rfl, by cases h; rfl⟩
  | error e => exact .inr ⟨e, rfl, by cases h; rfl⟩

/-- What a multithreaded mode command can leave. -/
theorem completeMt_cases {opc : Byte} {s t : State} {r : MtResult} (h : completeMt opc s r = .next t) :
    (∃ w b, r = .ok (w, b) ∧ t = ((s.output w).writeBatchCount b).succeed 0) ∨
      (∃ e, r = .error e ∧ t = s.raiseMode opc e) := by
  cases r with
  | ok p => exact .inl ⟨p.1, p.2, rfl, by cases h; rfl⟩
  | error e => exact .inr ⟨e, rfl, by cases h; rfl⟩

/-- A completion always answers a next state. -/
theorem complete_isNext (opc : Byte) (s : State) (r : Effect) : ∃ t, complete opc s r = .next t := by
  cases r <;> exact ⟨_, rfl⟩

theorem completeMode_isNext (opc : Byte) (s : State) (r : Except Err (List CodeUnit)) :
    ∃ t, completeMode opc s r = .next t := by
  cases r <;> exact ⟨_, rfl⟩

theorem completeMt_isNext (opc : Byte) (s : State) (r : MtResult) : ∃ t, completeMt opc s r = .next t := by
  cases r <;> exact ⟨_, rfl⟩

end Sys2Proof.Machine
end

