-- ==== Sys2Proof/Laws/Encoding.lean ====
section
/-! SUPPORT. The command word field by field (30_encoding.md R59): each field of an assembled word, a word put together again
from its fields, and the readings of R61 and R62 undone by the encoder's. -/

namespace Sys2Proof

/-! ### The fields of an assembled word -/

/-- An appended word's value. -/
theorem toNat_append_add {n m : Nat} (x : BitVec n) (y : BitVec m) : (x ++ y).toNat = x.toNat * 2 ^ m + y.toNat := by
  rw [BitVec.toNat_append, ← Nat.shiftLeft_add_eq_or_of_lt y.isLt, Nat.shiftLeft_eq]

theorem assemble_toNat (o : Byte) (f : Fields) : (assemble o f).toNat =
    (((((o.toNat * 16 + f.rd.toNat) * 16 + f.rs1.toNat) * 16 + f.rs2.toNat) * 16 + f.fl.toNat) * 2 ^ 20 + f.imma.toNat) *
      2 ^ 20 + f.immb.toNat := by
  have h : (assemble o f).toNat = (o ++ f.rd ++ f.rs1 ++ f.rs2 ++ f.fl ++ f.imma ++ f.immb).toNat := rfl
  rw [h]
  simp only [toNat_append_add, show (2 : Nat) ^ 4 = 16 from rfl]

theorem opcField_assemble (o : Byte) (f : Fields) : opcField (assemble o f) = o := by
  apply BitVec.eq_of_toNat_eq
  simp only [opcField, BitVec.extractLsb'_toNat, assemble_toNat, Nat.shiftRight_eq_div_pow]
  have := o.isLt; have := f.rd.isLt; have := f.rs1.isLt; have := f.rs2.isLt; have := f.fl.isLt
  have := f.imma.isLt; have := f.immb.isLt
  omega

theorem rdField_assemble (o : Byte) (f : Fields) : rdField (assemble o f) = f.rd := by
  apply BitVec.eq_of_toNat_eq
  simp only [rdField, BitVec.extractLsb'_toNat, assemble_toNat, Nat.shiftRight_eq_div_pow]
  have := o.isLt; have := f.rd.isLt; have := f.rs1.isLt; have := f.rs2.isLt; have := f.fl.isLt
  have := f.imma.isLt; have := f.immb.isLt
  omega

theorem rs1Field_assemble (o : Byte) (f : Fields) : rs1Field (assemble o f) = f.rs1 := by
  apply BitVec.eq_of_toNat_eq
  simp only [rs1Field, BitVec.extractLsb'_toNat, assemble_toNat, Nat.shiftRight_eq_div_pow]
  have := o.isLt; have := f.rd.isLt; have := f.rs1.isLt; have := f.rs2.isLt; have := f.fl.isLt
  have := f.imma.isLt; have := f.immb.isLt
  omega

theorem rs2Field_assemble (o : Byte) (f : Fields) : rs2Field (assemble o f) = f.rs2 := by
  apply BitVec.eq_of_toNat_eq
  simp only [rs2Field, BitVec.extractLsb'_toNat, assemble_toNat, Nat.shiftRight_eq_div_pow]
  have := o.isLt; have := f.rd.isLt; have := f.rs1.isLt; have := f.rs2.isLt; have := f.fl.isLt
  have := f.imma.isLt; have := f.immb.isLt
  omega

theorem immaField_assemble (o : Byte) (f : Fields) : immaField (assemble o f) = f.imma := by
  apply BitVec.eq_of_toNat_eq
  simp only [immaField, BitVec.extractLsb'_toNat, assemble_toNat, Nat.shiftRight_eq_div_pow]
  have := o.isLt; have := f.rd.isLt; have := f.rs1.isLt; have := f.rs2.isLt; have := f.fl.isLt
  have := f.imma.isLt; have := f.immb.isLt
  omega

theorem immbField_assemble (o : Byte) (f : Fields) : immbField (assemble o f) = f.immb := by
  apply BitVec.eq_of_toNat_eq
  simp only [immbField, BitVec.extractLsb'_toNat, assemble_toNat, Nat.shiftRight_eq_div_pow]
  have := o.isLt; have := f.rd.isLt; have := f.rs1.isLt; have := f.rs2.isLt; have := f.fl.isLt
  have := f.imma.isLt; have := f.immb.isLt
  omega

/-- FL as a field of the word (R59). -/
def flField (cw : Word) : BitVec 4 := cw.extractLsb' 40 4

theorem flField_assemble (o : Byte) (f : Fields) : flField (assemble o f) = f.fl := by
  apply BitVec.eq_of_toNat_eq
  simp only [flField, BitVec.extractLsb'_toNat, assemble_toNat, Nat.shiftRight_eq_div_pow]
  have := o.isLt; have := f.rd.isLt; have := f.rs1.isLt; have := f.rs2.isLt; have := f.fl.isLt
  have := f.imma.isLt; have := f.immb.isLt
  omega

theorem bankBit_eq (cw : Word) : bankBit cw = (flField cw).getLsbD 1 := by
  simp [bankBit, flField]

theorem loopBit_eq (cw : Word) : loopBit cw = (flField cw).getLsbD 0 := by
  simp [loopBit, flField]

theorem bankBit_assemble (o : Byte) (f : Fields) : bankBit (assemble o f) = f.fl.getLsbD 1 := by
  rw [bankBit_eq, flField_assemble]

theorem loopBit_assemble (o : Byte) (f : Fields) : loopBit (assemble o f) = f.fl.getLsbD 0 := by
  rw [loopBit_eq, flField_assemble]

/-- Every word is its opcode and its fields, side by side. -/
theorem assemble_fields (cw : Word) :
    assemble (opcField cw)
      { rd := rdField cw, rs1 := rs1Field cw, rs2 := rs2Field cw, fl := flField cw, imma := immaField cw,
        immb := immbField cw } = cw := by
  apply BitVec.eq_of_toNat_eq
  rw [assemble_toNat]
  simp only [opcField, rdField, rs1Field, rs2Field, flField, immaField, immbField, BitVec.extractLsb'_toNat,
    Nat.shiftRight_eq_div_pow]
  have := cw.isLt
  omega

/-- Two words with the same fields are equal. -/
theorem word_ext {a b : Word} (ho : opcField a = opcField b) (hd : rdField a = rdField b) (h1 : rs1Field a = rs1Field b)
    (h2 : rs2Field a = rs2Field b) (hf : flField a = flField b) (ha : immaField a = immaField b)
    (hb : immbField a = immbField b) : a = b := by
  rw [← assemble_fields a, ← assemble_fields b, ho, hd, h1, h2, hf, ha, hb]

theorem opcField_and (a b : Word) : opcField (a &&& b) = opcField a &&& opcField b := BitVec.extractLsb'_and
theorem rdField_and (a b : Word) : rdField (a &&& b) = rdField a &&& rdField b := BitVec.extractLsb'_and
theorem rs1Field_and (a b : Word) : rs1Field (a &&& b) = rs1Field a &&& rs1Field b := BitVec.extractLsb'_and
theorem rs2Field_and (a b : Word) : rs2Field (a &&& b) = rs2Field a &&& rs2Field b := BitVec.extractLsb'_and
theorem flField_and (a b : Word) : flField (a &&& b) = flField a &&& flField b := BitVec.extractLsb'_and
theorem immaField_and (a b : Word) : immaField (a &&& b) = immaField a &&& immaField b := BitVec.extractLsb'_and
theorem immbField_and (a b : Word) : immbField (a &&& b) = immbField a &&& immbField b := BitVec.extractLsb'_and

/-- Two words side by side, AND field by field (the reserved masks of R60 are words like any other). -/
theorem assemble_and (o o' : Byte) (f f' : Fields) : assemble o f &&& assemble o' f' =
    assemble (o &&& o')
      { rd := f.rd &&& f'.rd, rs1 := f.rs1 &&& f'.rs1, rs2 := f.rs2 &&& f'.rs2, fl := f.fl &&& f'.fl,
        imma := f.imma &&& f'.imma, immb := f.immb &&& f'.immb } := by
  apply word_ext <;>
    simp only [opcField_and, rdField_and, rs1Field_and, rs2Field_and, flField_and, immaField_and, immbField_and,
      opcField_assemble, rdField_assemble, rs1Field_assemble, rs2Field_assemble, flField_assemble, immaField_assemble,
      immbField_assemble]

/-- A word is zero exactly when its fields are. -/
theorem assemble_eq_zero (o : Byte) (f : Fields) : assemble o f = 0#64 ↔
    o = 0 ∧ f.rd = 0 ∧ f.rs1 = 0 ∧ f.rs2 = 0 ∧ f.fl = 0 ∧ f.imma = 0 ∧ f.immb = 0 := by
  constructor
  · intro h
    have ho := opcField_assemble o f; have hd := rdField_assemble o f; have h1 := rs1Field_assemble o f
    have h2 := rs2Field_assemble o f; have hf := flField_assemble o f; have ha := immaField_assemble o f
    have hb := immbField_assemble o f
    rw [h] at ho hd h1 h2 hf ha hb
    exact ⟨ho ▸ rfl, hd ▸ rfl, h1 ▸ rfl, h2 ▸ rfl, hf ▸ rfl, ha ▸ rfl, hb ▸ rfl⟩
  · rintro ⟨rfl, h⟩
    obtain ⟨rd, rs1, rs2, fl, imma, immb⟩ := f
    obtain ⟨rfl, rfl, rfl, rfl, rfl, rfl⟩ := h
    rfl

/-- The reserved mask of a format, field by field (R60). -/
def Format.reservedFields : Format → Fields
  | .n    => { rd := 0xF, rs1 := 0xF, rs2 := 0xF, fl := 0xF, imma := 0xFFFFF, immb := 0xFFFFF }
  | .i1   => { rd := 0xF, rs1 := 0xF, rs2 := 0xF, fl := 0xF, immb := 0xFFFFF }
  | .i2   => { rd := 0xF, rs1 := 0xF, rs2 := 0xF, fl := 0xF }
  | .i2h  => { rd := 0xF, rs1 := 0xF, rs2 := 0xF, fl := 0xF, immb := 0xF0000 }
  | .b8   => { rd := 0xF, rs1 := 0xF, rs2 := 0xF, fl := 0xF, imma := 0xFFF00, immb := 0xFFFFF }
  | .b88  => { rd := 0xF, rs1 := 0xF, rs2 := 0xF, fl := 0xF, imma := 0xFFF00, immb := 0xFFF00 }
  | .s    => { rd := 0xF, rs2 := 0xF, fl := 0xF, imma := 0xFFFFF, immb := 0xFFFFF }
  | .ss   => { rd := 0xF, fl := 0xF, imma := 0xFFFFF, immb := 0xFFFFF }
  | .si   => { rd := 0xF, rs2 := 0xF, fl := 0xF, immb := 0xFFFFF }
  | .k    => { rd := 0xF, rs2 := 0xF, fl := 0xD, immb := 0xFFFFF }
  | .kx   => { rd := 0xF, rs2 := 0xF, fl := 0xD, imma := 0xFFFFF, immb := 0xFFFFF }
  | .di   => { rs1 := 0xF, rs2 := 0xF, fl := 0xF, immb := 0xFFFFF }
  | .dii  => { rs1 := 0xF, rs2 := 0xF, fl := 0xF }
  | .ds   => { rs2 := 0xF, fl := 0xF, imma := 0xFFFFF, immb := 0xFFFFF }
  | .dss  => { fl := 0xF, imma := 0xFFFFF, immb := 0xFFFFF }
  | .dsil => { rs2 := 0xF, fl := 0xE, immb := 0xFFFFF }
  | .dsii => { rs2 := 0xF, fl := 0xF }
  | .dsib => { rs2 := 0xF, fl := 0xF, immb := 0xFFF00 }

theorem reservedMask_eq (f : Format) : f.reservedMask = assemble 0 f.reservedFields := by cases f <;> rfl

/-- A word has no reserved bit of a format set exactly when none of its fields has. -/
theorem reserved_clear_iff (cw : Word) (f : Format) : cw &&& f.reservedMask = 0#64 ↔
    rdField cw &&& f.reservedFields.rd = 0 ∧ rs1Field cw &&& f.reservedFields.rs1 = 0 ∧
    rs2Field cw &&& f.reservedFields.rs2 = 0 ∧ flField cw &&& f.reservedFields.fl = 0 ∧
    immaField cw &&& f.reservedFields.imma = 0 ∧ immbField cw &&& f.reservedFields.immb = 0 := by
  conv_lhs => rw [← assemble_fields cw, reservedMask_eq, assemble_and, assemble_eq_zero]
  simp

/-! ### Readings undone -/

theorem regField_toNat (r : Reg) : (regField r).toNat = r.val := by
  simp only [regField, BitVec.toNat_ofNat]; omega

@[simp] theorem regOf_regField (r : Reg) : regOf (regField r) = r := by
  apply Fin.ext
  simp only [regOf, regField_toNat, Fin.val_ofNat]; omega

theorem regField_regOf {f : BitVec 4} (h : f.toNat < 8) : regField (regOf f) = f := by
  apply BitVec.eq_of_toNat_eq
  rw [regField_toNat]
  simp only [regOf, Fin.val_ofNat]; omega

theorem immU_toNat {n : Nat} (h : FitsUnsigned20 n) : (immU n).toNat = n := by
  simp only [immU, BitVec.toNat_ofNat]; exact Nat.mod_eq_of_lt h

theorem immS_toInt {n : Int} (h : FitsSigned20 n) : (immS n).toInt = n := by
  simp only [immS, BitVec.toInt_ofInt]
  exact Int.bmod_eq_of_le (by have := h.1; omega) (by have := h.2; omega)

theorem immU_of_toNat (x : BitVec 20) : immU x.toNat = x := by simp [immU]
theorem immS_of_toInt (x : BitVec 20) : immS x.toInt = x := by simp [immS]
theorem fitsUnsigned_toNat (x : BitVec 20) : FitsUnsigned20 x.toNat := x.isLt
theorem fitsSigned_toInt (x : BitVec 20) : FitsSigned20 x.toInt :=
  ⟨by have := BitVec.le_toInt x; simpa using this, by have := BitVec.toInt_lt (x := x); simpa using this⟩

@[simp] theorem byte_setWidth_setWidth (x : Byte) : (x.setWidth 20).setWidth 8 = x := by
  apply BitVec.eq_of_toNat_eq
  have := x.isLt
  simp only [BitVec.toNat_setWidth]; omega

@[simp] theorem unit_setWidth_setWidth (x : CodeUnit) : (x.setWidth 20).setWidth 16 = x := by
  apply BitVec.eq_of_toNat_eq
  have := x.isLt
  simp only [BitVec.toNat_setWidth]; omega

@[simp] theorem bankOf_bankFl (b : Bank) : bankOf (bankFl b)[1] = b := by cases b <;> rfl
@[simp] theorem getElem_loopFl (l : Bool) : (loopFl l)[0] = l := by cases l <;> rfl

/-- A byte, a unit, BANK and LOOP in their fields leave the field's reserved bits clear (R60). -/
@[simp] theorem byte_reserved (x : Byte) : x.setWidth 20 &&& 0xFFF00#20 = 0#20 := by decide +revert
@[simp] theorem bank_reserved (b : Bank) : bankFl b &&& 0xD#4 = 0#4 := by cases b <;> rfl
@[simp] theorem loop_reserved (l : Bool) : loopFl l &&& 0xE#4 = 0#4 := by cases l <;> rfl
@[simp] theorem unit_reserved (x : CodeUnit) : x.setWidth 20 &&& 0xF0000#20 = 0#20 := by
  have h : 0xF0000#20 = 0xF#4 ++ 0#16 := rfl
  have h' : x.setWidth 20 = 0#4 ++ x := by
    apply BitVec.eq_of_toNat_eq
    rw [toNat_append_add, BitVec.toNat_setWidth]
    have := x.isLt
    simp; omega
  rw [h, h', BitVec.and_append]
  simp

/-- The same the other way: a field whose reserved bits are clear is what its reading puts back. -/
theorem bankFl_bankOf {x : BitVec 4} (h : x &&& 0xD#4 = 0#4) : bankFl (bankOf (x.getLsbD 1)) = x := by
  revert h; revert x; decide

theorem loopFl_getLsbD {x : BitVec 4} (h : x &&& 0xE#4 = 0#4) : loopFl (x.getLsbD 0) = x := by
  revert h; revert x; decide

theorem byteMask_high : ∀ j : Fin 20, 8 ≤ j.val → (0xFFF00#20)[j.val] = true := by decide
theorem unitMask_high : ∀ j : Fin 20, 16 ≤ j.val → (0xF0000#20)[j.val] = true := by decide

theorem byte_of_clear {x : BitVec 20} (h : x &&& 0xFFF00#20 = 0#20) : (x.setWidth 8).setWidth 20 = x := by
  ext i hi
  simp only [BitVec.getElem_setWidth, BitVec.getLsbD_setWidth]
  by_cases hi' : i < 8
  · simp [hi', BitVec.getLsbD_eq_getElem, hi]
  · have hm := byteMask_high
    have hx : (x &&& 0xFFF00#20)[i] = false := by rw [h]; simp
    rw [BitVec.getElem_and, hm ⟨i, hi⟩ (by simpa using hi'), Bool.and_true] at hx
    simp [hi', hx]

theorem unit_of_clear {x : BitVec 20} (h : x &&& 0xF0000#20 = 0#20) : (x.setWidth 16).setWidth 20 = x := by
  ext i hi
  simp only [BitVec.getElem_setWidth, BitVec.getLsbD_setWidth]
  by_cases hi' : i < 16
  · simp [hi', BitVec.getLsbD_eq_getElem, hi]
  · have hm := unitMask_high
    have hx : (x &&& 0xF0000#20)[i] = false := by rw [h]; simp
    rw [BitVec.getElem_and, hm ⟨i, hi⟩ (by simpa using hi'), Bool.and_true] at hx
    simp [hi', hx]

/-! ### The opcode map -/

/-- The row of every command's opcode is in the map. -/
theorem rowOf_opcode (i : Instr) : ∃ row, rowOf i.opcode = some row ∧ row.opc = i.opcode := by
  cases i <;> exact ⟨_, rfl, rfl⟩

theorem rowOf_mem {o : Byte} {r : OpRow} (h : rowOf o = some r) : r ∈ opcodeMap ∧ r.opc = o := by
  unfold rowOf at h
  exact ⟨List.mem_of_find?_eq_some h, by simpa using List.find?_some h⟩

/-- What a successful decode says, once. -/
theorem decode_eq_ok {cw : Word} {i : Instr} : decode cw = .ok i ↔
    ∃ row, rowOf (opcField cw) = some row ∧ cw &&& row.format.reservedMask = 0#64 ∧ regFieldsLegal row.format cw = true ∧
      row.build cw = i := by
  unfold decode
  cases h : rowOf (opcField cw) with
  | none => simp
  | some row =>
    by_cases h₁ : cw &&& row.format.reservedMask = 0#64
    · by_cases h₂ : regFieldsLegal row.format cw = true <;> simp [h₁, h₂]
    · simp [h₁]

end Sys2Proof
end

