-- ==== Sys2Proof/Laws/Memory.lean ====
section
/-! SUPPORT. The memory spaces: a read after a write, and the canonical form (20_memory.md R43, log 1). -/

namespace Sys2Proof.Machine

theorem find_write (m : Memory) (a b : Nat) (v : CodeUnit) :
    (Memory.write m a v).find b = if b = a then some v else m.find b := by
  induction m with
  | nil => simp [Memory.write, Memory.find]
  | cons e rest ih =>
    obtain ⟨c, w⟩ := e
    simp only [Memory.write]
    split
    · simp [Memory.find]
    · split
      · subst_vars
        simp only [Memory.find]
        split <;> rfl
      · simp only [Memory.find, ih]
        split
        · split
          · omega
          · rfl
        · rfl

@[simp] theorem find_write_same (m : Memory) (a : Nat) (v : CodeUnit) : (Memory.write m a v).find a = some v := by
  simp [find_write]

theorem find_write_other (m : Memory) {a b : Nat} (v : CodeUnit) (h : b ≠ a) :
    (Memory.write m a v).find b = m.find b := by
  simp [find_write, h]

/-- Range writes land where they say, and nowhere else. -/
theorem find_writeAll (vs : List CodeUnit) : ∀ (m : Memory) (a b : Nat),
    (Memory.writeAll m a vs).find b =
      if a ≤ b ∧ b < a + vs.length then vs[b - a]? else m.find b := by
  induction vs with
  | nil => intro m a b; simp [Memory.writeAll]
  | cons v rest ih =>
    intro m a b
    simp only [Memory.writeAll, ih, List.length_cons, find_write]
    by_cases h1 : a + 1 ≤ b ∧ b < a + 1 + rest.length
    · have h2 : a ≤ b ∧ b < a + (rest.length + 1) := by omega
      obtain ⟨k, rfl⟩ : ∃ k, b = a + 1 + k := ⟨b - (a + 1), by omega⟩
      rw [if_pos h1, if_pos h2]
      have h3 : a + 1 + k - a = k + 1 := by omega
      simp [h3]
    · rw [if_neg h1]
      by_cases h2 : b = a
      · subst h2; simp
      · rw [if_neg h2, if_neg (by omega)]

theorem risesFrom_mono (m : Memory) : ∀ {lo hi : Nat}, lo ≤ hi → Memory.risesFrom hi m = true → Memory.risesFrom lo m = true := by
  cases m with
  | nil => intros; rfl
  | cons e rest =>
    intro lo hi h hr
    simp only [Memory.risesFrom, Bool.and_eq_true, decide_eq_true_eq] at *
    exact ⟨by omega, hr.2⟩

theorem risesFrom_write (m : Memory) (v : CodeUnit) : ∀ {lo a : Nat}, lo ≤ a → Memory.risesFrom lo m = true →
    Memory.risesFrom lo (Memory.write m a v) = true := by
  induction m with
  | nil => intro lo a h _; simp [Memory.write, Memory.risesFrom, h]
  | cons e rest ih =>
    obtain ⟨b, w⟩ := e
    intro lo a h hr
    simp only [Memory.risesFrom, Bool.and_eq_true, decide_eq_true_eq] at hr
    simp only [Memory.write]
    split
    · simp only [Memory.risesFrom, Bool.and_eq_true, decide_eq_true_eq]
      exact ⟨h, by omega, hr.2⟩
    · split
      · subst_vars
        simp only [Memory.risesFrom, Bool.and_eq_true, decide_eq_true_eq]
        exact hr
      · simp only [Memory.risesFrom, Bool.and_eq_true, decide_eq_true_eq]
        exact ⟨hr.1, ih (by omega) hr.2⟩

theorem all_write (m : Memory) (a : Nat) (v : CodeUnit) (p : Nat × CodeUnit → Bool) (hp : p (a, v) = true)
    (hm : m.all p = true) : (Memory.write m a v).all p = true := by
  induction m with
  | nil => simp [Memory.write, hp]
  | cons e rest ih =>
    obtain ⟨b, w⟩ := e
    simp only [List.all_cons, Bool.and_eq_true] at hm
    simp only [Memory.write]
    split
    · simp only [List.all_cons, Bool.and_eq_true]; exact ⟨hp, hm.1, hm.2⟩
    · split
      · simp only [List.all_cons, Bool.and_eq_true]; exact ⟨hp, hm.2⟩
      · simp only [List.all_cons, Bool.and_eq_true]; exact ⟨hm.1, ih hm.2⟩

/-- Writing inside the space keeps the canonical form. -/
theorem write_wf {size : Nat} {m : Memory} (h : Memory.wf size m = true) {a : Nat} (ha : a < size) (v : CodeUnit) :
    Memory.wf size (Memory.write m a v) = true := by
  simp only [Memory.wf, Bool.and_eq_true] at *
  exact ⟨risesFrom_write m v (Nat.zero_le a) h.1, all_write m a v _ (by simpa using ha) h.2⟩

/-- So does a range write. -/
theorem writeAll_wf {size : Nat} (vs : List CodeUnit) : ∀ {m : Memory} {a : Nat}, Memory.wf size m = true →
    a + vs.length ≤ size → Memory.wf size (Memory.writeAll m a vs) = true := by
  induction vs with
  | nil => intro m a h _; exact h
  | cons v rest ih =>
    intro m a h ha
    simp only [List.length_cons] at ha
    exact ih (write_wf h (by omega) v) (by omega)

theorem empty_wf (size : Nat) : Memory.wf size [] = true := rfl

/-- Two memories in canonical form with the same entries are the same list. -/
theorem find_below (m : Memory) : ∀ {lo b : Nat}, Memory.risesFrom lo m = true → b < lo → m.find b = none := by
  induction m with
  | nil => intros; rfl
  | cons e rest ih =>
    obtain ⟨c, w⟩ := e
    intro lo b hr hb
    simp only [Memory.risesFrom, Bool.and_eq_true, decide_eq_true_eq] at hr
    simp only [Memory.find]
    rw [if_neg (by omega)]
    exact ih hr.2 (by omega)

theorem memory_ext (m : Memory) : ∀ {n : Memory} {lo : Nat}, Memory.risesFrom lo m = true →
    Memory.risesFrom lo n = true → (∀ a, m.find a = n.find a) → m = n := by
  induction m with
  | nil =>
    intro n lo _ _ h
    cases n with
    | nil => rfl
    | cons e _ => have := h e.1; simp [Memory.find] at this
  | cons e rest ih =>
    obtain ⟨a, v⟩ := e
    intro n lo hm hn h
    cases n with
    | nil => have := h a; simp [Memory.find] at this
    | cons f rest' =>
      obtain ⟨b, w⟩ := f
      simp only [Memory.risesFrom, Bool.and_eq_true, decide_eq_true_eq] at hm hn
      have key : a = b := by
        rcases Nat.lt_trichotomy a b with hlt | heq | hgt
        · have := h a
          simp only [Memory.find, if_true] at this
          rw [if_neg (by omega), find_below rest' hn.2 (by omega)] at this
          cases this
        · exact heq
        · have := h b
          simp only [Memory.find, if_true] at this
          rw [if_neg (by omega), find_below rest hm.2 (by omega)] at this
          cases this
      subst key
      have hv := h a
      simp only [Memory.find, if_true, Option.some.injEq] at hv
      subst hv
      congr 1
      refine ih hm.2 hn.2 fun c => ?_
      have hc := h c
      simp only [Memory.find] at hc
      split at hc
      · subst_vars
        rw [find_below rest hm.2 (by omega), find_below rest' hn.2 (by omega)]
      · exact hc

end Sys2Proof.Machine
end

