-- ==== Sys2Proof/Laws/PerInstr.lean ====
section
/-! SUPPORT. Per command: its encoding passes the decoder's three checks (30_encoding.md R60, R61, R63, R64), whatever its
operands. One lemma per constructor. -/

namespace Sys2Proof.Laws.Encoding

/-- The opcode is in the map, and the word sets no reserved bit and names only registers 0 .. 7. -/
def Statement (i : Instr) : Prop :=
  ∃ row, rowOf i.opcode = some row ∧ encode i &&& row.format.reservedMask = 0#64 ∧
    regFieldsLegal row.format (encode i) = true

/-- What is left of the two checks once the fields are those of the command's format. -/
theorem of_fields {i : Instr} {row : OpRow} (h : rowOf i.opcode = some row)
    (h₁ : i.fields.rd &&& row.format.reservedFields.rd = 0 ∧ i.fields.rs1 &&& row.format.reservedFields.rs1 = 0 ∧
      i.fields.rs2 &&& row.format.reservedFields.rs2 = 0 ∧ i.fields.fl &&& row.format.reservedFields.fl = 0 ∧
      i.fields.imma &&& row.format.reservedFields.imma = 0 ∧ i.fields.immb &&& row.format.reservedFields.immb = 0)
    (h₂ : i.fields.rd.toNat < 8 ∧ i.fields.rs1.toNat < 8 ∧ i.fields.rs2.toNat < 8) : Statement i := by
  refine ⟨row, h, ?_, ?_⟩
  · rw [reserved_clear_iff]
    simpa only [encode, rdField_assemble, rs1Field_assemble, rs2Field_assemble, flField_assemble, immaField_assemble,
      immbField_assemble] using h₁
  · simp only [regFieldsLegal, encode, rdField_assemble, rs1Field_assemble, rs2Field_assemble, h₂, decide_true,
      Bool.or_true, Bool.and_self]

theorem nop : Statement .nop :=
  of_fields rfl (by simp [Instr.fields, Format.reservedFields]) (by simp [Instr.fields])

theorem csrr (csr : Nat) : Statement (.csrr csr) :=
  of_fields rfl (by simp [Instr.fields, Format.reservedFields]) (by simp [Instr.fields])

theorem csrw (csr value : Nat) : Statement (.csrw csr value) :=
  of_fields rfl (by simp [Instr.fields, Format.reservedFields]) (by simp [Instr.fields])

theorem inwr (idx : Nat) (u : CodeUnit) : Statement (.inwr idx u) :=
  of_fields rfl (by simp [Instr.fields, Format.reservedFields]) (by simp [Instr.fields])

theorem outrd (idx : Nat) : Statement (.outrd idx) :=
  of_fields rfl (by simp [Instr.fields, Format.reservedFields]) (by simp [Instr.fields])

theorem tmwr (idx : Nat) (entry : CodeUnit) : Statement (.tmwr idx entry) :=
  of_fields rfl (by simp [Instr.fields, Format.reservedFields]) (by simp [Instr.fields])

theorem tmrd (idx : Nat) : Statement (.tmrd idx) :=
  of_fields rfl (by simp [Instr.fields, Format.reservedFields]) (by simp [Instr.fields])

theorem seedset (rs1 : Reg) : Statement (.seedset rs1) :=
  of_fields rfl (by simp [Instr.fields, Format.reservedFields]) (by simp [Instr.fields, regField_toNat])

theorem kset (bank : Bank) (idx : Nat) (rs1 : Reg) : Statement (.kset bank idx rs1) :=
  of_fields rfl (by simp [Instr.fields, Format.reservedFields]) (by simp [Instr.fields, regField_toNat])

theorem kexp (bank : Bank) (rs1 : Reg) : Statement (.kexp bank rs1) :=
  of_fields rfl (by simp [Instr.fields, Format.reservedFields]) (by simp [Instr.fields, regField_toNat])

theorem poolInit : Statement .poolInit :=
  of_fields rfl (by simp [Instr.fields, Format.reservedFields]) (by simp [Instr.fields])

theorem poolRecycle : Statement .poolRecycle :=
  of_fields rfl (by simp [Instr.fields, Format.reservedFields]) (by simp [Instr.fields])

theorem bzero (rd : Reg) (len : Nat) : Statement (.bzero rd len) :=
  of_fields rfl (by simp [Instr.fields, Format.reservedFields]) (by simp [Instr.fields, regField_toNat])

theorem bmov (rd rs1 : Reg) : Statement (.bmov rd rs1) :=
  of_fields rfl (by simp [Instr.fields, Format.reservedFields]) (by simp [Instr.fields, regField_toNat])

theorem bxor (rd rs1 rs2 : Reg) : Statement (.bxor rd rs1 rs2) :=
  of_fields rfl (by simp [Instr.fields, Format.reservedFields]) (by simp [Instr.fields, regField_toNat])

theorem bshl (rd rs1 : Reg) (loop : Bool) (n : Int) : Statement (.bshl rd rs1 loop n) :=
  of_fields rfl (by simp [Instr.fields, Format.reservedFields]) (by simp [Instr.fields, regField_toNat])

theorem bgetb (rs1 : Reg) (pos : Nat) : Statement (.bgetb rs1 pos) :=
  of_fields rfl (by simp [Instr.fields, Format.reservedFields]) (by simp [Instr.fields, regField_toNat])

theorem bsetb (rd rs1 : Reg) (pos : Nat) (val : Byte) : Statement (.bsetb rd rs1 pos val) :=
  of_fields rfl (by simp [Instr.fields, Format.reservedFields]) (by simp [Instr.fields, regField_toNat])

theorem bsize (rs1 : Reg) : Statement (.bsize rs1) :=
  of_fields rfl (by simp [Instr.fields, Format.reservedFields]) (by simp [Instr.fields, regField_toNat])

theorem bvslice (rd rs1 : Reg) (lo hi : Int) : Statement (.bvslice rd rs1 lo hi) :=
  of_fields rfl (by simp [Instr.fields, Format.reservedFields]) (by simp [Instr.fields, regField_toNat])

theorem bvcat (rd rs1 rs2 : Reg) : Statement (.bvcat rd rs1 rs2) :=
  of_fields rfl (by simp [Instr.fields, Format.reservedFields]) (by simp [Instr.fields, regField_toNat])

theorem bvperm (rd rs1 : Reg) (tbase tlen : Nat) : Statement (.bvperm rd rs1 tbase tlen) :=
  of_fields rfl (by simp [Instr.fields, Format.reservedFields]) (by simp [Instr.fields, regField_toNat])

theorem bvcmp (rs1 rs2 : Reg) : Statement (.bvcmp rs1 rs2) :=
  of_fields rfl (by simp [Instr.fields, Format.reservedFields]) (by simp [Instr.fields, regField_toNat])

theorem bvsum (rs1 : Reg) : Statement (.bvsum rs1) :=
  of_fields rfl (by simp [Instr.fields, Format.reservedFields]) (by simp [Instr.fields, regField_toNat])

theorem bvfromu (rd : Reg) (base count : Nat) : Statement (.bvfromu rd base count) :=
  of_fields rfl (by simp [Instr.fields, Format.reservedFields]) (by simp [Instr.fields, regField_toNat])

theorem bvtou (rs1 : Reg) (base : Nat) : Statement (.bvtou rs1 base) :=
  of_fields rfl (by simp [Instr.fields, Format.reservedFields]) (by simp [Instr.fields, regField_toNat])

theorem mxfrombv (rd rs1 : Reg) (rows cols : Nat) : Statement (.mxfrombv rd rs1 rows cols) :=
  of_fields rfl (by simp [Instr.fields, Format.reservedFields]) (by simp [Instr.fields, regField_toNat])

theorem mxtobv (rd rs1 : Reg) : Statement (.mxtobv rd rs1) :=
  of_fields rfl (by simp [Instr.fields, Format.reservedFields]) (by simp [Instr.fields, regField_toNat])

theorem mxsub (rd rs1 : Reg) (tbase tlen : Nat) : Statement (.mxsub rd rs1 tbase tlen) :=
  of_fields rfl (by simp [Instr.fields, Format.reservedFields]) (by simp [Instr.fields, regField_toNat])

theorem mxrotl (rd rs1 : Reg) : Statement (.mxrotl rd rs1) :=
  of_fields rfl (by simp [Instr.fields, Format.reservedFields]) (by simp [Instr.fields, regField_toNat])

theorem mxrotr (rd rs1 : Reg) : Statement (.mxrotr rd rs1) :=
  of_fields rfl (by simp [Instr.fields, Format.reservedFields]) (by simp [Instr.fields, regField_toNat])

theorem mxmul (rd rs1 rs2 : Reg) : Statement (.mxmul rd rs1 rs2) :=
  of_fields rfl (by simp [Instr.fields, Format.reservedFields]) (by simp [Instr.fields, regField_toNat])

theorem gfxtime (a : Byte) : Statement (.gfxtime a) :=
  of_fields rfl (by simp [Instr.fields, Format.reservedFields]) (by simp [Instr.fields])

theorem gfmul (a b : Byte) : Statement (.gfmul a b) :=
  of_fields rfl (by simp [Instr.fields, Format.reservedFields]) (by simp [Instr.fields])

theorem fen (rd rs1 : Reg) : Statement (.fen rd rs1) :=
  of_fields rfl (by simp [Instr.fields, Format.reservedFields]) (by simp [Instr.fields, regField_toNat])

theorem fde (rd rs1 : Reg) : Statement (.fde rd rs1) :=
  of_fields rfl (by simp [Instr.fields, Format.reservedFields]) (by simp [Instr.fields, regField_toNat])

theorem spen (rd rs1 : Reg) : Statement (.spen rd rs1) :=
  of_fields rfl (by simp [Instr.fields, Format.reservedFields]) (by simp [Instr.fields, regField_toNat])

theorem spde (rd rs1 : Reg) : Statement (.spde rd rs1) :=
  of_fields rfl (by simp [Instr.fields, Format.reservedFields]) (by simp [Instr.fields, regField_toNat])

theorem ecbe : Statement .ecbe :=
  of_fields rfl (by simp [Instr.fields, Format.reservedFields]) (by simp [Instr.fields])

theorem ecbd : Statement .ecbd :=
  of_fields rfl (by simp [Instr.fields, Format.reservedFields]) (by simp [Instr.fields])

theorem cbce : Statement .cbce :=
  of_fields rfl (by simp [Instr.fields, Format.reservedFields]) (by simp [Instr.fields])

theorem cbcd : Statement .cbcd :=
  of_fields rfl (by simp [Instr.fields, Format.reservedFields]) (by simp [Instr.fields])

theorem cfbe : Statement .cfbe :=
  of_fields rfl (by simp [Instr.fields, Format.reservedFields]) (by simp [Instr.fields])

theorem cfbd : Statement .cfbd :=
  of_fields rfl (by simp [Instr.fields, Format.reservedFields]) (by simp [Instr.fields])

theorem ofbe : Statement .ofbe :=
  of_fields rfl (by simp [Instr.fields, Format.reservedFields]) (by simp [Instr.fields])

theorem ofbd : Statement .ofbd :=
  of_fields rfl (by simp [Instr.fields, Format.reservedFields]) (by simp [Instr.fields])

theorem ecbeMt : Statement .ecbeMt :=
  of_fields rfl (by simp [Instr.fields, Format.reservedFields]) (by simp [Instr.fields])

theorem ecbdMt : Statement .ecbdMt :=
  of_fields rfl (by simp [Instr.fields, Format.reservedFields]) (by simp [Instr.fields])

theorem cbceMt : Statement .cbceMt :=
  of_fields rfl (by simp [Instr.fields, Format.reservedFields]) (by simp [Instr.fields])

theorem cbcdMt : Statement .cbcdMt :=
  of_fields rfl (by simp [Instr.fields, Format.reservedFields]) (by simp [Instr.fields])

end Sys2Proof.Laws.Encoding
end

