-- ==== Sys2Proof/Laws/Step.lean ====
section
/-! SUPPORT. What a command and a step can do, said once: every command is one completion of its effect, and a step is one of
six moves at the port (20_memory.md R39, 60_exceptions.md R153, 70_reset_and_hazards.md R169). -/

namespace Sys2Proof.Machine

/-- Every command completes its effect: as a mode command, as a multithreaded one, or as any other. -/
theorem exec_shape (i : Instr) (s : State) :
    (i.isMode = false ∧ ∃ r : Effect, exec i s = complete i.opcode s r) ∨
    (i.isMode = true ∧ i.isMt = false ∧ ∃ r, exec i s = completeMode i.opcode s r) ∨
    (i.isMt = true ∧ i.isMode = true ∧ ∃ r, exec i s = completeMt i.opcode s r) := by
  cases i with
  | nop => exact .inl ⟨rfl, .ok (s, 0), rfl⟩
  | poolInit => exact .inl ⟨rfl, .ok (s.writePool .ready, 0), rfl⟩
  | poolRecycle => exact .inl ⟨rfl, .ok (if s.poolState ≠ .absent then s.writePool .shutdown else s, 0), rfl⟩
  | gfxtime a => exact .inl ⟨rfl, .ok (s, (xtime a).setWidth 64), rfl⟩
  | gfmul a b => exact .inl ⟨rfl, .ok (s, (gmul a b).setWidth 64), rfl⟩
  | _ =>
    first
    | exact .inl ⟨rfl, _, rfl⟩
    | exact .inr (.inl ⟨rfl, rfl, _, rfl⟩)
    | exact .inr (.inr ⟨rfl, rfl, _, rfl⟩)

/-- No command faults and none is refused. -/
theorem exec_isNext (i : Instr) (s : State) : ∃ t, exec i s = .next t := by
  obtain ⟨-, r, h⟩ | ⟨-, -, r, h⟩ | ⟨-, -, r, h⟩ := exec_shape i s
  · rw [h]; exact complete_isNext ..
  · rw [h]; exact completeMode_isNext ..
  · rw [h]; exact completeMt_isNext ..

/-- A mode command's outcome: an output, with BATCH_COUNT as it was or the command's own, or a failure. -/
theorem exec_mode_cases {i : Instr} {s t : State} (hm : i.isMode = true) (h : exec i s = .next t) :
    (∃ w, t = (s.output w).succeed 0) ∨ (i.isMt = true ∧ ∃ w b, t = ((s.output w).writeBatchCount b).succeed 0) ∨
      (∃ e, t = s.raiseMode i.opcode e) := by
  obtain ⟨h', -⟩ | ⟨-, -, r, hr⟩ | ⟨h', -, r, hr⟩ := exec_shape i s
  · rw [hm] at h'; cases h'
  · rw [hr] at h
    obtain ⟨w, -, rfl⟩ | ⟨e, -, rfl⟩ := completeMode_cases h
    · exact .inl ⟨w, rfl⟩
    · exact .inr (.inr ⟨e, rfl⟩)
  · rw [hr] at h
    obtain ⟨w, b, -, rfl⟩ | ⟨e, -, rfl⟩ := completeMt_cases h
    · exact .inr (.inl ⟨h', w, b, rfl⟩)
    · exact .inr (.inr ⟨e, rfl⟩)

/-- Before the first reset, with an RST to come: the block takes it, and nothing before it matters. -/
theorem stuckUntilReset_rst {s : State} {pre rest : List PortInput} (hp : s.port = pre ++ .rst :: rest)
    (h : .rst ∉ pre) : s.stuckUntilReset = .next (s.applyReset rest) := by
  have hd : s.port.dropWhile (fun p => p != .rst) = .rst :: rest := by
    rw [hp, List.dropWhile_append_of_pos]
    · rfl
    · exact fun a ha => bne_iff_ne.2 fun he => h (he ▸ ha)
  rw [State.stuckUntilReset, hd]

/-- Before the first reset, with no RST to come: the stop. -/
theorem stuckUntilReset_fault {s : State} (h : .rst ∉ s.port) : s.stuckUntilReset = .fault .beforeReset := by
  have hd : s.port.dropWhile (fun p => p != .rst) = [] :=
    List.dropWhile_eq_nil_iff.2 fun a ha => bne_iff_ne.2 fun he => h (he ▸ ha)
  rw [State.stuckUntilReset, hd]

/-- A block stuck before the first reset goes on only by an RST. -/
theorem stuckUntilReset_cases {s t : State} (h : s.stuckUntilReset = .next t) :
    ∃ pre rest, s.port = pre ++ .rst :: rest ∧ .rst ∉ pre ∧ t = s.applyReset rest := by
  by_cases hr : PortInput.rst ∈ s.port
  · obtain ⟨pre, rest, hp, hn⟩ := List.eq_append_cons_of_mem hr
    rw [stuckUntilReset_rst hp hn] at h
    exact ⟨pre, rest, hp, hn, by cases h; rfl⟩
  · rw [stuckUntilReset_fault hr] at h
    cases h

/-- What a step can do. -/
theorem step_cases {s t : State} (h : step s = .next t) :
    (∃ pre rest, s.port = pre ++ .rst :: rest ∧ .rst ∉ pre ∧ t = s.applyReset rest) ∨
    (∃ cw i, s.running = some cw ∧ s.resetSeen = true ∧ decode cw = .ok i ∧ exec i s.passIdle = .next t) ∨
    (∃ cw why, s.running = some cw ∧ s.resetSeen = true ∧ decode cw = .error why ∧
      t = s.passIdle.raiseIllegal cw why) ∨
    (∃ cw rest, s.running = none ∧ s.resetSeen = true ∧ s.port = .present cw :: rest ∧ t = s.accept cw rest) ∨
    (∃ rest, s.running = none ∧ s.port = .idle :: rest ∧ t = s.waitIdle rest) ∨
    (s.running = none ∧ s.port = [] ∧ t = s) := by
  unfold step at h
  split at h
  · rename_i rest hp
    exact .inl ⟨[], rest, hp, List.not_mem_nil, by cases h; rfl⟩
  · rename_i cw hr _
    split at h
    · simp only [runCommand] at h
      split at h
      · exact .inr (.inl ⟨cw, _, hr, ‹_›, ‹_›, h⟩)
      · exact .inr (.inr (.inl ⟨cw, _, hr, ‹_›, ‹_›, by cases h; rfl⟩))
    · exact .inl (stuckUntilReset_cases h)
  · rename_i cw rest hp hr
    split at h
    · exact .inr (.inr (.inr (.inl ⟨cw, rest, hr, ‹_›, hp, by cases h; rfl⟩)))
    · exact .inl (stuckUntilReset_cases h)
  · rename_i rest hp hr
    exact .inr (.inr (.inr (.inr (.inl ⟨rest, hr, hp, by cases h; rfl⟩))))
  · rename_i hp hr
    exact .inr (.inr (.inr (.inr (.inr ⟨hr, hp, by cases h; rfl⟩))))

/-- Letting an idle input pass touches the port only. -/
theorem passIdle_eq (s : State) : ∃ p, s.passIdle = { s with port := p } := by
  unfold State.passIdle
  split
  · exact ⟨_, rfl⟩
  all_goals exact ⟨s.port, rfl⟩

end Sys2Proof.Machine
end

