-- ==== Sys2Proof/Machine/Assembler.lean ====
section
/-! DEFINITION. The assembler's side of 30_encoding.md: the text of a command (R67) and the expansions of the
pseudo-instructions (R68). The block reads words only; the host writes programs in these terms. -/

namespace Sys2Proof

/-- A block register's name (R67). -/
def regName (r : Reg) : String := "b" ++ Nat.repr r.val

/-- The suffix that selects a key bank (R67). -/
def bankSuffix : Bank → String
  | .feistel => ".F"
  | .sp => ".S"

/-- An unsigned and a signed immediate in decimal (R67). -/
def immText (n : Nat) : String := Nat.repr n
def signedText (n : Int) : String := if n < 0 then "-" ++ Nat.repr n.natAbs else Nat.repr n.natAbs

/-- Operands separated by commas (R67). -/
def operandText (l : List String) : String := String.intercalate ", " l

/-- `MNEMONIC operands` in the order of R63's syntax column (R67). -/
def Instr.text : Instr → String
  | .nop => "NOP"
  | .csrr csr => "CSRR " ++ operandText [immText csr]
  | .csrw csr value => "CSRW " ++ operandText [immText csr, immText value]
  | .inwr idx u => "INWR " ++ operandText [immText idx, immText u.toNat]
  | .outrd idx => "OUTRD " ++ operandText [immText idx]
  | .tmwr idx entry => "TMWR " ++ operandText [immText idx, immText entry.toNat]
  | .tmrd idx => "TMRD " ++ operandText [immText idx]
  | .seedset rs1 => "SEEDSET " ++ operandText [regName rs1]
  | .kset bank idx rs1 => "KSET" ++ bankSuffix bank ++ " " ++ operandText [immText idx, regName rs1]
  | .kexp bank rs1 => "KEXP" ++ bankSuffix bank ++ " " ++ operandText [regName rs1]
  | .poolInit => "POOL_INIT"
  | .poolRecycle => "POOL_RECYCLE"
  | .bzero rd len => "BZERO " ++ operandText [regName rd, immText len]
  | .bmov rd rs1 => "BMOV " ++ operandText [regName rd, regName rs1]
  | .bxor rd rs1 rs2 => "BXOR " ++ operandText [regName rd, regName rs1, regName rs2]
  | .bshl rd rs1 loop n => (if loop then "BSHL.L " else "BSHL ") ++ operandText [regName rd, regName rs1, signedText n]
  | .bgetb rs1 pos => "BGETB " ++ operandText [regName rs1, immText pos]
  | .bsetb rd rs1 pos val => "BSETB " ++ operandText [regName rd, regName rs1, immText pos, immText val.toNat]
  | .bsize rs1 => "BSIZE " ++ operandText [regName rs1]
  | .bvslice rd rs1 lo hi => "BVSLICE " ++ operandText [regName rd, regName rs1, signedText lo, signedText hi]
  | .bvcat rd rs1 rs2 => "BVCAT " ++ operandText [regName rd, regName rs1, regName rs2]
  | .bvperm rd rs1 tbase tlen => "BVPERM " ++ operandText [regName rd, regName rs1, immText tbase, immText tlen]
  | .bvcmp rs1 rs2 => "BVCMP " ++ operandText [regName rs1, regName rs2]
  | .bvsum rs1 => "BVSUM " ++ operandText [regName rs1]
  | .bvfromu rd base count => "BVFROMU " ++ operandText [regName rd, immText base, immText count]
  | .bvtou rs1 base => "BVTOU " ++ operandText [regName rs1, immText base]
  | .mxfrombv rd rs1 rows cols => "MXFROMBV " ++ operandText [regName rd, regName rs1, immText rows, immText cols]
  | .mxtobv rd rs1 => "MXTOBV " ++ operandText [regName rd, regName rs1]
  | .mxsub rd rs1 tbase tlen => "MXSUB " ++ operandText [regName rd, regName rs1, immText tbase, immText tlen]
  | .mxrotl rd rs1 => "MXROTL " ++ operandText [regName rd, regName rs1]
  | .mxrotr rd rs1 => "MXROTR " ++ operandText [regName rd, regName rs1]
  | .mxmul rd rs1 rs2 => "MXMUL " ++ operandText [regName rd, regName rs1, regName rs2]
  | .gfxtime a => "GFXTIME " ++ operandText [immText a.toNat]
  | .gfmul a b => "GFMUL " ++ operandText [immText a.toNat, immText b.toNat]
  | .fen rd rs1 => "FEN " ++ operandText [regName rd, regName rs1]
  | .fde rd rs1 => "FDE " ++ operandText [regName rd, regName rs1]
  | .spen rd rs1 => "SPEN " ++ operandText [regName rd, regName rs1]
  | .spde rd rs1 => "SPDE " ++ operandText [regName rd, regName rs1]
  | .ecbe => "ECBE"
  | .ecbd => "ECBD"
  | .cbce => "CBCE"
  | .cbcd => "CBCD"
  | .cfbe => "CFBE"
  | .cfbd => "CFBD"
  | .ofbe => "OFBE"
  | .ofbd => "OFBD"
  | .ecbeMt => "ECBE.MT"
  | .ecbdMt => "ECBD.MT"
  | .cbceMt => "CBCE.MT"
  | .cbcdMt => "CBCD.MT"

/-- The pseudo-instructions (R68). -/
inductive Pseudo
  | brot (rd rs1 : Reg) (n : Int)
  | shiftrows (rd rs1 : Reg)
  | clrsticky
  | setlen (n : Nat)
  | cipher (name : Machine.CipherSel)
  | loadu (base : Nat) (units : List CodeUnit)
  | loadb (rd : Reg) (base : Nat) (units : List CodeUnit)
  | msg (units : List CodeUnit)
  deriving DecidableEq, Repr

/-- `INWR base, u_1` ... `INWR base+n-1, u_n` (R68). -/
def loadUnits (base : Nat) (units : List CodeUnit) : List Instr :=
  units.zipIdx.map fun e => .inwr (base + e.2) e.1

/-- The expansion of a pseudo-instruction (R68). -/
def Pseudo.expand : Pseudo → List Instr
  | .brot rd rs1 n => [.bshl rd rs1 true n]
  | .shiftrows rd rs1 => [.mxrotl rd rs1]
  | .clrsticky => [.csrw 0x01 4]
  | .setlen n => [.csrw 0x08 n]
  | .cipher name => [.csrw 0x04 name.code]
  | .loadu base units => loadUnits base units
  | .loadb rd base units => loadUnits base units ++ [.bvfromu rd base units.length]
  | .msg units => loadUnits 0 units ++ [.csrw 0x08 units.length]

end Sys2Proof
end

