-- ==== Sys2Proof/Tests/Slice0.lean ====
section
/-! SUPPORT. The model's own tests. Every expected value is the spec's: the examples of the rules (named in each comment) and
the vectors and programs of 95_test_vectors.md. Then, for every statement with hypotheses, a state and operands that meet
them. -/

namespace Sys2Proof.Machine

/-! ### Helpers -/

/-- BV(n, x) as the spec writes it. -/
def bvOf (n x : Nat) : BlockVal := .bv (buildBits n fun i => x.testBit (n - 1 - i))

/-- MX(rows, cols) with the given bytes, column by column. -/
def mxOf (rows cols : Nat) (bytes : List Byte) : BlockVal := .mx { rows := rows, cols := cols, bytes := bytes }

/-- What `f` reads in the next state; none where there is none. -/
def after {α : Type} (f : State → α) : Host.Outcome State Fault Refusal → Option α
  | .next t => some (f t)
  | .fault _ => none
  | .refused _ => none

/-- Reset, then BR0 = `v`, and BR0 = `v` and BR1 = `w`. -/
def with0 (v : BlockVal) : State := State.reset.writeBr 0 v
def with01 (v w : BlockVal) : State := (with0 v).writeBr 1 w

/-- Reset, then the units from IN[0] on and IN_LEN. -/
def withIn (us : List CodeUnit) : State :=
  { State.reset with inBuf := Memory.writeAll [] 0 us, inLen := BitVec.ofNat 64 us.length }

/-- A mode state with CIPHER_SEL = IDENTITY (R122), a message, and a seed where given. -/
def idState (bits : Nat) (seed : Option Nat) (us : List CodeUnit) : State :=
  { withIn us with
    blockBits := BitVec.ofNat 64 bits, cipherSel := .identity, poolState := .ready,
    seed := buildBits bits fun i => (seed.getD 0).testBit (bits - 1 - i), seedValid := seed.isSome }

/-- The T-ports of 95_test_vectors.md: F = rotl1 xor key, SP layers byte + 1 and MXROTL with their inverses, key schedules
that repeat the master key, EXT ports that copy. -/
def legalOr (v : BlockVal) : LegalBlock := if h : v.legal = true then ⟨v, h⟩ else {}

def mapBytes (f : Byte → Byte) : BlockVal → BlockVal
  | .mx m => .mx { m with bytes := m.bytes.map f }
  | .bv b => .bv b

def mapMatrix (f : ByteMatrix → ByteMatrix) : BlockVal → BlockVal
  | .mx m => .mx (f m)
  | .bv b => .bv b

def tPorts : Ports where
  feistelF := fun half key => legalOr (.bv (xorBits (shiftLeft true 1 half) (flat key)))
  keysF    := fun m _ _ => legalOr m
  spSub    := fun v => legalOr (mapBytes (fun b => b + 1) v)
  spPerm   := fun v => legalOr (mapMatrix rotateRowsLeft v)
  spIsub   := fun v => legalOr (mapBytes (fun b => b - 1) v)
  spIperm  := fun v => legalOr (mapMatrix rotateRowsRight v)
  keysSp   := fun m _ _ => legalOr m
  extE     := id
  extD     := id

/-- Ports whose round function gives a value of the wrong size. -/
def shortPorts : Ports := { tPorts with feistelF := fun _ _ => {} }

/-- A round function that answers a matrix. -/
def mxPorts : Ports := { tPorts with feistelF := fun _ _ => legalOr (mxOf 1 1 [0]) }

/-- The Feistel test state of R114: BLOCK_BITS = 16, FROUNDS = 2, K_F[0] = 0x0F, K_F[1] = 0xF0. -/
def feistelState (seed : Option Nat) (us : List CodeUnit) : State :=
  (({ idState 16 seed us with cipherSel := .feistel, frounds := 2 } : State).writeKey .feistel 0 (bvOf 8 0x0F)).writeKey
    .feistel 1 (bvOf 8 0xF0)

/-- The keys of the SP test state of R120. -/
def spTestKeys : List BlockVal := [mxOf 2 2 [0x01, 0x02, 0x03, 0x04], mxOf 2 2 [0x10, 0x20, 0x30, 0x40]]

/-- The SP test state of R120 with SPROUNDS = `n`: BLOCK_BITS = 32, SPROWS = 2. -/
def spState (n : Nat) (seed : Option Nat) (us : List CodeUnit) : State :=
  (({ idState 32 seed us with cipherSel := .sp, sprows := 2, sprounds := BitVec.ofNat 64 n } : State).writeKey .sp 0
    (mxOf 2 2 [0x01, 0x02, 0x03, 0x04])).writeKey .sp 1 (mxOf 2 2 [0x10, 0x20, 0x30, 0x40])

/-- An environment: every batch ends with `o`; the workers' events are picked first to last, or last to first. -/
def envOf (o : BatchOutcome) (last : Bool) : BatchEnv where
  outcome := fun _ => o
  pick    := fun _ turn => if last then turn * 7 + 5 else 0

/-! ### WellFormed: for each check a command it refuses -/

theorem test_wf_csrr : (Instr.csrr (2 ^ 20)).wellFormed = false := by decide
theorem test_wf_csrw_number : (Instr.csrw (2 ^ 20) 0).wellFormed = false := by decide
theorem test_wf_csrw_value : (Instr.csrw 0 (2 ^ 20)).wellFormed = false := by decide
theorem test_wf_inwr : (Instr.inwr (2 ^ 20) 0).wellFormed = false := by decide
theorem test_wf_outrd : (Instr.outrd (2 ^ 20)).wellFormed = false := by decide
theorem test_wf_tmwr : (Instr.tmwr (2 ^ 20) 0).wellFormed = false := by decide
theorem test_wf_tmrd : (Instr.tmrd (2 ^ 20)).wellFormed = false := by decide
theorem test_wf_kset : (Instr.kset .sp (2 ^ 20) 0).wellFormed = false := by decide
theorem test_wf_bzero : (Instr.bzero 0 (2 ^ 20)).wellFormed = false := by decide
theorem test_wf_bshl_high : (Instr.bshl 0 0 false (2 ^ 19)).wellFormed = false := by decide
theorem test_wf_bshl_low : (Instr.bshl 0 0 false (-(2 ^ 19) - 1)).wellFormed = false := by decide
theorem test_wf_bgetb : (Instr.bgetb 0 (2 ^ 20)).wellFormed = false := by decide
theorem test_wf_bsetb : (Instr.bsetb 0 0 (2 ^ 20) 0).wellFormed = false := by decide
theorem test_wf_bvslice_from : (Instr.bvslice 0 0 (2 ^ 19) 0).wellFormed = false := by decide
theorem test_wf_bvslice_to : (Instr.bvslice 0 0 0 (-(2 ^ 19) - 1)).wellFormed = false := by decide
theorem test_wf_bvperm_base : (Instr.bvperm 0 0 (2 ^ 20) 0).wellFormed = false := by decide
theorem test_wf_bvperm_length : (Instr.bvperm 0 0 0 (2 ^ 20)).wellFormed = false := by decide
theorem test_wf_bvfromu_base : (Instr.bvfromu 0 (2 ^ 20) 0).wellFormed = false := by decide
theorem test_wf_bvfromu_count : (Instr.bvfromu 0 0 (2 ^ 20)).wellFormed = false := by decide
theorem test_wf_bvtou : (Instr.bvtou 0 (2 ^ 20)).wellFormed = false := by decide
theorem test_wf_mxfrombv_rows : (Instr.mxfrombv 0 0 (2 ^ 20) 0).wellFormed = false := by decide
theorem test_wf_mxfrombv_cols : (Instr.mxfrombv 0 0 0 (2 ^ 20)).wellFormed = false := by decide
theorem test_wf_mxsub_base : (Instr.mxsub 0 0 (2 ^ 20) 0).wellFormed = false := by decide
theorem test_wf_mxsub_length : (Instr.mxsub 0 0 0 (2 ^ 20)).wellFormed = false := by decide

/-! ### Decode: a word for every command, from the examples and programs of the spec -/

theorem test_decode_control :
    decode 0x0000000000000000#64 = .ok .nop ∧ decode 0x0100000000300000#64 = .ok (.csrr 3) ∧
    decode 0x0200000000300080#64 = .ok (.csrw 3 128) ∧ decode 0x03000000005000AB#64 = .ok (.inwr 5 0xAB) ∧
    decode 0x0400000000300000#64 = .ok (.outrd 3) ∧ decode 0x0500000003F00007#64 = .ok (.tmwr 63 7) ∧
    decode 0x0600000000000000#64 = .ok (.tmrd 0) ∧ decode 0x0702000000000000#64 = .ok (.seedset 2) ∧
    decode 0x0801000000100000#64 = .ok (.kset .feistel 1 1) ∧ decode 0x0805020000100000#64 = .ok (.kset .sp 1 5) ∧
    decode 0x0901000000000000#64 = .ok (.kexp .feistel 1) ∧ decode 0x0A00000000000000#64 = .ok .poolInit ∧
    decode 0x0B00000000000000#64 = .ok .poolRecycle := by decide

theorem test_decode_bitvector :
    decode 0x1030000004000000#64 = .ok (.bzero 3 64) ∧ decode 0x1110000000000000#64 = .ok (.bmov 1 0) ∧
    decode 0x1220100000000000#64 = .ok (.bxor 2 0 1) ∧ decode 0x131000FFFFF00000#64 = .ok (.bshl 1 0 false (-1)) ∧
    decode 0x1310010000100000#64 = .ok (.bshl 1 0 true 1) ∧ decode 0x1400000000200000#64 = .ok (.bgetb 0 2) ∧
    decode 0x1547000000100055#64 = .ok (.bsetb 4 7 1 0x55) ∧ decode 0x1600000000000000#64 = .ok (.bsize 0) ∧
    decode 0x171000000040000C#64 = .ok (.bvslice 1 0 4 12) ∧ decode 0x1820100000000000#64 = .ok (.bvcat 2 0 1) ∧
    decode 0x1921000004000040#64 = .ok (.bvperm 2 1 64 64) ∧ decode 0x1A02000000000000#64 = .ok (.bvcmp 2 0) ∧
    decode 0x1B01000000000000#64 = .ok (.bvsum 1) ∧ decode 0x1C20000001000008#64 = .ok (.bvfromu 2 16 8) ∧
    decode 0x1D05000000000000#64 = .ok (.bvtou 5 0) := by decide

theorem test_decode_matrix :
    decode 0x2032000000400002#64 = .ok (.mxfrombv 3 2 4 2) ∧ decode 0x2121000000000000#64 = .ok (.mxtobv 2 1) ∧
    decode 0x2210000010000100#64 = .ok (.mxsub 1 0 0x100 256) ∧ decode 0x2354000000000000#64 = .ok (.mxrotl 5 4) ∧
    decode 0x2420000000000000#64 = .ok (.mxrotr 2 0) ∧ decode 0x2541300000000000#64 = .ok (.mxmul 4 1 3) ∧
    decode 0x2600000005700000#64 = .ok (.gfxtime 0x57) ∧ decode 0x2700000005700083#64 = .ok (.gfmul 0x57 0x83) := by
  decide

theorem test_decode_structures :
    decode 0x3010000000000000#64 = .ok (.fen 1 0) ∧ decode 0x3121000000000000#64 = .ok (.fde 2 1) ∧
    decode 0x3210000000000000#64 = .ok (.spen 1 0) ∧ decode 0x3321000000000000#64 = .ok (.spde 2 1) := by decide

theorem test_decode_modes :
    decode 0x4000000000000000#64 = .ok .ecbe ∧ decode 0x4100000000000000#64 = .ok .ecbd ∧
    decode 0x4200000000000000#64 = .ok .cbce ∧ decode 0x4300000000000000#64 = .ok .cbcd ∧
    decode 0x4400000000000000#64 = .ok .cfbe ∧ decode 0x4500000000000000#64 = .ok .cfbd ∧
    decode 0x4600000000000000#64 = .ok .ofbe ∧ decode 0x4700000000000000#64 = .ok .ofbd ∧
    decode 0x4800000000000000#64 = .ok .ecbeMt ∧ decode 0x4900000000000000#64 = .ok .ecbdMt ∧
    decode 0x4A00000000000000#64 = .ok .cbceMt ∧ decode 0x4B00000000000000#64 = .ok .cbcdMt := by decide

/-- R64's three refusals, and their order where a word earns two. -/
theorem test_decode_refusals :
    decode 0x0C00000000000001#64 = .error .opcode ∧ decode 0x4C00000000000000#64 = .error .opcode ∧
    decode 0x0000000000000001#64 = .error .reserved ∧ decode 0x1188000000000001#64 = .error .reserved ∧
    decode 0x1180000000000000#64 = .error .regIdx ∧ decode 0x1208800000000000#64 = .error .regIdx ∧
    decode 0x0300000000010041#64 = .error .reserved := by decide

theorem test_encode_words :
    encode (.bshl 1 0 false (-1)) = 0x131000FFFFF00000#64 ∧ encode (.kset .sp 1 5) = 0x0805020000100000#64 ∧
    encode (.bvslice 1 0 4 12) = 0x171000000040000C#64 ∧ encode (.gfmul 0x57 0x83) = 0x2700000005700083#64 := by decide

/-- The opcode map and the printed match and mask columns agree row by row. -/
theorem test_mask_table_length : maskTable.length = 50 ∧ opcodeMap.length = 50 := by decide

theorem test_text : (Instr.bshl 1 0 true (-12)).text = "BSHL.L b1, b0, -12" ∧
    (Instr.kset .sp 3 1).text = "KSET.S 3, b1" ∧ (Instr.ecbeMt).text = "ECBE.MT" := by decide

/-- R68: MSG and CLRSTICKY. -/
theorem test_pseudo : (Pseudo.msg [0x41, 0x42]).expand = [.inwr 0 0x41, .inwr 1 0x42, .csrw 0x08 2] ∧
    Pseudo.clrsticky.expand = [.csrw 0x01 4] := by decide

/-! ### One step -/

/-- R69: NOP after a failing command clears ERR and leaves STICKY. -/
theorem test_nop : after (fun t => (t.err, t.sticky)) (exec .nop (State.reset.raise 0x40 .config)) = some (false, true) := by
  decide

/-- R70: after reset, CSRR BLOCK_BITS answers 64. -/
theorem test_csrr : after (fun t => (t.resp, t.running)) (step (State.reset.withFetchWord 64 0x0100000000300000)) =
    some (64, none) := by decide

/-- R70: CSRR ERRCODE answers the failure before it and clears it (P3, command 15). -/
theorem test_csrr_errcode : after (fun t => (t.resp, t.errcode)) (exec (.csrr 2) (State.reset.raise 0x48 .poolAbsent)) =
    some (0x480103, 0) := by decide

/-- R71: CSRW BLOCK_BITS, 128, and 12 is refused with CONFIG. -/
theorem test_csrw : after (fun t => (t.blockBits, t.seedValid)) (exec (.csrw 3 128) (idState 64 (some 0) [])) =
    some (128, false) := by decide

theorem test_csrw_config : after (fun t => (t.blockBits, t.errcode)) (exec (.csrw 3 12) State.reset) =
    some (64, 0x020901) := by decide

/-- R72, R74: the entry is stored whole; the index after the last is refused. -/
theorem test_inwr : after (fun t => t.inBuf) (exec (.inwr 8191 0x1234) State.reset) = some [(8191, 0x1234)] := by decide
theorem test_inwr_bound : after (fun t => t.errcode) (exec (.inwr 8192 0) State.reset) = some 0x030302 := by decide
theorem test_tmwr : after (fun t => t.tmem) (exec (.tmwr 4095 58) State.reset) = some [(4095, 58)] := by decide
theorem test_tmwr_bound : after (fun t => t.errcode) (exec (.tmwr 4096 0) State.reset) = some 0x050402 := by decide

/-- R73, R75. -/
theorem test_outrd : after (fun t => t.resp) (exec (.outrd 1) (State.reset.output [0x41, 0x42])) = some 0x42 := by decide
theorem test_outrd_bound : after (fun t => t.errcode) (exec (.outrd 2) (State.reset.output [0x41, 0x42])) =
    some 0x040302 := by decide
theorem test_tmrd : after (fun t => t.resp) (exec (.tmrd 0) (State.reset.writeTable 0 58)) = some 58 := by decide

/-- R76: BV(16, 0xABCD) fills 64 bits. -/
theorem test_seedset : after (fun t => (BlockVal.bv t.seed, t.seedValid)) (exec (.seedset 0) (with0 (bvOf 16 0xABCD))) =
    some (bvOf 64 0xABCDABCDABCDABCD, true) := by decide

/-- R77: KSET.S reaches entry 64, KSET.F does not. -/
theorem test_kset : after (fun t => t.keyS[64]) (exec (.kset .sp 64 0) (with0 (bvOf 8 7))) = some (some (bvOf 8 7)) := by
  decide
theorem test_kset_bound : after (fun t => t.errcode) (exec (.kset .feistel 64 0) (with0 (bvOf 8 7))) = some 0x080502 := by
  decide

/-- R78, with the T-ports: KEXP.F with FROUNDS = 2 sets K_F[0] and K_F[1] and no other. -/
theorem test_kexp :
    let t := expandKeys tPorts { with0 (bvOf 8 7) with frounds := 2 } .feistel (bvOf 8 7)
    (t.keyF[0], t.keyF[1], t.keyF[2], t.keyS[0]) = (some (bvOf 8 7), some (bvOf 8 7), none, none) := by decide

/-- R140, R141: POOL_INIT from SHUTDOWN; POOL_RECYCLE of an absent pool. -/
theorem test_pool_init : after (fun t => t.poolState) (exec .poolInit { State.reset with poolState := .shutdown }) =
    some .ready := by decide
theorem test_pool_recycle : after (fun t => t.poolState) (exec .poolRecycle State.reset) = some .absent := by decide

/-- R81. -/
theorem test_bzero : after (fun t => t.readBr 3) (exec (.bzero 3 8) State.reset) = some (some (bvOf 8 0)) := by decide
theorem test_bzero_length : after (fun t => t.errcode) (exec (.bzero 3 65537) State.reset) = some 0x100B01 := by decide

/-- R82. -/
theorem test_bmov : after (fun t => t.readBr 1) (exec (.bmov 1 0) (with0 (mxOf 1 2 [3, 4]))) =
    some (some (mxOf 1 2 [3, 4])) := by decide
theorem test_bmov_absent : after (fun t => t.errcode) (exec (.bmov 1 0) State.reset) = some 0x110101 := by decide

/-- R83: 0xF0 xor 0x3C; a BV and an MX of one length mismatch. -/
theorem test_bxor : after (fun t => t.readBr 2) (exec (.bxor 2 0 1) (with01 (bvOf 8 0xF0) (bvOf 8 0x3C))) =
    some (some (bvOf 8 0xCC)) := by decide
theorem test_bxor_mismatch : after (fun t => t.errcode) (exec (.bxor 2 0 1) (with01 (bvOf 8 0) (mxOf 1 1 [0]))) =
    some 0x120201 := by decide

/-- R84. -/
theorem test_bshl : after (fun t => t.readBr 1) (exec (.bshl 1 0 false 1) (with0 (bvOf 8 0x81))) =
    some (some (bvOf 8 0x02)) := by decide
theorem test_bshl_rotate : after (fun t => t.readBr 1) (exec (.bshl 1 0 true 1) (with0 (bvOf 8 0x81))) =
    some (some (bvOf 8 0x03)) := by decide

/-- R85, R86. -/
theorem test_bgetb : after (fun t => t.resp) (exec (.bgetb 0 2) (with0 (bvOf 16 0x1234))) = some 0x34 := by decide
theorem test_bgetb_zero : after (fun t => t.errcode) (exec (.bgetb 0 0) (with0 (bvOf 16 0x1234))) = some 0x140202 := by
  decide
theorem test_bsetb : after (fun t => t.readBr 1) (exec (.bsetb 1 0 1 0xFF) (with0 (bvOf 16 0x1234))) =
    some (some (bvOf 16 0xFF34)) := by decide

/-- R87: a BV of 12 bits. -/
theorem test_bsize : after (fun t => t.resp) (exec (.bsize 0) (with0 (bvOf 12 0))) = some 0x000000010000000C := by decide

/-- R88: bits 4 .. 11 of 0x1234; an empty slice is refused. -/
theorem test_bvslice : after (fun t => t.readBr 1) (exec (.bvslice 1 0 4 12) (with0 (bvOf 16 0x1234))) =
    some (some (bvOf 8 0x23)) := by decide
theorem test_bvslice_empty : after (fun t => t.errcode) (exec (.bvslice 1 0 4 4) (with0 (bvOf 16 0x1234))) =
    some 0x170102 := by decide

/-- R89. -/
theorem test_bvcat : after (fun t => t.readBr 2) (exec (.bvcat 2 0 1) (with01 (bvOf 4 0xA) (bvOf 8 0x5C))) =
    some (some (bvOf 12 0xA5C)) := by decide

/-- R90: the reversal of 0xC. -/
theorem test_bvperm :
    after (fun t => t.readBr 1) (exec (.bvperm 1 0 0 4)
      { with0 (bvOf 4 0xC) with tmem := Memory.writeAll [] 0 [4, 3, 2, 1] }) = some (some (bvOf 4 0x3)) := by decide
theorem test_bvperm_empty : after (fun t => t.errcode) (exec (.bvperm 1 0 0 0) (with0 (bvOf 4 0xC))) = some 0x190601 := by
  decide

/-- R91, program P2: the image of 0x0123456789ABCDEF under IP. -/
theorem test_ip : (BlockVal.bv (permute ipTable (flat (bvOf 64 0x0123456789ABCDEF)))) = bvOf 64 0xCC00CCFFF0AAF0AA := by
  decide

/-- R92: 0x05 of 8 bits is above 0x5 of 4 bits. -/
theorem test_bvcmp : after (fun t => t.resp) (exec (.bvcmp 0 1) (with01 (bvOf 8 5) (bvOf 4 5))) = some 1 := by decide
theorem test_bvcmp_less : after (fun t => t.resp) (exec (.bvcmp 1 0) (with01 (bvOf 8 5) (bvOf 4 5))) =
    some 0xFFFFFFFFFFFFFFFF := by decide

/-- R93: more than 64 bits keep the last 64. -/
theorem test_bvsum : after (fun t => t.resp) (exec (.bvsum 0) (with0 (bvOf 16 0x1234))) = some 0x1234 := by decide
theorem test_bvsum_long : after (fun t => t.resp) (exec (.bvsum 0) (with0 (bvOf 72 (2 ^ 71 + 5)))) = some 5 := by decide

/-- R94: "AB"; a unit above 0xFF is refused. -/
theorem test_bvfromu : after (fun t => t.readBr 0) (exec (.bvfromu 0 0 2) (withIn [0x41, 0x42])) =
    some (some (bvOf 16 0x4142)) := by decide
theorem test_bvfromu_range : after (fun t => t.errcode) (exec (.bvfromu 0 0 1) (withIn [0x100])) = some 0x1C0A01 := by
  decide

/-- R95. -/
theorem test_bvtou : after (fun t => (t.outBuf, t.outLen)) (exec (.bvtou 0 0) (with0 (bvOf 16 0x4142))) =
    some ([(0, 0x41), (1, 0x42)], 2) := by decide
theorem test_bvtou_hole : after (fun t => t.errcode) (exec (.bvtou 0 1) (with0 (bvOf 16 0x4142))) = some 0x1D0302 := by
  decide

/-- R102, R103, on a 2 x 1 matrix. -/
theorem test_mxfrombv : after (fun t => t.readBr 1) (exec (.mxfrombv 1 0 2 1) (with0 (bvOf 16 0x0102))) =
    some (some (mxOf 2 1 [1, 2])) := by decide
theorem test_mxtobv : after (fun t => t.readBr 1) (exec (.mxtobv 1 0) (with0 (mxOf 2 1 [1, 2]))) =
    some (some (bvOf 16 0x0102)) := by decide

/-- R104: a table of 255 entries is too short. The substitution itself is on R120's table. -/
theorem test_mxsub_short : after (fun t => t.errcode) (exec (.mxsub 1 0 0 255) (with0 (mxOf 1 1 [7]))) = some 0x220601 := by
  decide
theorem test_substitute : substitute [0x63, 0x7C, 0x77] { rows := 1, cols := 2, bytes := [2, 0] } =
    { rows := 1, cols := 2, bytes := [0x77, 0x63] } := by decide

/-- R105, R106: the 4 x 4 state of the example, column by column. -/
theorem test_mxrotl :
    after (fun t => t.readBr 1) (exec (.mxrotl 1 0) (with0 (mxOf 4 4 [0, 1, 2, 3, 4, 5, 6, 7, 8, 9, 10, 11, 12, 13, 14, 15]))) =
    some (some (mxOf 4 4
      [0x00, 0x05, 0x0A, 0x0F, 0x04, 0x09, 0x0E, 0x03, 0x08, 0x0D, 0x02, 0x07, 0x0C, 0x01, 0x06, 0x0B])) := by decide
theorem test_mxrotr :
    after (fun t => t.readBr 2) (exec (.mxrotr 2 0) (with0 (mxOf 4 4 [0, 1, 2, 3, 4, 5, 6, 7, 8, 9, 10, 11, 12, 13, 14, 15]))) =
    some (some (mxOf 4 4
      [0x00, 0x0D, 0x0A, 0x07, 0x04, 0x01, 0x0E, 0x0B, 0x08, 0x05, 0x02, 0x0F, 0x0C, 0x09, 0x06, 0x03])) := by decide

/-- R107: the MixColumns matrix on the column db 13 53 45, element by element. -/
theorem test_mxmul :
    let t := matMul mixColumnsMatrix { rows := 4, cols := 1, bytes := [0xDB, 0x13, 0x53, 0x45] }
    (elem t 0 0, elem t 3 0) = (0x8E, 0xBC) := by decide
theorem test_mxmul_mismatch : after (fun t => t.errcode) (exec (.mxmul 2 1 0) (with01 (mxOf 3 1 [1, 2, 3]) (.mx mixColumnsMatrix))) =
    some 0x250201 := by decide

/-- R108, R109. -/
theorem test_gfxtime : after (fun t => t.resp) (exec (.gfxtime 0xFF) State.reset) = some 0xE5 := by decide
theorem test_gfmul : after (fun t => t.resp) (step (State.reset.withFetchWord 64 0x2700000005700083)) = some 0xC1 := by decide
theorem test_gfmul_ff : after (fun t => t.resp) (exec (.gfmul 0xFF 0xFF) State.reset) = some 0x13 := by decide

/-- R114, R115, on the T-ports. -/
theorem test_feistel_enc : feistelEnc tPorts [bvOf 8 0x0F, bvOf 8 0xF0] (flat (bvOf 16 0x1234)) =
    .ok (flat (bvOf 16 0x752E)) := by decide
theorem test_feistel_dec : feistelDec tPorts [bvOf 8 0x0F, bvOf 8 0xF0] (flat (bvOf 16 0x752E)) =
    .ok (flat (bvOf 16 0x1234)) := by decide
theorem test_fen_no_round : after (fun t => t.readBr 1) (exec (.fen 1 0) { with0 (bvOf 64 0x1234) with frounds := 0 }) =
    some (some (bvOf 64 0x1234)) := by decide
theorem test_fde_missing_key : after (fun t => t.errcode) (exec (.fde 1 0) (with0 (bvOf 64 0x1234))) = some 0x310101 := by
  decide

/-- R120, R121, on the T-ports. -/
theorem test_sp_enc : spEnc tPorts spTestKeys (mxOf 2 2 [0x00, 0x11, 0x22, 0x33]) =
    .ok (mxOf 2 2 [0x12, 0x18, 0x12, 0x54]) := by decide
theorem test_sp_dec : spDec tPorts spTestKeys (mxOf 2 2 [0x12, 0x18, 0x12, 0x54]) =
    .ok (mxOf 2 2 [0x00, 0x11, 0x22, 0x33]) := by decide
theorem test_spen_whiten :
    after (fun t => t.readBr 1) (exec (.spen 1 0) ((spState 0 none []).writeBr 0 (mxOf 2 2 [0x00, 0x11, 0x22, 0x33]))) =
    some (some (mxOf 2 2 [0x01, 0x13, 0x21, 0x37])) := by decide
theorem test_spde_kind : after (fun t => t.errcode) (exec (.spde 1 0) ((spState 0 none []).writeBr 0 (bvOf 32 0))) =
    some 0x330801 := by decide

/-- R130, R131: the padding scenario, and with FEISTEL on the T-ports. -/
theorem test_ecbe : after (fun t => (t.outBuf.map Prod.snd, t.outLen))
    (exec .ecbe (idState 64 none [0x41, 0x42, 0x43, 0x44, 0x45])) =
    some ([0x41, 0x42, 0x43, 0x44, 0x45, 0, 0, 0], 8) := by decide
theorem test_ecbe_feistel : ecbeUnits tPorts (feistelState none [0x12, 0x34, 0x56]) =
    .ok [0x75, 0x2E, 0x59, 0x42] := by decide
theorem test_ecbd : after (fun t => t.outLen) (exec .ecbd (idState 64 none [0x41, 0x42, 0x43, 0x44, 0x45, 0, 0, 0])) =
    some 5 := by decide
theorem test_ecbd_notmult : after (fun t => (t.errcode, t.outValid)) (exec .ecbd (idState 64 none [0x41])) =
    some (0x410401, false) := by decide

/-- R132, R133; program P6 with the SP cipher on the T-ports. -/
theorem test_cbce : after (fun t => t.outBuf.map Prod.snd)
    (exec .cbce (idState 64 (some 0x0101010101010101) [0x41, 0x42, 0x43, 0x44, 0x45, 0x46, 0x47, 0x48, 0x49, 0x4A])) =
    some [0x40, 0x43, 0x42, 0x45, 0x44, 0x47, 0x46, 0x49, 0x09, 0x09, 0x42, 0x45, 0x44, 0x47, 0x46, 0x49] := by decide
theorem test_cbce_sp : cbceUnits tPorts (spState 1 (some 0xAABBCCDD) [0x00, 0x11, 0x22, 0x33, 0x44]) =
    .ok [0xBC, 0xCB, 0xDE, 0xE9, 0xEA, 0xCE, 0xEE, 0x8A] := by decide
theorem test_cbcd : after (fun t => t.outBuf.map Prod.snd)
    (exec .cbcd (idState 64 (some 0x0101010101010101)
      [0x40, 0x43, 0x42, 0x45, 0x44, 0x47, 0x46, 0x49, 0x09, 0x09, 0x42, 0x45, 0x44, 0x47, 0x46, 0x49])) =
    some [0x41, 0x42, 0x43, 0x44, 0x45, 0x46, 0x47, 0x48, 0x49, 0x4A] := by decide
theorem test_cbcd_absent : after (fun t => t.errcode) (exec .cbcd (idState 64 none [])) = some 0x430101 := by decide

/-- R134 - R137. -/
theorem test_cfbe : after (fun t => t.outBuf.map Prod.snd) (exec .cfbe (idState 16 (some 0xABCD) [0x41, 0x42, 0x43])) =
    some [0xEA, 0x8F, 0xA9] := by decide
theorem test_cfbe_feistel : cfbeUnits tPorts (feistelState (some 0xABCD) [0x12, 0x34, 0x56]) =
    .ok [0x2D, 0xAC, 0x2D] := by decide
theorem test_cfbd : after (fun t => t.outBuf.map Prod.snd) (exec .cfbd (idState 16 (some 0xABCD) [0xEA, 0x8F, 0xA9])) =
    some [0x41, 0x42, 0x43] := by decide
theorem test_ofbe : after (fun t => t.outBuf.map Prod.snd) (exec .ofbe (idState 16 (some 0xABCD) [0x41, 0x42, 0x43])) =
    some [0xEA, 0x8F, 0xE8] := by decide
theorem test_ofbe_feistel : ofbeUnits tPorts (feistelState (some 0xABCD) [0x12, 0x34, 0x56]) =
    .ok [0x2D, 0x88, 0x1F] := by decide
theorem test_ofbd : after (fun t => t.outBuf.map Prod.snd) (exec .ofbd (idState 16 (some 0xABCD) [0xEA, 0x8F, 0xE8])) =
    some [0x41, 0x42, 0x43] := by decide

/-- R147 - R150, each with the workers' events in two orders; R145's draws. -/
theorem test_ecbe_mt : ecbeMtUnits tPorts (envOf .complete true) (feistelState none [0x12, 0x34, 0x56]) =
    .ok ([0x75, 0x2E, 0x59, 0x42], 1) := by decide
theorem test_ecbe_mt_timeout : ecbeMtUnits tPorts (envOf .timeout false) (feistelState none [0x12]) = .error .timeout := by
  decide
theorem test_ecbd_mt : ecbdMtUnits tPorts (envOf .complete false) (idState 64 none [0x41, 0x42, 0x43, 0x44, 0x45, 0, 0, 0]) =
    .ok ([0x41, 0x42, 0x43, 0x44, 0x45], 1) := by decide
theorem test_ecbd_mt_absent :
    after (fun t => t.errcode) (exec .ecbdMt { idState 64 none [] with poolState := .absent }) = some 0x490103 := by decide
theorem test_cbce_mt :
    cbceMtUnits tPorts (envOf .complete true)
      (idState 64 (some 0x0101010101010101) [0x41, 0x42, 0x43, 0x44, 0x45, 0x46, 0x47, 0x48, 0x49, 0x4A]) =
    .ok ([0x40, 0x43, 0x42, 0x45, 0x44, 0x47, 0x46, 0x49, 0x09, 0x09, 0x42, 0x45, 0x44, 0x47, 0x46, 0x49], 1) := by decide
theorem test_cbce_mt_fails : cbceMtUnits shortPorts (envOf .timeout true) (feistelState (some 0) [0x12]) = .error .mismatch := by
  decide
theorem test_cbcd_mt :
    cbcdMtUnits tPorts (envOf .complete true)
      (idState 64 (some 0x0101010101010101)
        [0x40, 0x43, 0x42, 0x45, 0x44, 0x47, 0x46, 0x49, 0x09, 0x09, 0x42, 0x45, 0x44, 0x47, 0x46, 0x49]) =
    .ok ([0x41, 0x42, 0x43, 0x44, 0x45, 0x46, 0x47, 0x48, 0x49, 0x4A], 1) := by decide
theorem test_cbcd_mt_empty : after (fun t => (t.outLen, t.batchCount)) (exec .cbcdMt (idState 64 (some 0) [])) =
    some (0, 0) := by decide

/-- R39, R169, R172, R170: the port. -/
theorem test_port_accept : after (fun t => (t.running, t.statusPort))
    (step { State.reset with port := [.present 5] }) = some (some 5, 1) := by decide
theorem test_port_hold : after (fun t => (t.running, t.port))
    (step { State.reset with running := some 0, port := [.present 5] }) = some (none, [.present 5]) := by decide
theorem test_port_reset : after (fun t => (t.running, t.frounds))
    (step { State.reset with running := some 5, frounds := 3, port := [.rst] }) = some (none, 16) := by decide
theorem test_illegal_word : after (fun t => (t.errcode, t.sticky)) (step (State.reset.withFetchWord 64 0x0C00000000000000)) =
    some (0x0C0104, true) := by decide

/-! ### Witnesses: a state and operands that meet a statement's hypotheses, clause by clause

Where hypotheses bound a number, the witness is at the bound. -/

/-- Ports whose layers copy, and ports whose SP layers give another shape. -/
def copyPorts : Ports := { tPorts with spSub := legalOr, spPerm := legalOr, spIsub := legalOr, spIperm := legalOr }
def badSubPorts : Ports := { tPorts with spSub := fun _ => {} }
def badPermPorts : Ports := { tPorts with spPerm := fun _ => {} }

/-- A step's outcome is a next state in which `q` holds. -/
def nextWith (o : Host.Outcome State Fault Refusal) (q : State → Bool) : Bool :=
  match o with
  | .next t => q t
  | .fault _ => false
  | .refused _ => false

theorem nextWith_elim {o : Host.Outcome State Fault Refusal} {q : State → Bool} (h : nextWith o q = true) :
    ∃ t, o = .next t ∧ q t = true := by
  cases o with
  | next t => exact ⟨t, rfl, h⟩
  | fault f => cases h
  | refused r => cases h

theorem witness_DecodeOfEncode : (Instr.bshl 7 7 true (-(2 ^ 19))).wellFormed = true ∧
    (Instr.bvslice 7 7 (2 ^ 19 - 1) (-(2 ^ 19))).wellFormed = true ∧ (Instr.csrw (2 ^ 20 - 1) (2 ^ 20 - 1)).wellFormed = true := by
  decide

theorem witness_EncodeOfDecode : decode 0x1377010000100000#64 = .ok (.bshl 7 7 true 1) := by decide

theorem witness_DecodeChecksInOrder :
    (∃ row, rowOf (opcField 0x1188000000000001#64) = some row ∧
      0x1188000000000001#64 &&& row.format.reservedMask ≠ 0#64) ∧
    (∃ row, rowOf (opcField 0x1280000000000000#64) = some row ∧ 0x1280000000000000#64 &&& row.format.reservedMask = 0#64 ∧
      row.format.usesRd = true ∧ 8 ≤ (rdField 0x1280000000000000#64).toNat) ∧
    (∃ row, rowOf (opcField 0x1208000000000000#64) = some row ∧ 0x1208000000000000#64 &&& row.format.reservedMask = 0#64 ∧
      row.format.usesRs1 = true ∧ 8 ≤ (rs1Field 0x1208000000000000#64).toNat) ∧
    (∃ row, rowOf (opcField 0x1200800000000000#64) = some row ∧ 0x1200800000000000#64 &&& row.format.reservedMask = 0#64 ∧
      row.format.usesRs2 = true ∧ 8 ≤ (rs2Field 0x1200800000000000#64).toNat) ∧
    (∃ row, rowOf (opcField 0x1277700000000000#64) = some row ∧ 0x1277700000000000#64 &&& row.format.reservedMask = 0#64 ∧
      (rdField 0x1277700000000000#64).toNat < 8 ∧ (rs1Field 0x1277700000000000#64).toNat < 8 ∧
      (rs2Field 0x1277700000000000#64).toNat < 8) :=
  ⟨⟨_, rfl, by decide⟩, ⟨_, rfl, by decide⟩, ⟨_, rfl, by decide⟩, ⟨_, rfl, by decide⟩, ⟨_, rfl, by decide⟩⟩

theorem witness_StepRunsDecodedCommand :
    (∀ p ∈ [[], [PortInput.idle], [.present 5, .rst]],
      ({ State.reset with running := some 0, port := p } : State).running = some 0 ∧ p.head? ≠ some .rst ∧
        State.reset.resetSeen = true) ∧
    decode 0 = .ok .nop ∧ decodeTableWord 64 0x2700000005700083 = some (.gfmul 0x57 0x83) ∧
    decodeTableWord 8 0 = some .nop := by decide

theorem witness_StepRecordsIllegalWord :
    (∀ p ∈ [[], [PortInput.idle], [.present 5]], ({ State.reset with port := p } : State).port.head? ≠ some .rst) ∧
    decode 0xFF00000000000000#64 = .error .opcode ∧ decode 1#64 = .error .reserved ∧
    decode 0x1180000000000000#64 = .error .regIdx := by decide

theorem witness_PortAcceptsWhenReady :
    (let s : State := { State.reset with port := [.present 5] }
     s.resetSeen = true ∧ s.running = none ∧ s.port = [.present 5]) ∧
    (let s : State := { State.reset with running := some 3, port := [.present 5] }
     s.resetSeen = true ∧ s.running = some 3 ∧ s.port = [.present 5]) ∧
    (let s : State := { State.reset with port := [.idle] }
     s.running = none ∧ s.port = [.idle]) ∧ (State.reset.running = none ∧ State.reset.port = []) := by decide

theorem witness_ResetLeavesStatedValues :
    let s : State := { feistelState (some 1) [7] with running := some 0, port := [.rst, .idle] }
    s.port = [.rst, .idle] ∧ s.running = some 0 ∧ s.frounds = 2 := by decide

theorem witness_CommandBeforeResetStops :
    (let s : State := { State.reset with resetSeen := false, port := [.present 0] }
     s.resetSeen = false ∧ s.port.head? = some (.present 0) ∧ .rst ∉ s.port) ∧
    (let s : State := { State.reset with resetSeen := false, running := some 0, port := [.idle, .rst, .idle] }
     s.resetSeen = false ∧ s.running = some 0 ∧ s.port = [.idle] ++ .rst :: [.idle] ∧ .rst ∉ [PortInput.idle]) ∧
    ({ State.reset with port := [.rst] } : State).port = .rst :: [] := by decide

/-- A legal state with a message, a seed and the pool READY, used below wherever a statement is about legal states. -/
theorem legal_idState : (idState 16 (some 0xABCD) [0x41, 0x42]).Legal := by
  refine ⟨⟨by decide, by decide, by decide, by decide, by decide, by decide⟩, ⟨by decide, by decide, by decide⟩,
    ⟨by decide, by decide, by decide⟩, ⟨by decide, fun _ => by decide, ?_⟩, ⟨fun _ => by decide, ?_, by decide⟩,
    fun _ => by decide, by decide, by decide⟩
  · intro a h
    exact absurd h (Nat.not_lt_zero a)
  · intro h
    cases h

theorem witness_Legal (o : List PortInput) : ({ idState 16 (some 0xABCD) [0x41, 0x42] with port := o } : State).Legal :=
  have h := legal_idState
  ⟨⟨h.csrs.1, h.csrs.2, h.csrs.3, h.csrs.4, h.csrs.5, h.csrs.6⟩, ⟨h.blocks.1, h.blocks.2, h.blocks.3⟩,
    ⟨h.spaces.1, h.spaces.2, h.spaces.3⟩, ⟨h.result.1, h.result.2, h.result.3⟩, ⟨h.record.1, h.record.2, h.record.3⟩,
    h.seed, h.batch, h.begun⟩

theorem witness_StepKeepsLegalState :
    ∃ s t : State, s.Legal ∧ step s = .next t ∧ t.port = [] :=
  ⟨_, _, witness_Legal [.idle], rfl, rfl⟩

theorem witness_FailingCommandChangesOnlyRecord :
    (∃ t, exec (.bmov 1 0) State.reset = .next t ∧ t.err = true) ∧ (∃ t, exec .ecbe State.reset = .next t ∧ t.err = true) ∧
    (∃ t, exec .cbceMt State.reset = .next t ∧ t.err = true) ∧ decode 0x4C00000000000000#64 = .error .opcode :=
  ⟨nextWith_elim (q := State.err) (by decide), nextWith_elim (q := State.err) (by decide),
    nextWith_elim (q := State.err) (by decide), by decide⟩

theorem witness_OnlyNamedRegisterWritten :
    (∃ t, exec (.bzero 7 8) State.reset = .next t ∧ (!t.err) = true) ∧ (Instr.bzero 7 8).destination = some 7 ∧
    (Instr.bzero 7 8).destination ≠ some 0 :=
  ⟨nextWith_elim (q := fun t => !t.err) (by decide), by decide, by decide⟩

theorem witness_InvalidSourceIsAbsent :
    (0 ∈ (Instr.fen 1 0).sources ∧ State.reset.readBr 0 = none) ∧
    (1 ∈ (Instr.bxor 2 0 1).sources ∧ (with0 (bvOf 8 0)).readBr 1 = none) ∧ (Instr.bmov 2 0).destination ≠ some 7 ∧
    State.reset.readBr 7 = none := by decide

theorem witness_StickyAndRespRules :
    (∃ t, exec (.csrw 0x01 4) State.reset = .next t ∧ (!t.err) = true) ∧ Nat.testBit 4 2 = true ∧
    (∃ t, exec (.csrw 0x01 3) State.reset = .next t ∧ (!t.err) = true) ∧ Nat.testBit 3 2 = false ∧
    (Instr.csrw 0x01 3).answers = false ∧ (∃ t, exec (.csrr 0x0D) State.reset = .next t ∧ t.err = true) :=
  ⟨nextWith_elim (q := fun t => !t.err) (by decide), by decide, nextWith_elim (q := fun t => !t.err) (by decide), by decide,
    by decide, nextWith_elim (q := State.err) (by decide)⟩

theorem witness_StateWrittenOnlyByItsCommands :
    (∃ t, exec .nop State.reset = .next t ∧ (!t.err) = true) ∧ Instr.nop.isMode = false ∧ Instr.nop.isMt = false :=
  ⟨nextWith_elim (q := fun t => !t.err) (by decide), by decide, by decide⟩

theorem witness_NopAndPoolCommands :
    State.reset.poolState = .absent ∧ ({ State.reset with poolState := .shutdown } : State).poolState ≠ .absent := by decide

theorem witness_CsrrReadsEveryRegister : (0x0D ≤ 0x0F ∧ 0x0F ≤ 0x0F) ∧ 0x1A ≤ 0x1A := by decide

theorem witness_CsrwWritesOrRefuses :
    (8 ≤ 512 ∧ 512 ≤ 512 ∧ 512 % 8 = 0) ∧ (8 ≤ 8 ∧ 8 ≤ 512 ∧ 8 % 8 = 0) ∧ 64 ≤ 64 ∧ (1 ≤ 64 ∧ 64 ≤ 64) ∧ 8192 ≤ 8192 ∧
    (1 ≤ 1048575 ∧ 1048575 ≤ 1048575) ∧ (7 < 8 ∧ 512 < 520 ∧ 9 % 8 ≠ 0) ∧ 5 ≤ 5 ∧ 64 < 65 ∧ 8192 < 8193 ∧ 1048575 < 1048576 := by
  decide

theorem witness_EntryWrites : 8191 < 8192 ∧ 8192 ≤ 8192 ∧ 4095 < 4096 ∧ 4096 ≤ 4096 := by decide

theorem witness_EntryReads :
    (let s := State.reset.output [1, 2]
     s.outValid = true ∧ 1 < s.outLen.toNat ∧ s.outLen.toNat ≤ 2) ∧ State.reset.outValid = false ∧
    (State.reset.space .table).find 5 = none ∧ (State.reset.output [7]).space .output = [(0, 7)] ∧
    (∃ t, exec (.tmwr 4 1) State.reset = .next t ∧ decide ((t.space .table).find 5 = none) = true) :=
  ⟨by decide, by decide, by decide, by decide, nextWith_elim (q := fun t => decide ((t.space .table).find 5 = none)) (by decide)⟩

/-- An unwritten entry read by two commands, the first of them another read: one value (93_implementation_defined.md U1). -/
theorem test_unwrittenEntryIsFixed :
    (State.reset.succeed (State.reset.entry .table 5 |>.setWidth 64)).entry .table 5 = State.reset.entry .table 5 := rfl

theorem witness_SeedsetRepeatsTheSource : (with0 (bvOf 16 0xABCD)).readBr 0 = some (bvOf 16 0xABCD) := by decide

theorem witness_KsetStoresOneKey : (with0 (bvOf 8 1)).readBr 0 = some (bvOf 8 1) ∧ 63 < 64 ∧ 64 ≤ 64 ∧ 64 < 65 ∧ 65 ≤ 65 := by
  decide

theorem witness_KexpFillsTheBank : (with0 (bvOf 8 1)).readBr 0 = some (bvOf 8 1) := by decide

theorem witness_BzeroAndBmov : (1 ≤ 65536 ∧ 65536 ≤ 65536) ∧ 65536 < 65537 ∧
    (with0 (bvOf 8 1)).readBr 0 = some (bvOf 8 1) := by decide

theorem witness_BxorOfEqualShapes :
    (let s := with01 (mxOf 1 2 [1, 2]) (mxOf 1 2 [3, 4])
     s.readBr 0 = some (mxOf 1 2 [1, 2]) ∧ s.readBr 1 = some (mxOf 1 2 [3, 4]) ∧ (mxOf 1 2 [1, 2]).legal = true ∧
       (mxOf 1 2 [3, 4]).legal = true ∧ shape (mxOf 1 2 [1, 2]) = shape (mxOf 1 2 [3, 4])) ∧
    (with01 (bvOf 16 1) (mxOf 1 2 [3, 4])).readBr 0 = some (bvOf 16 1) ∧ shape (bvOf 16 1) ≠ shape (mxOf 1 2 [3, 4]) := by
  decide

theorem witness_BshlShiftsTheFlatBits : (with0 (bvOf 8 0x81)).readBr 0 = some (bvOf 8 0x81) ∧ (0 : Int) ≤ 0 ∧ (-1 : Int) < 0 := by
  decide

theorem witness_ByteAccessAndSize :
    (with0 (bvOf 17 5)).readBr 0 = some (bvOf 17 5) ∧ (1 ≤ 2 ∧ 2 ≤ blockLen (bvOf 17 5) / 8) ∧ blockLen (bvOf 17 5) / 8 < 3 ∧
    (bvOf 17 5).legal = true := by decide

theorem witness_WrongKindRefused :
    (let s := with01 (mxOf 1 1 [1]) (bvOf 8 1)
     s.readBr 0 = some (mxOf 1 1 [1]) ∧ s.readBr 1 = some (bvOf 8 1)) := by decide

theorem witness_SliceAndConcatenate :
    (with01 (bvOf 8 1) (bvOf 4 1)).readBr 0 = some (.bv (flat (bvOf 8 1))) ∧
    (with01 (bvOf 8 1) (bvOf 4 1)).readBr 1 = some (.bv (flat (bvOf 4 1))) ∧
    ((0 : Int) ≤ 0 ∧ (8 : Int) ≤ (flat (bvOf 8 1)).length ∧ (0 : Int) < 8) ∧
    ((-1 : Int) < 0 ∧ ((flat (bvOf 8 1)).length : Int) < 9 ∧ (4 : Int) ≤ 4) ∧
    (flat (bvOf 8 1)).length + (flat (bvOf 4 1)).length ≤ 65536 := by decide

/-- The clause on more than 65536 bits. -/
theorem witness_SliceAndConcatenate_long :
    (with01 (.bv (List.replicate 65536 false)) (bvOf 1 1)).readBr 0 = some (.bv (List.replicate 65536 false)) ∧
    65536 < (List.replicate 65536 false).length + (flat (bvOf 1 1)).length :=
  ⟨rfl, by rw [List.length_replicate]; decide⟩

theorem witness_BvpermFollowsTheTable :
    let s : State := { with0 (bvOf 4 0xC) with tmem := [(4092, 4), (4093, 1), (4094, 0), (4095, 5)] }
    s.readBr 0 = some (.bv (flat (bvOf 4 0xC))) ∧ 4092 + 4 ≤ 4096 ∧ 4096 < 4092 + 5 ∧
    (s.entry .table (4092 + 2)).toNat = 0 ∧ (flat (bvOf 4 0xC)).length < (s.entry .table (4092 + 3)).toNat ∧
    (∀ i ∈ List.range 2, 1 ≤ (s.entry .table (4092 + i)).toNat ∧
      (s.entry .table (4092 + i)).toNat ≤ (flat (bvOf 4 0xC)).length) := by decide

theorem witness_IpTablesAreInverse : (flat (bvOf 64 0x0123456789ABCDEF)).length = 64 := by decide

theorem witness_CompareAndSum :
    (with01 (bvOf 8 5) (bvOf 4 5)).readBr 0 = some (.bv (flat (bvOf 8 5))) ∧
    (with01 (bvOf 8 5) (bvOf 4 5)).readBr 1 = some (.bv (flat (bvOf 4 5))) := by decide

theorem witness_BvfromuPacksUnits :
    (8 * 8192 ≤ 65536 ∧ 65536 < 8 * 8193 ∧ 8192 < 8191 + 2 ∧ 8191 + 1 ≤ 8192) ∧
    (let s := withIn [0xFF, 0x100]
     0xFF < (s.entry .input 1).toNat ∧ (s.entry .input 0).toNat ≤ 0xFF) := by decide

theorem witness_BvtouUnpacksToOut :
    (let s := (State.reset.output [1, 2]).writeBr 0 (bvOf 16 0x4142)
     s.readBr 0 = some (bvOf 16 0x4142) ∧ blockLen (bvOf 16 0x4142) % 8 = 0 ∧ 2 ≤ s.outLen.toNat ∧ s.outLen.toNat < 3 ∧
       2 + blockLen (bvOf 16 0x4142) / 8 ≤ 8192) ∧ blockLen (bvOf 9 1) % 8 ≠ 0 := by decide

theorem witness_CodecRoundTrip : (∀ u ∈ [(0xFF : CodeUnit), 0], u.toNat ≤ 0xFF) ∧
    ((flat (bvOf 16 0xFF00)).length % 8 = 0 ∧ 2 ≤ (flat (bvOf 16 0xFF00)).length / 8) := by
  constructor
  · intro u h
    simp only [List.mem_cons, List.not_mem_nil, or_false] at h
    rcases h with rfl | rfl <;> decide
  · decide

theorem witness_MatrixViewsOfVectors :
    (with0 (bvOf 16 1)).readBr 0 = some (.bv (flat (bvOf 16 1))) ∧ (flat (bvOf 16 1)).length = 8 * 2 * 1 ∧
    64 < 65 ∧ (with0 (mxOf 2 1 [1, 2])).readBr 0 = some (mxOf 2 1 [1, 2]) := by decide

/-- The substitution table of R104's example, read where it was written. -/
theorem witness_MxsubSubstitutesBytes :
    (with0 (mxOf 1 1 [7])).readBr 0 = some (mxOf 1 1 [7]) ∧ 255 < 256 ∧ (256 ≤ 256 ∧ 3840 + 256 ≤ 4096 ∧ 4096 < 3841 + 256) ∧
    (let s : State := { with0 (mxOf 1 1 [7]) with tmem := [(3840, 0x100)] }
     0xFF < (s.entry .table (3840 + 0)).toNat) := by decide

/-- All 256 entries a byte: a table of the constant 0x55. -/
theorem witness_MxsubSubstitutesBytes_table : ∀ i, i < 256 → (({ with0 (mxOf 1 1 [7]) with
    tmem := Memory.writeAll [] 3840 (List.replicate 256 (0x55 : CodeUnit)) } : State).entry .table (3840 + i)).toNat ≤ 0xFF := by
  intro i hi
  have h : Memory.find (Memory.writeAll [] 3840 (List.replicate 256 (0x55 : CodeUnit))) (3840 + i) = some 0x55 := by
    rw [find_writeAll, if_pos (by rw [List.length_replicate]; omega), Nat.add_sub_cancel_left, List.getElem?_replicate,
      if_pos hi]
  have hs (s : State) : ({ s with tmem := Memory.writeAll [] 3840 (List.replicate 256 (0x55 : CodeUnit)) } : State).entry .table
      (3840 + i) = 0x55 := by
    show (Memory.find _ _).getD _ = _
    rw [State.space, h]; rfl
  rw [hs]; decide

theorem witness_RowRotations :
    (with0 (mxOf 2 3 [1, 2, 3, 4, 5, 6])).readBr 0 = some (mxOf 2 3 [1, 2, 3, 4, 5, 6]) := by decide

theorem witness_MxmulIsTheProduct :
    (with01 (mxOf 1 2 [1, 2]) (mxOf 2 1 [3, 4])).readBr 0 = some (mxOf 1 2 [1, 2]) ∧
    (with01 (mxOf 1 2 [1, 2]) (mxOf 2 1 [3, 4])).readBr 1 = some (mxOf 2 1 [3, 4]) ∧
    (with01 (mxOf 1 2 [1, 2]) (mxOf 1 2 [3, 4])).readBr 1 = some (mxOf 1 2 [3, 4]) := by decide

theorem witness_MatrixLaws : (mxOf 4 2 [1, 2, 3, 4, 5, 6, 7, 8]).legal = true ∧ (1 < 2) := by decide

theorem witness_GfFieldLaws : (0xFF : Byte) ≠ 0 ∧ (0 < 50 ∧ 50 < 51) := by decide

/-- FEN and FDE: a missing key; both kinds with every key present, at FROUNDS = 2 and at FROUNDS = 0. -/
theorem witness_FeistelCommands :
    (let s := with0 (bvOf 64 1)
     s.readBr 0 = some (bvOf 64 1) ∧ none ∈ s.keyF.toList.take s.frounds.toNat) ∧
    (let s := (feistelState none []).writeBr 0 (bvOf 16 1)
     s.keyF.toList.take s.frounds.toNat = [bvOf 8 0x0F, bvOf 8 0xF0].map some ∧ s.readBr 0 = some (.bv (flat (bvOf 16 1))) ∧
       (flat (bvOf 16 1)).length % 2 = 0 ∧ (flat (bvOf 16 1)).length = s.blockBits.toNat) ∧
    (let s : State := { with0 (bvOf 64 1) with frounds := 0 }
     s.keyF.toList.take s.frounds.toNat = ([] : List BlockVal).map some ∧ s.frounds.toNat = 0) ∧
    (flat (bvOf 15 1)).length % 2 ≠ 0 ∧ ((feistelState none []).writeBr 0 (mxOf 1 2 [1, 2])).readBr 0 = some (mxOf 1 2 [1, 2]) := by
  decide

theorem witness_FeistelInvolution :
    feistelEnc tPorts [bvOf 8 0x0F, bvOf 8 0xF0] (flat (bvOf 16 0x1234)) = .ok (flat (bvOf 16 0x752E)) ∧
    feistelDec tPorts [bvOf 8 0x0F, bvOf 8 0xF0] (flat (bvOf 16 0x752E)) = .ok (flat (bvOf 16 0x1234)) ∧
    (flat (bvOf 16 0x1234)).length % 2 = 0 ∧
    (∃ t, exec (.fen 1 0) { with0 (bvOf 64 0x1234) with frounds := 0 } = .next t ∧ (!t.err) = true) :=
  ⟨by decide, by decide, by decide, nextWith_elim (q := fun t => !t.err) (by decide)⟩

theorem witness_SpCommands :
    (let s := with0 (mxOf 2 2 [1, 2, 3, 4])
     none ∈ s.keyS.toList.take (s.sprounds.toNat + 1)) ∧
    (let s := (spState 1 none []).writeBr 0 (mxOf 2 2 [1, 2, 3, 4])
     s.keyS.toList.take (s.sprounds.toNat + 1) = spTestKeys.map some ∧ s.sprows.toNat = 2 ∧ 8 * 2 * 2 = s.blockBits.toNat ∧
       ∀ k ∈ spTestKeys, shape k = .mx s.sprows.toNat (s.blockBits.toNat / (8 * s.sprows.toNat))) ∧
    (let s := ((spState 0 none []).writeKey .sp 0 (bvOf 32 1)).writeBr 0 (mxOf 2 2 [1, 2, 3, 4])
     s.keyS.toList.take (s.sprounds.toNat + 1) = [bvOf 32 1].map some ∧
       shape (bvOf 32 1) ≠ .mx s.sprows.toNat (s.blockBits.toNat / (8 * s.sprows.toNat))) ∧
    (let s := (spState 0 none []).writeBr 0 (mxOf 2 2 [1, 2, 3, 4])
     s.keyS.toList.take (s.sprounds.toNat + 1) = [mxOf 2 2 [1, 2, 3, 4]].map some ∧ s.readBr 0 = some (mxOf 2 2 [1, 2, 3, 4])) := by
  decide

theorem witness_RoundRecurrences :
    (feistelEnc tPorts [bvOf 8 0x0F] (flat (bvOf 16 0x1234)) = .ok (flat (bvOf 8 0x34) ++ flat (bvOf 8 0x75)) ∧
      (tPorts.feistelF (flat (bvOf 8 0x75)) (bvOf 8 0xF0)).val = bvOf 8 0x1A ∧
      (shortPorts.feistelF (flat (bvOf 8 0x34)) (bvOf 8 0xF0)).val = bvOf 1 0 ∧
      feistelEnc shortPorts [] (flat (bvOf 16 0x1234)) = .ok (flat (bvOf 8 0x12) ++ flat (bvOf 8 0x34))) ∧
    (let y := mxOf 2 2 [0x01, 0x13, 0x21, 0x37]
     spEnc tPorts [mxOf 2 2 [1, 2, 3, 4]] (mxOf 2 2 [0, 0x11, 0x22, 0x33]) = .ok y ∧
       shape (tPorts.spSub y).val = shape y ∧ shape (tPorts.spPerm (tPorts.spSub y).val).val = shape (tPorts.spSub y).val ∧
       spEnc badSubPorts [mxOf 2 2 [1, 2, 3, 4]] (mxOf 2 2 [0, 0x11, 0x22, 0x33]) = .ok y ∧
       shape (badSubPorts.spSub y).val ≠ shape y ∧
       spEnc badPermPorts [mxOf 2 2 [1, 2, 3, 4]] (mxOf 2 2 [0, 0x11, 0x22, 0x33]) = .ok y ∧
       shape (badPermPorts.spSub y).val = shape y ∧
       shape (badPermPorts.spPerm (badPermPorts.spSub y).val).val ≠ shape (badPermPorts.spSub y).val) ∧
    ((mxPorts.feistelF (flat (bvOf 8 0x34)) (bvOf 8 0xF0)).val = mxOf 1 1 [0] ∧
      feistelEnc mxPorts [bvOf 8 0xF0] (flat (bvOf 16 0x1234)) = .error .mismatch ∧
      feistelDec mxPorts [bvOf 8 0xF0] (flat (bvOf 16 0x1234)) = .error .mismatch ∧
      (flat (bvOf 8 0x12)).length = (flat (bvOf 8 0x34)).length) ∧
    (spEnc badSubPorts spTestKeys (mxOf 2 2 [0, 0x11, 0x22, 0x33]) = .error .mismatch ∧
      (mxOf 2 2 [0, 0x11, 0x22, 0x33]).legal = true ∧ (mxOf 2 2 [1, 2, 3, 4]).legal = true ∧
      shape (mxOf 2 2 [0, 0x11, 0x22, 0x33]) = shape (mxOf 2 2 [1, 2, 3, 4])) := by decide

theorem legalOr_val {v : BlockVal} (h : v.legal = true) : (legalOr v).val = v := by
  unfold legalOr; rw [dif_pos h]

theorem witness_SpInverse :
    (∀ m : BlockVal, m.legal = true → shape m = .mx 2 2 →
      (copyPorts.spIsub (copyPorts.spSub m).val).val = m ∧ (copyPorts.spIperm (copyPorts.spPerm m).val).val = m) ∧
    (mxOf 2 2 [0, 1, 2, 3]).legal = true ∧ shape (mxOf 2 2 [0, 1, 2, 3]) = .mx 2 2 ∧
    (∀ k ∈ spTestKeys, k.legal = true ∧ shape k = .mx 2 2) ∧
    spEnc copyPorts spTestKeys (mxOf 2 2 [0, 1, 2, 3]) = .ok (mxOf 2 2 [0x11, 0x23, 0x31, 0x47]) := by
  refine ⟨fun m h _ => ?_, by decide, by decide, by decide, by decide⟩
  have : (legalOr (legalOr m).val).val = m := by rw [legalOr_val h, legalOr_val h]
  exact ⟨this, this⟩

/-- ModeChecksInOrder, clause by clause: no cipher, a missing key of either structure, no seed, an SP view that does not fit,
a key of another shape, too long a message, no multiple, a unit above 0xFF, and all in order. -/
theorem witness_ModeChecksInOrder :
    State.reset.cipherSel = .noCipher ∧
    (let s : State := { State.reset with cipherSel := .feistel }
     none ∈ s.keyF.toList.take s.frounds.toNat) ∧
    (let s : State := { State.reset with cipherSel := .sp }
     none ∈ s.keyS.toList.take (s.sprounds.toNat + 1)) ∧
    ((idState 64 none []).cipherPresent = .ok .identity ∧ (idState 64 none []).seedValid = false) ∧
    (let s : State := { spState 1 none [] with sprows := 3 }
     s.cipherPresent = .ok (.sp 3 1 spTestKeys) ∧ s.blockBits.toNat / 8 % s.sprows.toNat ≠ 0) ∧
    (let s : State := { spState 1 none [] with sprows := 1 }
     s.cipherPresent = .ok (.sp 1 4 spTestKeys) ∧ s.blockBits.toNat / 8 % s.sprows.toNat = 0 ∧
       s.blockBits.toNat / (8 * s.sprows.toNat) ≤ 64 ∧ some (mxOf 2 2 [1, 2, 3, 4]) ∈ s.keyS.toList.take (s.sprounds.toNat + 1) ∧
       shape (mxOf 2 2 [1, 2, 3, 4]) ≠ .mx s.sprows.toNat (s.blockBits.toNat / (8 * s.sprows.toNat))) ∧
    (let s : State := { idState 64 none [] with inLen := 1025 }
     128 * (s.blockBits.toNat / 8) < s.inLen.toNat) ∧
    (let s : State := { idState 64 none [] with inLen := 1024 }
     s.inLen.toNat ≤ 128 * (s.blockBits.toNat / 8) ∧ s.inLen.toNat % (s.blockBits.toNat / 8) = 0) ∧
    (let s := idState 64 (some 1) [0x41, 0x100]
     s.inLen.toNat % (s.blockBits.toNat / 8) ≠ 0 ∧ s.seedValid = true ∧ 0xFF < (s.entry .input 1).toNat ∧
       (s.entry .input 0).toNat ≤ 0xFF) := by decide

theorem witness_ModeRefusalsRecorded :
    State.reset.modeCheck false false = .error .config ∧ State.reset.modeCheck false true = .error .config ∧
    (idState 64 none []).modeCheck true false = .error .absent ∧ (idState 64 none []).modeCheck true true = .error .absent ∧
    (let s : State := { idState 64 (some 1) [] with poolState := .absent }
     s.modeCheck false false = .ok .identity ∧ s.modeCheck false true = .ok .identity ∧
       s.modeCheck true false = .ok .identity ∧ s.modeCheck true true = .ok .identity ∧ s.poolState = .absent) ∧
    (let s : State := { idState 64 (some 1) [] with poolState := .shutdown }
     s.modeCheck true true = .ok .identity ∧ s.poolState = .shutdown) := by decide

theorem witness_BlockModeResults :
    let s := idState 16 (some 0xABCD) [0x41, 0x42]
    s.modeCheck false false = .ok .identity ∧ s.modeCheck false true = .ok .identity ∧
    s.modeCheck true false = .ok .identity ∧ s.modeCheck true true = .ok .identity ∧ 0 < s.nu ∧
      0 < s.message.length / s.nu ∧ 15 < 8 * s.nu := by decide

theorem witness_StreamModeResults :
    (idState 16 (some 0xABCD) [0x41, 0x42, 0x43]).modeCheck true false = .ok .identity ∧
    Cipher.identity.enc tPorts (flat (bvOf 16 0xABCD)) = .ok (flat (bvOf 16 0xABCD)) ∧ 8 ≤ (flat (bvOf 16 0xABCD)).length ∧
    (Cipher.external 8).enc tPorts (flat (bvOf 16 0xABCD)) = .error .mismatch := by decide

theorem witness_IdentityCipherModesComplete :
    let s : State := { idState 16 (some 0xABCD) [0x41, 0x42] with port := [] }
    s.Legal ∧ s.cipherSel = .identity ∧ s.inLen.toNat ≤ 128 * s.nu ∧
    (∀ j, j < s.inLen.toNat → (s.entry .input j).toNat ≤ 0xFF) ∧ s.inLen.toNat % s.nu = 0 ∧ s.seedValid = true :=
  ⟨witness_Legal [], by decide, by decide, by decide, by decide, by decide⟩

theorem witness_StreamModesRoundTrip :
    let s := idState 16 (some 0xABCD) [0x41, 0x42, 0x43]
    cfbeUnits tPorts s = .ok [0xEA, 0x8F, 0xA9] ∧ ofbeUnits tPorts s = .ok [0xEA, 0x8F, 0xE8] ∧
    (∀ i, i < 3 → Memory.find [(0, 0xEA), (1, 0x8F), (2, 0xA9)] i = [(0xEA : CodeUnit), 0x8F, 0xA9][i]?) := by decide

theorem witness_BlockModesRoundTrip :
    let s : State := { idState 16 (some 0xABCD) [0x41, 0x42] with port := [] }
    s.Legal ∧ s.cipherPresent = .ok .identity ∧
    (∀ x y : Bits, x.length = s.blockBits.toNat → Cipher.identity.enc tPorts x = .ok y → Cipher.identity.dec tPorts y = .ok x) ∧
    ecbeUnits tPorts s = .ok [0x41, 0x42] ∧ cbceUnits tPorts s = .ok [0xEA, 0x8F] ∧
    (∀ i, i < 2 → Memory.find [(0, 0x41), (1, 0x42)] i = [(0x41 : CodeUnit), 0x42][i]?) ∧ s.message.getLast? ≠ some 0 := by
  refine ⟨witness_Legal [], by decide, fun x y _ h => ?_, by decide, by decide, by decide, by decide⟩
  cases h; rfl

theorem witness_IdentityCipherMtComplete :
    let s : State := { idState 16 (some 0xABCD) [0x41, 0x42] with port := [] }
    s.Legal ∧ s.poolState = .ready ∧ s.cipherSel = .identity ∧ s.inLen.toNat ≤ 128 * s.nu ∧
    (∀ j, j < s.inLen.toNat → (s.entry .input j).toNat ≤ 0xFF) ∧ s.seedValid = true ∧ s.inLen.toNat % s.nu = 0 ∧ s.inLen ≠ 0 :=
  ⟨witness_Legal [], by decide, by decide, by decide, by decide, by decide, by decide, by decide⟩

theorem witness_MultithreadedEqualsSinglethreaded :
    (feistelState none [0x12]).poolState = .ready ∧ (∀ b, (envOf .complete true).outcome b = .complete) ∧
    (∃ t, exec .cbcdMt (idState 64 (some 0) []) = .next t ∧ (!t.err) = true) :=
  ⟨by decide, fun _ => rfl, nextWith_elim (q := fun t => !t.err) (by decide)⟩

theorem witness_SelectedCipherTransforms :
    State.reset.cipherSel = .noCipher ∧
    (let s := feistelState none []
     s.cipherSel = .feistel ∧ s.keyF.toList.take s.frounds.toNat = [bvOf 8 0x0F, bvOf 8 0xF0].map some) ∧
    (let s := spState 1 none []
     s.cipherSel = .sp ∧ s.keyS.toList.take (s.sprounds.toNat + 1) = spTestKeys.map some) ∧
    ({ State.reset with cipherSel := .external } : State).cipherSel = .external ∧ (idState 64 none []).cipherSel = .identity ∧
    (1 < 2 ∧ 1 < 2) := by decide

end Sys2Proof.Machine
end

/-! ### Legal block values (00_scope.md R11)

Every block value a command writes is within R11's limits: a value rebuilt from as many flat bits as it had, an XOR of equal
shapes, a matrix of the right number of bytes. -/

namespace Sys2Proof.Machine

/-- Legal values of one shape have as many flat bits. -/
theorem blockLen_eq_of_shape {v w : BlockVal} (hv : v.legal = true) (hw : w.legal = true) (h : shape v = shape w) :
    blockLen v = blockLen w := by
  cases v with
  | bv x =>
    cases w with
    | bv y => simpa [shape, blockLen, flat] using h
    | mx n => cases h
  | mx m =>
    cases w with
    | bv y => cases h
    | mx n =>
      obtain ⟨-, -, hm⟩ := legal_mx.1 hv
      obtain ⟨-, -, hn⟩ := legal_mx.1 hw
      obtain ⟨hr, hc⟩ : m.rows = n.rows ∧ m.cols = n.cols := by simpa [shape] using h
      simp only [blockLen, flat, bitsOfBytes_length, hm, hn, hr, hc]

theorem legal_withFlat {v : BlockVal} {x : Bits} (hv : v.legal = true) (hx : x.length = blockLen v) :
    (withFlat v x).legal = true := by
  cases v with
  | bv b =>
    have hb := legal_bv.1 hv
    exact legal_bv.2 (by simpa [hx, blockLen, flat] using hb)
  | mx m =>
    obtain ⟨hr, hc, hm⟩ := legal_mx.1 hv
    refine legal_mx.2 ⟨hr, hc, ?_⟩
    simp only [blockLen, flat, bitsOfBytes_length] at hx
    simp only [bytesOfBits_length]
    omega

theorem length_xorBits_flat {v w : BlockVal} (hv : v.legal = true) (hw : w.legal = true) (h : shape v = shape w) :
    (xorBits (flat v) (flat w)).length = blockLen v := by
  have hl := blockLen_eq_of_shape hv hw h
  simp only [blockLen] at hl ⊢
  rw [xorBits_length, hl, Nat.min_self]

theorem legal_xorBlock {v w : BlockVal} (hv : v.legal = true) (hw : w.legal = true) (h : shape v = shape w) :
    (xorBlock v w).legal = true :=
  legal_withFlat hv (length_xorBits_flat hv hw h)

theorem shape_xorBlock {v w : BlockVal} (hv : v.legal = true) (hw : w.legal = true) (h : shape v = shape w) :
    shape (xorBlock v w) = shape v :=
  shape_withFlat (length_xorBits_flat hv hw h)

theorem flat_xorBlock {v w : BlockVal} (hv : v.legal = true) (hw : w.legal = true) (h : shape v = shape w) :
    flat (xorBlock v w) = xorBits (flat v) (flat w) :=
  flat_withFlat (length_xorBits_flat hv hw h)

theorem length_replaceByte {x : Bits} {p : Nat} (h1 : 1 ≤ p) (h2 : p ≤ x.length / 8) (b : Byte) :
    (replaceByte x p b).length = x.length := by
  simp only [replaceByte, List.length_append, slice_length, bitsOfByte_length]
  omega

theorem legal_viewMatrix {rows cols : Nat} (hr : 1 ≤ rows ∧ rows ≤ 64) (hc : 1 ≤ cols ∧ cols ≤ 64) (x : Bits) :
    (BlockVal.mx (viewMatrix rows cols x)).legal = true :=
  legal_mx.2 ⟨hr, hc, by simp [viewMatrix]⟩

/-- R105 - R107: a matrix with the rows of one legal matrix and the columns of another. -/
theorem legal_buildMatrix {m n : ByteMatrix} (hm : (BlockVal.mx m).legal = true) (hn : (BlockVal.mx n).legal = true)
    (f : Nat → Nat → Byte) : (BlockVal.mx (buildMatrix m.rows n.cols f)).legal = true := by
  obtain ⟨hr, -, -⟩ := legal_mx.1 hm
  obtain ⟨-, hc, -⟩ := legal_mx.1 hn
  exact legal_mx.2 ⟨hr, hc, buildMatrix_bytes_length ..⟩

theorem legal_substitute {m : ByteMatrix} (hm : (BlockVal.mx m).legal = true) (table : List CodeUnit) :
    (BlockVal.mx (substitute table m)).legal = true := by
  obtain ⟨hr, hc, hb⟩ := legal_mx.1 hm
  exact legal_mx.2 ⟨hr, hc, by simpa [substitute] using hb⟩

/-- R103: a legal matrix has at most 8 * 64 * 64 flat bits, so it is a legal vector too. -/
theorem legal_bitsOfBytes {m : ByteMatrix} (hm : (BlockVal.mx m).legal = true) :
    (BlockVal.bv (bitsOfBytes m.bytes)).legal = true := by
  obtain ⟨⟨hr1, hr2⟩, ⟨hc1, hc2⟩, hb⟩ := legal_mx.1 hm
  have hlow : 1 * 1 ≤ m.rows * m.cols := Nat.mul_le_mul hr1 hc1
  have hhigh : m.rows * m.cols ≤ 64 * 64 := Nat.mul_le_mul hr2 hc2
  refine legal_bv.2 ?_
  rw [bitsOfBytes_length, hb]
  omega

end Sys2Proof.Machine

/-! ### The structures, one round at a time (43_structures.md R112, R118) -/

namespace Sys2Proof.Machine

/-- R112: a usable result of the round function is a vector of the half's length. -/
theorem roundF_eq_ok {p : Ports} {half f : Bits} {key : BlockVal} (h : roundF p half key = .ok f) :
    f.length = half.length := by
  unfold roundF at h
  split at h
  · split at h
    · cases h; assumption
    · cases h
  · cases h

theorem feistelEncRounds_append (p : Ports) (ks js : List BlockVal) : ∀ l r : Bits,
    feistelEncRounds p (ks ++ js) l r = feistelEncRounds p ks l r >>= fun q => feistelEncRounds p js q.1 q.2 := by
  induction ks with
  | nil => intro l r; rfl
  | cons k ks ih =>
    intro l r
    simp only [List.cons_append, feistelEncRounds]
    cases roundF p r k with
    | ok f => exact ih r (xorBits l f)
    | error e => rfl

theorem length_feistelEncRounds {p : Ports} {ks : List BlockVal} : ∀ {l r : Bits} {q : Bits × Bits},
    l.length = r.length → feistelEncRounds p ks l r = .ok q → q.1.length = l.length ∧ q.2.length = l.length := by
  induction ks with
  | nil => rintro l r q hl ⟨⟩; exact ⟨rfl, hl.symm⟩
  | cons k ks ih =>
    intro l r q hl h
    obtain ⟨f, hf, h⟩ := bind_eq_ok.1 h
    have hx : (xorBits l f).length = r.length := by rw [xorBits_length, roundF_eq_ok hf, hl, Nat.min_self]
    rw [hl]
    exact ih hx.symm h

theorem length_feistelDecRounds {p : Ports} {ks : List BlockVal} : ∀ {l r : Bits} {q : Bits × Bits},
    l.length = r.length → feistelDecRounds p ks l r = .ok q → q.1.length = l.length ∧ q.2.length = l.length := by
  induction ks with
  | nil => rintro l r q hl ⟨⟩; exact ⟨rfl, hl.symm⟩
  | cons k ks ih =>
    intro l r q hl h
    obtain ⟨f, hf, h⟩ := bind_eq_ok.1 h
    have hx : (xorBits r f).length = l.length := by rw [xorBits_length, roundF_eq_ok hf, ← hl, Nat.min_self]
    obtain ⟨h1, h2⟩ := ih hx h
    exact ⟨h1.trans hx, h2.trans hx⟩

/-- The two halves of a vector have the same length, odd or even. -/
theorem length_halves (x : Bits) :
    (slice x 0 (x.length / 2)).length = x.length / 2 ∧
      (slice x (x.length / 2) (2 * (x.length / 2))).length = x.length / 2 := by
  simp only [slice_length]
  omega

theorem length_feistelEnc {p : Ports} {keys : List BlockVal} {x y : Bits} (h : feistelEnc p keys x = .ok y) :
    y.length = 2 * (x.length / 2) := by
  obtain ⟨hl, hr⟩ := length_halves x
  obtain ⟨q, hq, h⟩ := bind_eq_ok.1 h
  obtain ⟨h1, h2⟩ := length_feistelEncRounds (hl.trans hr.symm) hq
  cases h
  rw [List.length_append, h1, h2, hl, Nat.two_mul]

theorem length_feistelDec {p : Ports} {keys : List BlockVal} {x y : Bits} (h : feistelDec p keys x = .ok y) :
    y.length = 2 * (x.length / 2) := by
  obtain ⟨hl, hr⟩ := length_halves x
  obtain ⟨q, hq, h⟩ := bind_eq_ok.1 h
  obtain ⟨h1, h2⟩ := length_feistelDecRounds (hl.trans hr.symm) hq
  cases h
  rw [List.length_append, h1, h2, hl, Nat.two_mul]

/-- The halves of two vectors of one length put together are those vectors. -/
theorem slice_halves {l r : Bits} (h : l.length = r.length) :
    slice (l ++ r) 0 ((l ++ r).length / 2) = l ∧
      slice (l ++ r) ((l ++ r).length / 2) (2 * ((l ++ r).length / 2)) = r := by
  have hn : (l ++ r).length / 2 = l.length := by rw [List.length_append]; omega
  rw [hn]
  constructor
  · simp [slice]
  · simp [slice, h, Nat.two_mul]

/-- FeistelDec on a vector given by its halves. -/
theorem feistelDec_halves (p : Ports) (keys : List BlockVal) {l r : Bits} (h : l.length = r.length) :
    feistelDec p keys (l ++ r) = feistelDecRounds p keys.reverse l r >>= fun q => .ok (q.1 ++ q.2) := by
  obtain ⟨h1, h2⟩ := slice_halves h
  simp only [feistelDec, h1, h2]
  rfl

/-- R112: FeistelEnc with one round more on the last key. -/
theorem feistelEnc_concat {p : Ports} {keys : List BlockVal} {x l r : Bits} (k : BlockVal)
    (hx : x.length = l.length + r.length) (hlr : l.length = r.length) (h : feistelEnc p keys x = .ok (l ++ r)) :
    feistelEnc p (keys ++ [k]) x = roundF p r k >>= fun f => .ok (r ++ xorBits l f) := by
  obtain ⟨hl, hr⟩ := length_halves x
  obtain ⟨⟨l', r'⟩, hq, h⟩ := bind_eq_ok.1 h
  obtain ⟨h1, -⟩ := length_feistelEncRounds (hl.trans hr.symm) hq
  have happ : l' ++ r' = l ++ r := Except.ok.inj h
  obtain ⟨rfl, rfl⟩ := List.append_inj happ (by simp only at h1; omega)
  simp only [feistelEnc, feistelEncRounds_append, hq, ok_bind, feistelEncRounds]
  cases roundF p r' k <;> rfl

/-- R112: an error of an earlier round stays. -/
theorem feistelEnc_concat_error {p : Ports} {keys : List BlockVal} {x : Bits} {e : Err} (k : BlockVal)
    (h : feistelEnc p keys x = .error e) : feistelEnc p (keys ++ [k]) x = .error e := by
  obtain h | ⟨q, -, h⟩ := bind_eq_error.1 h
  · simp only [feistelEnc, feistelEncRounds_append, h, error_bind]
  · cases h

/-- R112: FeistelDec starts with the last key. -/
theorem feistelDec_concat (p : Ports) (keys : List BlockVal) (k : BlockVal) {l r : Bits} (hlr : l.length = r.length) :
    feistelDec p (keys ++ [k]) (l ++ r) = roundF p l k >>= fun f => feistelDec p keys (xorBits r f ++ l) := by
  rw [feistelDec_halves p _ hlr, List.reverse_concat, feistelDecRounds]
  cases hf : roundF p l k with
  | error e => rfl
  | ok f =>
    have hx : (xorBits r f).length = l.length := by rw [xorBits_length, roundF_eq_ok hf, ← hlr, Nat.min_self]
    simp only [ok_bind, feistelDec_halves p keys hx]

/-! The SP network. -/

theorem layer_eq_ok {f : BlockVal → LegalBlock} {x y : BlockVal} :
    layer f x = .ok y ↔ shape (f x).val = shape x ∧ (f x).val = y := by
  unfold layer
  split <;> simp [*]

theorem spEncRounds_append (p : Ports) (ks js : List BlockVal) : ∀ x : BlockVal,
    spEncRounds p (ks ++ js) x = spEncRounds p ks x >>= spEncRounds p js := by
  induction ks with
  | nil => intro x; rfl
  | cons k ks ih =>
    intro x
    simp only [List.cons_append, spEncRounds]
    cases layer p.spSub x with
    | error e => rfl
    | ok y =>
      cases hz : layer p.spPerm y with
      | error e => simp only [ok_bind, hz, error_bind]
      | ok z => simpa only [ok_bind, hz] using ih (xorBlock z k)

/-- A layer's result goes on, or is MISMATCH where the layer changes the shape (R118). -/
theorem layer_bind {β : Type} (f : BlockVal → LegalBlock) (x : BlockVal) (next : BlockVal → Except Err β) :
    (layer f x >>= next) = if shape (f x).val = shape x then next (f x).val else .error .mismatch := by
  unfold layer
  split <;> rfl

/-- The same of two layers in a row. -/
theorem layer_bind_layer {β : Type} (f g : BlockVal → LegalBlock) (x : BlockVal) (next : BlockVal → Except Err β) :
    (layer f x >>= fun y => layer g y >>= next) =
      if shape (f x).val = shape x ∧ shape (g (f x).val).val = shape (f x).val then next (g (f x).val).val
      else .error .mismatch := by
  simp only [layer_bind, ite_and]

/-- R118: an SP encryption round more substitutes, permutes and whitens. -/
theorem spEnc_concat {p : Ports} {k0 : BlockVal} {keys : List BlockVal} {x y : BlockVal} (k : BlockVal)
    (h : spEnc p (k0 :: keys) x = .ok y) : spEnc p (k0 :: (keys ++ [k])) x =
      layer p.spSub y >>= fun v => layer p.spPerm v >>= fun w => .ok (xorBlock w k) := by
  have hr : spEncRounds p keys (xorBlock x k0) = .ok y := h
  simp only [spEnc, spEncRounds_append, hr, ok_bind, spEncRounds]

theorem spEnc_concat_error {p : Ports} {k0 : BlockVal} {keys : List BlockVal} {x : BlockVal} {e : Err} (k : BlockVal)
    (h : spEnc p (k0 :: keys) x = .error e) : spEnc p (k0 :: (keys ++ [k])) x = .error e := by
  have hr : spEncRounds p keys (xorBlock x k0) = .error e := h
  simp only [spEnc, spEncRounds_append, hr, error_bind]

/-- R118: SP decryption starts with the last key: it whitens, inverse-permutes and inverse-substitutes. -/
theorem spDec_concat (p : Ports) (k0 : BlockVal) (keys : List BlockVal) (k x : BlockVal) :
    spDec p (k0 :: (keys ++ [k])) x =
      layer p.spIperm (xorBlock x k) >>= fun y => layer p.spIsub y >>= fun z => spDec p (k0 :: keys) z := by
  simp only [spDec, List.reverse_concat, spDecRounds]
  cases layer p.spIperm (xorBlock x k) with
  | error e => rfl
  | ok y => simp only [ok_bind]; cases layer p.spIsub y <;> rfl

/-- Settles O49: one round more of each structure, from the append lemmas of the round functions. -/
theorem roundRecurrences : Obligations.RoundRecurrences := by
  refine ⟨fun p keys k x l r hx hlr h => ?_, fun p keys k x e h => feistelEnc_concat_error k h,
    fun p keys k l r hlr => ?_, fun p k0 keys k x y h => ?_, fun p k0 keys k x e h => spEnc_concat_error k h,
    fun p k0 keys k x => ?_, fun a b ha hb hab => ⟨shape_xorBlock ha hb hab, flat_xorBlock ha hb hab⟩⟩
  · rw [feistelEnc_concat k hx hlr h, roundF]
    cases (p.feistelF r k).val with
    | bv f => by_cases hf : f.length = r.length <;> simp [hf, xorBits]
    | mx m => rfl
  · rw [feistelDec_concat p keys k hlr, roundF]
    cases (p.feistelF l k).val with
    | bv f => by_cases hf : f.length = l.length <;> simp [hf, xorBits]
    | mx m => rfl
  · exact (spEnc_concat k h).trans (layer_bind_layer ..)
  · exact (spDec_concat p k0 keys k x).trans (layer_bind_layer ..)

end Sys2Proof.Machine

/-! ### The structures keep legal blocks legal (43_structures.md R112, R118) -/

namespace Sys2Proof.Machine

/-- R112: an even legal vector stays legal through FeistelEnc and FeistelDec, which keep its length. -/
theorem legal_bv_of_even {x y : Bits} (hx : (BlockVal.bv x).legal = true) (he : x.length % 2 = 0)
    (hy : y.length = 2 * (x.length / 2)) : (BlockVal.bv y).legal = true := by
  have hl := legal_bv.1 hx
  exact legal_bv.2 (by omega)

/-- The keys whiten a block `x`: legal values of its shape (R117). -/
def KeysFit (keys : List BlockVal) (x : BlockVal) : Prop := ∀ k ∈ keys, k.legal = true ∧ shape k = shape x

theorem KeysFit.of_shape_eq {keys : List BlockVal} {x y : BlockVal} (h : KeysFit keys x) (e : shape y = shape x) :
    KeysFit keys y :=
  fun k hk => ⟨(h k hk).1, (h k hk).2.trans e.symm⟩

theorem KeysFit.whiten {k : BlockVal} {keys : List BlockVal} {x : BlockVal} (h : KeysFit (k :: keys) x)
    (hx : x.legal = true) : (xorBlock x k).legal = true ∧ shape (xorBlock x k) = shape x ∧ KeysFit keys x :=
  have hk := h k List.mem_cons_self
  ⟨legal_xorBlock hx hk.1 hk.2.symm, shape_xorBlock hx hk.1 hk.2.symm, fun j hj => h j (List.mem_cons_of_mem k hj)⟩

theorem legal_of_layer {f : BlockVal → LegalBlock} {x y : BlockVal} (h : layer f x = .ok y) :
    y.legal = true ∧ shape y = shape x := by
  obtain ⟨hs, rfl⟩ := layer_eq_ok.1 h
  exact ⟨(f x).ok, hs⟩

/-- R118: the rounds keep a legal block's shape. -/
theorem legal_spEncRounds {p : Ports} {ks : List BlockVal} : ∀ {x y : BlockVal}, x.legal = true → KeysFit ks x →
    spEncRounds p ks x = .ok y → y.legal = true ∧ shape y = shape x := by
  induction ks with
  | nil => rintro x y hx - ⟨⟩; exact ⟨hx, rfl⟩
  | cons k ks ih =>
    intro x y hx hk h
    obtain ⟨v, hv, h⟩ := bind_eq_ok.1 h
    obtain ⟨w, hw, h⟩ := bind_eq_ok.1 h
    obtain ⟨hwl, hws⟩ := legal_of_layer hw
    have hwx : shape w = shape x := hws.trans (legal_of_layer hv).2
    obtain ⟨hl, hs, hks⟩ := (hk.of_shape_eq hwx).whiten hwl
    obtain ⟨hyl, hys⟩ := ih hl (hks.of_shape_eq hs) h
    exact ⟨hyl, hys.trans (hs.trans hwx)⟩

theorem legal_spDecRounds {p : Ports} {ks : List BlockVal} : ∀ {x y : BlockVal}, x.legal = true → KeysFit ks x →
    spDecRounds p ks x = .ok y → y.legal = true ∧ shape y = shape x := by
  induction ks with
  | nil => rintro x y hx - ⟨⟩; exact ⟨hx, rfl⟩
  | cons k ks ih =>
    intro x y hx hk h
    obtain ⟨-, hs, hks⟩ := hk.whiten hx
    obtain ⟨v, hv, h⟩ := bind_eq_ok.1 h
    obtain ⟨w, hw, h⟩ := bind_eq_ok.1 h
    obtain ⟨hwl, hws⟩ := legal_of_layer hw
    have hwx : shape w = shape x := hws.trans ((legal_of_layer hv).2.trans hs)
    obtain ⟨hyl, hys⟩ := ih hwl (hks.of_shape_eq hwx) h
    exact ⟨hyl, hys.trans hwx⟩

theorem legal_spEnc {p : Ports} {keys : List BlockVal} {x y : BlockVal} (hx : x.legal = true) (hk : KeysFit keys x)
    (h : spEnc p keys x = .ok y) : y.legal = true ∧ shape y = shape x := by
  cases keys with
  | nil => cases h; exact ⟨hx, rfl⟩
  | cons k0 ks =>
    obtain ⟨hl, hs, hks⟩ := hk.whiten hx
    obtain ⟨hyl, hys⟩ := legal_spEncRounds hl (hks.of_shape_eq hs) h
    exact ⟨hyl, hys.trans hs⟩

theorem legal_spDec {p : Ports} {keys : List BlockVal} {x y : BlockVal} (hx : x.legal = true) (hk : KeysFit keys x)
    (h : spDec p keys x = .ok y) : y.legal = true ∧ shape y = shape x := by
  cases keys with
  | nil => cases h; exact ⟨hx, rfl⟩
  | cons k0 ks =>
    obtain ⟨z, hz, h⟩ := bind_eq_ok.1 h
    cases h
    obtain ⟨hzl, hzs⟩ := legal_spDecRounds hx (fun k hm => hk k (List.mem_cons_of_mem k0 (List.mem_reverse.1 hm))) hz
    obtain ⟨hl, hs, -⟩ := (hk.of_shape_eq hzs).whiten hzl
    exact ⟨hl, hs.trans hzs⟩

end Sys2Proof.Machine

/-! ### The keys and the selected cipher (40_control.md R78, 44_modes.md R122, R123) -/

namespace Sys2Proof.Machine

theorem getElem_fillEntries {size : Nat} (bank : Vector RegVal size) (k : Nat) (f : Nat → BlockVal) {j : Nat}
    (h : j < size) : (fillEntries bank k f)[j] = if j < k then some (f j) else bank[j] := by
  simp [fillEntries]

/-- R78: KEXP with a master key completes with the expanded keys. -/
theorem execKexp_of_source {s : State} {r : Reg} {v : BlockVal} (b : Bank) (h : s.readBr r = some v) :
    exec (.kexp b r) s = succeedsWith (expandKeys Config.ports s b v) 0 := by
  change complete _ s (s.source r >>= fun m => .ok (expandKeys Config.ports s b m, 0)) = _
  rw [source_eq_ok.2 h]
  rfl

/-- Settles O26: KEXP leaves `fillEntries` of the bank, which is the schedule below the count and the bank above it. -/
theorem kexpFillsTheBank : Obligations.KexpFillsTheBank := by
  intro s rs1 v hv
  refine ⟨⟨_, execKexp_of_source .feistel hv, fun j h => ?_⟩, ⟨_, execKexp_of_source .sp hv, fun j h => ?_⟩⟩
  · exact getElem_fillEntries _ _ _ h
  · rw [getElem_fillEntries _ _ _ h]
    simp only [Nat.lt_succ_iff]
    rfl

theorem presentKeys_some (v : BlockVal) (rest : List RegVal) :
    presentKeys (some v :: rest) = presentKeys rest >>= fun vs => .ok (v :: vs) := by
  simp only [presentKeys]
  cases presentKeys rest <;> rfl

/-- R111, R117: the keys are present exactly when every entry holds a value. -/
theorem presentKeys_eq_ok {l : List RegVal} : ∀ {keys : List BlockVal}, presentKeys l = .ok keys ↔ l = keys.map some := by
  induction l with
  | nil => intro keys; cases keys <;> simp [presentKeys]
  | cons r rest ih =>
    intro keys
    cases r with
    | none => cases keys <;> simp [presentKeys]
    | some v => cases keys <;> simp [presentKeys_some, bind_eq_ok, ih, and_comm]

theorem feistelKeys_eq_ok {s : State} {keys : List BlockVal} :
    s.feistelKeys = .ok keys ↔ s.keyF.toList.take s.frounds.toNat = keys.map some :=
  presentKeys_eq_ok

theorem spKeys_eq_ok {s : State} {keys : List BlockVal} :
    s.spKeys = .ok keys ↔ s.keyS.toList.take (s.sprounds.toNat + 1) = keys.map some :=
  presentKeys_eq_ok

theorem cipherPresent_feistel {s : State} (h : s.cipherSel = .feistel) :
    s.cipherPresent = s.feistelKeys >>= fun keys => .ok (.feistel keys) := by
  rw [State.cipherPresent, h]; rfl

theorem cipherPresent_sp {s : State} (h : s.cipherSel = .sp) :
    s.cipherPresent = s.spKeys >>= fun keys => .ok (.sp s.sprows.toNat s.spCols keys) := by
  rw [State.cipherPresent, h]; rfl

theorem elem_viewMatrix {rows cols r c : Nat} (x : Bits) (hr : r < rows) (hc : c < cols) :
    elem (viewMatrix rows cols x) r c = byteOf x (1 + r + c * rows) := by
  have hi := index_lt hr hc
  have hk : r + c * rows + 1 = 1 + r + c * rows := by omega
  simp [elem, viewMatrix, List.getD_eq_getElem?_getD, hi, hk]

theorem bind_ok_eq_map {ε α β : Type} (x : Except ε α) (f : α → β) : (x >>= fun a => .ok (f a)) = x.map f := by
  cases x <;> rfl

/-- Settles O60: each selection by its equation, and the SP view element by element. -/
theorem selectedCipherTransforms : Obligations.SelectedCipherTransforms := by
  refine ⟨fun s => ⟨fun h => ?_, fun keys h hk => ?_, fun keys h hk => ?_, fun h => ?_, fun h => ?_⟩, fun p x =>
    ⟨fun keys => ⟨rfl, rfl⟩, fun rows cols keys => ?_, fun width => ⟨rfl, rfl⟩, rfl, rfl⟩⟩
  · rw [State.cipherPresent, h]
  · rw [cipherPresent_feistel h, feistelKeys_eq_ok.2 hk]; rfl
  · rw [cipherPresent_sp h, spKeys_eq_ok.2 hk]; rfl
  · rw [State.cipherPresent, h]
  · rw [State.cipherPresent, h]
  · exact ⟨viewMatrix rows cols x, rfl, rfl, by simp [viewMatrix], fun r c => elem_viewMatrix x,
      bind_ok_eq_map .., bind_ok_eq_map ..⟩

end Sys2Proof.Machine

/-! ### Legal states (10_state.md R11, R20 - R36)

Each clause of `State.Legal` speaks of a few fields, so an update that leaves those alone keeps it. The completion of a
command overwrites the error record, so what a command leaves before it completes need only be legal but for the record. -/

namespace Sys2Proof.Machine

/-- All of `State.Legal` but the error record. -/
structure State.LegalBody (s : State) : Prop where
  csrs   : s.CsrsLegal
  blocks : s.BlocksLegal
  spaces : s.SpacesCanonical
  result : s.ResultComplete
  seed   : s.seedValid = true → s.seed.length = s.blockBits.toNat
  batch  : s.batchCount.toNat ≤ 1
  begun  : s.resetSeen = true

theorem legal_iff {s : State} : s.Legal ↔ s.LegalBody ∧ s.RecordConsistent :=
  ⟨fun h => ⟨⟨h.csrs, h.blocks, h.spaces, h.result, h.seed, h.batch, h.begun⟩, h.record⟩,
    fun h => ⟨h.1.csrs, h.1.blocks, h.1.spaces, h.1.result, h.2, h.1.seed, h.1.batch, h.1.begun⟩⟩

variable {s t : State}

/-! The fields each clause reads. -/

theorem State.CsrsLegal.congr (h : s.CsrsLegal) (e : (t.blockBits, t.frounds, t.sprounds, t.sprows, t.inLen, t.timeoutMs) =
    (s.blockBits, s.frounds, s.sprounds, s.sprows, s.inLen, s.timeoutMs)) : t.CsrsLegal := by
  simp only [Prod.mk.injEq] at e
  obtain ⟨e1, e2, e3, e4, e5, e6⟩ := e
  exact ⟨e1 ▸ h.blockBits, e2 ▸ h.frounds, e3 ▸ h.sprounds, e4 ▸ h.sprows, e5 ▸ h.inLen, e6 ▸ h.timeoutMs⟩

theorem State.BlocksLegal.congr (h : s.BlocksLegal) (e : (t.br, t.keyF, t.keyS) = (s.br, s.keyF, s.keyS)) :
    t.BlocksLegal := by
  simp only [Prod.mk.injEq] at e
  obtain ⟨e1, e2, e3⟩ := e
  exact ⟨e1 ▸ h.br, e2 ▸ h.keyF, e3 ▸ h.keyS⟩

theorem State.SpacesCanonical.congr (h : s.SpacesCanonical) (e : (t.inBuf, t.outBuf, t.tmem) = (s.inBuf, s.outBuf, s.tmem)) :
    t.SpacesCanonical := by
  simp only [Prod.mk.injEq] at e
  obtain ⟨e1, e2, e3⟩ := e
  exact ⟨e1 ▸ h.inBuf, e2 ▸ h.outBuf, e3 ▸ h.tmem⟩

theorem State.ResultComplete.congr (h : s.ResultComplete) (e : (t.outLen, t.outValid, t.outBuf) =
    (s.outLen, s.outValid, s.outBuf)) : t.ResultComplete := by
  simp only [Prod.mk.injEq] at e
  obtain ⟨e1, e2, e3⟩ := e
  exact ⟨e1 ▸ h.len, by rw [e1, e2]; exact h.empty, by rw [e1, e3]; exact h.written⟩

/-! The record. -/

/-- R154: CLASS is 1 .. 4, and DETAIL is a byte. -/
theorem classCode_bounds (e : Err) : 1 ≤ e.classCode ∧ e.classCode ≤ 4 ∧ e.detailCode < 256 := by
  cases e with
  | illegal why => cases why <;> decide
  | _ => decide

theorem toNat_errorRecord (opc : Byte) (e : Err) :
    (errorRecord opc e).toNat = e.classCode + 256 * e.detailCode + 65536 * opc.toNat := by
  have hb := classCode_bounds e
  have ho := opc.isLt
  rw [errorRecord, BitVec.toNat_ofNat]
  omega

theorem recordConsistent_of_success (he : t.err = false) (hc : t.errcode = 0) : t.RecordConsistent :=
  ⟨fun _ => hc, fun h => by simp [he] at h, by simp [hc]⟩

theorem recordConsistent_of_error {opc : Byte} {e : Err} (he : t.err = true) (hs : t.sticky = true)
    (hc : t.errcode = errorRecord opc e) : t.RecordConsistent := by
  have hb := classCode_bounds e
  have ho := opc.isLt
  have hn := toNat_errorRecord opc e
  refine ⟨fun h => ?_, fun _ => ⟨hs, ?_⟩, ?_⟩
  · rw [he] at h; cases h
  · rw [hc]; omega
  · rw [hc]; omega

/-! Completions. -/

theorem State.LegalBody.succeed (h : s.LegalBody) (resp : Word) : (s.succeed resp).Legal :=
  legal_iff.2 ⟨⟨h.csrs.congr rfl, h.blocks.congr rfl, h.spaces.congr rfl, h.result.congr rfl, h.seed, h.batch, h.begun⟩,
    recordConsistent_of_success rfl rfl⟩

theorem State.LegalBody.raise (h : s.LegalBody) (opc : Byte) (e : Err) : (s.raise opc e).Legal :=
  legal_iff.2 ⟨⟨h.csrs.congr rfl, h.blocks.congr rfl, h.spaces.congr rfl, h.result.congr rfl, h.seed, h.batch, h.begun⟩,
    recordConsistent_of_error rfl rfl rfl⟩

/-- R157: a failing mode command leaves no readable entry of OUT. -/
theorem State.LegalBody.raiseMode (h : s.LegalBody) (opc : Byte) (e : Err) : (s.raiseMode opc e).Legal :=
  legal_iff.2 ⟨⟨h.csrs.congr rfl, h.blocks.congr rfl, ⟨h.spaces.inBuf, empty_wf _, h.spaces.tmem⟩,
      ⟨Nat.zero_le _, fun _ => rfl, fun a ha => absurd ha (Nat.not_lt_zero a)⟩, h.seed, h.batch, h.begun⟩,
    recordConsistent_of_error rfl rfl rfl⟩

/-! Block registers and keys. -/

@[simp] theorem legalReg_none : legalReg none = true := rfl

theorem State.LegalBody.readBr (h : s.LegalBody) {r : Reg} {v : BlockVal} (hv : s.readBr r = some v) : v.legal = true :=
  h.blocks.br (some v) (hv ▸ Vector.mem_toList_iff.2 (Vector.getElem_mem _))

theorem State.LegalBody.writeBr (h : s.LegalBody) (r : Reg) {v : BlockVal} (hv : v.legal = true) :
    (s.writeBr r v).LegalBody := by
  refine ⟨h.csrs.congr rfl, ⟨fun w hw => ?_, h.blocks.keyF, h.blocks.keyS⟩, h.spaces.congr rfl, h.result.congr rfl, h.seed,
    h.batch, h.begun⟩
  rw [writeBr_br, Vector.toList_set] at hw
  obtain hw | rfl := List.mem_or_eq_of_mem_set hw
  · exact h.blocks.br w hw
  · exact hv

/-- A bank with some entries replaced by legal values. -/
theorem legalReg_of_setIfInBounds {size : Nat} {bank : Vector RegVal size} {v : BlockVal} (j : Nat)
    (h : ∀ w ∈ bank.toList, legalReg w = true) (hv : v.legal = true) :
    ∀ w ∈ (bank.setIfInBounds j (some v)).toList, legalReg w = true := by
  intro w hw
  rw [Vector.toList_setIfInBounds] at hw
  obtain hw | rfl := List.mem_or_eq_of_mem_set hw
  · exact h w hw
  · exact hv

theorem legalReg_of_fillEntries {size : Nat} {bank : Vector RegVal size} {f : Nat → BlockVal} (k : Nat)
    (h : ∀ w ∈ bank.toList, legalReg w = true) (hf : ∀ j, (f j).legal = true) :
    ∀ w ∈ (fillEntries bank k f).toList, legalReg w = true := by
  intro w hw
  obtain ⟨j, hj, rfl⟩ := Vector.getElem_of_mem (Vector.mem_toList_iff.1 hw)
  rw [getElem_fillEntries]
  split
  · exact hf j
  · exact h _ (Vector.mem_toList_iff.2 (Vector.getElem_mem hj))

theorem State.LegalBody.writeKey (h : s.LegalBody) (b : Bank) (j : Nat) {v : BlockVal} (hv : v.legal = true) :
    (s.writeKey b j v).LegalBody := by
  cases b with
  | feistel =>
    exact ⟨h.csrs.congr rfl, ⟨h.blocks.br, legalReg_of_setIfInBounds j h.blocks.keyF hv, h.blocks.keyS⟩,
      h.spaces.congr rfl, h.result.congr rfl, h.seed, h.batch, h.begun⟩
  | sp =>
    exact ⟨h.csrs.congr rfl, ⟨h.blocks.br, h.blocks.keyF, legalReg_of_setIfInBounds j h.blocks.keyS hv⟩,
      h.spaces.congr rfl, h.result.congr rfl, h.seed, h.batch, h.begun⟩

theorem fillKeys_feistel_keyF (n : Nat) (f : Nat → BlockVal) : (s.fillKeys .feistel n f).keyF = fillEntries s.keyF n f := by
  simp only [State.fillKeys]

theorem fillKeys_sp_keyS (n : Nat) (f : Nat → BlockVal) : (s.fillKeys .sp n f).keyS = fillEntries s.keyS n f := by
  simp only [State.fillKeys]

theorem State.LegalBody.fillKeys (h : s.LegalBody) (b : Bank) (k : Nat) {f : Nat → BlockVal}
    (hf : ∀ j, (f j).legal = true) : (s.fillKeys b k f).LegalBody := by
  have hb : (s.fillKeys b k f).BlocksLegal := by
    cases b with
    | feistel =>
      exact ⟨by simpa using h.blocks.br, by rw [fillKeys_feistel_keyF]; exact legalReg_of_fillEntries k h.blocks.keyF hf,
        by simpa using h.blocks.keyS⟩
    | sp =>
      exact ⟨by simpa using h.blocks.br, by simpa using h.blocks.keyF,
        by rw [fillKeys_sp_keyS]; exact legalReg_of_fillEntries k h.blocks.keyS hf⟩
  exact ⟨h.csrs.congr (by simp), hb, h.spaces.congr (by simp), h.result.congr (by simp), by simpa using h.seed,
    by simpa using h.batch, by simpa using h.begun⟩

/-! The seed and the CSRs. -/

theorem State.LegalBody.writeSeed (h : s.LegalBody) {x : Bits} (hx : x.length = s.blockBits.toNat) :
    (s.writeSeed x).LegalBody :=
  ⟨h.csrs.congr rfl, h.blocks.congr rfl, h.spaces.congr rfl, h.result.congr rfl, fun _ => hx, h.batch, h.begun⟩

theorem State.LegalBody.writeStatus (h : s.LegalBody) (v : Nat) : (s.writeStatus v).LegalBody := by
  unfold State.writeStatus
  split
  · exact ⟨h.csrs.congr rfl, h.blocks.congr rfl, h.spaces.congr rfl, h.result.congr rfl, h.seed, h.batch, h.begun⟩
  · exact h

theorem State.LegalBody.writePool (h : s.LegalBody) (p : PoolState) : (s.writePool p).LegalBody :=
  ⟨h.csrs.congr rfl, h.blocks.congr rfl, h.spaces.congr rfl, h.result.congr rfl, h.seed, h.batch, h.begun⟩

theorem State.LegalBody.writeBatchCount (h : s.LegalBody) {b : Nat} (hb : b ≤ 1) : (s.writeBatchCount b).LegalBody :=
  ⟨h.csrs.congr rfl, h.blocks.congr rfl, h.spaces.congr rfl, h.result.congr rfl, h.seed,
    by rw [writeBatchCount_batchCount, BitVec.toNat_ofNat]; omega, h.begun⟩

/-- R27: the numbers of CIPHER_SEL. -/
theorem lt_of_ofCode_isSome : ∀ {v : Nat}, (CipherSel.ofCode v).isSome = true → v < 5
  | 0, _ | 1, _ | 2, _ | 3, _ | 4, _ => by decide
  | _ + 5, h => by cases h

/-- R23: every legal CSR value fits in 64 bits. -/
theorem legalValue_lt {c : Csr} {v : Nat} (h : c.legalValue v = true) : v < 2 ^ 64 := by
  cases c with
  | cipherSel => exact (lt_of_ofCode_isSome h).trans (by decide)
  | _ =>
    simp only [Csr.legalValue, Config.maxBlockBits, Config.maxRounds, Config.mxMaxDim, Config.bufUnits,
      Config.maxTimeoutMs, Bool.and_eq_true, decide_eq_true_eq, Bool.false_eq_true] at h
    all_goals omega

theorem legalValue_ofNat {c : Csr} {v : Nat} (h : c.legalValue v = true) : c.legalValue (BitVec.ofNat 64 v).toNat = true := by
  rwa [BitVec.toNat_ofNat, Nat.mod_eq_of_lt (legalValue_lt h)]

/-- R23, R26, R71: a legal value written to a writable CSR. -/
theorem State.LegalBody.writeCsr (h : s.LegalBody) {c : Csr} {v : Nat} (hv : c.legalValue v = true) :
    (s.writeCsr c v).LegalBody := by
  have hn := legalValue_ofNat hv
  have hc : (s.writeCsr c v).CsrsLegal := by
    cases c with
    | blockBits => exact { h.csrs with blockBits := hn }
    | frounds => exact { h.csrs with frounds := hn }
    | sprounds => exact { h.csrs with sprounds := hn }
    | sprows => exact { h.csrs with sprows := hn }
    | inLen => exact { h.csrs with inLen := hn }
    | timeoutMs => exact { h.csrs with timeoutMs := hn }
    | _ => exact h.csrs.congr rfl
  have hs : (s.writeCsr c v).seedValid = true → (s.writeCsr c v).seed.length = (s.writeCsr c v).blockBits.toNat := by
    cases c with
    | blockBits => intro hf; cases hf
    | _ => exact h.seed
  exact ⟨hc, h.blocks.congr (by simp), h.spaces.congr (by simp), h.result.congr (by simp), hs, by simpa using h.batch,
    by simpa using h.begun⟩

/-! The memory spaces. -/

theorem State.LegalBody.writeIn (h : s.LegalBody) {a : Nat} (ha : a < 8192) (u : CodeUnit) :
    (s.writeIn a u).LegalBody :=
  ⟨h.csrs.congr rfl, h.blocks.congr rfl, { h.spaces with inBuf := write_wf h.spaces.inBuf ha u }, h.result.congr rfl, h.seed,
    h.batch, h.begun⟩

theorem State.LegalBody.writeTable (h : s.LegalBody) {a : Nat} (ha : a < 4096) (u : CodeUnit) :
    (s.writeTable a u).LegalBody :=
  ⟨h.csrs.congr rfl, h.blocks.congr rfl, { h.spaces with tmem := write_wf h.spaces.tmem ha u }, h.result.congr rfl, h.seed,
    h.batch, h.begun⟩

/-- R95, R128: bytes written to OUT from `a` on, with every entry below `a` that stays in the result written before. -/
theorem State.LegalBody.writeOut (h : s.LegalBody) {a len : Nat} {us : List CodeUnit} (hfit : a + us.length ≤ 8192)
    (hbytes : ∀ u ∈ us, u.toNat ≤ 0xFF) (hlen : len ≤ 8192)
    (hkept : ∀ b, b < len → (a ≤ b ∧ b < a + us.length) ∨ b < s.outLen.toNat) : (s.writeOut a us len).LegalBody := by
  have hn : (BitVec.ofNat 64 len).toNat = len := by
    rw [BitVec.toNat_ofNat, Nat.mod_eq_of_lt (by omega)]
  refine ⟨h.csrs.congr rfl, h.blocks.congr rfl, { h.spaces with outBuf := writeAll_wf us h.spaces.outBuf hfit },
    ⟨?_, nofun, fun b hb => ?_⟩, h.seed, h.batch, h.begun⟩
  · rw [writeOut_outLen, hn]
    exact hlen
  · rw [writeOut_outLen, hn] at hb
    rw [writeOut_outBuf, find_writeAll]
    split
    · next hin =>
      have hi : b - a < us.length := by omega
      exact ⟨us[b - a], List.getElem?_eq_getElem hi, hbytes _ (List.getElem_mem hi)⟩
    · next hout =>
      exact h.result.written b ((hkept b hb).resolve_left hout)

theorem State.LegalBody.output (h : s.LegalBody) {w : List CodeUnit} (hfit : w.length ≤ 8192)
    (hbytes : ∀ u ∈ w, u.toNat ≤ 0xFF) : (s.output w).LegalBody :=
  h.writeOut (by omega) hbytes hfit fun b hb => .inl (by omega)

end Sys2Proof.Machine

/-! ### Commands that are no mode commands keep the state legal

A rule for each check a command makes; each command is then its checks in order and the legality of what it writes. -/

namespace Sys2Proof.Machine

/-- What a command leaves before it completes is legal but for the record. -/
def LegalEffect (r : Effect) : Prop := ∀ u resp, r = .ok (u, resp) → u.LegalBody

/-- A next state is legal. -/
def LegalNext (o : Host.Outcome State Fault Refusal) : Prop := ∀ t, o = .next t → t.Legal

variable {s : State}

theorem legalNext_complete {opc : Byte} {r : Effect} (hs : s.LegalBody) (hr : LegalEffect r) :
    LegalNext (complete opc s r) := by
  intro t h
  obtain ⟨u, resp, hu, rfl⟩ | ⟨e, -, rfl⟩ := complete_cases h
  · exact (hr u resp hu).succeed resp
  · exact hs.raise opc e

/-! The checks. -/

theorem legalEffect_ok {u : State} {resp : Word} (hu : u.LegalBody) : LegalEffect (.ok (u, resp)) := by
  rintro _ _ ⟨⟩
  exact hu

theorem legalEffect_error {e : Err} : LegalEffect (.error e) := fun _ _ h => by cases h

theorem legalEffect_bind {α : Type} {x : Except Err α} {f : α → Effect} (hf : ∀ a, x = .ok a → LegalEffect (f a)) :
    LegalEffect (x >>= f) := by
  intro u resp h
  obtain ⟨a, ha, h⟩ := bind_eq_ok.1 h
  exact hf a ha u resp h

theorem legalEffect_need {p : Prop} [Decidable p] {e : Err} {f : Unit → Effect} (hf : p → LegalEffect (f ())) :
    LegalEffect (need p e >>= f) :=
  legalEffect_bind fun _ h => hf (need_eq_ok.1 h)

theorem legalEffect_source {r : Reg} {f : BlockVal → Effect} (hs : s.LegalBody)
    (hf : ∀ v, v.legal = true → LegalEffect (f v)) : LegalEffect (s.source r >>= f) :=
  legalEffect_bind fun v h => hf v (hs.readBr (source_eq_ok.1 h))

theorem legalEffect_asBv {v : BlockVal} {f : Bits → Effect} (hv : v.legal = true)
    (hf : ∀ x : Bits, 1 ≤ x.length ∧ x.length ≤ 65536 → LegalEffect (f x)) : LegalEffect (asBv v >>= f) :=
  legalEffect_bind fun x h => hf x (by rw [asBv_eq_ok.1 h] at hv; exact legal_bv.1 hv)

theorem legalEffect_asMx {v : BlockVal} {f : ByteMatrix → Effect} (hv : v.legal = true)
    (hf : ∀ m : ByteMatrix, (BlockVal.mx m).legal = true → LegalEffect (f m)) : LegalEffect (asMx v >>= f) :=
  legalEffect_bind fun m h => hf m (by rw [asMx_eq_ok.1 h] at hv; exact hv)

/-! Block capability and bit-vector commands. -/

theorem legalNext_bzero (hs : s.LegalBody) (rd : Reg) (len : Nat) : LegalNext (exec (.bzero rd len) s) :=
  legalNext_complete hs <| legalEffect_need fun hl =>
    legalEffect_ok (hs.writeBr rd (legal_bv.2 (by rw [zeros, List.length_replicate]; exact hl)))

theorem legalNext_bmov (hs : s.LegalBody) (rd rs1 : Reg) : LegalNext (exec (.bmov rd rs1) s) :=
  legalNext_complete hs <| legalEffect_source hs fun _ hv => legalEffect_ok (hs.writeBr rd hv)

theorem legalNext_bxor (hs : s.LegalBody) (rd rs1 rs2 : Reg) : LegalNext (exec (.bxor rd rs1 rs2) s) :=
  legalNext_complete hs <| legalEffect_source hs fun _ ha => legalEffect_source hs fun _ hb =>
    legalEffect_need fun hab => legalEffect_ok (hs.writeBr rd (legal_xorBlock ha hb hab))

theorem legalNext_bshl (hs : s.LegalBody) (rd rs1 : Reg) (loop : Bool) (n : Int) :
    LegalNext (exec (.bshl rd rs1 loop n) s) :=
  legalNext_complete hs <| legalEffect_source hs fun _ hv => legalEffect_need fun _ =>
    legalEffect_ok (hs.writeBr rd (legal_withFlat hv (buildBits_length ..)))

theorem legalNext_bgetb (hs : s.LegalBody) (rs1 : Reg) (pos : Nat) : LegalNext (exec (.bgetb rs1 pos) s) :=
  legalNext_complete hs <| legalEffect_source hs fun _ _ => legalEffect_need fun _ => legalEffect_ok hs

theorem legalNext_bsetb (hs : s.LegalBody) (rd rs1 : Reg) (pos : Nat) (val : Byte) :
    LegalNext (exec (.bsetb rd rs1 pos val) s) :=
  legalNext_complete hs <| legalEffect_source hs fun _ hv => legalEffect_need fun hp =>
    legalEffect_ok (hs.writeBr rd (legal_withFlat hv (length_replaceByte hp.1 hp.2 val)))

theorem legalNext_bsize (hs : s.LegalBody) (rs1 : Reg) : LegalNext (exec (.bsize rs1) s) :=
  legalNext_complete hs <| legalEffect_source hs fun _ _ => legalEffect_ok hs

theorem legalNext_bvslice (hs : s.LegalBody) (rd rs1 : Reg) (lo hi : Int) : LegalNext (exec (.bvslice rd rs1 lo hi) s) :=
  legalNext_complete hs <| legalEffect_source hs fun _ hv => legalEffect_asBv hv fun x hx => legalEffect_need fun hb =>
    legalEffect_ok (hs.writeBr rd (legal_bv.2 (by rw [slice_length]; omega)))

theorem legalNext_bvcat (hs : s.LegalBody) (rd rs1 rs2 : Reg) : LegalNext (exec (.bvcat rd rs1 rs2) s) :=
  legalNext_complete hs <| legalEffect_source hs fun _ ha => legalEffect_source hs fun _ hb =>
    legalEffect_asBv ha fun x hx => legalEffect_asBv hb fun y hy => legalEffect_need fun hl =>
    legalEffect_ok (hs.writeBr rd (legal_bv.2 (by rw [List.length_append]; exact ⟨by omega, hl⟩)))

@[simp] theorem length_entries (s : State) (sp : Space) (a n : Nat) : (s.entries sp a n).length = n := by
  simp [State.entries]

theorem legalNext_bvperm (hs : s.LegalBody) (rd rs1 : Reg) (tbase tlen : Nat) :
    LegalNext (exec (.bvperm rd rs1 tbase tlen) s) :=
  legalNext_complete hs <| legalEffect_source hs fun _ hv => legalEffect_asBv hv fun x hx => legalEffect_need fun h1 =>
    legalEffect_need fun (h2 : tbase + tlen ≤ 4096) => legalEffect_need fun _ =>
    legalEffect_ok (hs.writeBr rd (legal_bv.2 (by rw [permute, List.length_map, length_entries]; omega)))

theorem legalNext_bvcmp (hs : s.LegalBody) (rs1 rs2 : Reg) : LegalNext (exec (.bvcmp rs1 rs2) s) :=
  legalNext_complete hs <| legalEffect_source hs fun _ ha => legalEffect_source hs fun _ hb =>
    legalEffect_asBv ha fun _ _ => legalEffect_asBv hb fun _ _ => legalEffect_ok hs

theorem legalNext_bvsum (hs : s.LegalBody) (rs1 : Reg) : LegalNext (exec (.bvsum rs1) s) :=
  legalNext_complete hs <| legalEffect_source hs fun _ hv => legalEffect_asBv hv fun _ _ => legalEffect_ok hs

@[simp] theorem length_packUnits (us : List CodeUnit) : (packUnits us).length = 8 * us.length := by
  simp [packUnits]

theorem packChecked_eq_ok {us : List CodeUnit} {x : Bits} :
    packChecked us = .ok x ↔ us.all packable = true ∧ packUnits us = x := by
  unfold packChecked
  split <;> simp [*]

theorem legalNext_bvfromu (hs : s.LegalBody) (rd : Reg) (base count : Nat) : LegalNext (exec (.bvfromu rd base count) s) :=
  legalNext_complete hs <| legalEffect_need fun (hc : 1 ≤ count ∧ 8 * count ≤ 65536) => legalEffect_need fun _ =>
    legalEffect_bind fun x hx => by
      obtain ⟨-, rfl⟩ := packChecked_eq_ok.1 hx
      exact legalEffect_ok (hs.writeBr rd (legal_bv.2 (by rw [length_packUnits, length_entries]; omega)))

@[simp] theorem length_unpackBits (x : Bits) : (unpackBits x).length = x.length / 8 := by simp [unpackBits]

/-- R47: an unpacked unit is a byte. -/
theorem toNat_le_of_mem_unpackBits {x : Bits} {u : CodeUnit} (h : u ∈ unpackBits x) : u.toNat ≤ 0xFF := by
  obtain ⟨b, -, rfl⟩ := List.mem_map.1 h
  have := b.isLt
  rw [unitOfByte, BitVec.toNat_setWidth]
  omega

theorem outCurrent_le_outLen (s : State) : s.outCurrent ≤ s.outLen.toNat := by
  unfold State.outCurrent
  split <;> simp

theorem legalNext_bvtou (hs : s.LegalBody) (rs1 : Reg) (base : Nat) : LegalNext (exec (.bvtou rs1 base) s) :=
  legalNext_complete hs <| legalEffect_source hs fun v _ => legalEffect_need fun _ =>
    legalEffect_need fun (hb : base ≤ s.outCurrent ∧ base + blockLen v / 8 ≤ 8192) => by
      have hcur := outCurrent_le_outLen s
      have hlen : s.outLen.toNat ≤ 8192 := hs.result.len
      have hm : (unpackBits (flat v)).length = blockLen v / 8 := length_unpackBits _
      exact legalEffect_ok (hs.writeOut (by omega) (fun u => toNat_le_of_mem_unpackBits) (by omega) fun b h => by omega)

/-! Control, host-port, seed, key and pool commands. -/

theorem legalNext_nop (hs : s.LegalBody) : LegalNext (exec .nop s) :=
  legalNext_complete (opc := Instr.opcode .nop) hs (legalEffect_ok hs)

theorem legalNext_csrr (hs : s.LegalBody) (csr : Nat) : LegalNext (exec (.csrr csr) s) := by
  refine legalNext_complete hs ?_
  split
  · exact legalEffect_error
  · exact legalEffect_ok hs

theorem legalEffect_csrwEffect (hs : s.LegalBody) (c : Csr) (v : Nat) : LegalEffect (csrwEffect s c v) := by
  unfold csrwEffect
  split
  · exact legalEffect_ok (hs.writeStatus v)
  · exact legalEffect_need fun _ => legalEffect_need fun hv => legalEffect_ok (hs.writeCsr hv)

theorem legalNext_csrw (hs : s.LegalBody) (csr v : Nat) : LegalNext (exec (.csrw csr v) s) := by
  refine legalNext_complete hs ?_
  split
  · exact legalEffect_error
  · exact legalEffect_csrwEffect hs _ v

theorem legalNext_inwr (hs : s.LegalBody) (idx : Nat) (u : CodeUnit) : LegalNext (exec (.inwr idx u) s) :=
  legalNext_complete hs <| legalEffect_need fun hi => legalEffect_ok (hs.writeIn hi u)

theorem legalNext_outrd (hs : s.LegalBody) (idx : Nat) : LegalNext (exec (.outrd idx) s) :=
  legalNext_complete hs <| legalEffect_need fun _ => legalEffect_ok hs

theorem legalNext_tmwr (hs : s.LegalBody) (idx : Nat) (e : CodeUnit) : LegalNext (exec (.tmwr idx e) s) :=
  legalNext_complete hs <| legalEffect_need fun hi => legalEffect_ok (hs.writeTable hi e)

theorem legalNext_tmrd (hs : s.LegalBody) (idx : Nat) : LegalNext (exec (.tmrd idx) s) :=
  legalNext_complete hs <| legalEffect_need fun _ => legalEffect_ok hs

theorem legalNext_seedset (hs : s.LegalBody) (rs1 : Reg) : LegalNext (exec (.seedset rs1) s) :=
  legalNext_complete hs <| legalEffect_source hs fun _ _ => legalEffect_ok (hs.writeSeed (buildBits_length ..))

theorem legalNext_kset (hs : s.LegalBody) (b : Bank) (idx : Nat) (rs1 : Reg) : LegalNext (exec (.kset b idx rs1) s) :=
  legalNext_complete hs <| legalEffect_source hs fun _ hv => legalEffect_need fun _ =>
    legalEffect_ok (hs.writeKey b idx hv)

theorem State.LegalBody.expandKeys (hs : s.LegalBody) (p : Ports) (b : Bank) (master : BlockVal) :
    (expandKeys p s b master).LegalBody := by
  cases b with
  | feistel => exact hs.fillKeys .feistel _ fun j => (p.keysF master _ j).ok
  | sp => exact hs.fillKeys .sp _ fun j => (p.keysSp master _ j).ok

theorem legalNext_kexp (hs : s.LegalBody) (b : Bank) (rs1 : Reg) : LegalNext (exec (.kexp b rs1) s) :=
  legalNext_complete hs <| legalEffect_source hs fun v _ => legalEffect_ok (hs.expandKeys Config.ports b v)

theorem legalNext_poolInit (hs : s.LegalBody) : LegalNext (exec .poolInit s) :=
  legalNext_complete (opc := Instr.opcode .poolInit) hs (legalEffect_ok (hs.writePool .ready))

theorem legalNext_poolRecycle (hs : s.LegalBody) : LegalNext (exec .poolRecycle s) := by
  refine legalNext_complete (opc := Instr.opcode .poolRecycle) hs (legalEffect_ok ?_)
  split
  · exact hs.writePool .shutdown
  · exact hs

/-! Byte-matrix and GF(2^8) commands. -/

theorem legalNext_mxfrombv (hs : s.LegalBody) (rd rs1 : Reg) (rows cols : Nat) :
    LegalNext (exec (.mxfrombv rd rs1 rows cols) s) :=
  legalNext_complete hs <| legalEffect_source hs fun _ hv => legalEffect_asBv hv fun x _ => legalEffect_need fun hd =>
    legalEffect_need fun _ => legalEffect_ok (hs.writeBr rd (legal_viewMatrix hd.1 hd.2 x))

theorem legalNext_mxtobv (hs : s.LegalBody) (rd rs1 : Reg) : LegalNext (exec (.mxtobv rd rs1) s) :=
  legalNext_complete hs <| legalEffect_source hs fun _ hv => legalEffect_asMx hv fun _ hm =>
    legalEffect_ok (hs.writeBr rd (legal_bitsOfBytes hm))

theorem legalNext_mxsub (hs : s.LegalBody) (rd rs1 : Reg) (tbase tlen : Nat) :
    LegalNext (exec (.mxsub rd rs1 tbase tlen) s) :=
  legalNext_complete hs <| legalEffect_source hs fun _ hv => legalEffect_asMx hv fun _ hm => legalEffect_need fun _ =>
    legalEffect_need fun _ => legalEffect_need fun _ => legalEffect_ok (hs.writeBr rd (legal_substitute hm _))

theorem legalNext_mxrotl (hs : s.LegalBody) (rd rs1 : Reg) : LegalNext (exec (.mxrotl rd rs1) s) :=
  legalNext_complete hs <| legalEffect_source hs fun _ hv => legalEffect_asMx hv fun _ hm =>
    legalEffect_ok (hs.writeBr rd (legal_buildMatrix hm hm _))

theorem legalNext_mxrotr (hs : s.LegalBody) (rd rs1 : Reg) : LegalNext (exec (.mxrotr rd rs1) s) :=
  legalNext_complete hs <| legalEffect_source hs fun _ hv => legalEffect_asMx hv fun _ hm =>
    legalEffect_ok (hs.writeBr rd (legal_buildMatrix hm hm _))

theorem legalNext_mxmul (hs : s.LegalBody) (rd rs1 rs2 : Reg) : LegalNext (exec (.mxmul rd rs1 rs2) s) :=
  legalNext_complete hs <| legalEffect_source hs fun _ ha => legalEffect_source hs fun _ hb =>
    legalEffect_asMx ha fun _ hf => legalEffect_asMx hb fun _ hm => legalEffect_need fun _ =>
    legalEffect_ok (hs.writeBr rd (legal_buildMatrix hf hm _))

theorem legalNext_gfxtime (hs : s.LegalBody) (a : Byte) : LegalNext (exec (.gfxtime a) s) :=
  legalNext_complete (opc := Instr.opcode (.gfxtime a)) hs (legalEffect_ok hs)

theorem legalNext_gfmul (hs : s.LegalBody) (a b : Byte) : LegalNext (exec (.gfmul a b) s) :=
  legalNext_complete (opc := Instr.opcode (.gfmul a b)) hs (legalEffect_ok hs)

/-! The structures. -/

theorem feistelInput_eq_ok {v : BlockVal} {x : Bits} :
    feistelInput s v = .ok x ↔ v = .bv x ∧ x.length % 2 = 0 ∧ x.length = s.blockBits.toNat := by
  simp only [feistelInput, bind_eq_ok, asBv_eq_ok, need_eq_ok, pure_eq_ok, Except.ok.injEq]
  constructor
  · rintro ⟨y, rfl, _, heven, _, hlen, rfl⟩
    exact ⟨rfl, heven, hlen⟩
  · rintro ⟨rfl, heven, hlen⟩
    exact ⟨x, rfl, (), heven, (), hlen, rfl⟩

theorem legalNext_fen (hs : s.LegalBody) (rd rs1 : Reg) : LegalNext (exec (.fen rd rs1) s) :=
  legalNext_complete hs <| legalEffect_source hs fun _ hv => legalEffect_bind fun _ _ => legalEffect_bind fun x hx =>
    legalEffect_bind fun y hy => by
      obtain ⟨rfl, he, -⟩ := feistelInput_eq_ok.1 hx
      exact legalEffect_ok (hs.writeBr rd (legal_bv_of_even hv he (length_feistelEnc hy)))

theorem legalNext_fde (hs : s.LegalBody) (rd rs1 : Reg) : LegalNext (exec (.fde rd rs1) s) :=
  legalNext_complete hs <| legalEffect_source hs fun _ hv => legalEffect_bind fun _ _ => legalEffect_bind fun x hx =>
    legalEffect_bind fun y hy => by
      obtain ⟨rfl, he, -⟩ := feistelInput_eq_ok.1 hx
      exact legalEffect_ok (hs.writeBr rd (legal_bv_of_even hv he (length_feistelDec hy)))

theorem legal_of_spKeys {keys : List BlockVal} (hs : s.LegalBody) (h : s.spKeys = .ok keys) : ∀ k ∈ keys, k.legal = true := by
  intro k hk
  have hm : some k ∈ s.keyS.toList.take (s.sprounds.toNat + 1) := by
    rw [spKeys_eq_ok.1 h]
    exact List.mem_map_of_mem hk
  exact hs.blocks.keyS _ (List.mem_of_mem_take hm)

theorem sprows_bounds (hs : s.LegalBody) : 1 ≤ s.sprows.toNat ∧ s.sprows.toNat ≤ 64 := by
  simpa [Csr.legalValue] using hs.csrs.sprows

/-- R117, R120: what the input checks of SPEN and SPDE leave is a legal block that the keys fit. -/
theorem keysFit_of_spInput {v : BlockVal} {keys : List BlockVal} {u : Unit} (hs : s.LegalBody) (hk : s.spKeys = .ok keys)
    (h : spInput s v keys = .ok u) : KeysFit keys v := by
  obtain ⟨m, hm, h'⟩ := bind_eq_ok.1 h
  obtain ⟨_, hw, hshape⟩ := bind_eq_ok.1 h'
  obtain rfl := asMx_eq_ok.1 hm
  obtain ⟨hrows, hbits⟩ := need_eq_ok.1 hw
  have hcols : s.spCols = m.cols := by
    have hpos : 0 < 8 * m.rows := by have := sprows_bounds hs; omega
    rw [State.spCols, ← hbits, ← hrows, Nat.mul_div_cancel_left _ hpos]
  refine fun k hkm => ⟨legal_of_spKeys hs hk k hkm, ?_⟩
  rw [need_eq_ok.1 hshape k hkm, ← hrows, hcols]
  rfl

theorem legalNext_spen (hs : s.LegalBody) (rd rs1 : Reg) : LegalNext (exec (.spen rd rs1) s) :=
  legalNext_complete hs <| legalEffect_source hs fun _ hv => legalEffect_bind fun _ hk => legalEffect_bind fun _ hi =>
    legalEffect_bind fun _ hy =>
      legalEffect_ok (hs.writeBr rd (legal_spEnc hv (keysFit_of_spInput hs hk hi) hy).1)

theorem legalNext_spde (hs : s.LegalBody) (rd rs1 : Reg) : LegalNext (exec (.spde rd rs1) s) :=
  legalNext_complete hs <| legalEffect_source hs fun _ hv => legalEffect_bind fun _ hk => legalEffect_bind fun _ hi =>
    legalEffect_bind fun _ hy =>
      legalEffect_ok (hs.writeBr rd (legal_spDec hv (keysFit_of_spInput hs hk hi) hy).1)

end Sys2Proof.Machine

/-! ### Mode commands keep the state legal (44_modes.md R122 - R137)

A mode command that succeeds outputs at most 128 chunks of BLOCK_BITS bits, so at most 8192 units, each a byte. Upper bounds
are enough: a transform that answers at most `W` bits on at most `W` bits keeps every chunk within the block. -/

namespace Sys2Proof.Machine

variable {s : State}

/-- A transform that stays within `W` bits. -/
def Within (W : Nat) (f : Bits → Except Err Bits) : Prop := ∀ x y : Bits, x.length ≤ W → f x = .ok y → y.length ≤ W

/-- At most `n` chunks, each of at most `W` bits. -/
def FitChunks (W n : Nat) (cs : List Bits) : Prop := cs.length ≤ n ∧ ∀ x ∈ cs, x.length ≤ W

/-- A unit list that OUT can hold as a result (R41, R51). -/
def FitsOut (w : List CodeUnit) : Prop := w.length ≤ 8192 ∧ ∀ u ∈ w, u.toNat ≤ 0xFF

theorem blockBits_bounds (hs : s.LegalBody) : 8 ≤ s.blockBits.toNat ∧ s.blockBits.toNat ≤ 512 := by
  have h := hs.csrs.blockBits
  simp only [Csr.legalValue, Config.maxBlockBits, Bool.and_eq_true, decide_eq_true_eq] at h
  exact h.1

theorem nu_bounds (hs : s.LegalBody) : 1 ≤ s.nu ∧ s.nu ≤ 64 ∧ 8 * s.nu ≤ s.blockBits.toNat := by
  have h := blockBits_bounds hs
  unfold State.nu
  omega

/-! The selected cipher. -/

/-- R122, R123: the ciphers CIPHER_SEL can select. -/
theorem cipherPresent_cases {c : Cipher} (h : s.cipherPresent = .ok c) :
    (∃ keys, s.feistelKeys = .ok keys ∧ c = .feistel keys) ∨
    (∃ keys, s.spKeys = .ok keys ∧ c = .sp s.sprows.toNat s.spCols keys) ∨
    c = .external s.blockBits.toNat ∨ c = .identity := by
  unfold State.cipherPresent at h
  split at h
  · cases h
  · obtain ⟨keys, hk, h⟩ := bind_eq_ok.1 h
    exact .inl ⟨keys, hk, (Except.ok.inj h).symm⟩
  · obtain ⟨keys, hk, h⟩ := bind_eq_ok.1 h
    exact .inr (.inl ⟨keys, hk, (Except.ok.inj h).symm⟩)
  · exact .inr (.inr (.inl (Except.ok.inj h).symm))
  · exact .inr (.inr (.inr (Except.ok.inj h).symm))

/-- R124: the checks that passed. -/
theorem modeCheck_eq_ok {chained dec : Bool} {c : Cipher} (h : s.modeCheck chained dec = .ok c) :
    s.cipherPresent = .ok c ∧ (chained = true → s.seedValid = true) ∧ s.cipherShape c = .ok () ∧
      s.inLen.toNat ≤ 128 * s.nu ∧ (dec = true → s.inLen.toNat % s.nu = 0) ∧ s.message.all packable = true := by
  obtain ⟨c', hc, h⟩ := bind_eq_ok.1 h
  obtain ⟨_, hseed, h⟩ := bind_eq_ok.1 h
  obtain ⟨_, hshape, h⟩ := bind_eq_ok.1 h
  obtain ⟨_, hbound, h⟩ := bind_eq_ok.1 h
  obtain ⟨_, hmult, h⟩ := bind_eq_ok.1 h
  obtain ⟨_, hunits, h⟩ := bind_eq_ok.1 h
  obtain rfl := Except.ok.inj h
  exact ⟨hc, need_eq_ok.1 hseed, hshape, need_eq_ok.1 hbound, need_eq_ok.1 hmult, need_eq_ok.1 hunits⟩

/-- R122, R123: where the shape check passes, the SP view is a legal matrix of the block's size that the keys fit. -/
theorem spView_fits {keys : List BlockVal} (hs : s.LegalBody) (hk : s.spKeys = .ok keys)
    (h : s.cipherShape (.sp s.sprows.toNat s.spCols keys) = .ok ()) (x : Bits) :
    let view := BlockVal.mx (viewMatrix s.sprows.toNat s.spCols x)
    view.legal = true ∧ KeysFit keys view ∧ blockLen view ≤ s.blockBits.toNat := by
  obtain ⟨_, hfit, hshape⟩ := bind_eq_ok.1 h
  obtain ⟨hdiv, hmax⟩ := need_eq_ok.1 hfit
  obtain ⟨hnu, -, hbits⟩ := nu_bounds hs
  have hrows := sprows_bounds hs
  have hprod : s.sprows.toNat * s.spCols = s.nu := by
    rw [State.spCols, ← Nat.div_div_eq_div_mul]
    exact Nat.mul_div_cancel' (Nat.dvd_of_mod_eq_zero hdiv)
  have hcols : 1 ≤ s.spCols := by
    refine Nat.pos_of_ne_zero fun h0 => ?_
    rw [h0] at hprod
    omega
  refine ⟨legal_viewMatrix hrows ⟨hcols, hmax⟩ x, fun k hm => ⟨legal_of_spKeys hs hk k hm, need_eq_ok.1 hshape k hm⟩, ?_⟩
  have hlen : (viewMatrix s.sprows.toNat s.spCols x).bytes.length = s.nu := by rw [← hprod]; simp [viewMatrix]
  rw [blockLen, flat, bitsOfBytes_length, hlen]
  exact hbits

/-- R122: a transform of the view that keeps a legal block's shape stays within the block. -/
theorem within_spView {keys : List BlockVal} {run : BlockVal → Except Err BlockVal} (hs : s.LegalBody)
    (hk : s.spKeys = .ok keys) (h : s.cipherShape (.sp s.sprows.toNat s.spCols keys) = .ok ())
    (hrun : ∀ {v y}, v.legal = true → KeysFit keys v → run v = .ok y → y.legal = true ∧ shape y = shape v) :
    Within s.blockBits.toNat fun x => run (.mx (viewMatrix s.sprows.toNat s.spCols x)) >>= fun y => .ok (flat y) := by
  intro x y _ hy
  obtain ⟨hl, hfit, hW⟩ := spView_fits hs hk h x
  obtain ⟨v, hv, hy⟩ := bind_eq_ok.1 hy
  obtain rfl := Except.ok.inj hy
  obtain ⟨hvl, hvs⟩ := hrun hl hfit hv
  exact (blockLen_eq_of_shape hvl hl hvs).trans_le hW

theorem length_of_extResult {W : Nat} {r y : Bits} (h : extResult W r = .ok y) : y.length = W := by
  unfold extResult at h
  split at h
  · cases h; assumption
  · cases h

/-- R122: E and D of the selected cipher stay within the block. -/
theorem within_cipher {chained dec : Bool} {c : Cipher} (hs : s.LegalBody) (h : s.modeCheck chained dec = .ok c)
    (p : Ports) : Within s.blockBits.toNat (c.enc p) ∧ Within s.blockBits.toNat (c.dec p) := by
  obtain ⟨hc, -, hshape, -⟩ := modeCheck_eq_ok h
  obtain ⟨keys, -, rfl⟩ | ⟨keys, hk, rfl⟩ | rfl | rfl := cipherPresent_cases hc
  · refine ⟨fun x y hx hy => ?_, fun x y hx hy => ?_⟩
    · have := length_feistelEnc hy
      omega
    · have := length_feistelDec hy
      omega
  · exact ⟨within_spView hs hk hshape legal_spEnc, within_spView hs hk hshape legal_spDec⟩
  · exact ⟨fun x y _ hy => (length_of_extResult hy).le, fun x y _ hy => (length_of_extResult hy).le⟩
  · exact ⟨fun x y hx hy => Except.ok.inj hy ▸ hx, fun x y hx hy => Except.ok.inj hy ▸ hx⟩

/-! Padding, chunking and stripping. -/

theorem length_padUnits_le {nu n : Nat} {u : List CodeUnit} (hnu : 1 ≤ nu) (h : u.length ≤ n * nu) :
    (padUnits nu u).length ≤ n * nu := by
  rw [padUnits, List.length_append, List.length_replicate]
  have hsplit := Nat.div_add_mod u.length nu
  obtain h0 | hpos := Nat.eq_zero_or_pos (u.length % nu)
  · simpa [h0] using h
  · have hr : u.length % nu < nu := Nat.mod_lt _ hnu
    have hq : u.length / nu < n := by
      refine Nat.lt_of_mul_lt_mul_left (a := nu) ?_
      rw [Nat.mul_comm nu n]
      omega
    have hstep : nu * (u.length / nu + 1) ≤ n * nu := by
      rw [Nat.mul_comm n nu]
      exact Nat.mul_le_mul_left nu hq
    rw [Nat.mul_add] at hstep
    rw [Nat.mod_eq_of_lt (by omega)]
    omega

theorem fitChunks_chunks {W n nu : Nat} {u : List CodeUnit} (hnu : 1 ≤ nu) (hW : 8 * nu ≤ W) (h : u.length ≤ n * nu) :
    FitChunks W n (chunks nu u) := by
  constructor
  · rw [chunks, List.length_map, List.length_range]
    exact Nat.div_le_of_le_mul (Nat.mul_comm n nu ▸ h)
  · intro x hx
    obtain ⟨i, -, rfl⟩ := List.mem_map.1 hx
    have hstep : (i + 1) * nu = i * nu + nu := Nat.succ_mul i nu
    rw [length_packUnits, slice_length]
    omega

@[simp] theorem length_message (s : State) : s.message.length = s.inLen.toNat := length_entries ..

/-- R125, R127: the chunks of a checked message, padded. -/
theorem fitChunks_padded {chained dec : Bool} {c : Cipher} (hs : s.LegalBody) (h : s.modeCheck chained dec = .ok c) :
    FitChunks s.blockBits.toNat 128 (chunks s.nu (padUnits s.nu s.message)) := by
  obtain ⟨-, -, -, hbound, -⟩ := modeCheck_eq_ok h
  obtain ⟨hnu, -, hbits⟩ := nu_bounds hs
  exact fitChunks_chunks hnu hbits (length_padUnits_le hnu (by rwa [length_message]))

/-- The chunks of a checked message as it is. -/
theorem fitChunks_message {chained dec : Bool} {c : Cipher} (hs : s.LegalBody) (h : s.modeCheck chained dec = .ok c) :
    FitChunks s.blockBits.toNat 128 (chunks s.nu s.message) := by
  obtain ⟨-, -, -, hbound, -⟩ := modeCheck_eq_ok h
  obtain ⟨hnu, -, hbits⟩ := nu_bounds hs
  exact fitChunks_chunks hnu hbits (by rwa [length_message])

theorem length_unitsOfChunks_le {W n : Nat} {cs : List Bits} (h : FitChunks W n cs) :
    (unitsOfChunks cs).length ≤ n * (W / 8) := by
  refine le_trans ?_ (Nat.mul_le_mul_right (W / 8) h.1)
  rw [unitsOfChunks, List.length_flatMap]
  refine (List.sum_le_card_nsmul _ (W / 8) fun m hm => ?_).trans_eq (by simp)
  obtain ⟨x, hx, rfl⟩ := List.mem_map.1 hm
  rw [length_unpackBits]
  exact Nat.div_le_div_right (h.2 x hx)

theorem fitsOut_unitsOfChunks {cs : List Bits} (hs : s.LegalBody) (h : FitChunks s.blockBits.toNat 128 cs) :
    FitsOut (unitsOfChunks cs) := by
  constructor
  · have hlen := length_unitsOfChunks_le h
    have hW := blockBits_bounds hs
    omega
  · intro u hu
    obtain ⟨x, -, hx⟩ := List.mem_flatMap.1 hu
    exact toNat_le_of_mem_unpackBits hx

/-- R126: stripping takes units from the end only. -/
theorem stripUnits_prefix (w : List CodeUnit) : stripUnits w <+: w := by
  induction w with
  | nil => exact List.prefix_rfl
  | cons u us ih =>
    rw [stripUnits]
    split
    · split
      · exact List.nil_prefix
      · exact List.cons_prefix_cons.2 ⟨rfl, List.nil_prefix⟩
    · next v vs hv => exact List.cons_prefix_cons.2 ⟨rfl, hv ▸ ih⟩

theorem FitsOut.strip {w : List CodeUnit} (h : FitsOut w) : FitsOut (stripUnits w) :=
  ⟨(stripUnits_prefix w).length_le.trans h.1, fun u hu => h.2 u ((stripUnits_prefix w).subset hu)⟩

/-! ECB and CBC. -/

theorem fitChunks_nil (W n : Nat) : FitChunks W n [] := ⟨Nat.zero_le n, nofun⟩

theorem FitChunks.cons {W n : Nat} {x : Bits} {xs : List Bits} (hx : x.length ≤ W) (h : FitChunks W n xs) :
    FitChunks W (n + 1) (x :: xs) :=
  ⟨Nat.succ_le_succ h.1, List.forall_mem_cons.2 ⟨hx, h.2⟩⟩

/-- The shape all three chunk loops have: a chunk's result before the results of the chunks after it. -/
theorem FitChunks.of_loop {W n : Nat} {c : Bits} {cs out : List Bits} {a : Except Err Bits} {g : Bits → Bits}
    {rest : Bits → Except Err (List Bits)} (hc : FitChunks W n (c :: cs))
    (hx : c.length ≤ W → ∀ x, a = .ok x → (g x).length ≤ W)
    (hxs : ∀ {m x xs}, FitChunks W m cs → rest x = .ok xs → FitChunks W m xs)
    (h : (a >>= fun x => rest x >>= fun xs => .ok (g x :: xs)) = .ok out) : FitChunks W n out := by
  obtain ⟨hlen, hbits⟩ := hc
  obtain ⟨hl, hcs⟩ := List.forall_mem_cons.1 hbits
  obtain ⟨m, rfl⟩ : ∃ m, n = m + 1 := Nat.exists_eq_succ_of_ne_zero (by rintro rfl; cases hlen)
  obtain ⟨x, ha, h⟩ := bind_eq_ok.1 h
  obtain ⟨xs, hr, h⟩ := bind_eq_ok.1 h
  obtain rfl := Except.ok.inj h
  exact (hxs ⟨Nat.le_of_succ_le_succ hlen, hcs⟩ hr).cons (hx hl x ha)

theorem length_xorBits_le {x : Bits} {W : Nat} (h : x.length ≤ W) (y : Bits) : (xorBits x y).length ≤ W := by
  rw [xorBits_length]
  omega

theorem fitChunks_eachChunk {W : Nat} {f : Bits → Except Err Bits} (hf : Within W f) {cs : List Bits} :
    ∀ {n : Nat} {out : List Bits}, FitChunks W n cs → eachChunk f cs = .ok out → FitChunks W n out := by
  induction cs with
  | nil => rintro n out - ⟨⟩; exact fitChunks_nil W n
  | cons c cs ih =>
    intro n out hc h
    exact hc.of_loop (fun hl x hx => hf c x hl hx) ih h

theorem fitChunks_cbcEncChain {W : Nat} {e : Bits → Except Err Bits} (he : Within W e) {cs : List Bits} :
    ∀ {ch : Bits} {n : Nat} {out : List Bits}, FitChunks W n cs → cbcEncChain e ch cs = .ok out → FitChunks W n out := by
  induction cs with
  | nil => rintro ch n out - ⟨⟩; exact fitChunks_nil W n
  | cons c cs ih =>
    intro ch n out hc h
    exact hc.of_loop (fun hl x hx => he _ x (length_xorBits_le hl ch) hx) ih h

theorem fitChunks_cbcDecChain {W : Nat} {d : Bits → Except Err Bits} (hd : Within W d) {cs : List Bits} :
    ∀ {ch : Bits} {n : Nat} {out : List Bits}, FitChunks W n cs → cbcDecChain d ch cs = .ok out → FitChunks W n out := by
  induction cs with
  | nil => rintro ch n out - ⟨⟩; exact fitChunks_nil W n
  | cons c cs ih =>
    intro ch n out hc h
    exact hc.of_loop (fun hl x hx => length_xorBits_le (hd c x hl hx) ch) ih h

variable {p : Ports} {w : List CodeUnit}

theorem fitsOut_ecbeUnits (hs : s.LegalBody) (h : ecbeUnits p s = .ok w) : FitsOut w := by
  obtain ⟨c, hc, h⟩ := bind_eq_ok.1 h
  obtain ⟨out, ho, h⟩ := bind_eq_ok.1 h
  obtain rfl := Except.ok.inj h
  exact fitsOut_unitsOfChunks hs (fitChunks_eachChunk (within_cipher hs hc p).1 (fitChunks_padded hs hc) ho)

theorem fitsOut_ecbdUnits (hs : s.LegalBody) (h : ecbdUnits p s = .ok w) : FitsOut w := by
  obtain ⟨c, hc, h⟩ := bind_eq_ok.1 h
  obtain ⟨out, ho, h⟩ := bind_eq_ok.1 h
  obtain rfl := Except.ok.inj h
  exact (fitsOut_unitsOfChunks hs (fitChunks_eachChunk (within_cipher hs hc p).2 (fitChunks_message hs hc) ho)).strip

theorem fitsOut_cbceUnits (hs : s.LegalBody) (h : cbceUnits p s = .ok w) : FitsOut w := by
  obtain ⟨c, hc, h⟩ := bind_eq_ok.1 h
  obtain ⟨out, ho, h⟩ := bind_eq_ok.1 h
  obtain rfl := Except.ok.inj h
  exact fitsOut_unitsOfChunks hs (fitChunks_cbcEncChain (within_cipher hs hc p).1 (fitChunks_padded hs hc) ho)

theorem fitsOut_cbcdUnits (hs : s.LegalBody) (h : cbcdUnits p s = .ok w) : FitsOut w := by
  obtain ⟨c, hc, h⟩ := bind_eq_ok.1 h
  obtain ⟨out, ho, h⟩ := bind_eq_ok.1 h
  obtain rfl := Except.ok.inj h
  exact (fitsOut_unitsOfChunks hs (fitChunks_cbcDecChain (within_cipher hs hc p).2 (fitChunks_message hs hc) ho)).strip

/-! CFB and OFB. -/

/-- A byte unit XOR a key byte is a byte unit. -/
theorem toNat_xor_unitOfByte_le {u : CodeUnit} (h : u.toNat ≤ 0xFF) (k : Byte) : (u ^^^ unitOfByte k).toNat ≤ 0xFF := by
  have hk : (unitOfByte k).toNat < 2 ^ 8 := by
    have := k.isLt
    rw [unitOfByte, BitVec.toNat_setWidth]
    omega
  have hx := Nat.xor_lt_two_pow (n := 8) (by omega : u.toNat < 2 ^ 8) hk
  rw [BitVec.toNat_xor]
  omega

/-- R134 - R137: the unit loop answers a byte unit for each byte unit. -/
theorem streamUnits_bytes {e : Bits → Except Err Bits} {fb : Feedback} {us : List CodeUnit} :
    ∀ {sr : StreamReg} {ys : List CodeUnit}, us.all packable = true → streamUnits e fb sr us = .ok ys →
      ys.length = us.length ∧ ∀ y ∈ ys, y.toNat ≤ 0xFF := by
  induction us with
  | nil => rintro sr ys - ⟨⟩; exact ⟨rfl, nofun⟩
  | cons u us ih =>
    intro sr ys hp h
    obtain ⟨hu, hus⟩ := Bool.and_eq_true_iff.1 (List.all_cons ▸ hp)
    obtain ⟨k, -, h⟩ := bind_eq_ok.1 h
    obtain ⟨ys', hys, h⟩ := bind_eq_ok.1 h
    obtain rfl := Except.ok.inj h
    obtain ⟨hl, hb⟩ := ih hus hys
    exact ⟨congrArg (· + 1) hl, List.forall_mem_cons.2 ⟨toNat_xor_unitOfByte_le (of_decide_eq_true hu) k, hb⟩⟩

/-- A stream mode's result, whatever its feedback. -/
theorem fitsOut_stream {fb : Feedback} (hs : s.LegalBody) (h : (s.modeCheck true false >>= fun c =>
    streamUnits (c.enc p) fb ⟨s.seed⟩ s.message) = .ok w) : FitsOut w := by
  obtain ⟨c, hc, h⟩ := bind_eq_ok.1 h
  obtain ⟨-, -, -, -, -, hunits⟩ := modeCheck_eq_ok hc
  obtain ⟨hl, hb⟩ := streamUnits_bytes hunits h
  have hin : s.inLen.toNat ≤ 8192 := of_decide_eq_true hs.csrs.inLen
  exact ⟨by rw [hl, length_message]; exact hin, hb⟩

end Sys2Proof.Machine

/-! ### Multithreaded commands keep the state legal (45_executor.md R143 - R150)

Whatever order the workers take, a slot holds only what a task computed, so it is within the block. -/

namespace Sys2Proof.Machine

variable {s : State} {W n : Nat} {work : Work}

/-- A task's work stays within `W` bits, whatever the chain value. -/
def WorkWithin (W : Nat) (work : Work) : Prop := ∀ ch, Within W fun x => work x ch

/-- `n` slots, each unwritten or within `W` bits. -/
def SlotsFit (W n : Nat) (slots : Slots) : Prop := slots.length = n ∧ ∀ x, some x ∈ slots → x.length ≤ W

/-- A batch whose tasks and written slots are within `W` bits. -/
structure Batch.Fits (W n : Nat) (b : Batch) : Prop where
  pending : ∀ t ∈ b.pending, t.chunk.length ≤ W
  workers : ∀ t, some t ∈ b.workers → t.chunk.length ≤ W
  slots   : SlotsFit W n b.slots

theorem SlotsFit.set {slots : Slots} (h : SlotsFit W n slots) (i : Nat) {r : Bits} (hr : r.length ≤ W) :
    SlotsFit W n (slots.set i (some r)) := by
  refine ⟨by rw [List.length_set]; exact h.1, fun x hx => ?_⟩
  obtain hx | hx := List.mem_or_eq_of_mem_set hx
  · exact h.2 x hx
  · cases hx; exact hr

theorem fits_start {tasks : List Task} {slots : Slots} (ht : ∀ t ∈ tasks, t.chunk.length ≤ W) (hs : SlotsFit W n slots) :
    (Batch.start tasks slots).Fits W n :=
  ⟨ht, fun _ h => (nomatch List.eq_of_mem_replicate h), hs⟩

/-- R143: a task's end writes its own result, or an error. -/
theorem finishTask_eq (b : Batch) (t : Task) : ∃ slots errors, b.finishTask work t = { b with slots := slots, errors := errors } ∧
    (slots = b.slots ∨ ∃ ch r, work t.chunk ch = .ok r ∧ slots = b.slots.set t.idx (some r)) := by
  unfold Batch.finishTask
  split
  · exact ⟨b.slots, b.errors, rfl, .inl rfl⟩
  · next ch _ =>
    split
    · next r hr => exact ⟨_, b.errors, rfl, .inr ⟨ch, r, hr, rfl⟩⟩
    · exact ⟨b.slots, _, rfl, .inl rfl⟩

/-- R144: an event keeps a batch within the block. -/
theorem Batch.Fits.apply (hw : WorkWithin W work) {b : Batch} (h : b.Fits W n) (ev : WorkerEvent) :
    (b.apply work ev).Fits W n := by
  cases ev with
  | take w i =>
    simp only [Batch.apply]
    split
    · exact h
    · next t ht =>
      refine ⟨fun u hu => h.pending u (List.mem_of_mem_eraseIdx hu), fun u hu => ?_, h.slots⟩
      obtain hu | hu := List.mem_or_eq_of_mem_set hu
      · exact h.workers u hu
      · cases hu; exact h.pending _ (List.mem_of_getElem? ht)
  | finish w =>
    simp only [Batch.apply]
    split
    · exact h
    · next t ht =>
      have hidle : ∀ u, some u ∈ b.workers.set w none → u.chunk.length ≤ W := fun u hu =>
        h.workers u ((List.mem_or_eq_of_mem_set hu).resolve_right nofun)
      have htask : some t ∈ b.workers := List.mem_of_getElem? (by
        rw [List.getD_eq_getElem?_getD, Option.getD_eq_iff] at ht
        exact ht.resolve_right fun h => by cases h.2)
      obtain ⟨slots, errors, he, hslots⟩ := finishTask_eq (work := work) b t
      rw [he]
      obtain rfl | ⟨ch, r, hr, rfl⟩ := hslots
      · exact ⟨h.pending, hidle, h.slots⟩
      · exact ⟨h.pending, hidle, h.slots.set _ (hw ch _ r (h.workers t htask) hr)⟩

theorem Batch.Fits.run (hw : WorkWithin W work) (pick : Nat → Nat) (fuel : Nat) : ∀ {turn : Nat} {b : Batch},
    b.Fits W n → (Batch.run work pick fuel turn b).Fits W n := by
  induction fuel with
  | zero => intro turn b h; exact h
  | succ fuel ih =>
    intro turn b h
    rw [Batch.run]
    split
    · exact h
    · exact ih (h.apply hw _)

/-- R145: a batch that ends well ends with its slots. -/
theorem batchEnd_eq_ok {b : Batch} {o : BatchOutcome} {slots : Slots} (h : batchEnd b o = .ok slots) : slots = b.slots := by
  unfold batchEnd at h
  split at h
  · cases h
  · cases o <;> cases h
    rfl

theorem slotsFit_runBatches (hw : WorkWithin W work) (env : BatchEnv) {batches : List (List Task)} :
    ∀ {b : Nat} {slots slots' : Slots}, (∀ tasks ∈ batches, ∀ t ∈ tasks, t.chunk.length ≤ W) → SlotsFit W n slots →
      runBatches env work b batches slots = .ok slots' → SlotsFit W n slots' := by
  induction batches with
  | nil => rintro b slots slots' - hs ⟨⟩; exact hs
  | cons tasks rest ih =>
    intro b slots slots' ht hs h
    obtain ⟨mid, hm, h⟩ := bind_eq_ok.1 h
    obtain rfl := batchEnd_eq_ok hm
    obtain ⟨htasks, hrest⟩ := List.forall_mem_cons.1 ht
    exact ih hrest ((fits_start htasks hs).run hw _ _).slots h

theorem mem_of_mem_batchesOf {tasks batch : List Task} (h : batch ∈ batchesOf tasks) : ∀ t ∈ batch, t ∈ tasks := by
  obtain ⟨b, -, rfl⟩ := List.mem_map.1 h
  exact fun t ht => List.mem_of_mem_drop (List.mem_of_mem_take ht)

/-- R146: MTRun answers a chunk within the block for each task. -/
theorem fitChunks_mtRun {env : BatchEnv} {cs : List Bits} {chain : Nat → ChainInput} {out : List Bits}
    (hw : WorkWithin W work) (hc : FitChunks W n cs) (h : mtRun env work (tasksOf cs chain) = .ok out) :
    FitChunks W n out := by
  obtain ⟨slots, hs, h⟩ := bind_eq_ok.1 h
  obtain rfl := Except.ok.inj h
  have ht : ∀ t ∈ tasksOf cs chain, t.chunk.length ≤ W := by
    intro t ht
    obtain ⟨ci, hci, rfl⟩ := List.mem_map.1 ht
    exact hc.2 _ (List.fst_mem_of_mem_zipIdx hci)
  have hfresh : SlotsFit W cs.length (List.replicate (tasksOf cs chain).length none) :=
    ⟨by simp [tasksOf], fun x hx => by cases List.eq_of_mem_replicate hx⟩
  obtain ⟨hlen, hbits⟩ := slotsFit_runBatches hw env (fun b hb t hm => ht t (mem_of_mem_batchesOf hb t hm)) hfresh hs
  refine ⟨by rw [List.length_map, hlen]; exact hc.1, fun x hx => ?_⟩
  obtain ⟨r, hr, rfl⟩ := List.mem_map.1 hx
  cases r with
  | none => exact Nat.zero_le W
  | some x => exact hbits x hr

theorem workWithin_ecb {f : Bits → Except Err Bits} (hf : Within W f) : WorkWithin W fun x _ => f x := fun _ => hf

theorem workWithin_cbcEnc {e : Bits → Except Err Bits} (he : Within W e) : WorkWithin W fun x ch => e (xorBits x ch) :=
  fun ch _ y hx h => he _ y (length_xorBits_le hx ch) h

theorem workWithin_cbcDec {d : Bits → Except Err Bits} (hd : Within W d) : WorkWithin W (cbcDecWork d) := by
  intro ch x y hx h
  obtain ⟨z, hz, h⟩ := bind_eq_ok.1 h
  obtain rfl := Except.ok.inj h
  exact length_xorBits_le (hd x z hx hz) ch

/-- R151: at most 128 chunks are at most one batch. -/
theorem batchCountOf_le {cs : List Bits} (h : FitChunks W 128 cs) : batchCountOf cs.length ≤ 1 := by
  have := h.1
  simp only [batchCountOf, Config.batchMax]
  omega

variable {p : Ports} {env : BatchEnv} {w : List CodeUnit} {b : Nat}

theorem fitsOut_ecbeMtUnits (hs : s.LegalBody) (h : ecbeMtUnits p env s = .ok (w, b)) : FitsOut w ∧ b ≤ 1 := by
  obtain ⟨c, hc, h⟩ := bind_eq_ok.1 h
  obtain ⟨_, -, h⟩ := bind_eq_ok.1 h
  obtain ⟨out, ho, h⟩ := bind_eq_ok.1 h
  cases h
  have hcs := fitChunks_padded hs hc
  exact ⟨fitsOut_unitsOfChunks hs (fitChunks_mtRun (workWithin_ecb (within_cipher hs hc p).1) hcs ho), batchCountOf_le hcs⟩

theorem fitsOut_ecbdMtUnits (hs : s.LegalBody) (h : ecbdMtUnits p env s = .ok (w, b)) : FitsOut w ∧ b ≤ 1 := by
  obtain ⟨c, hc, h⟩ := bind_eq_ok.1 h
  obtain ⟨_, -, h⟩ := bind_eq_ok.1 h
  obtain ⟨out, ho, h⟩ := bind_eq_ok.1 h
  cases h
  have hcs := fitChunks_message hs hc
  exact ⟨(fitsOut_unitsOfChunks hs (fitChunks_mtRun (workWithin_ecb (within_cipher hs hc p).2) hcs ho)).strip,
    batchCountOf_le hcs⟩

theorem fitsOut_cbceMtUnits (hs : s.LegalBody) (h : cbceMtUnits p env s = .ok (w, b)) : FitsOut w ∧ b ≤ 1 := by
  obtain ⟨c, hc, h⟩ := bind_eq_ok.1 h
  obtain ⟨_, -, h⟩ := bind_eq_ok.1 h
  obtain ⟨out, ho, h⟩ := bind_eq_ok.1 h
  cases h
  have hcs := fitChunks_padded hs hc
  exact ⟨fitsOut_unitsOfChunks hs (fitChunks_mtRun (workWithin_cbcEnc (within_cipher hs hc p).1) hcs ho),
    batchCountOf_le hcs⟩

theorem fitsOut_cbcdMtUnits (hs : s.LegalBody) (h : cbcdMtUnits p env s = .ok (w, b)) : FitsOut w ∧ b ≤ 1 := by
  obtain ⟨c, hc, h⟩ := bind_eq_ok.1 h
  obtain ⟨_, -, h⟩ := bind_eq_ok.1 h
  obtain ⟨out, ho, h⟩ := bind_eq_ok.1 h
  cases h
  have hcs := fitChunks_message hs hc
  exact ⟨(fitsOut_unitsOfChunks hs (fitChunks_mtRun (workWithin_cbcDec (within_cipher hs hc p).2) hcs ho)).strip,
    batchCountOf_le hcs⟩

end Sys2Proof.Machine

/-! ### Every step keeps the state legal -/

namespace Sys2Proof.Machine

variable {s : State}

theorem legalNext_completeMode {opc : Byte} {r : Except Err (List CodeUnit)} (hs : s.LegalBody)
    (hr : ∀ w, r = .ok w → FitsOut w) : LegalNext (completeMode opc s r) := by
  intro t h
  obtain ⟨w, hw, rfl⟩ | ⟨e, -, rfl⟩ := completeMode_cases h
  · exact (hs.output (hr w hw).1 (hr w hw).2).succeed 0
  · exact hs.raiseMode opc e

theorem legalNext_completeMt {opc : Byte} {r : MtResult} (hs : s.LegalBody)
    (hr : ∀ w b, r = .ok (w, b) → FitsOut w ∧ b ≤ 1) : LegalNext (completeMt opc s r) := by
  intro t h
  obtain ⟨w, b, hw, rfl⟩ | ⟨e, -, rfl⟩ := completeMt_cases h
  · obtain ⟨hfit, hb⟩ := hr w b hw
    exact ((hs.output hfit.1 hfit.2).writeBatchCount hb).succeed 0
  · exact hs.raiseMode opc e

/-- Every command leaves a legal state (R153, R156, R157). -/
theorem legalNext_exec (hs : s.LegalBody) (i : Instr) : LegalNext (exec i s) := by
  cases i with
  | nop => exact legalNext_nop hs
  | csrr csr => exact legalNext_csrr hs csr
  | csrw csr v => exact legalNext_csrw hs csr v
  | inwr idx u => exact legalNext_inwr hs idx u
  | outrd idx => exact legalNext_outrd hs idx
  | tmwr idx e => exact legalNext_tmwr hs idx e
  | tmrd idx => exact legalNext_tmrd hs idx
  | seedset rs1 => exact legalNext_seedset hs rs1
  | kset b idx rs1 => exact legalNext_kset hs b idx rs1
  | kexp b rs1 => exact legalNext_kexp hs b rs1
  | poolInit => exact legalNext_poolInit hs
  | poolRecycle => exact legalNext_poolRecycle hs
  | bzero rd len => exact legalNext_bzero hs rd len
  | bmov rd rs1 => exact legalNext_bmov hs rd rs1
  | bxor rd rs1 rs2 => exact legalNext_bxor hs rd rs1 rs2
  | bshl rd rs1 loop n => exact legalNext_bshl hs rd rs1 loop n
  | bgetb rs1 pos => exact legalNext_bgetb hs rs1 pos
  | bsetb rd rs1 pos val => exact legalNext_bsetb hs rd rs1 pos val
  | bsize rs1 => exact legalNext_bsize hs rs1
  | bvslice rd rs1 lo hi => exact legalNext_bvslice hs rd rs1 lo hi
  | bvcat rd rs1 rs2 => exact legalNext_bvcat hs rd rs1 rs2
  | bvperm rd rs1 tbase tlen => exact legalNext_bvperm hs rd rs1 tbase tlen
  | bvcmp rs1 rs2 => exact legalNext_bvcmp hs rs1 rs2
  | bvsum rs1 => exact legalNext_bvsum hs rs1
  | bvfromu rd base count => exact legalNext_bvfromu hs rd base count
  | bvtou rs1 base => exact legalNext_bvtou hs rs1 base
  | mxfrombv rd rs1 rows cols => exact legalNext_mxfrombv hs rd rs1 rows cols
  | mxtobv rd rs1 => exact legalNext_mxtobv hs rd rs1
  | mxsub rd rs1 tbase tlen => exact legalNext_mxsub hs rd rs1 tbase tlen
  | mxrotl rd rs1 => exact legalNext_mxrotl hs rd rs1
  | mxrotr rd rs1 => exact legalNext_mxrotr hs rd rs1
  | mxmul rd rs1 rs2 => exact legalNext_mxmul hs rd rs1 rs2
  | gfxtime a => exact legalNext_gfxtime hs a
  | gfmul a b => exact legalNext_gfmul hs a b
  | fen rd rs1 => exact legalNext_fen hs rd rs1
  | fde rd rs1 => exact legalNext_fde hs rd rs1
  | spen rd rs1 => exact legalNext_spen hs rd rs1
  | spde rd rs1 => exact legalNext_spde hs rd rs1
  | ecbe => exact legalNext_completeMode hs fun w => fitsOut_ecbeUnits hs
  | ecbd => exact legalNext_completeMode hs fun w => fitsOut_ecbdUnits hs
  | cbce => exact legalNext_completeMode hs fun w => fitsOut_cbceUnits hs
  | cbcd => exact legalNext_completeMode hs fun w => fitsOut_cbcdUnits hs
  | cfbe => exact legalNext_completeMode hs fun w => fitsOut_stream hs
  | cfbd => exact legalNext_completeMode hs fun w => fitsOut_stream hs
  | ofbe => exact legalNext_completeMode hs fun w => fitsOut_stream hs
  | ofbd => exact legalNext_completeMode hs fun w => fitsOut_stream hs
  | ecbeMt => exact legalNext_completeMt hs fun w b => fitsOut_ecbeMtUnits hs
  | ecbdMt => exact legalNext_completeMt hs fun w b => fitsOut_ecbdMtUnits hs
  | cbceMt => exact legalNext_completeMt hs fun w b => fitsOut_cbceMtUnits hs
  | cbcdMt => exact legalNext_completeMt hs fun w b => fitsOut_cbcdMtUnits hs

/-! The port's moves. -/

/-- Neither the port, the command in execution nor the model's counters matter to legality. -/
theorem State.Legal.withPort (h : s.Legal) (running : Option Word) (port : List PortInput) (draws epoch : Nat) :
    ({ s with running := running, port := port, draws := draws, epoch := epoch } : State).Legal :=
  ⟨h.csrs.congr rfl, h.blocks.congr rfl, h.spaces.congr rfl, h.result.congr rfl,
    ⟨h.record.clean, h.record.failed, h.record.high⟩, h.seed, h.batch, h.begun⟩

theorem legalReg_of_replicate (n : Nat) : ∀ v ∈ (Vector.replicate n (none : RegVal)).toList, legalReg v = true := by
  intro v hv
  rw [Vector.toList_replicate] at hv
  rw [List.eq_of_mem_replicate hv, legalReg_none]

/-- Settles O11: every field holds its value of R38. -/
theorem resetStateIsLegal : Obligations.ResetStateIsLegal where
  csrs   := ⟨by decide, by decide, by decide, by decide, by decide, by decide⟩
  blocks := ⟨legalReg_of_replicate _, legalReg_of_replicate _, legalReg_of_replicate _⟩
  spaces := ⟨empty_wf _, empty_wf _, empty_wf _⟩
  result := ⟨Nat.zero_le _, fun _ => rfl, fun a h => absurd h (Nat.not_lt_zero a)⟩
  record := recordConsistent_of_success rfl rfl
  seed   := fun h => by cases h
  batch  := Nat.zero_le _
  begun  := rfl

theorem State.Legal.passIdle (h : s.Legal) : s.passIdle.Legal := by
  obtain ⟨port, hp⟩ := passIdle_eq s
  rw [hp]
  exact h.withPort s.running port s.draws s.epoch

/-- Settles O12: by cases on what a step can do; a command keeps the state legal by `legalNext_exec`. -/
theorem stepKeepsLegalState : Obligations.StepKeepsLegalState := by
  intro s t hs h
  obtain ⟨pre, rest, -, -, rfl⟩ | ⟨cw, i, -, -, -, he⟩ | ⟨cw, why, -, -, -, rfl⟩ | ⟨cw, rest, -, -, -, rfl⟩ |
    ⟨rest, -, -, rfl⟩ | ⟨-, -, rfl⟩ := step_cases h
  · exact resetStateIsLegal.withPort none rest (s.draws + 1) (s.epoch + 1)
  · exact legalNext_exec (legal_iff.1 hs.passIdle).1 i t he
  · exact (legal_iff.1 hs.passIdle).1.raise (opcField cw) (.illegal why)
  · exact hs.withPort (some cw) rest s.draws s.epoch
  · exact hs.withPort s.running rest s.draws s.epoch
  · exact hs

end Sys2Proof.Machine

/-! ### Who writes which state (10_state.md R15 - R36, 60_exceptions.md R153, R156)

Every command that succeeds makes at most one named update of the state, and `Writes` says which command makes which. The
frames of the registers, the record, the spaces, the banks and the CSRs are then read off the update. -/

namespace Sys2Proof.Machine

/-- The number of a CSR (R23). -/
def Csr.number : Csr → Nat
  | .id => 0x00
  | .status => 0x01
  | .errcode => 0x02
  | .blockBits => 0x03
  | .cipherSel => 0x04
  | .frounds => 0x05
  | .sprounds => 0x06
  | .sprows => 0x07
  | .inLen => 0x08
  | .outLen => 0x09
  | .poolState => 0x0A
  | .timeoutMs => 0x0B
  | .batchCount => 0x0C
  | .workers => 0x10
  | .batchMax => 0x11
  | .maxBlocks => 0x12
  | .unitBits => 0x13
  | .bufUnits => 0x14
  | .tmemSize => 0x15
  | .maxBvBits => 0x16
  | .nbr => 0x17
  | .kfSize => 0x18
  | .ksSize => 0x19

theorem ofNumber_number (c : Csr) : Csr.ofNumber c.number = some c := by
  cases c <;> rfl

theorem number_of_ofNumber {n : Nat} {c : Csr} (h : Csr.ofNumber n = some c) : n = c.number := by
  unfold Csr.ofNumber at h
  split at h <;> cases h <;> rfl

/-- `Writes s i u resp`: from `s`, the command `i` may complete with success on the update `u` of `s`, with RESP = `resp`. -/
inductive Writes (s : State) : Instr → State → Word → Prop
  | register {i : Instr} {rd : Reg} (v : BlockVal) (h : i.destination = some rd) : Writes s i (s.writeBr rd v) 0
  | answer {i : Instr} (resp : Word) (h : i.answers = true) : Writes s i s resp
  | nop : Writes s .nop s 0
  | status (v : Nat) : Writes s (.csrw 0x01 v) (s.writeStatus v) 0
  | csr (c : Csr) (v : Nat) (h : c ≠ .status) : Writes s (.csrw c.number v) (s.writeCsr c v) 0
  | input (idx : Nat) (u : CodeUnit) : Writes s (.inwr idx u) (s.writeIn idx u) 0
  | table (idx : Nat) (e : CodeUnit) : Writes s (.tmwr idx e) (s.writeTable idx e) 0
  | seed (rs1 : Reg) (x : Bits) : Writes s (.seedset rs1) (s.writeSeed x) 0
  | key (b : Bank) (idx : Nat) (rs1 : Reg) (v : BlockVal) : Writes s (.kset b idx rs1) (s.writeKey b idx v) 0
  | keys (b : Bank) (rs1 : Reg) (n : Nat) (f : Nat → BlockVal) : Writes s (.kexp b rs1) (s.fillKeys b n f) 0
  | poolInit : Writes s .poolInit (s.writePool .ready) 0
  | poolRecycle : Writes s .poolRecycle (if s.poolState ≠ .absent then s.writePool .shutdown else s) 0
  | units (rs1 : Reg) (base : Nat) (us : List CodeUnit) (len : Nat) : Writes s (.bvtou rs1 base) (s.writeOut base us len) 0
  | output {i : Instr} (w : List CodeUnit) (h : i.isMode = true) : Writes s i (s.output w) 0
  | outputMt {i : Instr} (w : List CodeUnit) (b : Nat) (h : i.isMt = true) :
      Writes s i ((s.output w).writeBatchCount b) 0

variable {s t : State} {i : Instr}

/-- An effect that, where it succeeds, is one of the command's writes. -/
def WritesEffect (s : State) (i : Instr) (r : Effect) : Prop := ∀ u resp, r = .ok (u, resp) → Writes s i u resp

theorem writesEffect_ok {u : State} {resp : Word} (h : Writes s i u resp) : WritesEffect s i (.ok (u, resp)) := by
  rintro _ _ ⟨⟩
  exact h

theorem writesEffect_error {e : Err} : WritesEffect s i (.error e) := fun _ _ h => by cases h

/-- The checks before a write do not matter to it. -/
theorem writesEffect_bind {α : Type} {x : Except Err α} {f : α → Effect} (h : ∀ a, WritesEffect s i (f a)) :
    WritesEffect s i (x >>= f) := by
  intro u resp hu
  obtain ⟨a, -, ha⟩ := bind_eq_ok.1 hu
  exact h a u resp ha

theorem writesEffect_csrw {n v : Nat} {c : Csr} (hc : Csr.ofNumber n = some c) :
    WritesEffect s (.csrw n v) (csrwEffect s c v) := by
  obtain rfl := number_of_ofNumber hc
  unfold csrwEffect
  split
  · exact writesEffect_ok (.status v)
  · next hne => exact writesEffect_bind fun _ => writesEffect_bind fun _ => writesEffect_ok (.csr c v hne)

theorem writes_expandKeys (b : Bank) (rs1 : Reg) (p : Ports) (master : BlockVal) :
    Writes s (.kexp b rs1) (expandKeys p s b master) 0 := by
  cases b with
  | feistel => exact .keys .feistel rs1 _ _
  | sp => exact .keys .sp rs1 _ _

/-- Every command that is no mode command completes an effect of its own. -/
theorem exec_effect (s : State) (h : i.isMode = false) : ∃ r, exec i s = complete i.opcode s r ∧ WritesEffect s i r := by
  cases i with
  | nop => exact ⟨_, rfl, writesEffect_ok .nop⟩
  | csrr csr =>
    refine ⟨_, rfl, ?_⟩
    split
    · exact writesEffect_error
    · exact writesEffect_ok (.answer _ rfl)
  | csrw csr v =>
    refine ⟨_, rfl, ?_⟩
    split
    · exact writesEffect_error
    · next hc => exact writesEffect_csrw hc
  | inwr idx u => exact ⟨_, rfl, writesEffect_bind fun _ => writesEffect_ok (.input idx u)⟩
  | tmwr idx e => exact ⟨_, rfl, writesEffect_bind fun _ => writesEffect_ok (.table idx e)⟩
  | seedset rs1 => exact ⟨_, rfl, writesEffect_bind fun _ => writesEffect_ok (.seed rs1 _)⟩
  | kset b idx rs1 =>
    exact ⟨_, rfl, writesEffect_bind fun v => writesEffect_bind fun _ => writesEffect_ok (.key b idx rs1 v)⟩
  | kexp b rs1 => exact ⟨_, rfl, writesEffect_bind fun v => writesEffect_ok (writes_expandKeys b rs1 _ v)⟩
  | poolInit => exact ⟨_, rfl, writesEffect_ok .poolInit⟩
  | poolRecycle => exact ⟨_, rfl, writesEffect_ok .poolRecycle⟩
  | bvtou rs1 base =>
    exact ⟨_, rfl, writesEffect_bind fun _ => writesEffect_bind fun _ => writesEffect_bind fun _ =>
      writesEffect_ok (.units rs1 base _ _)⟩
  | gfxtime a => exact ⟨_, rfl, writesEffect_ok (.answer _ rfl)⟩
  | gfmul a b => exact ⟨_, rfl, writesEffect_ok (.answer _ rfl)⟩
  | bsize _ =>
    exact ⟨_, rfl, writesEffect_bind fun _ => writesEffect_ok (.answer _ rfl)⟩
  | outrd _ | tmrd _ =>
    exact ⟨_, rfl, writesEffect_bind fun _ => writesEffect_ok (.answer _ rfl)⟩
  | bgetb _ _ | bvsum _ =>
    exact ⟨_, rfl, writesEffect_bind fun _ => writesEffect_bind fun _ => writesEffect_ok (.answer _ rfl)⟩
  | bvcmp _ _ =>
    exact ⟨_, rfl, writesEffect_bind fun _ => writesEffect_bind fun _ => writesEffect_bind fun _ => writesEffect_bind fun _ =>
      writesEffect_ok (.answer _ rfl)⟩
  | bzero _ _ | bmov _ _ =>
    exact ⟨_, rfl, writesEffect_bind fun _ => writesEffect_ok (.register _ rfl)⟩
  | bshl _ _ _ _ | bsetb _ _ _ _ | mxtobv _ _ | mxrotl _ _ | mxrotr _ _ =>
    exact ⟨_, rfl, writesEffect_bind fun _ => writesEffect_bind fun _ => writesEffect_ok (.register _ rfl)⟩
  | bxor _ _ _ | bvslice _ _ _ _ | bvfromu _ _ _ =>
    exact ⟨_, rfl, writesEffect_bind fun _ => writesEffect_bind fun _ => writesEffect_bind fun _ =>
      writesEffect_ok (.register _ rfl)⟩
  | mxfrombv _ _ _ _ | fen _ _ | fde _ _ | spen _ _ | spde _ _ =>
    exact ⟨_, rfl, writesEffect_bind fun _ => writesEffect_bind fun _ => writesEffect_bind fun _ => writesEffect_bind fun _ =>
      writesEffect_ok (.register _ rfl)⟩
  | bvcat _ _ _ | bvperm _ _ _ _ | mxsub _ _ _ _ | mxmul _ _ _ =>
    exact ⟨_, rfl, writesEffect_bind fun _ => writesEffect_bind fun _ => writesEffect_bind fun _ => writesEffect_bind fun _ =>
      writesEffect_bind fun _ => writesEffect_ok (.register _ rfl)⟩
  | ecbe | ecbd | cbce | cbcd | cfbe | cfbd | ofbe | ofbd | ecbeMt | ecbdMt | cbceMt | cbcdMt => cases h

/-- What a command can leave: one of its writes and success, or a failure (R153, R156, R157). -/
theorem exec_cases (h : exec i s = .next t) :
    (∃ u resp, Writes s i u resp ∧ t = u.succeed resp) ∨ (i.isMode = false ∧ ∃ e, t = s.raise i.opcode e) ∨
      (i.isMode = true ∧ ∃ e, t = s.raiseMode i.opcode e) := by
  cases hm : i.isMode with
  | false =>
    obtain ⟨r, hx, hr⟩ := exec_effect s hm
    obtain ⟨u, resp, hu, rfl⟩ | ⟨e, -, rfl⟩ := complete_cases (hx ▸ h)
    · exact .inl ⟨u, resp, hr u resp hu, rfl⟩
    · exact .inr (.inl ⟨rfl, e, rfl⟩)
  | true =>
    obtain ⟨w, rfl⟩ | ⟨hmt, w, b, rfl⟩ | ⟨e, rfl⟩ := exec_mode_cases hm h
    · exact .inl ⟨_, 0, .output w hm, rfl⟩
    · exact .inl ⟨_, 0, .outputMt w b hmt, rfl⟩
    · exact .inr (.inr ⟨rfl, e, rfl⟩)

end Sys2Proof.Machine

namespace Sys2Proof.Machine

variable {s t : State} {i : Instr}

/-! The command families are disjoint. -/

theorem destination_of_answers (h : i.answers = true) : i.destination = none := by
  cases i with
  | csrr _ | outrd _ | tmrd _ | bgetb _ _ | bsize _ | bvcmp _ _ | bvsum _ | gfxtime _ | gfmul _ _ => rfl
  | _ => cases h

theorem destination_of_isMode (h : i.isMode = true) : i.destination = none := by
  cases i with
  | ecbe | ecbd | cbce | cbcd | cfbe | cfbd | ofbe | ofbd | ecbeMt | ecbdMt | cbceMt | cbcdMt => rfl
  | _ => cases h

theorem isMode_of_isMt (h : i.isMt = true) : i.isMode = true := by
  rw [Instr.isMode, h, Bool.or_true]

/-! R17, R16: the block registers. -/

/-- A write of anything but a block register leaves them all, and its command names no RD. -/
theorem Writes.br_cases {u : State} {resp : Word} (h : Writes s i u resp) :
    (∃ rd v, i.destination = some rd ∧ u = s.writeBr rd v) ∨ (i.destination = none ∧ u.br = s.br) := by
  cases h with
  | register v h => exact .inl ⟨_, v, h, rfl⟩
  | answer _ h => exact .inr ⟨destination_of_answers h, rfl⟩
  | output _ h => exact .inr ⟨destination_of_isMode h, rfl⟩
  | outputMt _ _ h => exact .inr ⟨destination_of_isMode (isMode_of_isMt h), rfl⟩
  | poolRecycle => exact .inr ⟨rfl, by split <;> rfl⟩
  | _ => exact .inr ⟨rfl, by simp⟩

/-- Settles O15: a success writes RD or leaves every register; a failure leaves every register. -/
theorem onlyNamedRegisterWritten : Obligations.OnlyNamedRegisterWritten := by
  intro i s t h
  obtain ⟨u, resp, hw, rfl⟩ | ⟨-, e, rfl⟩ | ⟨-, e, rfl⟩ := exec_cases h
  · obtain ⟨rd, v, hd, rfl⟩ | ⟨hd, hbr⟩ := hw.br_cases
    · rw [hd]
      refine ⟨fun r hr => readBr_writeBr_other s rd r v fun he => hr (he ▸ rfl), ?_⟩
      rintro r ⟨⟩ -
      exact (readBr_writeBr_same s rd v).symm ▸ Option.some_ne_none v
    · exact ⟨fun r _ => readBr_of_br_eq s hbr r, fun r hr => by rw [hd] at hr; cases hr⟩
  · exact ⟨fun _ _ => rfl, fun _ _ he => by cases he⟩
  · exact ⟨fun _ _ => rfl, fun _ _ he => by cases he⟩

/-! R20, R22, R25: STICKY and RESP. -/

/-- The writes that touch STICKY or answer a RESP. -/
theorem Writes.record_cases {u : State} {resp : Word} (h : Writes s i u resp) :
    (i.answers = true ∨ resp = 0) ∧ ((∃ v, i = .csrw 0x01 v ∧ u = s.writeStatus v) ∨ u.sticky = s.sticky) := by
  cases h with
  | answer _ h => exact ⟨.inl h, .inr rfl⟩
  | status v => exact ⟨.inr rfl, .inl ⟨v, rfl, rfl⟩⟩
  | poolRecycle => exact ⟨.inr rfl, .inr (by split <;> rfl)⟩
  | _ => exact ⟨.inr rfl, .inr (by simp)⟩

theorem writeStatus_sticky_of_set {v : Nat} (h : v.testBit 2 = true) : (s.writeStatus v).sticky = false := by
  rw [State.writeStatus, if_pos h]

theorem writeStatus_of_clear {v : Nat} (h : v.testBit 2 = false) : s.writeStatus v = s := by
  rw [State.writeStatus, h]; rfl

/-- R25: CSRW STATUS never fails. -/
theorem exec_csrw_status (s : State) (v : Nat) : exec (.csrw 0x01 v) s = succeedsWith (s.writeStatus v) 0 := rfl

/-- Settles O17: a failure sets the record, and of the writes only that of STATUS touches STICKY and only an answer RESP. -/
theorem stickyAndRespRules : Obligations.StickyAndRespRules := by
  intro i s t h
  have hclear : (∃ v, i = .csrw 0x01 v ∧ v.testBit 2 = true) → t.sticky = false := by
    rintro ⟨v, rfl, hv⟩
    rw [exec_csrw_status] at h
    cases h
    exact writeStatus_sticky_of_set hv
  obtain ⟨u, resp, hw, rfl⟩ | ⟨-, e, rfl⟩ | ⟨-, e, rfl⟩ := exec_cases h
  · obtain ⟨hresp, hsticky⟩ := hw.record_cases
    refine ⟨nofun, hclear, fun _ hs => ?_, ?_⟩
    · obtain ⟨v, rfl, rfl⟩ | hu := hsticky
      · rw [writeStatus_of_clear (hs v rfl), succeed_sticky]
      · exact hu
    · rintro (ha | he)
      · exact hresp.resolve_left (by simp [ha])
      · cases he
  · exact ⟨fun _ => rfl, hclear, nofun, fun _ => rfl⟩
  · exact ⟨fun _ => rfl, hclear, nofun, fun _ => rfl⟩

/-! R23, R30 - R35, R40 - R42: the spaces, the banks, the seed, the pool and the CSRs. -/

/-- R26: of the CSRs only BLOCK_BITS touches SEED_VALID. -/
theorem writeCsr_seedValid {c : Csr} (h : c ≠ .blockBits) (v : Nat) : (s.writeCsr c v).seedValid = s.seedValid := by
  cases c with
  | blockBits => exact absurd rfl h
  | _ => rfl

/-- Settles O18: a success is one of the command's writes, and a failure writes only the record, or OUT for a mode command. -/
theorem stateWrittenOnlyByItsCommands : Obligations.StateWrittenOnlyByItsCommands := by
  intro i s t h
  obtain ⟨u, resp, hw, rfl⟩ | ⟨hm, e, rfl⟩ | ⟨hm, e, rfl⟩ := exec_cases h
  · cases hw with
    | csr c v hc =>
      have hseed : (∀ x, Instr.csrw c.number v ≠ .csrw 0x03 x) → (s.writeCsr c v).seedValid = s.seedValid :=
        fun hn => writeCsr_seedValid (fun he => hn v (by rw [he]; rfl)) v
      simpa using hseed
    | output w hm => simp [hm]
    | outputMt w b hmt => simp [hmt, isMode_of_isMt hmt]
    | poolRecycle => split <;> simp
    | _ => simp
  · simp
  · simp [hm]

/-! R16: INVALID sources. -/

theorem complete_ok (opc : Byte) (s u : State) (resp : Word) : complete opc s (.ok (u, resp)) = succeedsWith u resp := rfl

theorem complete_error (opc : Byte) (s : State) (e : Err) :
    complete opc s (.error e) = failsWith s opc.toNat e.classCode e.detailCode := rfl

/-- R16, R155: a command that reads a source before every check of its own. -/
theorem complete_source_absent {r : Reg} (opc : Byte) (f : BlockVal → Effect) (h : s.readBr r = none) :
    complete opc s (s.source r >>= f) = failsWith s opc.toNat 1 0x01 := by
  rw [source_eq_error.2 ⟨h, rfl⟩, error_bind, complete_error]
  rfl

/-- The same of a command that reads two sources. -/
theorem complete_sources_absent {r q : Reg} (opc : Byte) (f : BlockVal → BlockVal → Effect)
    (h : s.readBr r = none ∨ s.readBr q = none) :
    complete opc s (s.source r >>= fun a => s.source q >>= f a) = failsWith s opc.toNat 1 0x01 := by
  obtain h | h := h
  · exact complete_source_absent opc _ h
  · cases hr : s.source r with
    | error e => obtain ⟨-, rfl⟩ := source_eq_error.1 hr; rfl
    | ok a => exact complete_source_absent opc (f a) h

theorem exec_source_absent {r : Reg} (hi : r ∈ i.sources) (h : s.readBr r = none) :
    exec i s = failsWith s i.opcode.toNat 1 0x01 := by
  cases i with
  | bxor _ a b | bvcat _ a b | bvcmp a b | mxmul _ a b =>
    have hab : s.readBr a = none ∨ s.readBr b = none := by
      obtain rfl | hb := List.mem_cons.1 hi
      · exact .inl h
      · exact .inr (List.mem_singleton.1 hb ▸ h)
    exact complete_sources_absent _ _ hab
  | seedset _ | kset _ _ _ | kexp _ _ | bmov _ _ | bshl _ _ _ _ | bgetb _ _ | bsetb _ _ _ _ | bsize _ | bvslice _ _ _ _
  | bvperm _ _ _ _ | bvsum _ | bvtou _ _ | mxfrombv _ _ _ _ | mxtobv _ _ | mxsub _ _ _ _ | mxrotl _ _ | mxrotr _ _
  | fen _ _ | fde _ _ | spen _ _ | spde _ _ =>
    obtain rfl := List.mem_singleton.1 hi
    exact complete_source_absent _ _ h
  | _ => cases hi

theorem reset_readBr (r : Reg) : State.reset.readBr r = none := Vector.getElem_replicate _

/-- Settles O16: the first check of each command, and the registers' frame of O15. -/
theorem invalidSourceIsAbsent : Obligations.InvalidSourceIsAbsent :=
  ⟨fun _ _ _ => exec_source_absent, reset_readBr, fun i s t r h hr hd => ((onlyNamedRegisterWritten i s t h).1 r hd).trans hr⟩

/-! ### Reset (10_state.md R38, 70_reset_and_hazards.md R169) -/

theorem step_rst {rest : List PortInput} (h : s.port = .rst :: rest) : step s = .next (s.applyReset rest) := by
  rw [step, h]

theorem eq_none_of_mem_replicate {n : Nat} {v : RegVal} (h : v ∈ (Vector.replicate n (none : RegVal)).toList) : v = none :=
  List.eq_of_mem_replicate (Vector.toList_replicate ▸ h)

/-- Settles O9: RST comes first at an edge, and each field holds its value of R38. -/
theorem resetLeavesStatedValues : Obligations.ResetLeavesStatedValues := by
  intro s rest h
  refine ⟨_, step_rst h, reset_readBr, fun _ => eq_none_of_mem_replicate, fun _ => eq_none_of_mem_replicate, rfl, rfl, rfl,
    rfl, rfl, rfl, rfl, rfl, rfl, rfl, rfl, rfl, rfl, rfl, rfl, rfl, rfl, rfl, fun sp a => ?_⟩
  cases sp <;> rfl

/-! ### CSRW (10_state.md R23 - R31, 40_control.md R71) -/

theorem exec_csrw_of_number {c : Csr} (s : State) (v : Nat) (h : c ≠ .status) : exec (.csrw c.number v) s =
    complete 0x02 s (need (c.writable = true) .readOnly >>= fun _ => need (c.legalValue v = true) .config >>= fun _ =>
      .ok (s.writeCsr c v, 0)) := by
  cases c with
  | status => exact absurd rfl h
  | _ => rfl

theorem ne_status_of_writable {c : Csr} (h : c.writable = true) : c ≠ .status := by
  rintro rfl
  cases h

theorem exec_csrw_legal {c : Csr} (s : State) {v : Nat} (hc : c.writable = true) (hv : c.legalValue v = true) :
    exec (.csrw c.number v) s = succeedsWith (s.writeCsr c v) 0 := by
  rw [exec_csrw_of_number s v (ne_status_of_writable hc), need_true hc, need_true hv]
  rfl

theorem exec_csrw_illegal {c : Csr} (s : State) {v : Nat} (hc : c.writable = true) (hv : ¬c.legalValue v = true) :
    exec (.csrw c.number v) s = failsWith s 0x02 1 0x09 := by
  rw [exec_csrw_of_number s v (ne_status_of_writable hc), need_true hc, need_false hv]
  rfl

theorem exec_csrw_readOnly {c : Csr} (s : State) (v : Nat) (hs : c ≠ .status) (hc : ¬c.writable = true) :
    exec (.csrw c.number v) s = failsWith s 0x02 1 0x0D := by
  rw [exec_csrw_of_number s v hs, need_false hc]
  rfl

theorem exec_csrw_reserved {n : Nat} (s : State) (v : Nat) (h : Csr.ofNumber n = none) :
    exec (.csrw n v) s = failsWith s 0x02 1 0x0C := by
  simp only [exec, execCsrw, h]
  rfl

/-- R23: the reserved numbers. -/
theorem ofNumber_eq_none {n : Nat} (h : (0x0D ≤ n ∧ n ≤ 0x0F) ∨ 0x1A ≤ n) : Csr.ofNumber n = none := by
  refine Option.eq_none_iff_forall_ne_some.2 fun c hc => ?_
  obtain rfl := number_of_ofNumber hc
  cases c <;> simp only [Csr.number] at h <;> omega

/-- R23: the read-only registers other than STATUS. -/
theorem exists_readOnly_number {n : Nat}
    (h : n = 0x00 ∨ n = 0x02 ∨ n = 0x09 ∨ n = 0x0A ∨ n = 0x0C ∨ (0x10 ≤ n ∧ n ≤ 0x19)) :
    ∃ c : Csr, n = c.number ∧ c ≠ .status ∧ ¬c.writable = true := by
  have hfind : ∀ n < 0x1A, n = 0x00 ∨ n = 0x02 ∨ n = 0x09 ∨ n = 0x0A ∨ n = 0x0C ∨ 0x10 ≤ n →
      ∃ c ∈ Csr.ofNumber n, c ≠ .status ∧ ¬c.writable = true := by decide
  obtain ⟨c, hc, hro⟩ := hfind n (by omega) (by omega)
  exact ⟨c, number_of_ofNumber hc, hro⟩

theorem legalValue_blockBits {v : Nat} : Csr.legalValue .blockBits v = true ↔ 8 ≤ v ∧ v ≤ 512 ∧ v % 8 = 0 := by
  simp [Csr.legalValue, and_assoc]

theorem legalValue_sprows {v : Nat} : Csr.legalValue .sprows v = true ↔ 1 ≤ v ∧ v ≤ 64 := by
  simp [Csr.legalValue]

theorem legalValue_timeoutMs {v : Nat} : Csr.legalValue .timeoutMs v = true ↔ 1 ≤ v ∧ v ≤ 1048575 := by
  simp [Csr.legalValue]

/-- Settles O21: a CSR and a value are writable and legal, or refused by the first check that fails. -/
theorem csrwWritesOrRefuses : Obligations.CsrwWritesOrRefuses := by
  intro s v
  refine ⟨fun h => ?_, fun h => ?_, fun h => ?_, exec_csrw_legal (c := .cipherSel) s rfl rfl,
    exec_csrw_legal (c := .cipherSel) s rfl rfl, exec_csrw_legal (c := .cipherSel) s rfl rfl,
    exec_csrw_legal (c := .cipherSel) s rfl rfl, exec_csrw_legal (c := .cipherSel) s rfl rfl,
    fun h => ?_, fun h => ?_, fun h => ?_, fun h => ?_, fun h => ?_, fun c h => ?_, fun c h => ?_, fun h => ?_, fun h => ?_,
    fun h => ⟨?_, ?_⟩, fun h => ?_, fun h => ?_, fun h => ?_⟩
  · rw [exec_csrw_status, State.writeStatus, if_pos h]
  · rw [exec_csrw_status, writeStatus_of_clear h]
  · exact exec_csrw_legal (c := .blockBits) s rfl (legalValue_blockBits.2 h)
  · exact exec_csrw_legal (c := .frounds) s rfl (decide_eq_true h)
  · exact exec_csrw_legal (c := .sprounds) s rfl (decide_eq_true h)
  · exact exec_csrw_legal (c := .sprows) s rfl (legalValue_sprows.2 h)
  · exact exec_csrw_legal (c := .inLen) s rfl (decide_eq_true h)
  · exact exec_csrw_legal (c := .timeoutMs) s rfl (legalValue_timeoutMs.2 h)
  · exact exec_csrw_reserved s v (ofNumber_eq_none h)
  · obtain ⟨k, rfl, hs, hk⟩ := exists_readOnly_number h
    exact exec_csrw_readOnly s v hs hk
  · exact exec_csrw_illegal (c := .blockBits) s rfl (by rw [legalValue_blockBits]; omega)
  · exact exec_csrw_illegal (c := .cipherSel) s rfl fun hl => absurd (lt_of_ofCode_isSome hl) (by omega)
  · exact exec_csrw_illegal (c := .frounds) s rfl fun hl => absurd (of_decide_eq_true hl) (Nat.not_le.2 h)
  · exact exec_csrw_illegal (c := .sprounds) s rfl fun hl => absurd (of_decide_eq_true hl) (Nat.not_le.2 h)
  · exact exec_csrw_illegal (c := .sprows) s rfl (by rw [legalValue_sprows]; omega)
  · exact exec_csrw_illegal (c := .inLen) s rfl fun hl => absurd (of_decide_eq_true hl) (Nat.not_le.2 h)
  · exact exec_csrw_illegal (c := .timeoutMs) s rfl (by rw [legalValue_timeoutMs]; omega)

/-! ### KSET (40_control.md R77) -/

theorem exec_kset_of_source {r : Reg} {v : BlockVal} (b : Bank) (j : Nat) (h : s.readBr r = some v) :
    exec (.kset b j r) s = complete 0x08 s (need (j < Bank.size b) .keyIdx >>= fun _ => .ok (s.writeKey b j v, 0)) := by
  change complete _ s (s.source r >>= _) = _
  rw [source_eq_ok.2 h]
  rfl

theorem exec_kset_in {r : Reg} {v : BlockVal} {b : Bank} {j : Nat} (h : s.readBr r = some v) (hj : j < Bank.size b) :
    exec (.kset b j r) s = succeedsWith (s.writeKey b j v) 0 := by
  rw [exec_kset_of_source b j h, need_true hj]
  rfl

theorem exec_kset_beyond {r : Reg} {v : BlockVal} {b : Bank} {j : Nat} (h : s.readBr r = some v) (hj : Bank.size b ≤ j) :
    exec (.kset b j r) s = failsWith s 0x08 2 0x05 := by
  rw [exec_kset_of_source b j h, need_false (Nat.not_lt.2 hj)]
  rfl

theorem setIfInBounds_of_lt {n j : Nat} (bank : Vector RegVal n) (v : RegVal) (h : j < n) :
    bank.setIfInBounds j v = bank.set j v h := by
  ext k hk
  simp only [Vector.getElem_setIfInBounds, Vector.getElem_set]

/-- Settles O25: within a bank KSET writes the one key, beyond it KEYIDX. -/
theorem ksetStoresOneKey : Obligations.KsetStoresOneKey := by
  intro s j rs1 v hv
  refine ⟨fun h => ?_, fun h => exec_kset_beyond hv h, fun h => ?_, fun h => exec_kset_beyond hv h⟩
  · rw [exec_kset_in hv h, State.writeKey, setIfInBounds_of_lt _ _ h]
  · rw [exec_kset_in hv h, State.writeKey, setIfInBounds_of_lt _ _ h]

end Sys2Proof.Machine

/-! ### A batch runs until its tasks are done (45_executor.md R143 - R146)

A task gives two events, so the fuel of `Batch.run` outlasts them, whatever order the workers take: a property that every
possible event keeps holds of the batch that is left, and no event is possible there. -/

namespace Sys2Proof.Machine

variable {work : Work} {b : Batch}

theorem mem_positions {α : Type} {q : α → Bool} {l : List α} {i : Nat} :
    i ∈ positions q l ↔ ∃ a, l[i]? = some a ∧ q a = true := by
  simp only [positions, List.mem_filter, List.mem_range]
  by_cases hi : i < l.length <;> simp [hi]

theorem take_mem_events {w i : Nat} : .take w i ∈ b.events ↔
    b.workers[w]? = some none ∧ ∃ t, b.pending[i]? = some t ∧ (t.chainValue b.slots).isSome = true := by
  simp [Batch.events, Batch.runnable, mem_positions]

theorem finish_mem_events {w : Nat} : .finish w ∈ b.events ↔ ∃ t, b.workers[w]? = some (some t) := by
  simp [Batch.events, mem_positions, Option.isSome_iff_exists]

/-- R144: what a possible event does. -/
theorem Batch.apply_cases (work : Work) {ev : WorkerEvent} (h : ev ∈ b.events) :
    (∃ w i t, b.workers[w]? = some none ∧ b.pending[i]? = some t ∧
      b.apply work ev = { b with pending := b.pending.eraseIdx i, workers := b.workers.set w (some t) }) ∨
    (∃ w t, b.workers[w]? = some (some t) ∧ b.apply work ev = { b.finishTask work t with workers := b.workers.set w none }) := by
  cases ev with
  | take w i =>
    obtain ⟨hw, t, ht, -⟩ := take_mem_events.1 h
    exact .inl ⟨w, i, t, hw, ht, by simp only [Batch.apply, ht]⟩
  | finish w =>
    obtain ⟨t, ht⟩ := finish_mem_events.1 h
    exact .inr ⟨w, t, ht, by simp [Batch.apply, List.getD_eq_getElem?_getD, ht]⟩

/-- The events a batch still has: two for a pending task, one for a running one. -/
def Batch.turnsLeft (b : Batch) : Nat := 2 * b.pending.length + b.workers.countP Option.isSome

theorem finishTask_pending (t : Task) : (b.finishTask work t).pending = b.pending := by
  obtain ⟨slots, errors, h, -⟩ := finishTask_eq (work := work) b t
  rw [h]

theorem turnsLeft_apply {ev : WorkerEvent} (h : ev ∈ b.events) : (b.apply work ev).turnsLeft + 1 = b.turnsLeft := by
  obtain ⟨w, i, t, hw, ht, he⟩ | ⟨w, t, hw, he⟩ := Batch.apply_cases work h
  · obtain ⟨hwl, hwv⟩ := List.getElem?_eq_some_iff.1 hw
    obtain ⟨hil, -⟩ := List.getElem?_eq_some_iff.1 ht
    simp [he, Batch.turnsLeft, List.length_eraseIdx, List.countP_set, hwl, hwv, hil]
    omega
  · obtain ⟨hwl, hwv⟩ := List.getElem?_eq_some_iff.1 hw
    have hpos : 0 < b.workers.countP Option.isSome := List.countP_pos_iff.2 ⟨_, List.mem_of_getElem? hw, rfl⟩
    simp [he, Batch.turnsLeft, finishTask_pending, List.countP_set, hwl, hwv]
    omega

theorem events_of_turnsLeft_eq_zero (h : b.turnsLeft = 0) : b.events = [] :=
  List.eq_nil_iff_forall_not_mem.2 fun ev hev => by
    have := turnsLeft_apply (work := fun _ _ => .ok []) hev
    omega

theorem getD_mod_mem {α : Type} (a : α) (l : List α) (k : Nat) : (a :: l).getD (k % (l.length + 1)) a ∈ a :: l := by
  have hk : k % (l.length + 1) < (a :: l).length := Nat.mod_lt _ (Nat.succ_pos _)
  rw [List.getD_eq_getElem _ _ hk]
  exact List.getElem_mem hk

/-- What every possible event keeps holds at the end of a run, where no event is possible. -/
theorem Batch.run_ends {P : Batch → Prop} (hstep : ∀ b ev, P b → ev ∈ b.events → P (b.apply work ev)) (pick : Nat → Nat)
    (fuel : Nat) : ∀ {turn : Nat} {b : Batch}, P b → b.turnsLeft ≤ fuel →
      P (Batch.run work pick fuel turn b) ∧ (Batch.run work pick fuel turn b).events = [] := by
  induction fuel with
  | zero => intro turn b hb hl; exact ⟨hb, events_of_turnsLeft_eq_zero (Nat.le_zero.1 hl)⟩
  | succ fuel ih =>
    intro turn b hb hl
    rw [Batch.run]
    split
    · next hnil => exact ⟨hb, hnil⟩
    · next ev evs hev =>
      have hmem : (ev :: evs).getD (pick turn % (evs.length + 1)) ev ∈ b.events := hev ▸ getD_mod_mem ev evs (pick turn)
      have hturns := turnsLeft_apply (work := work) hmem
      exact ih (hstep b _ hb hmem) (by omega)

theorem turnsLeft_start (tasks : List Task) (slots : Slots) : (Batch.start tasks slots).turnsLeft = 2 * tasks.length := by
  simp [Batch.turnsLeft, Batch.start]

/-- The batch a run of `tasks` leaves, on fresh slots (R145). -/
def ranBatch (work : Work) (pick : Nat → Nat) (tasks : List Task) : Batch :=
  Batch.run work pick (2 * tasks.length) 0 (Batch.start tasks (List.replicate tasks.length none))

theorem ranBatch_ends {P : Batch → Prop} {tasks : List Task}
    (hstep : ∀ b ev, P b → ev ∈ b.events → P (b.apply work ev)) (pick : Nat → Nat)
    (h : P (Batch.start tasks (List.replicate tasks.length none))) :
    P (ranBatch work pick tasks) ∧ (ranBatch work pick tasks).events = [] :=
  Batch.run_ends hstep pick _ h (turnsLeft_start ..).le

/-! Work that never fails. -/

/-- A work that answers on every input. -/
def TotalWork (work : Work) : Prop := ∀ x ch, ∃ y, work x ch = .ok y

theorem finishTask_errors (hw : TotalWork work) (t : Task) : (b.finishTask work t).errors = b.errors := by
  unfold Batch.finishTask
  split
  · rfl
  · next ch _ => obtain ⟨y, hy⟩ := hw t.chunk ch; rw [hy]

theorem errors_ranBatch (hw : TotalWork work) (pick : Nat → Nat) (tasks : List Task) :
    (ranBatch work pick tasks).errors = [] := by
  refine (ranBatch_ends (P := fun b => b.errors = []) (fun b ev hb hev => ?_) pick rfl).1
  obtain ⟨w, i, t, -, -, he⟩ | ⟨w, t, -, he⟩ := Batch.apply_cases work hev
  · rw [he]; exact hb
  · rw [he]; exact (finishTask_errors hw t).trans hb

/-! Tasks that wait for no slot. -/

/-- The task's chain value is known from the start, and its work on it is entry `idx` of `out`. -/
def Task.Gives (work : Work) (out : List Bits) (t : Task) : Prop :=
  ∃ ch r, (∀ slots, t.chainValue slots = some ch) ∧ work t.chunk ch = .ok r ∧ out[t.idx]? = some r

/-- Every entry of `out` is in its slot, or a task that gives it is pending or running. -/
structure Batch.OnTrack (work : Work) (out : List Bits) (b : Batch) : Prop where
  crew    : b.workers ≠ []
  pending : ∀ t ∈ b.pending, t.Gives work out
  running : ∀ t, some t ∈ b.workers → t.Gives work out
  length  : b.slots.length = out.length
  covered : ∀ j r, out[j]? = some r →
    b.slots[j]? = some (some r) ∨ ∃ t : Task, t.idx = j ∧ (t ∈ b.pending ∨ some t ∈ b.workers)

theorem eq_or_mem_eraseIdx {α : Type} {l : List α} {i : Nat} {a c : α} (hi : l[i]? = some a) (hc : c ∈ l) :
    c = a ∨ c ∈ l.eraseIdx i := by
  obtain ⟨hl, rfl⟩ := List.getElem?_eq_some_iff.1 hi
  exact List.mem_cons.1 ((List.getElem_cons_eraseIdx_perm hl).mem_iff.2 hc)

theorem mem_set_of_ne {α : Type} {l : List α} {i : Nat} {a c : α} (hi : l[i]? = some a) (hc : c ∈ l) (h : c ≠ a) (d : α) :
    c ∈ l.set i d := by
  obtain ⟨k, hk⟩ := List.mem_iff_getElem?.1 hc
  have hik : i ≠ k := by rintro rfl; exact h (Option.some.inj (hk.symm.trans hi))
  exact List.mem_of_getElem? ((List.getElem?_set_ne hik).trans hk)

variable {out : List Bits}

theorem Batch.OnTrack.take (h : b.OnTrack work out) {w i : Nat} {t : Task} (hw : b.workers[w]? = some none)
    (ht : b.pending[i]? = some t) :
    ({ b with pending := b.pending.eraseIdx i, workers := b.workers.set w (some t) } : Batch).OnTrack work out where
  crew := by simpa using h.crew
  pending u hu := h.pending u (List.mem_of_mem_eraseIdx hu)
  running u hu := by
    obtain hu | hu := List.mem_or_eq_of_mem_set hu
    · exact h.running u hu
    · cases hu; exact h.pending t (List.mem_of_getElem? ht)
  length := h.length
  covered j r hj := by
    refine (h.covered j r hj).imp_right ?_
    rintro ⟨u, hu, hp | hr⟩
    · obtain rfl | hp := eq_or_mem_eraseIdx ht hp
      · exact ⟨u, hu, .inr (List.mem_set (List.getElem?_eq_some_iff.1 hw).1 _)⟩
      · exact ⟨u, hu, .inl hp⟩
    · exact ⟨u, hu, .inr (mem_set_of_ne hw hr (Option.some_ne_none u) _)⟩

theorem Batch.OnTrack.finish (h : b.OnTrack work out) {w : Nat} {t : Task} (hw : b.workers[w]? = some (some t)) :
    ({ b.finishTask work t with workers := b.workers.set w none } : Batch).OnTrack work out := by
  obtain ⟨ch, x, hch, hx, hout⟩ := h.running t (List.mem_of_getElem? hw)
  have hf : b.finishTask work t = { b with slots := b.slots.set t.idx (some x) } := by
    simp only [Batch.finishTask, hch, hx]
  have hidx : t.idx < b.slots.length := h.length ▸ (List.getElem?_eq_some_iff.1 hout).1
  rw [hf]
  refine ⟨by simpa using h.crew, h.pending, fun u hu => h.running u ((List.mem_or_eq_of_mem_set hu).resolve_right nofun),
    by simpa using h.length, fun j r hj => ?_⟩
  by_cases hjt : t.idx = j
  · subst hjt
    obtain rfl := Option.some.inj (hout.symm.trans hj)
    exact .inl (List.getElem?_set_self hidx)
  · refine (h.covered j r hj).imp (List.getElem?_set_ne hjt).trans ?_
    rintro ⟨u, rfl, hp | hr⟩
    · exact ⟨u, rfl, .inl hp⟩
    · exact ⟨u, rfl, .inr (mem_set_of_ne hw hr (fun he => hjt (by cases he; rfl)) none)⟩

theorem Batch.OnTrack.apply (h : b.OnTrack work out) {ev : WorkerEvent} (hev : ev ∈ b.events) :
    (b.apply work ev).OnTrack work out := by
  obtain ⟨w, i, t, hw, ht, he⟩ | ⟨w, t, hw, he⟩ := Batch.apply_cases work hev
  · rw [he]; exact h.take hw ht
  · rw [he]; exact h.finish hw

/-- With no event possible, no worker runs a task and none could be taken, so every slot is written. -/
theorem Batch.OnTrack.slots_eq (h : b.OnTrack work out) (hev : b.events = []) : b.slots = out.map some := by
  have hidle : ∀ t, some t ∉ b.workers := fun t ht => by
    obtain ⟨w, hw⟩ := List.mem_iff_getElem?.1 ht
    exact List.not_mem_nil (hev ▸ finish_mem_events.2 ⟨t, hw⟩)
  have hnone : ∀ t, t ∉ b.pending := fun t ht => by
    obtain ⟨i, hi⟩ := List.mem_iff_getElem?.1 ht
    obtain ⟨ch, -, hch, -⟩ := h.pending t ht
    obtain ⟨o, rest, hcrew⟩ := List.exists_cons_of_ne_nil h.crew
    cases o with
    | some u => exact hidle u (hcrew ▸ List.mem_cons_self)
    | none =>
      have htake := take_mem_events (w := 0).2 ⟨by rw [hcrew]; rfl, t, hi, by rw [hch]; rfl⟩
      exact List.not_mem_nil (hev ▸ htake)
  refine List.ext_getElem (by rw [h.length, List.length_map]) fun j hj _ => ?_
  have hjo : j < out.length := h.length ▸ hj
  obtain hs | ⟨t, -, hp | hr⟩ := h.covered j out[j] (List.getElem?_eq_getElem hjo)
  · rw [List.getElem_map]
    exact (List.getElem?_eq_some_iff.1 hs).2
  · exact absurd hp (hnone t)
  · exact absurd hr (hidle t)

/-- R143: where each task gives its entry of `out`, the slots hold `out`. -/
theorem slots_ranBatch {tasks : List Task} (hlen : tasks.length = out.length) (hgives : ∀ t ∈ tasks, t.Gives work out)
    (hall : ∀ j, j < out.length → ∃ t ∈ tasks, t.idx = j) (pick : Nat → Nat) :
    (ranBatch work pick tasks).slots = out.map some := by
  have hstart : (Batch.start tasks (List.replicate tasks.length none)).OnTrack work out := by
    refine ⟨by simp [Batch.start], hgives, fun t ht => ?_, by simpa [Batch.start] using hlen, fun j r hj => ?_⟩
    · cases List.eq_of_mem_replicate ht
    · obtain ⟨t, ht, he⟩ := hall j (List.getElem?_eq_some_iff.1 hj).1
      exact .inr ⟨t, he, .inl ht⟩
  obtain ⟨hend, hev⟩ := ranBatch_ends (fun _ _ hb => hb.apply) pick hstart
  exact hend.slots_eq hev

/-! One batch. -/

/-- R145: how a batch without a failed task ends on its draw. -/
def drawn {α : Type} (o : BatchOutcome) (x : α) : Except Err α :=
  match o with
  | .complete => .ok x
  | .timeout => .error .timeout
  | .interrupted => .error .interrupted

theorem batchEnd_of_no_errors (h : b.errors = []) (o : BatchOutcome) : batchEnd b o = drawn o b.slots := by
  unfold batchEnd
  rw [h]
  rfl

theorem batchCountOf_eq_one {m : Nat} (h : 0 < m) (hm : m ≤ 1500) : batchCountOf m = 1 := by
  simp only [batchCountOf, Config.batchMax]
  omega

theorem batchesOf_one {tasks : List Task} (h : 0 < tasks.length) (hm : tasks.length ≤ 1500) : batchesOf tasks = [tasks] := by
  simp [batchesOf, batchCountOf_eq_one h hm, slice, List.take_of_length_le hm]

/-- R146: MTRun on no task builds no batch, and so draws nothing. -/
theorem mtRun_nil (env : BatchEnv) (work : Work) : mtRun env work [] = .ok [] := rfl

/-- R146: MTRun on at most BATCH_MAX tasks is one batch. -/
theorem mtRun_one (env : BatchEnv) (work : Work) {tasks : List Task} (h : 0 < tasks.length) (hm : tasks.length ≤ 1500) :
    mtRun env work tasks = batchEnd (ranBatch work (env.pick 0) tasks) (env.outcome 0) >>= fun slots =>
      .ok (slots.map fun r => r.getD []) := by
  rw [mtRun, batchesOf_one h hm, runBatches]
  change (batchEnd (ranBatch work (env.pick 0) tasks) (env.outcome 0) >>= fun slots => .ok slots) >>= _ = _
  cases batchEnd (ranBatch work (env.pick 0) tasks) (env.outcome 0) <;> rfl

/-- The result slots of one run, in index order (R146). -/
def ranChunks (work : Work) (pick : Nat → Nat) (tasks : List Task) : List Bits :=
  (ranBatch work pick tasks).slots.map fun r => r.getD []

theorem mtRun_total (hw : TotalWork work) (env : BatchEnv) {tasks : List Task} (h : 0 < tasks.length)
    (hm : tasks.length ≤ 1500) : mtRun env work tasks = drawn (env.outcome 0) (ranChunks work (env.pick 0) tasks) := by
  rw [mtRun_one env work h hm, batchEnd_of_no_errors (errors_ranBatch hw ..)]
  cases env.outcome 0 <;> rfl

theorem length_tasksOf (cs : List Bits) (chain : Nat → ChainInput) : (tasksOf cs chain).length = cs.length := by
  simp [tasksOf]

theorem tasksOf_nil (chain : Nat → ChainInput) : tasksOf [] chain = [] := rfl

theorem mem_tasksOf {cs : List Bits} {chain : Nat → ChainInput} {t : Task} :
    t ∈ tasksOf cs chain ↔ cs[t.idx]? = some t.chunk ∧ t.chain = chain t.idx := by
  simp only [tasksOf, List.mem_map, List.mem_zipIdx_iff_getElem?]
  constructor
  · rintro ⟨ci, hci, rfl⟩; exact ⟨hci, rfl⟩
  · rintro ⟨hc, hch⟩; exact ⟨(t.chunk, t.idx), hc, by rw [← hch]⟩

/-- R147, R148: tasks without a chain that copy their chunk leave the chunks. -/
theorem ranChunks_of_copy (hw : ∀ x, work x [] = .ok x) (pick : Nat → Nat) (cs : List Bits) :
    ranChunks work pick (tasksOf cs fun _ => .noChain) = cs := by
  have hslots : (ranBatch work pick (tasksOf cs fun _ => .noChain)).slots = cs.map some := by
    refine slots_ranBatch (length_tasksOf ..) (fun t ht => ?_) (fun j hj => ?_) pick
    · obtain ⟨hc, hch⟩ := mem_tasksOf.1 ht
      exact ⟨[], t.chunk, fun slots => by rw [Task.chainValue, hch], hw t.chunk, hc⟩
    · exact ⟨⟨j, cs[j], .noChain⟩, mem_tasksOf.2 ⟨List.getElem?_eq_getElem hj, rfl⟩, rfl⟩
  rw [ranChunks, hslots, List.map_map]
  exact List.map_id cs

end Sys2Proof.Machine

/-! ### The codec on chunks (20_memory.md R46, R47, 44_modes.md R125, R127) -/

namespace Sys2Proof.Machine

variable {nu : Nat} {us : List CodeUnit}

theorem unitOfByte_byteOfUnit {u : CodeUnit} (h : packable u = true) : unitOfByte (byteOfUnit u) = u := by
  have hu : u.toNat ≤ 0xFF := of_decide_eq_true h
  refine BitVec.eq_of_toNat_eq ?_
  rw [unitOfByte, byteOfUnit, BitVec.toNat_setWidth, BitVec.toNat_setWidth]
  omega

/-- R47: unpack undoes pack on byte units. -/
theorem unpackBits_packUnits (h : us.all packable = true) : unpackBits (packUnits us) = us := by
  rw [unpackBits, packUnits, bytesOfBits_bitsOfBytes, List.map_map]
  exact (List.map_congr_left fun u hu => unitOfByte_byteOfUnit (List.all_eq_true.1 h u hu)).trans (List.map_id us)

theorem all_packable_slice (h : us.all packable = true) (a c : Nat) : (slice us a c).all packable = true :=
  List.all_eq_true.2 fun u hu => List.all_eq_true.1 h u (List.mem_of_mem_drop (List.mem_of_mem_take hu))

theorem flatMap_slices {α : Type} (l : List α) (nu : Nat) : ∀ k : Nat,
    ((List.range k).flatMap fun i => slice l (i * nu) ((i + 1) * nu)) = slice l 0 (k * nu)
  | 0 => by simp [slice]
  | k + 1 => by
    rw [List.range_succ, List.flatMap_append, flatMap_slices l nu k, List.flatMap_singleton]
    exact slice_append_slice l (Nat.zero_le _) (Nat.mul_le_mul_right nu k.le_succ)

/-- R127: the chunks of a whole number of chunks of byte units unpack to the units. -/
theorem unitsOfChunks_chunks (h : us.all packable = true) (hlen : us.length % nu = 0) :
    unitsOfChunks (chunks nu us) = us := by
  have hk : us.length / nu * nu = us.length := Nat.div_mul_cancel (Nat.dvd_of_mod_eq_zero hlen)
  simp only [unitsOfChunks, chunks, List.flatMap_map, unpackBits_packUnits (all_packable_slice h _ _)]
  rw [flatMap_slices, hk, slice_all]

theorem length_chunks (nu : Nat) (us : List CodeUnit) : (chunks nu us).length = us.length / nu := by
  simp [chunks]

theorem chunks_nil (nu : Nat) : chunks nu [] = [] := by simp [chunks]

theorem length_chunks_pos (hnu : 1 ≤ nu) (hne : us ≠ []) (hlen : us.length % nu = 0) : 0 < (chunks nu us).length := by
  rw [length_chunks]
  exact Nat.div_pos (Nat.le_of_dvd (List.length_pos_iff.2 hne) (Nat.dvd_of_mod_eq_zero hlen)) hnu

theorem length_padUnits_mod (hnu : 1 ≤ nu) (us : List CodeUnit) : (padUnits nu us).length % nu = 0 := by
  have hr : us.length % nu < nu := Nat.mod_lt _ hnu
  rw [padUnits, List.length_append, List.length_replicate, Nat.add_mod_mod, ← Nat.mod_add_mod,
    Nat.add_sub_cancel' hr.le, Nat.mod_self]

theorem all_packable_padUnits (h : us.all packable = true) (nu : Nat) : (padUnits nu us).all packable = true := by
  rw [padUnits, List.all_append, h, Bool.true_and]
  exact List.all_eq_true.2 fun u hu => by rw [List.eq_of_mem_replicate hu]; rfl

end Sys2Proof.Machine

/-! ### The multithreaded commands on the IDENTITY cipher (45_executor.md R142 - R150, 44_modes.md R122) -/

namespace Sys2Proof.Machine

variable {s : State}

theorem poolCheck_ready (h : s.poolState = .ready) : s.poolCheck = .ok () := by
  simp [State.poolCheck, h]

theorem all_packable_message (h : ∀ j, j < s.inLen.toNat → (s.entry .input j).toNat ≤ 0xFF) :
    s.message.all packable = true := by
  simpa [State.message, State.entries, packable] using h

/-- R124: the checks of a mode command on the IDENTITY cipher. -/
theorem modeCheck_identity {chained dec : Bool} (hc : s.cipherSel = .identity) (hseed : chained = true → s.seedValid = true)
    (hbound : s.inLen.toNat ≤ 128 * s.nu) (hmult : dec = true → s.inLen.toNat % s.nu = 0)
    (hunits : s.message.all packable = true) : s.modeCheck chained dec = .ok .identity := by
  have hp : s.cipherPresent = .ok .identity := by rw [State.cipherPresent, hc]
  simp only [State.modeCheck, hp, ok_bind, need_true hseed, State.cipherShape, need_true hbound, need_true hmult,
    need_true hunits, pure_eq_ok]

/-- The units a block mode cuts into chunks: the padded message, or, in decryption, the message (R125, R127). -/
def State.modeInput (s : State) (dec : Bool) : List CodeUnit := if dec then s.message else padUnits s.nu s.message

/-- The units a block mode outputs: those of its chunks, or, in decryption, those stripped (R126, R127). -/
def modeUnits (dec : Bool) (out : List Bits) : List CodeUnit :=
  if dec then stripUnits (unitsOfChunks out) else unitsOfChunks out

/-- The multithreaded commands, each with whether it chains and whether it decrypts (R147 - R150). -/
def mtCommands : List (Instr × Bool × Bool) :=
  [(.ecbeMt, false, false), (.ecbdMt, false, true), (.cbceMt, true, false), (.cbcdMt, true, true)]

theorem flags_of_ecbeMt {chained dec : Bool} (h : (.ecbeMt, chained, dec) ∈ mtCommands) : chained = false ∧ dec = false := by
  simpa [mtCommands] using h

theorem flags_of_ecbdMt {chained dec : Bool} (h : (.ecbdMt, chained, dec) ∈ mtCommands) : chained = false ∧ dec = true := by
  simpa [mtCommands] using h

/-- On the IDENTITY cipher a multithreaded command is one run of a work that never fails, and copies in ECB. -/
theorem exec_mt_identity {i : Instr} {chained dec : Bool} (hi : (i, chained, dec) ∈ mtCommands)
    (hcheck : s.modeCheck chained dec = .ok .identity) (hpool : s.poolCheck = .ok ()) :
    ∃ work chain, TotalWork work ∧
      (chained = false → (∀ x, work x [] = .ok x) ∧ chain = fun _ => .noChain) ∧
      exec i s = completeMt i.opcode s
        (mtRun (environmentAt s.draws) work (tasksOf (chunks s.nu (s.modeInput dec)) chain) >>= fun out =>
          .ok (modeUnits dec out, batchCountOf (chunks s.nu (s.modeInput dec)).length)) := by
  simp only [mtCommands, List.mem_cons, List.not_mem_nil, or_false, Prod.mk.injEq] at hi
  obtain ⟨rfl, rfl, rfl⟩ | ⟨rfl, rfl, rfl⟩ | ⟨rfl, rfl, rfl⟩ | ⟨rfl, rfl, rfl⟩ := hi
  · refine ⟨fun x _ => .ok x, _, fun x _ => ⟨x, rfl⟩, fun _ => ⟨fun _ => rfl, rfl⟩, ?_⟩
    simp only [exec, execEcbeMt, ecbeMtUnits, hcheck, hpool, ok_bind]
    rfl
  · refine ⟨fun x _ => .ok x, _, fun x _ => ⟨x, rfl⟩, fun _ => ⟨fun _ => rfl, rfl⟩, ?_⟩
    simp only [exec, execEcbdMt, ecbdMtUnits, hcheck, hpool, ok_bind]
    rfl
  · refine ⟨fun x ch => .ok (xorBits x ch), cbcEncInput s.seed, fun x ch => ⟨_, rfl⟩, nofun, ?_⟩
    simp only [exec, execCbceMt, cbceMtUnits, hcheck, hpool, ok_bind]
    rfl
  · refine ⟨fun x ch => .ok (xorBits x ch), cbcDecInput s.seed (chunks s.nu s.message), fun x ch => ⟨_, rfl⟩, nofun, ?_⟩
    simp only [exec, execCbcdMt, cbcdMtUnits, hcheck, hpool, ok_bind]
    rfl

/-! The chunks of the message. -/

theorem modeInput_of_empty {dec : Bool} (h : s.inLen = 0) : s.modeInput dec = [] := by
  have hm : s.message = [] := List.length_eq_zero_iff.1 (by rw [length_message, h]; rfl)
  simp [State.modeInput, hm, padUnits]

theorem modeInput_ne_nil {dec : Bool} (h : s.inLen ≠ 0) : s.modeInput dec ≠ [] := by
  have hm : s.message ≠ [] := fun hn => h (BitVec.eq_of_toNat_eq (by rw [← length_message, hn]; rfl))
  cases dec with
  | false => exact List.append_ne_nil_of_left_ne_nil hm _
  | true => exact hm

theorem length_modeInput_mod {dec : Bool} (hnu : 1 ≤ s.nu) (hmult : dec = true → s.inLen.toNat % s.nu = 0) :
    (s.modeInput dec).length % s.nu = 0 := by
  cases dec with
  | false => exact length_padUnits_mod hnu _
  | true => rw [← length_message] at hmult; exact hmult rfl

theorem all_packable_modeInput {dec : Bool} (h : s.message.all packable = true) : (s.modeInput dec).all packable = true := by
  cases dec with
  | false => exact all_packable_padUnits h s.nu
  | true => exact h

theorem fitChunks_modeInput {chained dec : Bool} {c : Cipher} (hs : s.LegalBody) (h : s.modeCheck chained dec = .ok c) :
    FitChunks s.blockBits.toNat 128 (chunks s.nu (s.modeInput dec)) := by
  cases dec with
  | false => exact fitChunks_padded hs h
  | true => exact fitChunks_message hs h

/-! The outcomes of a multithreaded command. -/

theorem completeMt_ok (opc : Byte) (s : State) (w : List CodeUnit) (b : Nat) :
    ∃ t, completeMt opc s (.ok (w, b)) = .next t ∧ OutputsOnly s t w (BitVec.ofNat 64 b) :=
  ⟨_, rfl, fun a => by simp [find_writeAll], rfl⟩

theorem completeMt_error (opc : Byte) (s : State) (e : Err) :
    ∃ t, completeMt opc s (.error e) = .next t ∧ ModeFails s t opc.toNat e.classCode e.detailCode :=
  ⟨_, rfl, ⟨rfl⟩⟩

/-- Settles O58: the checks pass, so the command is the run of one batch of total work, or of none, and ends on its draw; in
ECB the batch copies the chunks. -/
theorem identityCipherMtComplete : Obligations.IdentityCipherMtComplete := by
  intro s hs hpool hsel hbound hbytes i chained dec hi hseed hmult
  have hbody := (legal_iff.1 hs).1
  obtain ⟨hnu, -, -⟩ := nu_bounds hbody
  have hunits := all_packable_message hbytes
  have hcheck := modeCheck_identity hsel hseed hbound hmult hunits
  obtain ⟨work, chain, hw, hecb, hx⟩ := exec_mt_identity hi hcheck (poolCheck_ready hpool)
  refine ⟨fun hempty => ?_, fun hne => ?_⟩
  · rw [hx, modeInput_of_empty hempty, chunks_nil, tasksOf_nil, mtRun_nil, ok_bind]
    cases dec <;> exact completeMt_ok i.opcode s [] 0
  · have hmod := length_modeInput_mod hnu hmult
    have hpos := length_chunks_pos hnu (modeInput_ne_nil hne) hmod
    have hlen : (chunks s.nu (s.modeInput dec)).length ≤ 1500 := (fitChunks_modeInput hbody hcheck).1.trans (by decide)
    have hdraw : (environmentAt s.draws).outcome 0 = Config.batchDraw s.draws 0 := rfl
    rw [hx, mtRun_total hw _ (by rwa [length_tasksOf]) (by rwa [length_tasksOf]), batchCountOf_eq_one hpos hlen, hdraw]
    cases Config.batchDraw s.draws 0 with
    | timeout => exact completeMt_error i.opcode s .timeout
    | interrupted => exact completeMt_error i.opcode s .interrupted
    | complete =>
      have hcopy : chained = false → unitsOfChunks (ranChunks work ((environmentAt s.draws).pick 0)
          (tasksOf (chunks s.nu (s.modeInput dec)) chain)) = s.modeInput dec := by
        intro hc
        obtain ⟨hcopies, rfl⟩ := hecb hc
        rw [ranChunks_of_copy hcopies, unitsOfChunks_chunks (all_packable_modeInput hunits) hmod]
      obtain ⟨t, ht, hout⟩ := completeMt_ok i.opcode s (modeUnits dec _) 1
      refine ⟨t, ht, _, hout, ?_, ?_⟩
      · rintro rfl
        obtain ⟨hc, rfl⟩ := flags_of_ecbeMt hi
        exact hcopy hc
      · rintro rfl
        obtain ⟨hc, rfl⟩ := flags_of_ecbdMt hi
        exact congrArg stripUnits (hcopy hc)

end Sys2Proof.Machine

/-! ### Any order of the workers gives the results in index order (45_executor.md R143 - R146)

The value a task stands for does not depend on when it runs: `val i`, an error where the task fails or would read an error.
A batch holds only such values, and it runs until every task before the first error has ended. -/

namespace Sys2Proof.Machine

variable {work : Work} {val : Nat → Except Err Bits} {n : Nat} {b : Batch}

/-- `r` is the list of the values at `0 .. n - 1`, or the first error among them. -/
def Collects (val : Nat → Except Err Bits) (n : Nat) : Except Err (List Bits) → Prop
  | .ok out => out.length = n ∧ ∀ j x, out[j]? = some x → val j = .ok x
  | .error e => ∃ k, k < n ∧ val k = .error e ∧ ∀ j, j < k → ∃ x, val j = .ok x

theorem collects_nil : Collects val 0 (.ok []) := ⟨rfl, nofun⟩

theorem eq_ok_nil_of_collects_zero {r : Except Err (List Bits)} (h : Collects val 0 r) : r = .ok [] := by
  cases r with
  | ok out => rw [List.length_eq_zero_iff.1 h.1]
  | error e => obtain ⟨k, hk, -⟩ := h; exact absurd hk (Nat.not_lt_zero k)

/-- The first value, then the list of the values after it. -/
theorem collects_cons {rest : Bits → Except Err (List Bits)}
    (h : ∀ x, val 0 = .ok x → Collects (fun i => val (i + 1)) n (rest x)) :
    Collects val (n + 1) (val 0 >>= fun x => rest x >>= fun xs => .ok (x :: xs)) := by
  cases h0 : val 0 with
  | error e => exact ⟨0, Nat.succ_pos n, h0, nofun⟩
  | ok x =>
    have hr := h x h0
    rw [ok_bind]
    cases hx : rest x with
    | ok xs =>
      rw [hx] at hr
      refine ⟨congrArg (· + 1) hr.1, fun j y hj => ?_⟩
      cases j with
      | zero => cases hj; exact h0
      | succ j => exact hr.2 j y hj
    | error e =>
      rw [hx] at hr
      obtain ⟨k, hk, he, hok⟩ := hr
      refine ⟨k + 1, Nat.succ_lt_succ hk, he, fun j hj => ?_⟩
      cases j with
      | zero => exact ⟨x, h0⟩
      | succ j => exact hok j (Nat.lt_of_succ_lt_succ hj)

/-- Every written slot holds the value of its index. -/
def SlotsHold (val : Nat → Except Err Bits) (slots : Slots) : Prop := ∀ j x, slots[j]? = some (some x) → val j = .ok x

/-- The task stands for the value of its index, below `n`, and waits for slots before its own only. -/
structure Task.Means (work : Work) (val : Nat → Except Err Bits) (n : Nat) (t : Task) : Prop where
  idx_lt : t.idx < n
  sound  : ∀ slots ch, SlotsHold val slots → t.chainValue slots = some ch → val t.idx = work t.chunk ch
  waits  : ∀ slots : Slots, (∀ j, j < t.idx → ∃ x, slots[j]? = some (some x)) → (t.chainValue slots).isSome = true

/-- A task that has not ended: pending or running. -/
def Batch.Unfinished (b : Batch) (t : Task) : Prop := t ∈ b.pending ∨ some t ∈ b.workers

/-- Slots and errors hold values, and each index has ended or has an unfinished task. -/
structure Batch.Tracks (work : Work) (val : Nat → Except Err Bits) (n : Nat) (b : Batch) : Prop where
  crew    : b.workers ≠ []
  pending : ∀ t ∈ b.pending, t.Means work val n
  running : ∀ t, some t ∈ b.workers → t.Means work val n ∧ (t.chainValue b.slots).isSome = true
  length  : b.slots.length = n
  slots   : SlotsHold val b.slots
  errors  : ∀ e ∈ b.errors, e.1 < n ∧ val e.1 = .error e.2
  covered : ∀ j, j < n →
    (∃ x, b.slots[j]? = some (some x)) ∨ (∃ e, (j, e) ∈ b.errors) ∨ ∃ t : Task, t.idx = j ∧ b.Unfinished t

theorem unfinished_take {w i : Nat} {t u : Task} (hw : b.workers[w]? = some none) (ht : b.pending[i]? = some t) (h : b.Unfinished u) :
    ({ b with pending := b.pending.eraseIdx i, workers := b.workers.set w (some t) } : Batch).Unfinished u := by
  obtain hp | hr := h
  · obtain rfl | hp := eq_or_mem_eraseIdx ht hp
    · exact .inr (List.mem_set (List.getElem?_eq_some_iff.1 hw).1 _)
    · exact .inl hp
  · exact .inr (mem_set_of_ne hw hr (Option.some_ne_none u) _)

/-- A worker's end leaves every other task unfinished. -/
theorem unfinished_finish {w : Nat} {t u : Task} (hw : b.workers[w]? = some (some t)) (hne : u ≠ t) (h : b.Unfinished u)
    (slots : Slots) (errors : List (Nat × Err)) :
    ({ b with workers := b.workers.set w none, slots := slots, errors := errors } : Batch).Unfinished u :=
  h.imp_right fun hr => mem_set_of_ne hw hr (fun he => hne (Option.some.inj he)) none

theorem Batch.Tracks.take (h : b.Tracks work val n) {w i : Nat} {t : Task} (hw : b.workers[w]? = some none)
    (ht : b.pending[i]? = some t) (hch : (t.chainValue b.slots).isSome = true) :
    ({ b with pending := b.pending.eraseIdx i, workers := b.workers.set w (some t) } : Batch).Tracks work val n where
  crew := by simpa using h.crew
  pending u hu := h.pending u (List.mem_of_mem_eraseIdx hu)
  running u hu := by
    obtain hu | hu := List.mem_or_eq_of_mem_set hu
    · exact h.running u hu
    · cases hu; exact ⟨h.pending t (List.mem_of_getElem? ht), hch⟩
  length := h.length
  slots := h.slots
  errors := h.errors
  covered j hj := (h.covered j hj).imp_right (.imp_right fun ⟨u, hu, ho⟩ => ⟨u, hu, unfinished_take hw ht ho⟩)

/-- Writing a slot keeps every written slot written. -/
theorem written_set {slots : Slots} {i j : Nat} {x : Bits} (y : Bits) (h : slots[j]? = some (some x)) :
    ∃ z, (slots.set i (some y))[j]? = some (some z) := by
  by_cases hij : i = j
  · subst hij; exact ⟨y, List.getElem?_set_self (List.getElem?_eq_some_iff.1 h).1⟩
  · exact ⟨x, (List.getElem?_set_ne hij).trans h⟩

theorem chainValue_of_slot {slots : Slots} {t : Task} {j : Nat} {x : Bits} (h : t.chain = .slot j) :
    t.chainValue slots = some x ↔ slots[j]? = some (some x) := by
  rw [Task.chainValue, h]
  simp [List.getD_eq_getElem?_getD, Option.getD_eq_iff]

/-- A chain value that is known stays known. -/
theorem isSome_chainValue_set {slots : Slots} {t : Task} (i : Nat) (y : Bits) (h : (t.chainValue slots).isSome = true) :
    (t.chainValue (slots.set i (some y))).isSome = true := by
  cases hc : t.chain with
  | noChain => rw [Task.chainValue, hc]; rfl
  | value v => rw [Task.chainValue, hc]; rfl
  | slot j =>
    obtain ⟨x, hx⟩ := Option.isSome_iff_exists.1 h
    obtain ⟨z, hz⟩ := written_set (i := i) y ((chainValue_of_slot hc).1 hx)
    exact Option.isSome_iff_exists.2 ⟨z, (chainValue_of_slot hc).2 hz⟩

theorem SlotsHold.set {slots : Slots} {i : Nat} {y : Bits} (h : SlotsHold val slots) (hy : val i = .ok y) :
    SlotsHold val (slots.set i (some y)) := by
  intro j x hj
  by_cases hij : i = j
  · subst hij
    have hi : i < slots.length := by simpa using (List.getElem?_eq_some_iff.1 hj).1
    rw [List.getElem?_set_self hi] at hj
    cases hj
    exact hy
  · exact h j x ((List.getElem?_set_ne hij).symm.trans hj)

/-- R143: a task's end writes the value of its index, or records its error. -/
theorem Batch.Tracks.finish (h : b.Tracks work val n) {w : Nat} {t : Task} (hw : b.workers[w]? = some (some t)) :
    ({ b.finishTask work t with workers := b.workers.set w none } : Batch).Tracks work val n := by
  obtain ⟨hm, hsome⟩ := h.running t (List.mem_of_getElem? hw)
  obtain ⟨ch, hch⟩ := Option.isSome_iff_exists.1 hsome
  have hval := hm.sound b.slots ch h.slots hch
  have hcrew : b.workers.set w none ≠ [] := by simpa using h.crew
  have hrun : ∀ u, some u ∈ b.workers.set w none → u.Means work val n ∧ (u.chainValue b.slots).isSome = true :=
    fun u hu => h.running u ((List.mem_or_eq_of_mem_set hu).resolve_right nofun)
  cases hx : work t.chunk ch with
  | ok x =>
    have hf : b.finishTask work t = { b with slots := b.slots.set t.idx (some x) } := by
      simp only [Batch.finishTask, hch, hx]
    rw [hf]
    refine ⟨hcrew, h.pending, fun u hu => ⟨(hrun u hu).1, isSome_chainValue_set _ _ (hrun u hu).2⟩,
      (List.length_set ..).trans h.length, h.slots.set (hval.trans hx), h.errors, fun j hj => ?_⟩
    obtain ⟨y, hy⟩ | he | ⟨u, rfl, ho⟩ := h.covered j hj
    · exact .inl (written_set x hy)
    · exact .inr (.inl he)
    · by_cases hut : u = t
      · exact .inl ⟨x, by rw [hut]; exact List.getElem?_set_self (h.length ▸ hm.idx_lt)⟩
      · exact .inr (.inr ⟨u, rfl, unfinished_finish hw hut ho _ _⟩)
  | error e =>
    have hf : b.finishTask work t = { b with errors := (t.idx, e) :: b.errors } := by
      simp only [Batch.finishTask, hch, hx]
    rw [hf]
    refine ⟨hcrew, h.pending, hrun, h.length, h.slots,
      List.forall_mem_cons.2 ⟨⟨hm.idx_lt, hval.trans hx⟩, h.errors⟩, fun j hj => ?_⟩
    obtain hy | ⟨f, hf⟩ | ⟨u, rfl, ho⟩ := h.covered j hj
    · exact .inl hy
    · exact .inr (.inl ⟨f, List.mem_cons_of_mem _ hf⟩)
    · by_cases hut : u = t
      · exact .inr (.inl ⟨e, by rw [hut]; exact List.mem_cons_self⟩)
      · exact .inr (.inr ⟨u, rfl, unfinished_finish hw hut ho _ _⟩)

theorem Batch.Tracks.apply (h : b.Tracks work val n) {ev : WorkerEvent} (hev : ev ∈ b.events) :
    (b.apply work ev).Tracks work val n := by
  cases ev with
  | take w i =>
    obtain ⟨hw, t, ht, hch⟩ := take_mem_events.1 hev
    simpa only [Batch.apply, ht] using h.take hw ht hch
  | finish w =>
    obtain ⟨t, ht⟩ := finish_mem_events.1 hev
    simpa only [Batch.apply, List.getD_eq_getElem?_getD, ht, Option.getD_some] using h.finish ht

/-- Where no event is possible, an unfinished task waits for its chain value. -/
theorem Batch.Tracks.waiting_of_unfinished (h : b.Tracks work val n) (hev : b.events = []) {t : Task} (ho : b.Unfinished t) :
    t.Means work val n ∧ ¬(t.chainValue b.slots).isSome = true := by
  have hidle : ∀ u, some u ∉ b.workers := fun u hu => by
    obtain ⟨w, hw⟩ := List.mem_iff_getElem?.1 hu
    exact List.not_mem_nil (hev ▸ finish_mem_events.2 ⟨u, hw⟩)
  have hp : t ∈ b.pending := ho.resolve_right (hidle t)
  refine ⟨h.pending t hp, fun hch => ?_⟩
  obtain ⟨i, hi⟩ := List.mem_iff_getElem?.1 hp
  obtain ⟨o, rest, hcrew⟩ := List.exists_cons_of_ne_nil h.crew
  cases o with
  | some u => exact hidle u (hcrew ▸ List.mem_cons_self)
  | none => exact List.not_mem_nil (hev ▸ take_mem_events (w := 0).2 ⟨by rw [hcrew]; rfl, t, hi, hch⟩)

/-- With every slot before it written, an index has ended. -/
theorem Batch.Tracks.ended (h : b.Tracks work val n) (hev : b.events = []) {k : Nat} (hk : k < n)
    (hbefore : ∀ j, j < k → ∃ x, b.slots[j]? = some (some x)) :
    (∃ x, b.slots[k]? = some (some x)) ∨ ∃ e, (k, e) ∈ b.errors := by
  obtain hx | he | ⟨t, rfl, ho⟩ := h.covered k hk
  · exact .inl hx
  · exact .inr he
  · obtain ⟨hm, hwait⟩ := h.waiting_of_unfinished hev ho
    exact absurd (hm.waits b.slots hbefore) hwait

/-- Before the first error every slot is written, by induction on the index. -/
theorem Batch.Tracks.written (h : b.Tracks work val n) (hev : b.events = []) {k : Nat} (hk : k ≤ n)
    (hok : ∀ j, j < k → ∃ x, val j = .ok x) : ∀ j, j < k → ∃ x, b.slots[j]? = some (some x) := by
  intro j
  induction j using Nat.strong_induction_on with
  | _ j ih =>
    intro hj
    obtain hx | ⟨e, he⟩ := h.ended hev (hj.trans_le hk) fun i hi => ih i hi (hi.trans hj)
    · exact hx
    · obtain ⟨x, hx⟩ := hok j hj
      have hval : val j = .error e := (h.errors _ he).2
      rw [hx] at hval
      cases hval

/-- R145: BatchEnd raises a recorded error of least index. -/
theorem lowestError_of_ne_nil {es : List (Nat × Err)} (h : es ≠ []) :
    ∃ p ∈ es, lowestError es = some p ∧ ∀ q ∈ es, p.1 ≤ q.1 := by
  induction es with
  | nil => exact absurd rfl h
  | cons e es ih =>
    obtain rfl | hne := eq_or_ne es []
    · exact ⟨e, List.mem_cons_self, rfl, fun q hq => by rw [List.mem_singleton.1 hq]⟩
    · obtain ⟨p, hp, hlow, hmin⟩ := ih hne
      by_cases hlt : e.1 < p.1
      · refine ⟨e, List.mem_cons_self, by rw [lowestError, hlow]; exact if_pos hlt, fun q hq => ?_⟩
        obtain rfl | hq := List.mem_cons.1 hq
        · exact le_rfl
        · exact hlt.le.trans (hmin q hq)
      · refine ⟨p, List.mem_cons_of_mem e hp, by rw [lowestError, hlow]; exact if_neg hlt, fun q hq => ?_⟩
        obtain rfl | hq := List.mem_cons.1 hq
        · exact Nat.le_of_not_lt hlt
        · exact hmin q hq

/-- R145, R151: a batch drawn COMPLETE ends with the values in index order, or with the first error among them. -/
theorem Batch.Tracks.batchEnd_eq (h : b.Tracks work val n) (hev : b.events = []) {r : Except Err (List Bits)}
    (hr : Collects val n r) : batchEnd b .complete = r.map (·.map some) := by
  cases r with
  | ok out =>
    obtain ⟨hlen, hout⟩ := hr
    have hval : ∀ j, j < n → ∃ x, val j = .ok x := fun j hj => ⟨_, hout j _ (List.getElem?_eq_getElem (hlen ▸ hj))⟩
    have herr : b.errors = [] := List.eq_nil_iff_forall_not_mem.2 fun e he => by
      obtain ⟨hlt, hve⟩ := h.errors e he
      obtain ⟨x, hx⟩ := hval _ hlt
      rw [hx] at hve
      cases hve
    have hslots : b.slots = out.map some := by
      refine List.ext_getElem (by rw [h.length, List.length_map, hlen]) fun j hj hj' => ?_
      rw [h.length] at hj
      obtain ⟨x, hx⟩ := h.written hev le_rfl hval j hj
      have hvx := (h.slots j x hx).symm.trans (hout j _ (List.getElem?_eq_getElem (hlen ▸ hj)))
      rw [List.getElem_map, ← Except.ok.inj hvx]
      exact (List.getElem?_eq_some_iff.1 hx).2
    rw [batchEnd_of_no_errors herr, hslots]
    rfl
  | error e =>
    obtain ⟨k, hk, hve, hok⟩ := hr
    have hmem : ∃ f, (k, f) ∈ b.errors := by
      refine (h.ended hev hk (h.written hev hk.le hok)).resolve_left fun ⟨x, hx⟩ => ?_
      have hvx := h.slots k x hx
      rw [hve] at hvx
      cases hvx
    obtain ⟨f, hf⟩ := hmem
    obtain ⟨⟨i, g⟩, hp, hlow, hmin⟩ := lowestError_of_ne_nil (List.ne_nil_of_mem hf)
    have hvi : val i = .error g := (h.errors _ hp).2
    have hik : i = k := by
      refine le_antisymm (hmin _ hf) (Nat.le_of_not_lt fun hlt => ?_)
      obtain ⟨x, hx⟩ := hok i hlt
      rw [hx] at hvi
      cases hvi
    subst hik
    rw [hve] at hvi
    cases hvi
    unfold batchEnd
    rw [hlow]
    rfl

theorem tracks_start {tasks : List Task} (hm : ∀ t ∈ tasks, t.Means work val tasks.length)
    (hall : ∀ j, j < tasks.length → ∃ t ∈ tasks, t.idx = j) :
    (Batch.start tasks (List.replicate tasks.length none)).Tracks work val tasks.length where
  crew := by simp [Batch.start]
  pending := hm
  running t ht := nomatch List.eq_of_mem_replicate ht
  length := List.length_replicate
  slots j x hj := nomatch List.eq_of_mem_replicate (List.mem_of_getElem? hj)
  errors := nofun
  covered j hj := by
    obtain ⟨t, ht, he⟩ := hall j hj
    exact .inr (.inr ⟨t, he, .inl ht⟩)

/-- R146, R151: MTRun on at most BATCH_MAX tasks collects the values they stand for, whatever order the workers act in. -/
theorem mtRun_eq {env : BatchEnv} {tasks : List Task} {r : Except Err (List Bits)}
    (hm : ∀ t ∈ tasks, t.Means work val tasks.length) (hall : ∀ j, j < tasks.length → ∃ t ∈ tasks, t.idx = j)
    (hmax : tasks.length ≤ 1500) (hdraw : tasks ≠ [] → env.outcome 0 = .complete) (hr : Collects val tasks.length r) :
    mtRun env work tasks = r := by
  by_cases hnil : tasks = []
  · subst hnil
    rw [eq_ok_nil_of_collects_zero hr, mtRun_nil]
  · obtain ⟨hend, hev⟩ := ranBatch_ends (fun _ _ hb => hb.apply) (env.pick 0) (tracks_start hm hall)
    rw [mtRun_one env work (List.length_pos_iff.2 hnil) hmax, hdraw hnil, hend.batchEnd_eq hev hr]
    cases r with
    | error e => rfl
    | ok out => simp [Except.map, Function.comp_def]

/-- R145: an MTRun of one batch that answers a value was drawn COMPLETE. -/
theorem complete_of_mtRun_eq_ok {env : BatchEnv} {tasks : List Task} {out : List Bits} (hmax : tasks.length ≤ 1500)
    (h : mtRun env work tasks = .ok out) (hne : tasks ≠ []) : env.outcome 0 = .complete := by
  rw [mtRun_one env work (List.length_pos_iff.2 hne) hmax] at h
  obtain ⟨slots, hs, -⟩ := bind_eq_ok.1 h
  unfold batchEnd at hs
  split at hs
  · cases hs
  · split at hs
    · assumption
    all_goals cases hs

end Sys2Proof.Machine

/-! ### Each multithreaded command gives the single-threaded result (45_executor.md R147 - R151) -/

namespace Sys2Proof.Machine

variable {work : Work} {val : Nat → Except Err Bits} {n : Nat} {s : State} {p : Ports} {env : BatchEnv}

/-! What a task stands for. -/

theorem means_of_known {t : Task} {ch : Bits} (hidx : t.idx < n) (hch : ∀ slots, t.chainValue slots = some ch)
    (hval : val t.idx = work t.chunk ch) : t.Means work val n where
  idx_lt := hidx
  sound slots x _ hx := by rw [hval, Option.some.inj ((hch slots).symm.trans hx)]
  waits slots _ := by rw [hch]; rfl

theorem means_of_slot {t : Task} {j : Nat} (hidx : t.idx < n) (hch : t.chain = .slot j) (hj : j < t.idx)
    (hval : val t.idx = val j >>= work t.chunk) : t.Means work val n where
  idx_lt := hidx
  sound slots x hs hx := by rw [hval, hs j x ((chainValue_of_slot hch).1 hx), ok_bind]
  waits slots h := by
    obtain ⟨x, hx⟩ := h j hj
    exact Option.isSome_iff_exists.2 ⟨x, (chainValue_of_slot hch).2 hx⟩

/-- R144: one batch of the tasks of a chunk list. -/
theorem mtRun_tasksOf {cs : List Bits} {chain : Nat → ChainInput} {r : Except Err (List Bits)}
    (hm : ∀ t : Task, t.idx < cs.length → t.chunk = cs.getD t.idx [] → t.chain = chain t.idx →
      t.Means work val cs.length)
    (hmax : cs.length ≤ 1500) (hdraw : cs ≠ [] → env.outcome 0 = .complete) (hr : Collects val cs.length r) :
    mtRun env work (tasksOf cs chain) = r := by
  rw [← length_tasksOf cs chain] at hmax hr
  refine mtRun_eq (fun t ht => ?_) (fun j hj => ?_) hmax (fun hne => hdraw fun hnil => hne (by rw [hnil, tasksOf_nil])) hr
  · obtain ⟨hc, hch⟩ := mem_tasksOf.1 ht
    rw [length_tasksOf]
    exact hm t (List.getElem?_eq_some_iff.1 hc).1 (by rw [List.getD_eq_getElem?_getD, hc]; rfl) hch
  · rw [length_tasksOf] at hj
    exact ⟨⟨j, cs[j], chain j⟩, mem_tasksOf.2 ⟨List.getElem?_eq_getElem hj, rfl⟩, rfl⟩

/-! The values in each mode. -/

/-- ECB: each chunk by itself (R147, R148). -/
def ecbValue (f : Bits → Except Err Bits) (cs : List Bits) (i : Nat) : Except Err Bits := f (cs.getD i [])

/-- CBC decryption: the chunk and the ciphertext chunk before it, or the seed (R150). -/
def cbcDecValue (d : Bits → Except Err Bits) (ch : Bits) (cs : List Bits) (i : Nat) : Except Err Bits :=
  cbcDecWork d (cs.getD i []) ((ch :: cs).getD i [])

/-- CBC encryption: the chunk and the value before it, whose error it inherits (R149). -/
def cbcEncValue (e : Bits → Except Err Bits) : Bits → List Bits → Nat → Except Err Bits
  | _, [], _ => .ok []
  | ch, x :: _, 0 => e (xorBits x ch)
  | ch, x :: xs, i + 1 => e (xorBits x ch) >>= fun c => cbcEncValue e c xs i

theorem collects_eachChunk (f : Bits → Except Err Bits) (cs : List Bits) :
    Collects (ecbValue f cs) cs.length (eachChunk f cs) := by
  induction cs with
  | nil => exact collects_nil
  | cons c cs ih => exact collects_cons (val := ecbValue f (c :: cs)) (rest := fun _ => eachChunk f cs) fun _ _ => ih

theorem collects_cbcEncChain (e : Bits → Except Err Bits) (cs : List Bits) : ∀ ch : Bits,
    Collects (cbcEncValue e ch cs) cs.length (cbcEncChain e ch cs) := by
  induction cs with
  | nil => exact fun _ => collects_nil
  | cons c cs ih =>
    intro ch
    refine collects_cons (val := cbcEncValue e ch (c :: cs)) (rest := fun x => cbcEncChain e x cs) fun x hx => ?_
    have hx' : e (xorBits c ch) = .ok x := hx
    simp only [cbcEncValue, hx', ok_bind]
    exact ih x

theorem collects_cbcDecChain (d : Bits → Except Err Bits) (cs : List Bits) : ∀ ch : Bits,
    Collects (cbcDecValue d ch cs) cs.length (cbcDecChain d ch cs) := by
  induction cs with
  | nil => exact fun _ => collects_nil
  | cons c cs ih =>
    intro ch
    have hstep : cbcDecChain d ch (c :: cs) =
        cbcDecValue d ch (c :: cs) 0 >>= fun x => cbcDecChain d c cs >>= fun xs => .ok (x :: xs) := by
      change (d c >>= _) = (d c >>= _) >>= _
      cases d c <;> rfl
    rw [hstep]
    exact collects_cons fun _ _ => ih c

/-- R149: the value of a task of CBC encryption, from that of the task before it. -/
theorem cbcEncValue_succ (e : Bits → Except Err Bits) (cs : List Bits) : ∀ {ch : Bits} {i : Nat}, i + 1 < cs.length →
    cbcEncValue e ch cs (i + 1) = cbcEncValue e ch cs i >>= fun c => e (xorBits (cs.getD (i + 1) []) c) := by
  induction cs with
  | nil => intro ch i hi; exact absurd hi (Nat.not_lt_zero _)
  | cons x xs ih =>
    intro ch i hi
    have hi' : i < xs.length := Nat.lt_of_succ_lt_succ hi
    cases hx : e (xorBits x ch) with
    | error err => cases i <;> simp only [cbcEncValue, hx, error_bind]
    | ok c =>
      cases i with
      | zero =>
        obtain ⟨y, ys, rfl⟩ := List.exists_cons_of_ne_nil (List.length_pos_iff.1 hi')
        simp only [cbcEncValue, hx, ok_bind]
        rfl
      | succ i =>
        simp only [cbcEncValue, hx, ok_bind]
        exact ih hi'

/-! Each mode on at most BATCH_MAX chunks. -/

theorem mtRun_ecb (f : Bits → Except Err Bits) {cs : List Bits} (hmax : cs.length ≤ 1500)
    (hdraw : cs ≠ [] → env.outcome 0 = .complete) :
    mtRun env (fun x _ => f x) (tasksOf cs fun _ => .noChain) = eachChunk f cs :=
  mtRun_tasksOf (fun t hi hc hch => means_of_known hi (fun _ => by rw [Task.chainValue, hch]) (by rw [hc]; rfl))
    hmax hdraw (collects_eachChunk f cs)

theorem mtRun_cbcEnc (e : Bits → Except Err Bits) (seed : Bits) {cs : List Bits} (hmax : cs.length ≤ 1500)
    (hdraw : cs ≠ [] → env.outcome 0 = .complete) :
    mtRun env (fun x ch => e (xorBits x ch)) (tasksOf cs (cbcEncInput seed)) = cbcEncChain e seed cs := by
  refine mtRun_tasksOf (fun t hi hc hch => ?_) hmax hdraw (collects_cbcEncChain e cs seed)
  cases hidx : t.idx with
  | zero =>
    rw [hidx] at hch hi hc
    refine means_of_known (hidx ▸ hi) (ch := seed) (fun _ => by rw [Task.chainValue, hch]; rfl) ?_
    obtain ⟨x, xs, rfl⟩ := List.exists_cons_of_ne_nil (List.length_pos_iff.1 hi)
    rw [hidx, hc]
    rfl
  | succ i =>
    rw [hidx] at hch hi hc
    refine means_of_slot (hidx ▸ hi) hch (hidx ▸ Nat.lt_succ_self i) ?_
    rw [hidx, cbcEncValue_succ _ _ hi, ← hc]

theorem mtRun_cbcDec (d : Bits → Except Err Bits) (seed : Bits) {cs : List Bits} (hmax : cs.length ≤ 1500)
    (hdraw : cs ≠ [] → env.outcome 0 = .complete) :
    mtRun env (cbcDecWork d) (tasksOf cs (cbcDecInput seed cs)) = cbcDecChain d seed cs := by
  refine mtRun_tasksOf (fun t hi hc hch => ?_) hmax hdraw (collects_cbcDecChain d cs seed)
  refine means_of_known (ch := (seed :: cs).getD t.idx []) hi (fun _ => ?_) (by rw [hc]; rfl)
  rw [Task.chainValue, hch]
  cases t.idx <;> rfl

/-! The four block modes by two flags: whether the mode chains and whether it decrypts. -/

/-- The work of a task (R147 - R150). -/
def blockWork (p : Ports) (c : Cipher) : (chained dec : Bool) → Work
  | false, false => fun x _ => c.enc p x
  | false, true => fun x _ => c.dec p x
  | true, false => fun x ch => c.enc p (xorBits x ch)
  | true, true => cbcDecWork (c.dec p)

/-- The chain input of each task (R147 - R150). -/
def blockChain (seed : Bits) (cs : List Bits) : (chained dec : Bool) → Nat → ChainInput
  | false, _ => fun _ => .noChain
  | true, false => cbcEncInput seed
  | true, true => cbcDecInput seed cs

/-- The single-threaded chunk loop (R130 - R133). -/
def blockSerial (p : Ports) (c : Cipher) (seed : Bits) (cs : List Bits) : (chained dec : Bool) → Except Err (List Bits)
  | false, false => eachChunk (c.enc p) cs
  | false, true => eachChunk (c.dec p) cs
  | true, false => cbcEncChain (c.enc p) seed cs
  | true, true => cbcDecChain (c.dec p) seed cs

/-- A single-threaded block mode's result (R130 - R133). -/
def blockUnits (p : Ports) (s : State) (chained dec : Bool) : Except Err (List CodeUnit) :=
  s.modeCheck chained dec >>= fun c =>
    blockSerial p c s.seed (chunks s.nu (s.modeInput dec)) chained dec >>= fun out => .ok (modeUnits dec out)

/-- A multithreaded block mode's result (R147 - R150). -/
def blockMtUnits (p : Ports) (env : BatchEnv) (s : State) (chained dec : Bool) : MtResult :=
  s.modeCheck chained dec >>= fun c => s.poolCheck >>= fun _ =>
    let cs := chunks s.nu (s.modeInput dec)
    mtRun env (blockWork p c chained dec) (tasksOf cs (blockChain s.seed cs chained dec)) >>= fun out =>
      .ok (modeUnits dec out, batchCountOf cs.length)

/-- The block mode commands: multithreaded, single-threaded, whether they chain and whether they decrypt. -/
def blockCommands : List (Instr × Instr × Bool × Bool) :=
  [(.ecbeMt, .ecbe, false, false), (.ecbdMt, .ecbd, false, true), (.cbceMt, .cbce, true, false), (.cbcdMt, .cbcd, true, true)]

theorem exec_blockCommand {i j : Instr} {chained dec : Bool} (h : (i, j, chained, dec) ∈ blockCommands) (s : State) :
    exec i s = completeMt i.opcode s (blockMtUnits Config.ports (environmentAt s.draws) s chained dec) ∧
    exec j s = completeMode j.opcode s (blockUnits Config.ports s chained dec) := by
  simp only [blockCommands, List.mem_cons, List.not_mem_nil, or_false, Prod.mk.injEq] at h
  obtain ⟨rfl, rfl, rfl, rfl⟩ | ⟨rfl, rfl, rfl, rfl⟩ | ⟨rfl, rfl, rfl, rfl⟩ | ⟨rfl, rfl, rfl, rfl⟩ := h
  all_goals exact ⟨rfl, rfl⟩

/-- R151: at most BATCH_MAX tasks, drawn COMPLETE, give the single-threaded chunks or the single-threaded error. -/
theorem mtRun_block (c : Cipher) (seed : Bits) {cs : List Bits} (hmax : cs.length ≤ 1500)
    (hdraw : cs ≠ [] → env.outcome 0 = .complete) (chained dec : Bool) :
    mtRun env (blockWork p c chained dec) (tasksOf cs (blockChain seed cs chained dec)) =
      blockSerial p c seed cs chained dec := by
  cases chained <;> cases dec
  · exact mtRun_ecb (c.enc p) hmax hdraw
  · exact mtRun_ecb (c.dec p) hmax hdraw
  · exact mtRun_cbcEnc (c.enc p) seed hmax hdraw
  · exact mtRun_cbcDec (c.dec p) seed hmax hdraw

/-- R124, R144: a checked message has at most 128 chunks, so at most one batch, whatever BLOCK_BITS holds. -/
theorem length_modeChunks_le {chained dec : Bool} {c : Cipher} (h : s.modeCheck chained dec = .ok c) :
    (chunks s.nu (s.modeInput dec)).length ≤ 1500 := by
  obtain ⟨-, -, -, hbound, -⟩ := modeCheck_eq_ok h
  rw [← length_message] at hbound
  rw [length_chunks]
  obtain hnu | hnu := Nat.eq_zero_or_pos s.nu
  · rw [hnu, Nat.div_zero]; exact Nat.zero_le _
  · have hlen : (s.modeInput dec).length ≤ 128 * s.nu := by
      cases dec with
      | false => exact length_padUnits_le hnu hbound
      | true => exact hbound
    exact (Nat.div_le_of_le_mul (by rwa [Nat.mul_comm] at hlen)).trans (by decide)

/-- R151: with the pool READY and the batch drawn COMPLETE, value or error. -/
theorem blockMtUnits_fst (hpool : s.poolState = .ready) (hdraw : env.outcome 0 = .complete) (chained dec : Bool) :
    (blockMtUnits p env s chained dec).map Prod.fst = blockUnits p s chained dec := by
  unfold blockMtUnits blockUnits
  cases hc : s.modeCheck chained dec with
  | error e => rfl
  | ok c =>
    simp only [ok_bind, poolCheck_ready hpool, mtRun_block c s.seed (length_modeChunks_le hc) (fun _ => hdraw)]
    cases blockSerial p c s.seed (chunks s.nu (s.modeInput dec)) chained dec <;> rfl

/-- R151: a multithreaded command that succeeds gives the single-threaded value. -/
theorem blockUnits_of_blockMtUnits {chained dec : Bool} {w : List CodeUnit} {b : Nat}
    (h : blockMtUnits p env s chained dec = .ok (w, b)) : blockUnits p s chained dec = .ok w := by
  obtain ⟨c, hc, h⟩ := bind_eq_ok.1 h
  obtain ⟨_, -, h⟩ := bind_eq_ok.1 h
  obtain ⟨out, hout, h⟩ := bind_eq_ok.1 h
  cases h
  have hmax := length_modeChunks_le hc
  have hdraw : chunks s.nu (s.modeInput dec) ≠ [] → env.outcome 0 = .complete := fun hne =>
    complete_of_mtRun_eq_ok ((length_tasksOf ..).trans_le hmax) hout fun hnil =>
      hne (List.length_eq_zero_iff.1 ((length_tasksOf ..).symm.trans (congrArg List.length hnil)))
  rw [mtRun_block c s.seed hmax hdraw] at hout
  rw [blockUnits, hc, ok_bind, hout]
  rfl

/-- Settles O59: every task's value is fixed before the batch starts, so any order of the workers collects the same list, or
the same first error. -/
theorem multithreadedEqualsSinglethreaded : Obligations.MultithreadedEqualsSinglethreaded := by
  refine ⟨fun p env s hpool hdraw => ?_, fun s t i j hij ht herr => ?_⟩
  · have heq := blockMtUnits_fst (p := p) hpool (hdraw 0)
    exact ⟨heq false false, heq false true, heq true false, heq true true⟩
  · have hij' : (i, j) ∈ blockCommands.map fun q => (q.1, q.2.1) := hij
    obtain ⟨⟨_, _, chained, dec⟩, hmem, he⟩ := List.mem_map.1 hij'
    cases he
    obtain ⟨hi, hj⟩ := exec_blockCommand hmem s
    obtain ⟨w, b, hw, rfl⟩ | ⟨e, -, rfl⟩ := completeMt_cases (hi ▸ ht)
    · exact ⟨(s.output w).succeed 0, by rw [hj, blockUnits_of_blockMtUnits hw]; rfl, rfl, rfl, rfl, rfl⟩
    · cases herr

end Sys2Proof.Machine

/-! ### Which errors a command can raise (60_exceptions.md R153, R154)

A command that answers raises only what its checks and the functions it calls raise. `Raises q r` says so of an effect, of a
check and of a chunk loop alike, so that the ciphers' MISMATCH and the errors of R154 need one rule each. -/

namespace Sys2Proof.Machine

variable {α β : Type} {q : Err → Prop} {s : State} {p : Ports}

/-- Where it fails, it fails with an error that `q` allows. -/
def Raises (q : Err → Prop) (r : Except Err α) : Prop := ∀ e, r = .error e → q e

theorem raises_ok (a : α) : Raises q (.ok a) := nofun

theorem raises_error {e : Err} (h : q e) : Raises q (.error e : Except Err α) := by
  rintro _ ⟨⟩
  exact h

theorem raises_bind {x : Except Err α} {f : α → Except Err β} (hx : Raises q x) (hf : ∀ a, Raises q (f a)) :
    Raises q (x >>= f) := fun e h =>
  (bind_eq_error.1 h).elim (hx e) fun ⟨a, _, ha⟩ => hf a e ha

/-- What is done with the value raises nothing more. -/
theorem raises_bind_ok {x : Except Err α} (hx : Raises q x) (g : α → β) : Raises q (x >>= fun a => .ok (g a)) :=
  raises_bind hx fun a => raises_ok (g a)

theorem raises_ite {c : Prop} [Decidable c] {x y : Except Err α} (hx : Raises q x) (hy : Raises q y) :
    Raises q (if c then x else y) := by
  split
  · exact hx
  · exact hy

theorem raises_need {c : Prop} [Decidable c] {e : Err} {f : Unit → Except Err β} (he : q e) (hf : Raises q (f ())) :
    Raises q (need c e >>= f) :=
  raises_bind (raises_ite (raises_ok ()) (raises_error he)) fun _ => hf

theorem raises_source {r : Reg} {f : BlockVal → Except Err β} (he : q .absent) (hf : ∀ v, Raises q (f v)) :
    Raises q (s.source r >>= f) :=
  raises_bind (fun _ h => (source_eq_error.1 h).2 ▸ he) hf

theorem raises_asBv {v : BlockVal} {f : Bits → Except Err β} (he : q .kind) (hf : ∀ x, Raises q (f x)) :
    Raises q (asBv v >>= f) := by
  cases v with
  | bv x => exact hf x
  | mx m => exact raises_error he

theorem raises_asMx {v : BlockVal} {f : ByteMatrix → Except Err β} (he : q .kind) (hf : ∀ m, Raises q (f m)) :
    Raises q (asMx v >>= f) := by
  cases v with
  | bv x => exact raises_error he
  | mx m => exact hf m

theorem raises_presentKeys (he : q .absent) (l : List RegVal) : Raises q (presentKeys l) := by
  induction l with
  | nil => exact raises_ok []
  | cons r rest ih =>
    cases r with
    | none => exact raises_error he
    | some v => rw [presentKeys_some]; exact raises_bind_ok ih _

/-! The structures and the ciphers raise MISMATCH only (R112, R118, R122). -/

section
variable (hq : q .mismatch)
include hq

theorem raises_roundF (half : Bits) (key : BlockVal) : Raises q (roundF p half key) := by
  unfold roundF
  split
  · exact raises_ite (raises_ok _) (raises_error hq)
  · exact raises_error hq

theorem raises_feistelEncRounds (ks : List BlockVal) : ∀ l r : Bits, Raises q (feistelEncRounds p ks l r) := by
  induction ks with
  | nil => exact fun l r => raises_ok (l, r)
  | cons k ks ih => exact fun l r => raises_bind (raises_roundF hq r k) fun f => ih r (xorBits l f)

theorem raises_feistelDecRounds (ks : List BlockVal) : ∀ l r : Bits, Raises q (feistelDecRounds p ks l r) := by
  induction ks with
  | nil => exact fun l r => raises_ok (l, r)
  | cons k ks ih => exact fun l r => raises_bind (raises_roundF hq l k) fun f => ih (xorBits r f) l

theorem raises_feistelEnc (keys : List BlockVal) (x : Bits) : Raises q (feistelEnc p keys x) :=
  raises_bind_ok (raises_feistelEncRounds hq keys _ _) _

theorem raises_feistelDec (keys : List BlockVal) (x : Bits) : Raises q (feistelDec p keys x) :=
  raises_bind_ok (raises_feistelDecRounds hq keys.reverse _ _) _

theorem raises_layer (f : BlockVal → LegalBlock) (x : BlockVal) : Raises q (layer f x) :=
  raises_ite (raises_ok _) (raises_error hq)

theorem raises_spEncRounds (ks : List BlockVal) : ∀ x : BlockVal, Raises q (spEncRounds p ks x) := by
  induction ks with
  | nil => exact fun x => raises_ok x
  | cons k ks ih =>
    exact fun x => raises_bind (raises_layer hq _ x) fun y => raises_bind (raises_layer hq _ y) fun z => ih (xorBlock z k)

theorem raises_spDecRounds (ks : List BlockVal) : ∀ x : BlockVal, Raises q (spDecRounds p ks x) := by
  induction ks with
  | nil => exact fun x => raises_ok x
  | cons k ks ih =>
    exact fun x => raises_bind (raises_layer hq _ (xorBlock x k)) fun y => raises_bind (raises_layer hq _ y) ih

theorem raises_spEnc (keys : List BlockVal) (x : BlockVal) : Raises q (spEnc p keys x) := by
  cases keys with
  | nil => exact raises_ok x
  | cons k0 ks => exact raises_spEncRounds hq ks (xorBlock x k0)

theorem raises_spDec (keys : List BlockVal) (x : BlockVal) : Raises q (spDec p keys x) := by
  cases keys with
  | nil => exact raises_ok x
  | cons k0 ks => exact raises_bind_ok (raises_spDecRounds hq ks.reverse x) _

theorem raises_enc (c : Cipher) (x : Bits) : Raises q (c.enc p x) := by
  cases c with
  | feistel keys => exact raises_feistelEnc hq keys x
  | sp rows cols keys => exact raises_bind_ok (raises_spEnc hq keys _) _
  | external width => exact raises_ite (raises_ok _) (raises_error hq)
  | identity => exact raises_ok x

theorem raises_dec (c : Cipher) (x : Bits) : Raises q (c.dec p x) := by
  cases c with
  | feistel keys => exact raises_feistelDec hq keys x
  | sp rows cols keys => exact raises_bind_ok (raises_spDec hq keys _) _
  | external width => exact raises_ite (raises_ok _) (raises_error hq)
  | identity => exact raises_ok x

end

/-! The chunk loops raise what their transform raises (R155). -/

section
variable {f : Bits → Except Err Bits} (hf : ∀ x, Raises q (f x))
include hf

theorem raises_eachChunk (cs : List Bits) : Raises q (eachChunk f cs) := by
  induction cs with
  | nil => exact raises_ok []
  | cons c cs ih => exact raises_bind (hf c) fun x => raises_bind_ok ih _

theorem raises_cbcEncChain (cs : List Bits) : ∀ ch : Bits, Raises q (cbcEncChain f ch cs) := by
  induction cs with
  | nil => exact fun _ => raises_ok []
  | cons c cs ih => exact fun ch => raises_bind (hf (xorBits c ch)) fun x => raises_bind_ok (ih x) _

theorem raises_cbcDecChain (cs : List Bits) : ∀ ch : Bits, Raises q (cbcDecChain f ch cs) := by
  induction cs with
  | nil => exact fun _ => raises_ok []
  | cons c cs ih => exact fun ch => raises_bind (hf c) fun x => raises_bind_ok (ih c) _

theorem raises_streamUnits (fb : Feedback) (us : List CodeUnit) : ∀ sr : StreamReg, Raises q (streamUnits f fb sr us) := by
  induction us with
  | nil => exact fun _ => raises_ok []
  | cons u us ih =>
    exact fun sr => raises_bind (raises_bind_ok (hf sr.bits) _) fun k => raises_bind_ok (ih (sr.shift (fb k u _))) _

end

theorem raises_blockSerial (hq : q .mismatch) (c : Cipher) (seed : Bits) (cs : List Bits) (chained dec : Bool) :
    Raises q (blockSerial p c seed cs chained dec) := by
  cases chained <;> cases dec
  · exact raises_eachChunk (raises_enc hq c) cs
  · exact raises_eachChunk (raises_dec hq c) cs
  · exact raises_cbcEncChain (raises_enc hq c) cs seed
  · exact raises_cbcDecChain (raises_dec hq c) cs seed

theorem raises_blockWork (hq : q .mismatch) (c : Cipher) (chained dec : Bool) (x ch : Bits) :
    Raises q (blockWork p c chained dec x ch) := by
  cases chained <;> cases dec
  · exact raises_enc hq c x
  · exact raises_dec hq c x
  · exact raises_enc hq c (xorBits x ch)
  · exact raises_bind_ok (raises_dec hq c x) _

/-! A multithreaded run raises what its work raises, or how a batch ended (R145). -/

section
variable {work : Work} (hw : ∀ x ch, Raises q (work x ch))
include hw

theorem finishTask_errors_allowed {b : Batch} (hb : ∀ e ∈ b.errors, q e.2) (t : Task) :
    ∀ e ∈ (b.finishTask work t).errors, q e.2 := by
  unfold Batch.finishTask
  split
  · exact hb
  · next ch _ =>
    split
    · exact hb
    · next e he => exact List.forall_mem_cons.2 ⟨hw t.chunk ch e he, hb⟩

theorem apply_errors_allowed {b : Batch} {ev : WorkerEvent} (hb : ∀ e ∈ b.errors, q e.2) (hev : ev ∈ b.events) :
    ∀ e ∈ (b.apply work ev).errors, q e.2 := by
  obtain ⟨w, i, t, -, -, he⟩ | ⟨w, t, -, he⟩ := Batch.apply_cases work hev
  · rw [he]; exact hb
  · rw [he]; exact finishTask_errors_allowed hw hb t

omit hw in
theorem raises_batchEnd {b : Batch} (hb : ∀ e ∈ b.errors, q e.2) (ht : q .timeout) (hi : q .interrupted)
    (o : BatchOutcome) : Raises q (batchEnd b o) := by
  by_cases herr : b.errors = []
  · rw [batchEnd_of_no_errors herr]
    cases o with
    | complete => exact raises_ok _
    | timeout => exact raises_error ht
    | interrupted => exact raises_error hi
  · obtain ⟨f, hf, hlow, -⟩ := lowestError_of_ne_nil herr
    unfold batchEnd
    rw [hlow]
    exact raises_error (hb f hf)

theorem raises_runBatches (ht : q .timeout) (hi : q .interrupted) (env : BatchEnv) (batches : List (List Task)) :
    ∀ (b : Nat) (slots : Slots), Raises q (runBatches env work b batches slots) := by
  induction batches with
  | nil => exact fun _ slots => raises_ok slots
  | cons tasks rest ih =>
    intro b slots
    have hstart : ∀ e ∈ (Batch.start tasks slots).errors, q e.2 := fun _ he => nomatch he
    have hend := (Batch.run_ends (P := fun b => ∀ e ∈ b.errors, q e.2) (fun _ _ => apply_errors_allowed hw) (env.pick b) _
      (turn := 0) hstart (turnsLeft_start ..).le).1
    exact raises_bind (raises_batchEnd hend ht hi _) fun slots' => ih (b + 1) slots'

theorem raises_mtRun (ht : q .timeout) (hi : q .interrupted) (env : BatchEnv) (tasks : List Task) :
    Raises q (mtRun env work tasks) :=
  raises_bind_ok (raises_runBatches hw ht hi env _ _ _) _

end

/-! ### Every command completes with success or with a record of R154 -/

/-- An error of R154 that is no failure to decode. -/
def Err.OfCommand : Err → Prop
  | .illegal _ => False
  | _ => True

theorem Err.OfCommand.mem {e : Err} (h : e.OfCommand) : (e.classCode, e.detailCode) ∈ commandErrors := by
  cases e with
  | illegal why => exact h.elim
  | _ => decide

theorem raises_csrwEffect (c : Csr) (v : Nat) : Raises Err.OfCommand (csrwEffect s c v) := by
  unfold csrwEffect
  split
  · exact raises_ok _
  · exact raises_need trivial (raises_need trivial (raises_ok _))

theorem raises_packChecked (us : List CodeUnit) : Raises Err.OfCommand (packChecked us) :=
  raises_ite (raises_ok _) (raises_error trivial)

theorem raises_feistelInput (v : BlockVal) : Raises Err.OfCommand (feistelInput s v) :=
  raises_asBv trivial fun x => raises_need trivial (raises_need trivial (raises_ok x))

theorem raises_spInput (v : BlockVal) (keys : List BlockVal) : Raises Err.OfCommand (spInput s v keys) :=
  raises_asMx trivial fun _ => raises_need trivial (raises_ite (raises_ok ()) (raises_error trivial))

theorem raises_cipherPresent : Raises Err.OfCommand s.cipherPresent := by
  unfold State.cipherPresent
  split
  · exact raises_error trivial
  · exact raises_bind_ok (raises_presentKeys trivial _) _
  · exact raises_bind_ok (raises_presentKeys trivial _) _
  · exact raises_ok _
  · exact raises_ok _

theorem raises_cipherShape (c : Cipher) : Raises Err.OfCommand (s.cipherShape c) := by
  cases c with
  | sp rows cols keys => exact raises_need trivial (raises_ite (raises_ok ()) (raises_error trivial))
  | _ => exact raises_ok ()

theorem raises_modeCheck (chained dec : Bool) : Raises Err.OfCommand (s.modeCheck chained dec) :=
  raises_bind raises_cipherPresent fun c => raises_need trivial <| raises_bind (raises_cipherShape c) fun _ =>
    raises_need trivial <| raises_need trivial <| raises_need trivial <| raises_ok c

theorem raises_blockUnits (chained dec : Bool) : Raises Err.OfCommand (blockUnits p s chained dec) :=
  raises_bind (raises_modeCheck chained dec) fun c => raises_bind_ok (raises_blockSerial trivial c _ _ chained dec) _

theorem raises_blockMtUnits (env : BatchEnv) (chained dec : Bool) : Raises Err.OfCommand (blockMtUnits p env s chained dec) :=
  raises_bind (raises_modeCheck chained dec) fun c =>
    raises_bind (raises_need trivial (raises_ite (raises_ok ()) (raises_error trivial))) fun _ =>
      raises_bind_ok (raises_mtRun (raises_blockWork trivial c chained dec) trivial trivial env _) _

/-- A stream mode's result, whatever its feedback (R134 - R137). -/
theorem raises_stream (fb : Feedback) : Raises Err.OfCommand
    (s.modeCheck true false >>= fun c => streamUnits (c.enc p) fb ⟨s.seed⟩ s.message) :=
  raises_bind (raises_modeCheck true false) fun c => raises_streamUnits (raises_enc trivial c) fb _ _

/-- What R153 says a completed command leaves. -/
def CompletesWithRecord (opc : Byte) (t : State) : Prop :=
  t.running = none ∧ ((t.err = false ∧ t.errcode = 0) ∨ (t.err = true ∧ t.sticky = true ∧ t.resp = 0 ∧
    ∃ p ∈ commandErrors, t.errcode = BitVec.ofNat 64 (p.1 + 256 * p.2 + 65536 * opc.toNat)))

theorem completesWithRecord_succeed (opc : Byte) (s : State) (resp : Word) : CompletesWithRecord opc (s.succeed resp) :=
  ⟨rfl, .inl ⟨rfl, rfl⟩⟩

theorem completesWithRecord_raise (s : State) (opc : Byte) {e : Err} (h : e.OfCommand) :
    CompletesWithRecord opc (s.raise opc e) :=
  ⟨rfl, .inr ⟨rfl, rfl, rfl, _, h.mem, rfl⟩⟩

theorem completesWithRecord_raiseMode (s : State) (opc : Byte) {e : Err} (h : e.OfCommand) :
    CompletesWithRecord opc (s.raiseMode opc e) :=
  completesWithRecord_raise s opc h

theorem completesWithRecord_complete (opc : Byte) {r : Effect} (h : Raises Err.OfCommand r) :
    ∃ t, complete opc s r = .next t ∧ CompletesWithRecord opc t := by
  cases r with
  | ok u => exact ⟨_, rfl, completesWithRecord_succeed opc u.1 u.2⟩
  | error e => exact ⟨_, rfl, completesWithRecord_raise s opc (h e rfl)⟩

theorem completesWithRecord_completeMode (opc : Byte) {r : Except Err (List CodeUnit)} (h : Raises Err.OfCommand r) :
    ∃ t, completeMode opc s r = .next t ∧ CompletesWithRecord opc t := by
  cases r with
  | ok w => exact ⟨_, rfl, completesWithRecord_succeed opc (s.output w) 0⟩
  | error e => exact ⟨_, rfl, completesWithRecord_raiseMode s opc (h e rfl)⟩

theorem completesWithRecord_completeMt (opc : Byte) {r : MtResult} (h : Raises Err.OfCommand r) :
    ∃ t, completeMt opc s r = .next t ∧ CompletesWithRecord opc t := by
  cases r with
  | ok w => exact ⟨_, rfl, completesWithRecord_succeed opc ((s.output w.1).writeBatchCount w.2) 0⟩
  | error e => exact ⟨_, rfl, completesWithRecord_raiseMode s opc (h e rfl)⟩

/-- A command that is no mode command raises errors of R154 only: its checks in order. -/
theorem effect_raises {i : Instr} (s : State) (h : i.isMode = false) :
    ∃ r, exec i s = complete i.opcode s r ∧ Raises Err.OfCommand r := by
  cases i with
  | nop | poolInit | poolRecycle | gfxtime _ | gfmul _ _ => exact ⟨_, rfl, raises_ok (_, _)⟩
  | csrr n =>
    refine ⟨_, rfl, ?_⟩
    split
    · exact raises_error trivial
    · exact raises_ok _
  | csrw n v =>
    refine ⟨_, rfl, ?_⟩
    split
    · exact raises_error trivial
    · exact raises_csrwEffect _ v
  | bzero _ _ | inwr _ _ | outrd _ | tmwr _ _ | tmrd _ => exact ⟨_, rfl, raises_need trivial (raises_ok _)⟩
  | bmov _ _ | bsize _ | seedset _ | kexp _ _ => exact ⟨_, rfl, raises_source trivial fun _ => raises_ok _⟩
  | bshl _ _ _ _ | bgetb _ _ | bsetb _ _ _ _ | kset _ _ _ =>
    exact ⟨_, rfl, raises_source trivial fun _ => raises_need trivial (raises_ok _)⟩
  | bxor _ _ _ =>
    exact ⟨_, rfl, raises_source trivial fun _ => raises_source trivial fun _ => raises_need trivial (raises_ok _)⟩
  | bvslice _ _ _ _ =>
    exact ⟨_, rfl, raises_source trivial fun _ => raises_asBv trivial fun _ => raises_need trivial (raises_ok _)⟩
  | bvsum _ => exact ⟨_, rfl, raises_source trivial fun _ => raises_asBv trivial fun _ => raises_ok _⟩
  | bvcmp _ _ =>
    exact ⟨_, rfl, raises_source trivial fun _ => raises_source trivial fun _ => raises_asBv trivial fun _ =>
      raises_asBv trivial fun _ => raises_ok _⟩
  | bvcat _ _ _ =>
    exact ⟨_, rfl, raises_source trivial fun _ => raises_source trivial fun _ => raises_asBv trivial fun _ =>
      raises_asBv trivial fun _ => raises_need trivial (raises_ok _)⟩
  | bvperm _ _ _ _ =>
    exact ⟨_, rfl, raises_source trivial fun _ => raises_asBv trivial fun _ => raises_need trivial <|
      raises_need trivial <| raises_need trivial (raises_ok _)⟩
  | bvfromu _ _ _ =>
    exact ⟨_, rfl, raises_need trivial <| raises_need trivial <| raises_bind_ok (raises_packChecked _) _⟩
  | bvtou _ _ =>
    exact ⟨_, rfl, raises_source trivial fun _ => raises_need trivial <| raises_need trivial (raises_ok _)⟩
  | mxfrombv _ _ _ _ =>
    exact ⟨_, rfl, raises_source trivial fun _ => raises_asBv trivial fun _ => raises_need trivial <|
      raises_need trivial (raises_ok _)⟩
  | mxtobv _ _ | mxrotl _ _ | mxrotr _ _ =>
    exact ⟨_, rfl, raises_source trivial fun _ => raises_asMx trivial fun _ => raises_ok _⟩
  | mxsub _ _ _ _ =>
    exact ⟨_, rfl, raises_source trivial fun _ => raises_asMx trivial fun _ => raises_need trivial <|
      raises_need trivial <| raises_need trivial (raises_ok _)⟩
  | mxmul _ _ _ =>
    exact ⟨_, rfl, raises_source trivial fun _ => raises_source trivial fun _ => raises_asMx trivial fun _ =>
      raises_asMx trivial fun _ => raises_need trivial (raises_ok _)⟩
  | fen _ _ =>
    exact ⟨_, rfl, raises_source trivial fun v => raises_bind (raises_presentKeys trivial _) fun _ =>
      raises_bind (raises_feistelInput v) fun _ => raises_bind_ok (raises_feistelEnc trivial _ _) _⟩
  | fde _ _ =>
    exact ⟨_, rfl, raises_source trivial fun v => raises_bind (raises_presentKeys trivial _) fun _ =>
      raises_bind (raises_feistelInput v) fun _ => raises_bind_ok (raises_feistelDec trivial _ _) _⟩
  | spen _ _ =>
    exact ⟨_, rfl, raises_source trivial fun v => raises_bind (raises_presentKeys trivial _) fun _ =>
      raises_bind (raises_spInput v _) fun _ => raises_bind_ok (raises_spEnc trivial _ v) _⟩
  | spde _ _ =>
    exact ⟨_, rfl, raises_source trivial fun v => raises_bind (raises_presentKeys trivial _) fun _ =>
      raises_bind (raises_spInput v _) fun _ => raises_bind_ok (raises_spDec trivial _ v) _⟩
  | ecbe | ecbd | cbce | cbcd | cfbe | cfbd | ofbe | ofbd | ecbeMt | ecbdMt | cbceMt | cbcdMt => cases h

theorem completesWithRecord_mode {i : Instr} (s : State) (h : i.isMode = true) :
    ∃ t, exec i s = .next t ∧ CompletesWithRecord i.opcode t := by
  cases i with
  | ecbe => exact completesWithRecord_completeMode _ (raises_blockUnits false false)
  | ecbd => exact completesWithRecord_completeMode _ (raises_blockUnits false true)
  | cbce => exact completesWithRecord_completeMode _ (raises_blockUnits true false)
  | cbcd => exact completesWithRecord_completeMode _ (raises_blockUnits true true)
  | cfbe => exact completesWithRecord_completeMode _ (raises_stream cfbEncFeedback)
  | cfbd => exact completesWithRecord_completeMode _ (raises_stream cfbDecFeedback)
  | ofbe | ofbd => exact completesWithRecord_completeMode _ (raises_stream ofbFeedback)
  | ecbeMt => exact completesWithRecord_completeMt _ (raises_blockMtUnits _ false false)
  | ecbdMt => exact completesWithRecord_completeMt _ (raises_blockMtUnits _ false true)
  | cbceMt => exact completesWithRecord_completeMt _ (raises_blockMtUnits _ true false)
  | cbcdMt => exact completesWithRecord_completeMt _ (raises_blockMtUnits _ true true)
  | _ => cases h

/-- Settles O13: a completion leaves success or the record of its error, and every error a command raises is one of R154. -/
theorem everyCommandCompletesWithRecord : Obligations.EveryCommandCompletesWithRecord := by
  intro i s
  cases hm : i.isMode with
  | false =>
    obtain ⟨r, hx, hr⟩ := effect_raises s hm
    rw [hx]
    exact completesWithRecord_complete i.opcode hr
  | true => exact completesWithRecord_mode s hm

end Sys2Proof.Machine

/-! ### The port (20_memory.md R39, R172, 70_reset_and_hazards.md R168, R170) -/

namespace Sys2Proof.Machine

variable {s : State}

/-- R170: after the first reset, with no RST at the edge, the command in execution runs. -/
theorem step_of_running {cw : Word} (hreset : s.resetSeen = true) (hrun : s.running = some cw)
    (hport : s.port.head? ≠ some .rst) : step s = runCommand cw s.passIdle := by
  unfold step
  split
  · next hp => exact absurd (by rw [hp]; rfl) hport
  · next hr _ => rw [Option.some.inj (hrun.symm.trans hr), hreset]; rfl
  all_goals next hr => cases hrun.symm.trans hr

/-- R39: a word presented to a ready block is accepted. -/
theorem step_of_present {cw : Word} {rest : List PortInput} (hreset : s.resetSeen = true) (hrun : s.running = none)
    (hp : s.port = .present cw :: rest) : step s = .next (s.accept cw rest) := by
  rw [step, hp, hrun]
  exact if_pos hreset

/-- R168: an idle edge. -/
theorem step_of_idle {rest : List PortInput} (hrun : s.running = none) (hp : s.port = .idle :: rest) :
    step s = .next (s.waitIdle rest) := by
  rw [step, hp, hrun]

theorem step_of_no_input (hrun : s.running = none) (hp : s.port = []) : step s = .next s := by
  rw [step, hp, hrun]

theorem runCommand_of_decode {cw : Word} {i : Instr} (h : decode cw = .ok i) (s : State) : runCommand cw s = exec i s := by
  rw [runCommand, h]

theorem passIdle_port (s : State) :
    s.passIdle = { s with port := if s.port.head? = some .idle then s.port.tail else s.port } := by
  unfold State.passIdle
  split
  · next hp => rw [hp]; rfl
  all_goals next hp => rw [if_neg (by rw [hp]; exact nofun)]

theorem decode_of_decodeTableWord {nbits w : Nat} {i : Instr} (h : decodeTableWord nbits w = some i) :
    decode (tableWord nbits w) = .ok i := by
  unfold decodeTableWord at h
  split at h
  · next hd => rw [hd, Option.some.inj h]
  · cases h

/-- A placed word has no RST before it (log 12). -/
theorem withFetchWord_port (s : State) (nbits w : Nat) : (s.withFetchWord nbits w).port.head? ≠ some .rst := fun h => by
  have := List.head?_dropWhile_not (fun p => p == PortInput.rst) s.port
  change (s.port.dropWhile (fun p => p == PortInput.rst)).head? = _ at h
  rw [h] at this
  cases this

/-- Settles O6: a running word is decoded and run, and a placed word is running with no RST ahead. -/
theorem stepRunsDecodedCommand : Obligations.StepRunsDecodedCommand := by
  refine ⟨fun s cw i hreset hrun hport hd => ?_, fun s nbits w i hd => ?_⟩
  · rw [step_of_running hreset hrun hport, runCommand_of_decode hd, passIdle_port]
  · rw [step_of_running rfl rfl (withFetchWord_port s nbits w), runCommand_of_decode (decode_of_decodeTableWord hd),
      passIdle_port]
    exact ⟨_, rfl⟩

theorem exec_running_port {i : Instr} {t : State} (h : exec i s = .next t) : t.running = none ∧ t.port = s.port := by
  obtain ⟨-, -, -, -, -, -, -, -, -, hport, -⟩ := stateWrittenOnlyByItsCommands i s t h
  obtain ⟨u, resp, -, rfl⟩ | ⟨-, e, rfl⟩ | ⟨-, e, rfl⟩ := exec_cases h
  all_goals exact ⟨rfl, hport⟩

/-- R153, R172: a running word completes, and the port is as it was. -/
theorem runCommand_running_port (cw : Word) (s : State) :
    ∃ t, runCommand cw s = .next t ∧ t.running = none ∧ t.port = s.port := by
  cases hd : decode cw with
  | error why => exact ⟨s.raiseIllegal cw why, by rw [runCommand, hd], rfl, rfl⟩
  | ok i =>
    obtain ⟨t, ht⟩ := exec_isNext i s
    exact ⟨t, (runCommand_of_decode hd s).trans ht, exec_running_port ht⟩

theorem statusPort_busy (s : State) : s.statusPort.getLsbD 0 = s.busy := by
  unfold State.statusPort State.statusWord
  rw [BitVec.getLsbD_ofNat]
  cases s.busy <;> simp <;> omega

/-- Settles O8: one move of the port each. -/
theorem portAcceptsWhenReady : Obligations.PortAcceptsWhenReady := by
  refine ⟨fun s cw rest => step_of_present, fun s cw held rest hreset hrun hp => ?_, fun s => ⟨rfl, ?_, ?_⟩,
    fun s rest => step_of_idle, fun s => step_of_no_input⟩
  · have hidle : s.passIdle = s := by rw [State.passIdle, hp]
    rw [step_of_running hreset hrun (by rw [hp]; exact nofun), hidle, ← hp]
    exact runCommand_running_port cw s
  · rw [statusPort_busy]
  · simp [State.busy, Option.isSome_iff_ne_none]

/-! ### Reads of the spaces (40_control.md R73, R75, 20_memory.md R43) -/

theorem exec_outrd (s : State) (idx : Nat) : exec (.outrd idx) s = complete 0x04 s
    (need (s.outValid = true ∧ idx < s.outLen.toNat) .bufIdx >>= fun _ => .ok (s, (s.entry .output idx).setWidth 64)) := rfl

theorem exec_tmrd (s : State) (idx : Nat) : exec (.tmrd idx) s = complete 0x06 s
    (need (idx < 4096) .tmemIdx >>= fun _ => .ok (s, (s.entry .table idx).setWidth 64)) := rfl

theorem entry_of_find {sp : Space} {a : Nat} {u : CodeUnit} (h : (s.space sp).find a = some u) : s.entry sp a = u := by
  rw [State.entry, h, Option.getD_some]

/-- R43: an entry not written since reset holds its draw. -/
theorem entry_of_find_none {sp : Space} {a : Nat} (h : (s.space sp).find a = none) :
    s.entry sp a = Config.unitDraw s.epoch sp a := by
  rw [State.entry, h, Option.getD_none]

/-- Settles O23: the checks of the two reads; and no command changes the number of the last reset, which fixes the draws. -/
theorem entryReads : Obligations.EntryReads := by
  refine ⟨fun s idx => ⟨fun hv hlen => ?_, fun h => ?_, fun h => ?_, fun h => ?_⟩, fun s sp a u => entry_of_find,
    fun i s t sp a h hs ht => ?_⟩
  · rw [exec_outrd, need_true ⟨hv, hlen⟩]; rfl
  · rw [exec_outrd, need_false fun ⟨hv, hlen⟩ => h.elim (fun hf => by rw [hv] at hf; cases hf) hlen.not_ge]; rfl
  · rw [exec_tmrd, need_true h]; rfl
  · rw [exec_tmrd, need_false h.not_gt]; rfl
  · obtain ⟨-, -, -, -, -, -, -, -, -, -, hepoch⟩ := stateWrittenOnlyByItsCommands i s t h
    rw [entry_of_find_none hs, entry_of_find_none ht, hepoch]

end Sys2Proof.Machine

/-! ### BVPERM (41_bitvector.md R90) -/

namespace Sys2Proof.Machine

variable {s : State} {rd rs1 : Reg}

theorem exec_bvperm_of_bv {x : Bits} (tb n : Nat) (h : s.readBr rs1 = some (.bv x)) :
    exec (.bvperm rd rs1 tb n) s = complete 0x19 s (need (1 ≤ n) .badTable >>= fun _ =>
      need (tb + n ≤ 4096) .tmemIdx >>= fun _ =>
      need (((s.entries .table tb n).all fun e => decide (1 ≤ e.toNat) && decide (e.toNat ≤ x.length)) = true) .badTable >>=
        fun _ => .ok (s.writeBr rd (.bv (permute (s.entries .table tb n) x)), 0)) := by
  change complete _ s (s.source rs1 >>= _) = _
  rw [source_eq_ok.2 h]
  rfl

/-- R90: the table check, entry by entry. -/
theorem all_entries_in_range {sp : Space} {a n len : Nat} :
    ((s.entries sp a n).all fun e => decide (1 ≤ e.toNat) && decide (e.toNat ≤ len)) = true ↔
      ∀ i, i < n → 1 ≤ (s.entry sp (a + i)).toNat ∧ (s.entry sp (a + i)).toNat ≤ len := by
  simp [State.entries]

theorem bitAt_permute_entries {sp : Space} {a n i : Nat} (x : Bits) (h : i < n) :
    bitAt (permute (s.entries sp a n) x) i = bitAt x ((s.entry sp (a + i)).toNat - 1) := by
  rw [bitAt_eq_getElem (by simpa [permute] using h)]
  simp [permute, State.entries]

/-- Settles O33: the three checks in order, and each output bit through its entry. -/
theorem bvpermFollowsTheTable : Obligations.BvpermFollowsTheTable := by
  intro s rd rs1 tb n x hx
  refine ⟨fun h => ?_, fun h1 h2 => ?_, fun h1 h2 => ⟨fun hbad => ?_, fun hgood => ?_⟩⟩
  · rw [exec_bvperm_of_bv tb n hx, need_false (by omega)]; rfl
  · rw [exec_bvperm_of_bv tb n hx, need_true h1, ok_bind, need_false h2.not_ge]; rfl
  · obtain ⟨i, hi, hout⟩ := hbad
    have hnot : ¬∀ i, i < n → 1 ≤ (s.entry .table (tb + i)).toNat ∧ (s.entry .table (tb + i)).toNat ≤ x.length :=
      fun hin => by have := hin i hi; omega
    rw [exec_bvperm_of_bv tb n hx, need_true h1, ok_bind, need_true h2, ok_bind,
      need_false (hnot ∘ all_entries_in_range.1)]; rfl
  · refine ⟨permute (s.entries .table tb n) x, ?_, by rw [permute, List.length_map, length_entries],
      fun i => bitAt_permute_entries x⟩
    rw [exec_bvperm_of_bv tb n hx, need_true h1, ok_bind, need_true h2, ok_bind,
      need_true (all_entries_in_range.2 hgood)]; rfl

/-! ### The codec (20_memory.md R46, R47) -/

theorem byteOfUnit_unitOfByte (b : Byte) : byteOfUnit (unitOfByte b) = b := by
  simp [byteOfUnit, unitOfByte]

/-- R47: pack undoes unpack on whole bytes. -/
theorem packUnits_unpackBits {x : Bits} (h : x.length % 8 = 0) : packUnits (unpackBits x) = x := by
  have hbytes : (unpackBits x).map byteOfUnit = bytesOfBits x := by
    rw [unpackBits, List.map_map]
    exact (List.map_congr_left fun b _ => byteOfUnit_unitOfByte b).trans (List.map_id _)
  rw [packUnits, hbytes, bitsOfBytes_bytesOfBits h]

theorem unpackBits_getElem? {x : Bits} {k : Nat} (h : k < x.length / 8) :
    (unpackBits x)[k]? = some ((byteOf x (k + 1)).setWidth 16) := by
  have hk : k < (bytesOfBits x).length := by rwa [bytesOfBits_length]
  rw [unpackBits, List.getElem?_map, List.getElem?_eq_getElem hk, bytesOfBits_getElem hk]
  rfl

/-- Settles O38. -/
theorem codecRoundTrip : Obligations.CodecRoundTrip := by
  refine ⟨fun x _ => ⟨length_unpackBits x, fun k h1 h2 => ?_⟩, fun us h => unpackBits_packUnits ?_, fun x => packUnits_unpackBits⟩
  · rw [unpackBits_getElem? (by omega), Nat.sub_add_cancel h1]
  · exact List.all_eq_true.2 fun u hu => decide_eq_true (h u hu)

/-! ### MXFROMBV and MXTOBV (42_bytematrix_gf.md R102, R103) -/

theorem exec_mxfrombv_of_bv {x : Bits} (rows cols : Nat) (h : s.readBr rs1 = some (.bv x)) :
    exec (.mxfrombv rd rs1 rows cols) s = complete 0x20 s
      (need ((1 ≤ rows ∧ rows ≤ 64) ∧ 1 ≤ cols ∧ cols ≤ 64) .length >>= fun _ =>
        need (x.length = 8 * rows * cols) .length >>= fun _ => .ok (s.writeBr rd (.mx (viewMatrix rows cols x)), 0)) := by
  change complete _ s (s.source rs1 >>= _) = _
  rw [source_eq_ok.2 h]
  rfl

/-- R102: the view has the vector's flat bits. -/
theorem flat_viewMatrix {rows cols : Nat} {x : Bits} (h : x.length = 8 * rows * cols) :
    flat (.mx (viewMatrix rows cols x)) = x := by
  rw [Nat.mul_assoc] at h
  have hbytes : (viewMatrix rows cols x).bytes = bytesOfBits x := by
    rw [viewMatrix, bytesOfBits, h, Nat.mul_div_cancel_left _ (by decide)]
  rw [flat, hbytes, bitsOfBytes_bytesOfBits (by rw [h, Nat.mul_mod_right])]

/-- Settles O39: the two checks of MXFROMBV, both LENGTH, and the view element by element. -/
theorem matrixViewsOfVectors : Obligations.MatrixViewsOfVectors := by
  refine fun s rd rs1 => ⟨fun rows cols x hx => ⟨fun hbad => ?_, fun hr1 hr2 hc1 hc2 hlen => ?_⟩, fun m hm => ?_⟩
  · rw [exec_mxfrombv_of_bv rows cols hx]
    by_cases hdim : (1 ≤ rows ∧ rows ≤ 64) ∧ 1 ≤ cols ∧ cols ≤ 64
    · have hlen : x.length ≠ 8 * rows * cols := by omega
      rw [need_true hdim, ok_bind, need_false hlen]; rfl
    · rw [need_false hdim]; rfl
  · refine ⟨viewMatrix rows cols x, ?_, rfl, rfl, by simp [viewMatrix], flat_viewMatrix hlen, fun r c => elem_viewMatrix x⟩
    rw [exec_mxfrombv_of_bv rows cols hx, need_true ⟨⟨hr1, hr2⟩, hc1, hc2⟩, ok_bind, need_true hlen]; rfl
  · change complete _ s (s.source rs1 >>= _) = _
    rw [source_eq_ok.2 hm]; rfl

end Sys2Proof.Machine

/-! ### The block modes unit by unit (44_modes.md R125 - R133) -/

namespace Sys2Proof.Machine

variable {s : State}

/-- R125: the fewest sentinel units that reach a multiple of the chunk size. -/
theorem padUnits_spec {nu : Nat} (hnu : 0 < nu) (u : List CodeUnit) :
    ∃ k, padUnits nu u = u ++ List.replicate k 0 ∧ k < nu ∧ (u.length + k) % nu = 0 := by
  refine ⟨(nu - u.length % nu) % nu, rfl, Nat.mod_lt _ hnu, ?_⟩
  simpa [padUnits] using length_padUnits_mod hnu u

/-- R126: exactly the trailing sentinel units go. -/
theorem stripUnits_spec (w : List CodeUnit) :
    ∃ k, w = stripUnits w ++ List.replicate k 0 ∧ (stripUnits w).getLast? ≠ some 0 := by
  induction w with
  | nil => exact ⟨0, rfl, nofun⟩
  | cons u us ih =>
    obtain ⟨k, hus, hlast⟩ := ih
    unfold stripUnits
    cases hs : stripUnits us with
    | cons v vs =>
      rw [hs] at hus hlast
      exact ⟨k, congrArg (u :: ·) hus, hlast⟩
    | nil =>
      rw [hs, List.nil_append] at hus
      by_cases hu : u = Config.pad
      · rw [if_pos hu, hus, hu]; exact ⟨k + 1, rfl, nofun⟩
      · rw [if_neg hu, hus]; exact ⟨k, rfl, fun h => hu (Option.some.inj h)⟩

theorem length_chunk {nu i : Nat} {u : List CodeUnit} (h : i < u.length / nu) :
    (slice u (i * nu) ((i + 1) * nu)).length = nu := by
  have hle : (i + 1) * nu ≤ u.length := (Nat.mul_le_mul_right nu h).trans (Nat.div_mul_le_self _ _)
  rw [Nat.succ_mul] at hle ⊢
  rw [slice_length]
  omega

theorem getMsbD_byteOfUnit (u : CodeUnit) {j : Nat} (h : j < 8) : (byteOfUnit u).getMsbD j = u.getLsbD (7 - j) := by
  have hj : 7 - j < 8 := by omega
  simp [byteOfUnit, BitVec.getMsbD, h, hj]

/-- R46: bit `j` of packed units is in unit `j / 8`, most significant first. -/
theorem bitAt_packUnits {us : List CodeUnit} {j : Nat} :
    bitAt (packUnits us) j = (us.getD (j / 8) 0).getLsbD (7 - j % 8) := by
  have hj := bitAt_bitsOfBytes (us.map byteOfUnit) (k := j / 8) (j := j % 8) (Nat.mod_lt j (by decide))
  rw [Nat.div_add_mod] at hj
  rw [packUnits, hj]
  have hmap : (us.map byteOfUnit).getD (j / 8) 0 = byteOfUnit (us.getD (j / 8) 0) := by
    simp only [List.getD_eq_getElem?_getD, List.getElem?_map]
    cases us[j / 8]? <;> rfl
  rw [hmap, getMsbD_byteOfUnit _ (Nat.mod_lt j (by decide))]

theorem chunks_spec (nu : Nat) (u : List CodeUnit) {i : Nat} (h : i < u.length / nu) :
    ∃ x, (chunks nu u)[i]? = some x ∧ x.length = 8 * nu ∧
      ∀ j, j < 8 * nu → bitAt x j = (u.getD (i * nu + j / 8) 0).getLsbD (7 - j % 8) := by
  refine ⟨packUnits (slice u (i * nu) ((i + 1) * nu)), ?_, ?_, fun j hj => ?_⟩
  · rw [chunks, List.getElem?_map, List.getElem?_range h]; rfl
  · rw [length_packUnits, length_chunk h]
  · have hk : j / 8 < (i + 1) * nu - i * nu := by rw [Nat.succ_mul]; omega
    rw [bitAt_packUnits, List.getD_eq_getElem?_getD, slice_getElem?, if_pos hk, ← List.getD_eq_getElem?_getD]

theorem completeMode_ok (opc : Byte) (s : State) (w : List CodeUnit) :
    ∃ t, completeMode opc s (.ok w) = .next t ∧ OutputsOnly s t w s.batchCount :=
  ⟨_, rfl, fun a => by simp [find_writeAll], rfl⟩

theorem completeMode_error (opc : Byte) (s : State) (e : Err) :
    ∃ t, completeMode opc s (.error e) = .next t ∧ ModeFails s t opc.toNat e.classCode e.detailCode :=
  ⟨_, rfl, ⟨rfl⟩⟩

/-- R130 - R133, R155: past its checks a block mode command outputs its chunk loop's result, or fails with MISMATCH. -/
theorem exec_blockMode {i j : Instr} {chained dec : Bool} {c : Cipher} (h : (i, j, chained, dec) ∈ blockCommands)
    (hc : s.modeCheck chained dec = .ok c) :
    ∃ t, exec j s = .next t ∧
      match blockSerial Config.ports c s.seed (chunks s.nu (s.modeInput dec)) chained dec with
      | .ok out => OutputsOnly s t (modeUnits dec out) s.batchCount
      | .error _ => ModeFails s t j.opcode.toNat 1 0x02 := by
  rw [(exec_blockCommand h s).2, blockUnits, hc, ok_bind]
  cases hout : blockSerial Config.ports c s.seed (chunks s.nu (s.modeInput dec)) chained dec with
  | ok out => exact completeMode_ok j.opcode s (modeUnits dec out)
  | error e =>
    obtain rfl := raises_blockSerial (q := (· = .mismatch)) rfl c _ _ chained dec e hout
    exact completeMode_error j.opcode s .mismatch

/-- Settles O53: the unit lists and chunk loops by their equations, and the commands by `exec_blockMode`. -/
theorem blockModeResults : Obligations.BlockModeResults := by
  refine ⟨fun nu u hnu => padUnits_spec hnu u, stripUnits_spec, fun nu u => ⟨length_chunks nu u, fun i => chunks_spec nu u⟩,
    fun f => ⟨rfl, fun x xs => ?_⟩, fun f chain => ⟨rfl, rfl, fun x xs => ⟨?_, ?_⟩⟩, fun s c => ⟨fun hc => ?_, fun hc => ?_,
    fun hc => ?_, fun hc => ?_⟩⟩
  · rw [eachChunk]
    cases f x with
    | ok y => exact bind_ok_eq_map ..
    | error e => rfl
  · rw [cbcEncChain, xorBits]
    cases f (List.zipWith xor x chain) with
    | ok y => exact bind_ok_eq_map ..
    | error e => rfl
  · rw [cbcDecChain]
    cases f x with
    | ok y => exact bind_ok_eq_map ..
    | error e => rfl
  · exact exec_blockMode (i := .ecbeMt) (j := .ecbe) (by simp [blockCommands]) hc
  · exact exec_blockMode (i := .ecbdMt) (j := .ecbd) (by simp [blockCommands]) hc
  · exact exec_blockMode (i := .cbceMt) (j := .cbce) (by simp [blockCommands]) hc
  · exact exec_blockMode (i := .cbcdMt) (j := .cbcd) (by simp [blockCommands]) hc

end Sys2Proof.Machine

/-! ### The command word (30_encoding.md R59 - R66)

A command's word passes the decoder's checks, and the row of its opcode reads every operand back (O2). The other way, each
row of the map builds a well-formed command of its own opcode whose fields are the word's (O3). -/

namespace Sys2Proof

/-! Each operand reading of an assembled word is the reading of one field (R61, R62). -/

section
variable (o : Byte) (f : Fields)

@[simp] theorem rdOf_assemble : rdOf (assemble o f) = regOf f.rd := congrArg regOf (rdField_assemble o f)
@[simp] theorem rs1Of_assemble : rs1Of (assemble o f) = regOf f.rs1 := congrArg regOf (rs1Field_assemble o f)
@[simp] theorem rs2Of_assemble : rs2Of (assemble o f) = regOf f.rs2 := congrArg regOf (rs2Field_assemble o f)
@[simp] theorem immaU_assemble : immaU (assemble o f) = f.imma.toNat := congrArg _ (immaField_assemble o f)
@[simp] theorem immbU_assemble : immbU (assemble o f) = f.immb.toNat := congrArg _ (immbField_assemble o f)
@[simp] theorem immaS_assemble : immaS (assemble o f) = f.imma.toInt := congrArg _ (immaField_assemble o f)
@[simp] theorem immbS_assemble : immbS (assemble o f) = f.immb.toInt := congrArg _ (immbField_assemble o f)
@[simp] theorem immaByte_assemble : immaByte (assemble o f) = f.imma.setWidth 8 := congrArg _ (immaField_assemble o f)
@[simp] theorem immbByte_assemble : immbByte (assemble o f) = f.immb.setWidth 8 := congrArg _ (immbField_assemble o f)
@[simp] theorem immbUnit_assemble : immbUnit (assemble o f) = f.immb.setWidth 16 := congrArg _ (immbField_assemble o f)

end

open Laws.Encoding in
/-- R60, R61: every command's word passes the decoder's checks. -/
theorem encode_passes_checks (i : Instr) : Statement i := by
  cases i
  exacts [nop, csrr _, csrw _ _, inwr _ _, outrd _, tmwr _ _, tmrd _, seedset _, kset _ _ _, kexp _ _, poolInit, poolRecycle,
    bzero _ _, bmov _ _, bxor _ _ _, bshl _ _ _ _, bgetb _ _, bsetb _ _ _ _, bsize _, bvslice _ _ _ _, bvcat _ _ _,
    bvperm _ _ _ _, bvcmp _ _, bvsum _, bvfromu _ _ _, bvtou _ _, mxfrombv _ _ _ _, mxtobv _ _, mxsub _ _ _ _, mxrotl _ _,
    mxrotr _ _, mxmul _ _ _, gfxtime _, gfmul _ _, fen _ _, fde _ _, spen _ _, spde _ _, ecbe, ecbd, cbce, cbcd, cfbe, cfbd,
    ofbe, ofbd, ecbeMt, ecbdMt, cbceMt, cbcdMt]

/-- The row of a well-formed command's opcode reads its operands back from its word. -/
theorem build_encode {i : Instr} (h : i.wellFormed = true) {row : OpRow} (hrow : rowOf i.opcode = some row) :
    row.build (encode i) = i := by
  cases i <;> cases hrow <;>
    simp_all [Instr.wellFormed, encode, Instr.fields, bankBit_assemble, loopBit_assemble, immU_toNat, immS_toInt,
      FitsSigned20]

/-- Settles O2: the word passes the checks, and the row's reading gives the operands back. -/
theorem decodeOfEncode : Obligations.DecodeOfEncode := by
  intro i hwf
  obtain ⟨row, hrow, hreserved, hregs⟩ := encode_passes_checks i
  have hopc : opcField (encode i) = i.opcode := opcField_assemble _ _
  exact decode_eq_ok.2 ⟨row, by rw [hopc, hrow], hreserved, hregs, build_encode hwf hrow⟩

/-! What a row of the map builds from a word, and which of the word's fields the command has. -/

theorem build_opcode {row : OpRow} (hrow : row ∈ opcodeMap) (cw : Word) : (row.build cw).opcode = row.opc := by
  have h : ∀ row ∈ opcodeMap, (row.build cw).opcode = row.opc := by
    simp [opcodeMap, controlRows, bitVectorRows, matrixRows, modeRows, Instr.opcode]
  exact h row hrow

theorem build_wellFormed {row : OpRow} (hrow : row ∈ opcodeMap) (cw : Word) : (row.build cw).wellFormed = true := by
  have h : ∀ row ∈ opcodeMap, (row.build cw).wellFormed = true := by
    simp [opcodeMap, controlRows, bitVectorRows, matrixRows, modeRows, Instr.wellFormed, immaU, immbU, immaS, immbS,
      fitsUnsigned_toNat, fitsSigned_toInt, -Nat.reducePow, -Int.reducePow]
  exact h row hrow

/-- The fields of a word below OPC (R59). -/
def wordFields (cw : Word) : Fields where
  rd   := rdField cw
  rs1  := rs1Field cw
  rs2  := rs2Field cw
  fl   := flField cw
  imma := immaField cw
  immb := immbField cw

theorem wordFields_assemble (o : Byte) (f : Fields) : wordFields (assemble o f) = f := by
  simp only [wordFields, rdField_assemble, rs1Field_assemble, rs2Field_assemble, flField_assemble, immaField_assemble,
    immbField_assemble]

theorem assemble_inj {o o' : Byte} {f f' : Fields} : assemble o f = assemble o' f' ↔ o = o' ∧ f = f' := by
  refine ⟨fun h => ⟨?_, ?_⟩, fun ⟨ho, hf⟩ => by rw [ho, hf]⟩
  · rw [← opcField_assemble o f, h, opcField_assemble]
  · rw [← wordFields_assemble o f, h, wordFields_assemble]

/-- What the operands of a format's commands keep of a word's fields (R60): registers their low three bits, FL its BANK or
LOOP bit, an immediate the width it is read at; a field the format does not use is zero. -/
def Format.keptFields (cw : Word) : Format → Fields
  | .n    => {}
  | .i1   => { imma := immaField cw }
  | .i2   => { imma := immaField cw, immb := immbField cw }
  | .i2h  => { imma := immaField cw, immb := (immbUnit cw).setWidth 20 }
  | .b8   => { imma := (immaByte cw).setWidth 20 }
  | .b88  => { imma := (immaByte cw).setWidth 20, immb := (immbByte cw).setWidth 20 }
  | .s    => { rs1 := regField (rs1Of cw) }
  | .ss   => { rs1 := regField (rs1Of cw), rs2 := regField (rs2Of cw) }
  | .si   => { rs1 := regField (rs1Of cw), imma := immaField cw }
  | .k    => { rs1 := regField (rs1Of cw), fl := bankFl (bankOf (bankBit cw)), imma := immaField cw }
  | .kx   => { rs1 := regField (rs1Of cw), fl := bankFl (bankOf (bankBit cw)) }
  | .di   => { rd := regField (rdOf cw), imma := immaField cw }
  | .dii  => { rd := regField (rdOf cw), imma := immaField cw, immb := immbField cw }
  | .ds   => { rd := regField (rdOf cw), rs1 := regField (rs1Of cw) }
  | .dss  => { rd := regField (rdOf cw), rs1 := regField (rs1Of cw), rs2 := regField (rs2Of cw) }
  | .dsil => { rd := regField (rdOf cw), rs1 := regField (rs1Of cw), fl := loopFl (loopBit cw), imma := immaField cw }
  | .dsii => { rd := regField (rdOf cw), rs1 := regField (rs1Of cw), imma := immaField cw, immb := immbField cw }
  | .dsib =>
    { rd := regField (rdOf cw), rs1 := regField (rs1Of cw), imma := immaField cw, immb := (immbByte cw).setWidth 20 }

theorem build_fields {row : OpRow} (hrow : row ∈ opcodeMap) (cw : Word) :
    (row.build cw).fields = row.format.keptFields cw := by
  have h : ∀ row ∈ opcodeMap, (row.build cw).fields = row.format.keptFields cw := by
    simp [opcodeMap, controlRows, bitVectorRows, matrixRows, modeRows, Instr.fields, Format.keptFields, immaU, immbU, immaS,
      immbS, immU_of_toNat, immS_of_toInt]
  exact h row hrow

theorem and_fullMask4 {x : BitVec 4} : x &&& 0xF#4 = 0#4 ↔ x = 0#4 := by
  rw [show 0xF#4 = BitVec.allOnes 4 from rfl, BitVec.and_allOnes]

theorem and_fullMask20 {x : BitVec 20} : x &&& 0xFFFFF#20 = 0#20 ↔ x = 0#20 := by
  rw [show 0xFFFFF#20 = BitVec.allOnes 20 from rfl, BitVec.and_allOnes]

/-! Within the checks, what an operand keeps of a field is the field. -/

section
variable {cw : Word}

theorem regField_rdOf (h : (rdField cw).toNat < 8) : regField (rdOf cw) = rdField cw := regField_regOf h
theorem regField_rs1Of (h : (rs1Field cw).toNat < 8) : regField (rs1Of cw) = rs1Field cw := regField_regOf h
theorem regField_rs2Of (h : (rs2Field cw).toNat < 8) : regField (rs2Of cw) = rs2Field cw := regField_regOf h

theorem bankFl_bankBit (h : flField cw &&& 0xD#4 = 0#4) : bankFl (bankOf (bankBit cw)) = flField cw := by
  rw [bankBit_eq, bankFl_bankOf h]

theorem loopFl_loopBit (h : flField cw &&& 0xE#4 = 0#4) : loopFl (loopBit cw) = flField cw := by
  rw [loopBit_eq, loopFl_getLsbD h]

theorem immaByte_setWidth (h : immaField cw &&& 0xFFF00#20 = 0#20) : (immaByte cw).setWidth 20 = immaField cw :=
  byte_of_clear h
theorem immbByte_setWidth (h : immbField cw &&& 0xFFF00#20 = 0#20) : (immbByte cw).setWidth 20 = immbField cw :=
  byte_of_clear h
theorem immbUnit_setWidth (h : immbField cw &&& 0xF0000#20 = 0#20) : (immbUnit cw).setWidth 20 = immbField cw :=
  unit_of_clear h

end

theorem regFieldsLegal_iff {f : Format} {cw : Word} : regFieldsLegal f cw = true ↔
    (f.usesRd = true → (rdField cw).toNat < 8) ∧ (f.usesRs1 = true → (rs1Field cw).toNat < 8) ∧
      (f.usesRs2 = true → (rs2Field cw).toNat < 8) := by
  simp only [regFieldsLegal, Bool.and_eq_true, Bool.or_eq_true, Bool.not_eq_true', decide_eq_true_eq, and_assoc,
    ← Bool.not_eq_true, ← imp_iff_not_or]

/-- A word that passes the checks of R64 has nothing in its fields that its format does not keep. -/
theorem keptFields_of_checks {f : Format} {cw : Word} (hreserved : cw &&& f.reservedMask = 0#64)
    (hregs : regFieldsLegal f cw = true) : f.keptFields cw = wordFields cw := by
  rw [reserved_clear_iff] at hreserved
  rw [regFieldsLegal_iff] at hregs
  obtain ⟨hrd, hrs1, hrs2, hfl, himma, himmb⟩ := hreserved
  obtain ⟨hrd8, hrs18, hrs28⟩ := hregs
  cases f <;>
    simp_all [Format.reservedFields, Format.usesRd, Format.usesRs1, Format.usesRs2, Format.keptFields, wordFields,
      and_fullMask4, and_fullMask20, regField_rdOf, regField_rs1Of, regField_rs2Of, bankFl_bankBit, loopFl_loopBit,
      immaByte_setWidth, immbByte_setWidth, immbUnit_setWidth]

/-- Settles O3: the row that built the command has its opcode, and the command's fields are all the word's. -/
theorem encodeOfDecode : Obligations.EncodeOfDecode := by
  intro cw i h
  obtain ⟨row, hrow, hreserved, hregs, rfl⟩ := decode_eq_ok.1 h
  obtain ⟨hmem, hopc⟩ := rowOf_mem hrow
  refine ⟨build_wellFormed hmem cw, ?_⟩
  rw [encode, build_opcode hmem, hopc, build_fields hmem, keptFields_of_checks hreserved hregs]
  exact assemble_fields cw

/-! The mask column covers OPC, the reserved bits of R60 and the top bit of each register field (R63). -/

/-- The field bits that R64 checks to be zero. -/
def Format.checkedFields (f : Format) : Fields :=
  { f.reservedFields with
    rd := f.reservedFields.rd ||| if f.usesRd then 8#4 else 0#4
    rs1 := f.reservedFields.rs1 ||| if f.usesRs1 then 8#4 else 0#4
    rs2 := f.reservedFields.rs2 ||| if f.usesRs2 then 8#4 else 0#4 }

/-- A register field avoids the reserved bits and bit 3 exactly when it passes both checks. -/
theorem and_or_regBit_eq_zero (x r : BitVec 4) (used : Bool) :
    x &&& (r ||| if used then 8#4 else 0#4) = 0 ↔ x &&& r = 0 ∧ (used = true → x.toNat < 8) := by
  decide +revert

/-- The printed row of an opcode is made from the opcode and its format. -/
theorem maskTable_row {m : Machine.MaskRow} (hm : m ∈ Machine.maskTable) :
    ∃ row, rowOf m.opc = some row ∧ assemble 0xFF#8 row.format.checkedFields = m.mask ∧ assemble m.opc {} = m.mtch := by
  have hmasks : ∀ m ∈ Machine.maskTable,
      (rowOf m.opc).map (fun row => assemble 0xFF#8 row.format.checkedFields) = some m.mask ∧
        assemble m.opc {} = m.mtch := by decide
  obtain ⟨hmask, hmtch⟩ := hmasks m hm
  obtain ⟨row, hrow, hmask⟩ := Option.map_eq_some_iff.1 hmask
  exact ⟨row, hrow, hmask, hmtch⟩

/-- R64: a word under the mask of a format is the bare opcode exactly when it has that opcode and passes the two checks. -/
theorem and_mask_eq_match_iff {cw : Word} {o : Byte} {f : Format} :
    cw &&& assemble 0xFF#8 f.checkedFields = assemble o {} ↔
      opcField cw = o ∧ cw &&& f.reservedMask = 0#64 ∧ regFieldsLegal f cw = true := by
  have hopc : opcField cw &&& 0xFF#8 = opcField cw := BitVec.and_allOnes
  conv_lhs => rw [← assemble_fields cw, assemble_and, assemble_inj, hopc]
  rw [reserved_clear_iff, regFieldsLegal_iff]
  simp only [Format.checkedFields, Fields.mk.injEq, and_or_regBit_eq_zero]
  tauto

/-- Which words decode to a command of a given opcode. -/
theorem exists_decode_iff {cw : Word} {o : Byte} {row : OpRow} (hrow : rowOf o = some row) :
    (∃ i, decode cw = .ok i ∧ i.opcode = o) ↔
      opcField cw = o ∧ cw &&& row.format.reservedMask = 0#64 ∧ regFieldsLegal row.format cw = true := by
  constructor
  · rintro ⟨i, hi, rfl⟩
    obtain ⟨row', hrow', hreserved, hregs, rfl⟩ := decode_eq_ok.1 hi
    obtain ⟨hmem, hopc⟩ := rowOf_mem hrow'
    rw [build_opcode hmem, hopc] at hrow ⊢
    obtain rfl := Option.some.inj (hrow'.symm.trans hrow)
    exact ⟨rfl, hreserved, hregs⟩
  · rintro ⟨rfl, hreserved, hregs⟩
    obtain ⟨hmem, hopc⟩ := rowOf_mem hrow
    exact ⟨row.build cw, decode_eq_ok.2 ⟨row, hrow, hreserved, hregs, rfl⟩, (build_opcode hmem cw).trans hopc⟩

/-- Settles O4: a printed row tests for the opcode and the two checks, and the column of opcodes is the map's. -/
theorem maskAndMatchDecide : Obligations.MaskAndMatchDecide := by
  refine ⟨fun m hm cw => ?_, fun i => ?_⟩
  · obtain ⟨row, hrow, hmask, hmtch⟩ := maskTable_row hm
    rw [exists_decode_iff hrow, ← hmask, ← hmtch, and_mask_eq_match_iff]
  · obtain ⟨row, hrow, hopc⟩ := rowOf_opcode i
    have hcolumn : opcodeMap.map OpRow.opc = Machine.maskTable.map Machine.MaskRow.opc := rfl
    have hmem : i.opcode ∈ opcodeMap.map OpRow.opc := List.mem_map.2 ⟨row, (rowOf_mem hrow).1, hopc⟩
    rw [hcolumn] at hmem
    exact List.mem_map.1 hmem

/-! Each refusal of R64. -/

theorem decode_eq_opcode_iff {cw : Word} : decode cw = .error .opcode ↔ rowOf (opcField cw) = none := by
  unfold decode
  cases rowOf (opcField cw) with
  | none => simp
  | some row => dsimp only; split_ifs <;> simp

theorem decode_of_reserved {cw : Word} {row : OpRow} (hrow : rowOf (opcField cw) = some row)
    (h : cw &&& row.format.reservedMask ≠ 0#64) : decode cw = .error .reserved := by
  rw [decode, hrow]
  exact if_pos h

theorem decode_of_regIdx {cw : Word} {row : OpRow} (hrow : rowOf (opcField cw) = some row)
    (hreserved : cw &&& row.format.reservedMask = 0#64) (h : regFieldsLegal row.format cw ≠ true) :
    decode cw = .error .regIdx := by
  rw [decode, hrow]
  exact (if_neg (not_not.2 hreserved)).trans (if_neg h)

/-- R65: the opcodes that R63 does not list. -/
theorem rowOf_eq_none_iff (o : Byte) : rowOf o = none ↔
    (0x0C ≤ o.toNat ∧ o.toNat ≤ 0x0F) ∨ (0x1E ≤ o.toNat ∧ o.toNat ≤ 0x1F) ∨ (0x28 ≤ o.toNat ∧ o.toNat ≤ 0x2F) ∨
      (0x34 ≤ o.toNat ∧ o.toNat ≤ 0x3F) ∨ 0x4C ≤ o.toNat := by
  rw [← Option.isNone_iff_eq_none]
  decide +revert

/-- Settles O5: the three checks one by one. -/
theorem decodeChecksInOrder : Obligations.DecodeChecksInOrder := by
  refine fun cw => ⟨decode_eq_opcode_iff.trans (rowOf_eq_none_iff _), fun row hrow =>
    ⟨decode_of_reserved hrow, fun hreserved => ⟨fun hbad => decode_of_regIdx hrow hreserved fun hregs => ?_, fun hregs =>
      (exists_decode_iff hrow).2 ⟨rfl, hreserved, regFieldsLegal_iff.2 hregs⟩⟩⟩⟩
  obtain ⟨hrd, hrs1, hrs2⟩ := regFieldsLegal_iff.1 hregs
  obtain ⟨hused, hge⟩ | ⟨hused, hge⟩ | ⟨hused, hge⟩ := hbad
  · exact hge.not_gt (hrd hused)
  · exact hge.not_gt (hrs1 hused)
  · exact hge.not_gt (hrs2 hused)

/-- Settles O1, by running the decoder on each word. -/
theorem specWordsDecode : Obligations.SpecWordsDecode := by
  unfold Obligations.SpecWordsDecode
  decide

/-- Settles O7: the step runs the word, which the decoder refuses, and each reason has its DETAIL. -/
theorem stepRecordsIllegalWord : Obligations.StepRecordsIllegalWord := by
  intro s cw why hreset hrun hport hd
  rw [Machine.step_of_running hreset hrun hport, Machine.runCommand, hd, Machine.passIdle_port]
  cases why <;> rfl

end Sys2Proof

/-! ### NOP, the pool, CSRR, INWR, TMWR and SEEDSET (40_control.md R69, R70, R72, R74, R76, 45_executor.md R140, R141) -/

namespace Sys2Proof.Machine

variable {s : State}

theorem exec_poolRecycle (s : State) : exec .poolRecycle s =
    succeedsWith (if s.poolState ≠ .absent then s.writePool .shutdown else s) 0 := rfl

/-- Settles O19: POOL_RECYCLE asks whether the pool exists, the other two ask nothing. -/
theorem nopAndPoolCommands : Obligations.NopAndPoolCommands := by
  refine fun s => ⟨rfl, rfl, fun habsent => ?_, fun hexists => ?_⟩
  · rw [exec_poolRecycle, if_neg (not_not.2 habsent)]
  · rw [exec_poolRecycle, if_pos hexists, State.writePool]

/-- R70: CSRR answers the register of its number. -/
theorem exec_csrr_number (s : State) (c : Csr) : exec (.csrr c.number) s = succeedsWith s (s.readCsr c) := by
  simp only [exec, execCsrr, ofNumber_number]
  rfl

theorem exec_csrr_reserved {n : Nat} (s : State) (h : Csr.ofNumber n = none) :
    exec (.csrr n) s = failsWith s 0x01 1 0x0C := by
  simp only [exec, execCsrr, h]
  rfl

/-- R20: the STATUS word flag by flag, with BUSY = 0. -/
theorem readCsr_status (s : State) : s.readCsr .status =
    (if s.err then 2 else 0) + (if s.sticky then 4 else 0) + (if s.outValid then 8 else 0) +
      (if s.seedValid then 16 else 0) := by
  simp only [State.readCsr, State.statusWord]
  cases s.err <;> cases s.sticky <;> cases s.outValid <;> cases s.seedValid <;> rfl

theorem readCsr_cipherSel (s : State) : s.readCsr .cipherSel =
    match s.cipherSel with | .noCipher => 0 | .feistel => 1 | .sp => 2 | .external => 3 | .identity => 4 := by
  simp only [State.readCsr]
  cases s.cipherSel <;> rfl

theorem readCsr_poolState (s : State) : s.readCsr .poolState =
    match s.poolState with | .absent => 0 | .ready => 1 | .shutdown => 2 := by
  simp only [State.readCsr]
  cases s.poolState <;> rfl

/-- Settles O20: each number of the map is its register's, and no other number is in the map. -/
theorem csrrReadsEveryRegister : Obligations.CsrrReadsEveryRegister := by
  intro s
  have read := exec_csrr_number s
  exact ⟨read .id, (read .status).trans (congrArg _ (readCsr_status s)), read .errcode, read .blockBits,
    (read .cipherSel).trans (congrArg _ (readCsr_cipherSel s)), read .frounds, read .sprounds, read .sprows, read .inLen,
    read .outLen, (read .poolState).trans (congrArg _ (readCsr_poolState s)), read .timeoutMs, read .batchCount,
    read .workers, read .batchMax, read .maxBlocks, read .unitBits, read .bufUnits, read .tmemSize, read .maxBvBits,
    read .nbr, read .kfSize, read .ksSize,
    fun c h => exec_csrr_reserved s (ofNumber_eq_none h)⟩

theorem exec_inwr (s : State) (idx : Nat) (u : CodeUnit) : exec (.inwr idx u) s = complete 0x03 s
    (need (idx < 8192) .bufIdx >>= fun _ => .ok (s.writeIn idx u, 0)) := rfl

theorem exec_tmwr (s : State) (idx : Nat) (u : CodeUnit) : exec (.tmwr idx u) s = complete 0x05 s
    (need (idx < 4096) .tmemIdx >>= fun _ => .ok (s.writeTable idx u, 0)) := rfl

/-- Settles O22: the index check of the two writes, and the space after one write. -/
theorem entryWrites : Obligations.EntryWrites := by
  refine fun s idx u => ⟨fun h => ⟨s.inBuf.write idx u, ?_, fun a => find_write _ idx a u⟩, fun h => ?_,
    fun h => ⟨s.tmem.write idx u, ?_, fun a => find_write _ idx a u⟩, fun h => ?_⟩
  · rw [exec_inwr, need_true h]; rfl
  · rw [exec_inwr, need_false h.not_gt]; rfl
  · rw [exec_tmwr, need_true h]; rfl
  · rw [exec_tmwr, need_false h.not_gt]; rfl

theorem exec_seedset_of_source {r : Reg} {v : BlockVal} (h : s.readBr r = some v) :
    exec (.seedset r) s = succeedsWith (s.writeSeed (repeatTo s.blockBits.toNat (flat v))) 0 := by
  change complete _ s (s.source r >>= _) = _
  rw [source_eq_ok.2 h]
  rfl

@[simp] theorem repeatTo_length (n : Nat) (x : Bits) : (repeatTo n x).length = n := buildBits_length n _

theorem bitAt_repeatTo {n i : Nat} (x : Bits) (h : i < n) : bitAt (repeatTo n x) i = bitAt x (i % x.length) :=
  bitAt_buildBits _ h

/-- Settles O24: the seed is the source's bits repeated, and each of its bits is known. -/
theorem seedsetRepeatsTheSource : Obligations.SeedsetRepeatsTheSource := by
  intro s rs1 v hv
  exact ⟨_, exec_seedset_of_source hv, repeatTo_length _ _, fun i hi => bitAt_repeatTo (flat v) hi⟩

end Sys2Proof.Machine

/-! ### The bits the bit-vector commands work on (00_scope.md R10, R11, 41_bitvector.md R84 - R93) -/

namespace Sys2Proof.Machine

/-- A legal block value's flat bits are a legal vector. -/
theorem legal_bv_flat {v : BlockVal} (h : v.legal = true) : (BlockVal.bv (flat v)).legal = true := by
  cases v with
  | bv x => exact h
  | mx m => exact legal_bitsOfBytes h

theorem blockLen_le {v : BlockVal} (h : v.legal = true) : blockLen v ≤ 65536 := (legal_bv.1 (legal_bv_flat h)).2

@[simp] theorem length_shiftLeft (loop : Bool) (n : Nat) (x : Bits) : (shiftLeft loop n x).length = x.length :=
  buildBits_length ..

theorem bitAt_shiftLeft (loop : Bool) (n : Nat) {x : Bits} {i : Nat} (h : i < x.length) :
    bitAt (shiftLeft loop n x) i =
      if loop = true then bitAt x ((i + n) % x.length) else if i + n < x.length then bitAt x (i + n) else false :=
  bitAt_buildBits _ h

theorem bitAt_slice_to_end (x : Bits) (a i : Nat) : bitAt (slice x a x.length) i = bitAt x (a + i) := by
  by_cases h : i < x.length - a
  · exact bitAt_slice h
  · rw [bitAt_of_le (by rw [slice_length]; omega), bitAt_of_le (by omega)]

/-- R86: the bits of a string with one byte replaced. -/
theorem bitAt_replaceByte {x : Bits} {p : Nat} (h1 : 1 ≤ p) (h2 : p ≤ x.length / 8) (b : Byte) (i : Nat) :
    bitAt (replaceByte x p b) i =
      if 8 * (p - 1) ≤ i ∧ i < 8 * p then b.getMsbD (i - 8 * (p - 1)) else bitAt x i := by
  have hbefore : (slice x 0 (8 * (p - 1))).length = 8 * (p - 1) := by rw [slice_length]; omega
  rw [replaceByte, bitAt_append, bitAt_append, List.length_append, hbefore, bitsOfByte_length]
  by_cases hlow : i < 8 * (p - 1)
  · rw [if_pos (by omega), if_pos hlow, if_neg (by omega), bitAt_slice (by omega), Nat.zero_add]
  · by_cases hin : i < 8 * p
    · rw [if_pos (by omega), if_neg hlow, if_pos (by omega), bitAt_bitsOfByte (by omega)]
    · rw [if_neg (by omega), if_neg (by omega), bitAt_slice_to_end, show 8 * p + (i - (8 * (p - 1) + 8)) = i by omega]

theorem value_inj {x y : Bits} (hv : value x = value y) (hl : x.length = y.length) : x = y :=
  bits_ext hl fun i hi => by rw [← value_testBit x i hi, ← value_testBit y i (hl ▸ hi), hv, hl]

/-- R10: the value, bit by bit from the first. -/
theorem foldl_eq_value (x : Bits) : ∀ n : Nat, x.foldl (fun n b => 2 * n + b.toNat) n = n * 2 ^ x.length + value x := by
  induction x with
  | nil => intro n; simp [value]
  | cons b xs ih => intro n; rw [List.foldl_cons, ih, value, List.length_cons, Nat.pow_succ]; ring

/-- R92: `x` comes after `y`, by value and then by length. -/
def Above (x y : Bits) : Prop := value y < value x ∨ (value x = value y ∧ y.length < x.length)

theorem Above.asymm {x y : Bits} (h : Above x y) : ¬Above y x := by
  unfold Above at *
  omega

theorem Above.ne {x y : Bits} (h : Above x y) : x ≠ y := by
  rintro rfl
  exact h.asymm h

theorem above_trichotomy (x y : Bits) : Above x y ∨ x = y ∨ Above y x := by
  by_cases hv : value x = value y
  · by_cases hl : x.length = y.length
    · exact .inr (.inl (value_inj hv hl))
    · unfold Above
      omega
  · unfold Above
    omega

theorem compareBits_of_above {x y : Bits} (h : Above x y) : compareBits x y = 1 := if_pos h

@[simp] theorem compareBits_self (x : Bits) : compareBits x x = 0 := by simp [compareBits]

theorem compareBits_of_below {x y : Bits} (h : Above y x) : compareBits x y = 0xFFFFFFFFFFFFFFFF := by
  have hne : ¬(value x = value y ∧ x.length = y.length) := fun ⟨hv, hl⟩ => h.ne (value_inj hv hl).symm
  exact (if_neg h.asymm).trans (if_neg hne)

/-- R90: the bits of a permuted string. -/
theorem bitAt_permute {t : List CodeUnit} {i : Nat} (x : Bits) (h : i < t.length) :
    bitAt (permute t x) i = bitAt x ((t.getD i 0).toNat - 1) := by
  rw [bitAt_eq_getElem (by simpa [permute] using h)]
  simp [permute, h]

/-- A table undoes another where each of its entries names the position the other takes back. -/
theorem permute_permute {t u : List CodeUnit} {x : Bits} (hlen : t.length = x.length)
    (h : ∀ i, i < t.length → (t.getD i 0).toNat - 1 < u.length ∧ (u.getD ((t.getD i 0).toNat - 1) 0).toNat - 1 = i) :
    permute t (permute u x) = x := by
  refine bits_ext (by rw [permute, List.length_map, hlen]) fun i hi => ?_
  rw [permute, List.length_map] at hi
  obtain ⟨hin, hback⟩ := h i hi
  rw [bitAt_permute _ hi, bitAt_permute _ hin, hback]

/-- Settles O34: each of the 64 entries of one table names the position at which the other holds its index. -/
theorem ipTablesAreInverse : Obligations.IpTablesAreInverse := fun _ h =>
  ⟨permute_permute h.symm (by decide), permute_permute h.symm (by decide)⟩

/-! ### The sources and checks of a command, in order (60_exceptions.md R153, R155) -/

section
variable {s : State} {opc : Byte} {r q : Reg}

theorem complete_source {v : BlockVal} {f : BlockVal → Effect} (h : s.readBr r = some v) :
    complete opc s (s.source r >>= f) = complete opc s (f v) := by
  rw [source_eq_ok.2 h, ok_bind]

theorem complete_sources {a b : BlockVal} {f : BlockVal → BlockVal → Effect} (ha : s.readBr r = some a)
    (hb : s.readBr q = some b) :
    complete opc s (s.source r >>= fun a => s.source q >>= f a) = complete opc s (f a b) :=
  (complete_source ha).trans (complete_source hb)

theorem complete_need {p : Prop} [Decidable p] {e : Err} {f : Unit → Effect} (h : p) :
    complete opc s (need p e >>= f) = complete opc s (f ()) := by
  rw [need_true h, ok_bind]

theorem complete_need_not {p : Prop} [Decidable p] {e : Err} {f : Unit → Effect} (h : ¬p) :
    complete opc s (need p e >>= f) = failsWith s opc.toNat e.classCode e.detailCode := by
  rw [need_false h, error_bind, complete_error]

/-- A command that needs a vector, on a matrix. -/
theorem complete_asBv_of_mx {a : BlockVal} {f : Bits → Effect} (ha : s.readBr r = some a) (h : ∃ m, a = .mx m) :
    complete opc s (s.source r >>= fun v => asBv v >>= f) = failsWith s opc.toNat 1 0x08 := by
  obtain ⟨m, rfl⟩ := h
  exact complete_source ha

/-- A command that needs a matrix, on a vector. -/
theorem complete_asMx_of_bv {a : BlockVal} {f : ByteMatrix → Effect} (ha : s.readBr r = some a) (h : ∃ x, a = .bv x) :
    complete opc s (s.source r >>= fun v => asMx v >>= f) = failsWith s opc.toNat 1 0x08 := by
  obtain ⟨x, rfl⟩ := h
  exact complete_source ha

/-- A command that needs two vectors, with a matrix among its sources. -/
theorem complete_asBvs_of_mx {a b : BlockVal} {f : Bits → Bits → Effect} (ha : s.readBr r = some a)
    (hb : s.readBr q = some b) (h : (∃ m, a = .mx m) ∨ ∃ m, b = .mx m) :
    complete opc s (s.source r >>= fun v => s.source q >>= fun w => asBv v >>= fun x => asBv w >>= f x) =
      failsWith s opc.toNat 1 0x08 := by
  rw [complete_sources ha hb]
  obtain ⟨m, rfl⟩ | ⟨m, rfl⟩ := h
  · rfl
  · cases a <;> rfl

/-- A command that needs two matrices, with a vector among its sources. -/
theorem complete_asMxs_of_bv {a b : BlockVal} {f : ByteMatrix → ByteMatrix → Effect} (ha : s.readBr r = some a)
    (hb : s.readBr q = some b) (h : (∃ x, a = .bv x) ∨ ∃ x, b = .bv x) :
    complete opc s (s.source r >>= fun v => s.source q >>= fun w => asMx v >>= fun m => asMx w >>= f m) =
      failsWith s opc.toNat 1 0x08 := by
  rw [complete_sources ha hb]
  obtain ⟨x, rfl⟩ | ⟨x, rfl⟩ := h
  · rfl
  · cases a <;> rfl

end

/-- Settles O31: every command here checks the kinds of its sources before anything else. -/
theorem wrongKindRefused : Obligations.WrongKindRefused := fun _ _ _ _ _ _ ha hb =>
  ⟨fun hm => ⟨fun _ _ => complete_asBv_of_mx ha hm, fun _ _ => complete_asBv_of_mx ha hm, complete_asBv_of_mx ha hm,
      fun _ _ => complete_asBv_of_mx ha hm⟩,
    fun hm => ⟨complete_asBvs_of_mx ha hb hm, complete_asBvs_of_mx ha hb hm⟩,
    fun hx => ⟨complete_asMx_of_bv ha hx, fun _ _ => complete_asMx_of_bv ha hx, complete_asMx_of_bv ha hx,
      complete_asMx_of_bv ha hx⟩,
    fun hx => complete_asMxs_of_bv ha hb hx⟩

/-! ### The bit-vector commands past their sources (41_bitvector.md R81 - R95) -/

section
variable {s : State} {rd rs1 rs2 : Reg} {a b : BlockVal} {x y : Bits}

theorem exec_bzero (s : State) (rd : Reg) (len : Nat) : exec (.bzero rd len) s = complete 0x10 s
    (need (1 ≤ len ∧ len ≤ 65536) .length >>= fun _ => .ok (s.writeBr rd (.bv (zeros len)), 0)) := rfl

theorem exec_bmov (h : s.readBr rs1 = some a) : exec (.bmov rd rs1) s = succeedsWith (s.writeBr rd a) 0 :=
  complete_source h

theorem exec_bxor (ha : s.readBr rs1 = some a) (hb : s.readBr rs2 = some b) : exec (.bxor rd rs1 rs2) s = complete 0x12 s
    (need (shape a = shape b) .mismatch >>= fun _ => .ok (s.writeBr rd (xorBlock a b), 0)) :=
  complete_sources ha hb

theorem exec_bshl (loop : Bool) (n : Int) (h : s.readBr rs1 = some a) : exec (.bshl rd rs1 loop n) s = complete 0x13 s
    (need (0 ≤ n) .negShift >>= fun _ => .ok (s.writeBr rd (withFlat a (shiftLeft loop n.toNat (flat a))), 0)) :=
  complete_source h

theorem exec_bgetb (pos : Nat) (h : s.readBr rs1 = some a) : exec (.bgetb rs1 pos) s = complete 0x14 s
    (need (1 ≤ pos ∧ pos ≤ blockLen a / 8) .bytePos >>= fun _ => .ok (s, (byteOf (flat a) pos).setWidth 64)) :=
  complete_source h

theorem exec_bsetb (pos : Nat) (val : Byte) (h : s.readBr rs1 = some a) : exec (.bsetb rd rs1 pos val) s = complete 0x15 s
    (need (1 ≤ pos ∧ pos ≤ blockLen a / 8) .bytePos >>= fun _ =>
      .ok (s.writeBr rd (withFlat a (replaceByte (flat a) pos val)), 0)) :=
  complete_source h

theorem exec_bsize (h : s.readBr rs1 = some a) : exec (.bsize rs1) s =
    succeedsWith s (BitVec.ofNat 32 (blockLen a / 8) ++ BitVec.ofNat 32 (blockLen a)) :=
  complete_source h

theorem exec_bvslice (lo hi : Int) (h : s.readBr rs1 = some (.bv x)) : exec (.bvslice rd rs1 lo hi) s = complete 0x17 s
    (need (0 ≤ lo ∧ hi ≤ x.length ∧ lo < hi) .slice >>= fun _ =>
      .ok (s.writeBr rd (.bv (slice x lo.toNat hi.toNat)), 0)) :=
  complete_source h

theorem exec_bvcat (hx : s.readBr rs1 = some (.bv x)) (hy : s.readBr rs2 = some (.bv y)) :
    exec (.bvcat rd rs1 rs2) s = complete 0x18 s
      (need (x.length + y.length ≤ 65536) .length >>= fun _ => .ok (s.writeBr rd (.bv (x ++ y)), 0)) :=
  complete_sources hx hy

theorem exec_bvcmp (hx : s.readBr rs1 = some (.bv x)) (hy : s.readBr rs2 = some (.bv y)) :
    exec (.bvcmp rs1 rs2) s = succeedsWith s (compareBits x y) :=
  complete_sources hx hy

theorem exec_bvsum (h : s.readBr rs1 = some (.bv x)) : exec (.bvsum rs1) s = succeedsWith s (BitVec.ofNat 64 (value x)) :=
  complete_source h

theorem exec_bvfromu (s : State) (rd : Reg) (base n : Nat) : exec (.bvfromu rd base n) s = complete 0x1C s
    (need (1 ≤ n ∧ 8 * n ≤ 65536) .length >>= fun _ => need (base + n ≤ 8192) .bufIdx >>= fun _ =>
      packChecked (s.entries .input base n) >>= fun t => .ok (s.writeBr rd (.bv t), 0)) := rfl

theorem exec_bvtou (base : Nat) (h : s.readBr rs1 = some a) : exec (.bvtou rs1 base) s = complete 0x1D s
    (need (blockLen a % 8 = 0) .length >>= fun _ =>
      need (base ≤ s.outCurrent ∧ base + blockLen a / 8 ≤ 8192) .bufIdx >>= fun _ =>
        .ok (s.writeOut base (unpackBits (flat a)) (max s.outCurrent (base + blockLen a / 8)), 0)) :=
  complete_source h

end

/-- Settles O27: BZERO's one check, and BMOV past its source. -/
theorem bzeroAndBmov : Obligations.BzeroAndBmov := by
  refine fun s rd rs1 len => ⟨fun h1 h2 => ?_, fun h => ?_, fun v hv => exec_bmov hv⟩
  · exact (exec_bzero s rd len).trans (complete_need ⟨h1, h2⟩)
  · exact (exec_bzero s rd len).trans (complete_need_not (by omega))

/-- Settles O28: the XOR of legal values keeps the shape, and its flat bits are the XOR of theirs. -/
theorem bxorOfEqualShapes : Obligations.BxorOfEqualShapes := by
  refine fun s rd rs1 rs2 a b ha hb => ⟨fun hla hlb hsh => ?_, fun hsh =>
    (exec_bxor ha hb).trans (complete_need_not hsh)⟩
  have hlen := length_xorBits_flat hla hlb hsh
  refine ⟨xorBlock a b, (exec_bxor ha hb).trans (complete_need hsh), shape_xorBlock hla hlb hsh, blockLen_withFlat hlen,
    fun i => ?_⟩
  rw [flat_xorBlock hla hlb hsh, bitAt_xorBits (blockLen_eq_of_shape hla hlb hsh)]

/-- Settles O29: shifting keeps the number of flat bits, so also the shape. -/
theorem bshlShiftsTheFlatBits : Obligations.BshlShiftsTheFlatBits := by
  refine fun s rd rs1 loop n a ha => ⟨fun hn => ?_, fun hn =>
    (exec_bshl loop n ha).trans (complete_need_not hn.not_ge)⟩
  have hlen : (shiftLeft loop n.toNat (flat a)).length = blockLen a := length_shiftLeft ..
  refine ⟨_, (exec_bshl loop n ha).trans (complete_need hn), shape_withFlat hlen, blockLen_withFlat hlen, fun i hi => ?_⟩
  rw [flat_withFlat hlen]
  exact bitAt_shiftLeft loop n.toNat hi

/-- R87: two 32-bit halves put together are one number. -/
theorem ofNat_append_ofNat {m n : Nat} (hm : m < 2 ^ 32) (hn : n < 2 ^ 32) :
    BitVec.ofNat 32 m ++ BitVec.ofNat 32 n = BitVec.ofNat 64 (m * 2 ^ 32 + n) := by
  refine BitVec.eq_of_toNat_eq ?_
  rw [BitVec.toNat_append, BitVec.toNat_ofNat, BitVec.toNat_ofNat, BitVec.toNat_ofNat, Nat.mod_eq_of_lt hm,
    Nat.mod_eq_of_lt hn, ← Nat.shiftLeft_add_eq_or_of_lt hn, Nat.shiftLeft_eq, Nat.mod_eq_of_lt (by omega)]

/-- Settles O30: the byte at a position, the string with it replaced, and the two lengths of at most 65536. -/
theorem byteAccessAndSize : Obligations.ByteAccessAndSize := by
  refine fun s rd rs1 pos x a ha => ⟨fun hpos => ⟨?_, ?_⟩, fun hout => ?_, fun hlegal => ?_⟩
  · refine ⟨byteOf (flat a) pos, (exec_bgetb pos ha).trans (complete_need hpos), fun k hk => ?_⟩
    have hfit : 8 * (pos - 1 + 1) ≤ (flat a).length := by rw [← blockLen]; omega
    rw [← byteOf_getMsbD hfit hk, Nat.sub_add_cancel hpos.1]
  · obtain ⟨h1, h2⟩ := hpos
    have hlen := length_replaceByte h1 h2 x
    refine ⟨_, (exec_bsetb pos x ha).trans (complete_need ⟨h1, h2⟩), shape_withFlat hlen, blockLen_withFlat hlen,
      fun i => ?_⟩
    rw [flat_withFlat hlen, bitAt_replaceByte h1 h2]
  · have hnot : ¬(1 ≤ pos ∧ pos ≤ blockLen a / 8) := by omega
    exact ⟨(exec_bgetb pos ha).trans (complete_need_not hnot), (exec_bsetb pos x ha).trans (complete_need_not hnot)⟩
  · have hle := blockLen_le hlegal
    rw [exec_bsize ha, ofNat_append_ofNat (by omega) (by omega)]

/-- Settles O32: the one check of each command, and the slice bit by bit. -/
theorem sliceAndConcatenate : Obligations.SliceAndConcatenate := by
  refine fun s rd rs1 rs2 lo hi x y hx hy => ⟨fun h1 h2 h3 => ?_, fun h => ?_, fun h => ?_, fun h => ?_⟩
  · have hlen := slice_length x lo.toNat hi.toNat
    exact ⟨_, (exec_bvslice lo hi hx).trans (complete_need ⟨h1, h2, h3⟩), by omega, fun i hi => bitAt_slice (by omega)⟩
  · exact (exec_bvslice lo hi hx).trans (complete_need_not (by omega))
  · exact (exec_bvcat hx hy).trans (complete_need h)
  · exact (exec_bvcat hx hy).trans (complete_need_not h.not_ge)

/-- Settles O35: one of the two vectors is above the other, or they are the same. -/
theorem compareAndSum : Obligations.CompareAndSum := by
  refine fun s rs1 rs2 x y hx hy => ⟨⟨_, exec_bvcmp hx hy, ?_⟩, ?_⟩
  · rw [exec_bvcmp hy hx]
    change _ ∧ _ ∧ _ ∧ (_ ↔ Above x y)
    obtain h | rfl | h := above_trichotomy x y
    · rw [compareBits_of_above h, compareBits_of_below h]
      exact ⟨rfl, .inl rfl, iff_of_false (by decide) h.ne, iff_of_true rfl h⟩
    · rw [compareBits_self]
      exact ⟨rfl, .inr (.inl rfl), iff_of_true rfl rfl, iff_of_false (by decide) fun h => h.ne rfl⟩
    · rw [compareBits_of_above h, compareBits_of_below h]
      exact ⟨rfl, .inr (.inr rfl), iff_of_false (by decide) h.ne.symm, iff_of_false (by decide) h.asymm⟩
  · rw [exec_bvsum hx, foldl_eq_value, Nat.zero_mul, Nat.zero_add]

theorem all_packable_entries {s : State} {sp : Space} {a n : Nat} :
    (s.entries sp a n).all packable = true ↔ ∀ k, k < n → (s.entry sp (a + k)).toNat ≤ 0xFF := by
  simp [State.entries, packable]

theorem packChecked_of_not_packable {us : List CodeUnit} (h : ¬us.all packable = true) :
    packChecked us = .error .unitRange :=
  if_neg h

theorem getD_entries {s : State} {sp : Space} {a n k : Nat} (h : k < n) :
    (s.entries sp a n).getD k 0 = s.entry sp (a + k) := by
  simp [State.entries, h]

/-- Settles O36: the three checks in order, and each bit in its unit. -/
theorem bvfromuPacksUnits : Obligations.BvfromuPacksUnits := by
  intro s rd base n
  refine ⟨fun h => ?_, fun h1 h2 h3 => ?_, fun h1 h2 h3 => ⟨fun ⟨k, hk, hbig⟩ => ?_, fun hsmall => ?_⟩⟩
  · exact (exec_bvfromu s rd base n).trans (complete_need_not (by omega))
  · rw [exec_bvfromu, complete_need ⟨h1, h2⟩]
    exact complete_need_not h3.not_ge
  · have hnot : ¬(s.entries .input base n).all packable = true := fun h => (all_packable_entries.1 h k hk).not_gt hbig
    rw [exec_bvfromu, complete_need ⟨h1, h2⟩, complete_need h3, packChecked_of_not_packable hnot]
    rfl
  · refine ⟨packUnits (s.entries .input base n), ?_, by rw [length_packUnits, length_entries], fun i hi => ?_⟩
    · rw [exec_bvfromu, complete_need ⟨h1, h2⟩, complete_need h3,
        packChecked_eq_ok.2 ⟨all_packable_entries.2 hsmall, rfl⟩]
      rfl
    · rw [bitAt_packUnits, getD_entries (by omega)]

/-- Settles O37: the two checks in order, and OUT after the range write. -/
theorem bvtouUnpacksToOut : Obligations.BvtouUnpacksToOut := by
  intro s rs1 base a ha
  refine ⟨fun h => ?_, fun h1 h2 => ?_, fun h1 h2 h3 => ⟨s.outBuf.writeAll base (unpackBits (flat a)), ?_, fun i => ?_⟩⟩
  · exact (exec_bvtou base ha).trans (complete_need_not h)
  · rw [exec_bvtou base ha, complete_need h1]
    exact complete_need_not fun ⟨hbase, hend⟩ => h2.elim hbase.not_gt hend.not_gt
  · rw [exec_bvtou base ha, complete_need h1]
    exact complete_need ⟨h2, h3⟩
  · rw [find_writeAll, length_unpackBits, ← blockLen]
    split
    · rw [unpackBits_getElem? (by rw [← blockLen]; omega)]
    · rfl

end Sys2Proof.Machine

/-! ### Arithmetic in GF(2^8) (42_bytematrix_gf.md R97, R98, R101, R108, R109)

Doubling is linear, so the product is linear in each factor, and the doublings of 1 give every byte (`gmul 1 b = b`): the
other laws of the product are read off these. -/

namespace Sys2Proof.Machine

section
variable {ι : Type}

theorem xorAll_append (xs ys : List Byte) : xorAll (xs ++ ys) = xorAll xs ^^^ xorAll ys := by
  induction xs with
  | nil => exact BitVec.zero_xor.symm
  | cons x xs ih => rw [List.cons_append, xorAll, ih, xorAll, BitVec.xor_assoc]

theorem xorAll_map_xor (f g : ι → Byte) (l : List ι) :
    xorAll (l.map fun i => f i ^^^ g i) = xorAll (l.map f) ^^^ xorAll (l.map g) := by
  induction l with
  | nil => exact BitVec.xor_self.symm
  | cons i l ih => simp only [List.map_cons, xorAll, ih]; ac_rfl

/-- A linear function of a XOR of bytes. -/
theorem map_xorAll {h : Byte → Byte} (h0 : h 0 = 0) (hadd : ∀ x y, h (x ^^^ y) = h x ^^^ h y) (f : ι → Byte) (l : List ι) :
    h (xorAll (l.map f)) = xorAll (l.map fun i => h (f i)) := by
  induction l with
  | nil => exact h0
  | cons i l ih => rw [List.map_cons, xorAll, hadd, ih, List.map_cons, xorAll]

theorem foldl_xor_eq_xorAll (f : ι → Byte) (l : List ι) (x : Byte) :
    l.foldl (fun acc i => acc ^^^ f i) x = x ^^^ xorAll (l.map f) := by
  induction l generalizing x with
  | nil => exact BitVec.xor_zero.symm
  | cons i l ih => rw [List.foldl_cons, ih, List.map_cons, xorAll, BitVec.xor_assoc]

/-- A XOR in which only the term at `r` can be other than zero. -/
theorem xorAll_range_ite (n r : Nat) (x : Nat → Byte) :
    xorAll ((List.range n).map fun k => if r = k then x k else 0) = if r < n then x r else 0 := by
  induction n with
  | zero => rfl
  | succ n ih =>
    rw [List.range_succ, List.map_append, xorAll_append, ih]
    obtain h | rfl | h := Nat.lt_trichotomy r n
    · simp [xorAll, h, h.ne, h.le]
    · simp [xorAll]
    · simp [xorAll, h.ne', h.not_gt, Nat.not_lt.2 h]

end

/-! #### Doubling -/

/-- R97: the doubled byte as a number. -/
theorem toNat_xtime (x : Byte) : (xtime x).toNat = (2 * x.toNat % 256) ^^^ (if 0x80 ≤ x.toNat then 0x1B else 0) := by
  rw [xtime, BitVec.toNat_xor, BitVec.toNat_shiftLeft, Nat.shiftLeft_eq, Nat.mul_comm, apply_ite BitVec.toNat]
  rfl

@[simp] theorem xtime_zero : xtime 0 = 0 := rfl

theorem xtime_xor (a b : Byte) : xtime (a ^^^ b) = xtime a ^^^ xtime b := by
  have hmsb (x : Byte) : 0x80 ≤ x.toNat ↔ x.msb = true := by rw [BitVec.msb_eq_decide]; simp
  have hred : (if (a.msb ^^ b.msb) = true then 0x1B#8 else 0x00#8) =
      (if a.msb = true then 0x1B#8 else 0x00#8) ^^^ if b.msb = true then 0x1B#8 else 0x00#8 := by
    cases a.msb <;> cases b.msb <;> rfl
  simp only [xtime, hmsb, BitVec.msb_xor, BitVec.shiftLeft_xor_distrib, hred]
  ac_rfl

theorem xtimePow_eq_iterate (n : Nat) (x : Byte) : xtimePow n x = xtime^[n] x := by
  induction n with
  | zero => rfl
  | succ n ih => rw [xtimePow, ih, Function.iterate_succ_apply']

@[simp] theorem xtimePow_zero_right (n : Nat) : xtimePow n 0 = 0 := by
  rw [xtimePow_eq_iterate, Function.iterate_fixed xtime_zero]

theorem xtimePow_xor (n : Nat) (a b : Byte) : xtimePow n (a ^^^ b) = xtimePow n a ^^^ xtimePow n b := by
  induction n with
  | zero => rfl
  | succ n ih => rw [xtimePow, ih, xtime_xor, xtimePow, xtimePow]

theorem xtimePow_add (m n : Nat) (x : Byte) : xtimePow (m + n) x = xtimePow m (xtimePow n x) := by
  simp only [xtimePow_eq_iterate, Function.iterate_add_apply]

theorem xtimePow_comm (m n : Nat) (x : Byte) : xtimePow m (xtimePow n x) = xtimePow n (xtimePow m x) := by
  rw [← xtimePow_add, Nat.add_comm, xtimePow_add]

/-! #### Multiplication -/

/-- R98: the XOR of the doublings of `a` that the bits of `b` select, as a fold. -/
theorem gmul_eq_foldl (a b : Byte) : gmul a b =
    (List.range 8).foldl (fun acc i => if b.getLsbD i = true then acc ^^^ xtimePow i a else acc) 0 := by
  have hstep : (fun acc i => if b.getLsbD i = true then acc ^^^ xtimePow i a else acc) =
      fun (acc : Byte) i => acc ^^^ if b.getLsbD i = true then xtimePow i a else 0 := by
    funext acc i
    split
    · rfl
    · exact BitVec.xor_zero.symm
  rw [hstep, foldl_xor_eq_xorAll]
  exact BitVec.zero_xor.symm

theorem gmul_one_left (b : Byte) : gmul 1 b = b := by
  revert b
  decide

@[simp] theorem gmul_zero_left (b : Byte) : gmul 0 b = 0 := by
  simp only [gmul, xtimePow_zero_right, ite_self]
  rfl

theorem gmul_xor_left (a b c : Byte) : gmul (a ^^^ b) c = gmul a c ^^^ gmul b c := by
  rw [gmul, gmul, gmul, ← xorAll_map_xor]
  congr! 3 with i
  split
  · exact xtimePow_xor i a b
  · rfl

theorem gmul_xtimePow_left (n : Nat) (a b : Byte) : gmul (xtimePow n a) b = xtimePow n (gmul a b) := by
  rw [gmul, gmul, map_xorAll (xtimePow_zero_right n) (xtimePow_xor n)]
  congr! 3 with i
  split
  · exact xtimePow_comm i n a
  · exact (xtimePow_zero_right n).symm

/-- Doubling `n` times is multiplying by the `n`-th doubling of 1. -/
theorem gmul_xtimePow_one (n : Nat) (b : Byte) : gmul (xtimePow n 1) b = xtimePow n b := by
  rw [gmul_xtimePow_left, gmul_one_left]

theorem gmul_two_left (b : Byte) : gmul 2 b = xtime b := gmul_xtimePow_one 1 b

theorem gmul_three_left (b : Byte) : gmul 3 b = xtime b ^^^ b := by
  rw [← gmul_two_left]
  exact (gmul_xor_left 2 1 b).trans (by rw [gmul_one_left])

/-- R101: write `a` as the XOR of the doublings of 1 that its bits select. -/
theorem gmul_comm (a b : Byte) : gmul a b = gmul b a := by
  calc gmul a b
    _ = gmul (gmul 1 a) b := by rw [gmul_one_left]
    _ = xorAll ((List.range 8).map fun i => gmul (if a.getLsbD i then xtimePow i 1 else 0) b) :=
      map_xorAll (h := (gmul · b)) (gmul_zero_left b) (gmul_xor_left · · b) _ _
    _ = gmul b a := by
      rw [gmul]
      congr! 3 with i
      split
      · exact gmul_xtimePow_one i b
      · exact gmul_zero_left b

theorem gmul_xor_right (a b c : Byte) : gmul a (b ^^^ c) = gmul a b ^^^ gmul a c := by
  rw [gmul_comm, gmul_xor_left, gmul_comm b, gmul_comm c]

/-! #### The period of doubling -/

/-- R101: 51 doublings of 1, taken 17 at a time, give 1; so 51 doublings multiply by 1. -/
theorem xtimePow_51 (x : Byte) : xtimePow 51 x = x := by
  have h17 : xtimePow 17 1 = 0xBC := by decide
  have h34 : xtimePow 17 0xBC = 0xBD := by decide
  have h51 : xtimePow 17 0xBD = 1 := by decide
  have hone : xtimePow 51 1 = 1 := by rw [xtimePow_add 17 34, xtimePow_add 17 17, h17, h34, h51]
  rw [← gmul_xtimePow_one, hone, gmul_one_left]

theorem eq_zero_of_xtimePow_17 {x : Byte} (h : xtimePow 17 x = x) : x = 0 := by
  revert x
  decide

theorem eq_zero_of_xtimePow_3 {x : Byte} (h : xtimePow 3 x = x) : x = 0 := by
  revert x
  decide

/-- A period below 51 and the period 51 have a common divisor as period, so 17 or 3 is a period. -/
theorem xtimePow_ne_self {x : Byte} (hx : x ≠ 0) {n : Nat} (hpos : 0 < n) (hlt : n < 51) : xtimePow n x ≠ x := by
  intro hn
  have period {k : Nat} : Function.IsPeriodicPt xtime k x ↔ xtimePow k x = x := by
    rw [xtimePow_eq_iterate]; rfl
  have hgcd := (period.2 hn).gcd (period.2 (xtimePow_51 x))
  have hdvd : ∀ n < 51, 0 < n → n.gcd 51 ∣ 17 ∨ n.gcd 51 ∣ 3 := by decide
  obtain h17 | h3 := hdvd n hlt hpos
  · exact hx (eq_zero_of_xtimePow_17 (period.1 (hgcd.trans_dvd h17)))
  · exact hx (eq_zero_of_xtimePow_3 (period.1 (hgcd.trans_dvd h3)))

/-- Settles O45: the laws of the product follow from its linearity on the left and the unit law. -/
theorem gfFieldLaws : Obligations.GfFieldLaws := by
  refine ⟨toNat_xtime, xtime_zero, xtime_xor, gmul_eq_foldl, gmul_comm, gmul_one_left, gmul_zero_left, gmul_xor_right,
    fun a => ?_, fun x => ?_, fun x hx => ⟨xtimePow_51 x, fun n => xtimePow_ne_self hx⟩⟩
  · rw [gmul_comm, gmul_two_left]
  · rw [gmul_comm]
    exact (gmul_xtimePow_one 8 x).symm

/-! ### The scalar commands (42_bytematrix_gf.md R108, R109) -/

/-- R97: below 0x80 the doubled byte is twice the byte, else its excess over 256 is reduced. -/
theorem toNat_xtime_cases (a : Byte) :
    (xtime a).toNat = if a.toNat < 0x80 then 2 * a.toNat else (2 * a.toNat - 256) ^^^ 0x1B := by
  have ha : a.toNat < 256 := a.isLt
  rw [toNat_xtime]
  by_cases h : a.toNat < 0x80
  · rw [if_neg (by omega), if_pos h, Nat.mod_eq_of_lt (by omega), Nat.xor_zero]
  · rw [if_pos (by omega), if_neg h, show 2 * a.toNat % 256 = 2 * a.toNat - 256 by omega]

/-- Settles O44. -/
theorem scalarGfCommands : Obligations.ScalarGfCommands := by
  refine fun s a b => ⟨?_, rfl, ?_⟩
  · rw [← toNat_xtime_cases, BitVec.ofNat_toNat]
    rfl
  · have hprod : (gmul 0x57 0x83).setWidth 64 = 0xC1 := by decide
    rw [← hprod]
    rfl

/-! ### The byte-matrix commands past their sources (42_bytematrix_gf.md R104 - R107) -/

section
variable {s : State} {rd rs1 rs2 : Reg} {f m : ByteMatrix}

theorem exec_mxsub (tb n : Nat) (h : s.readBr rs1 = some (.mx m)) : exec (.mxsub rd rs1 tb n) s = complete 0x22 s
    (need (256 ≤ n) .badTable >>= fun _ => need (tb + n ≤ 4096) .tmemIdx >>= fun _ =>
      need ((s.entries .table tb 256).all packable = true) .badTable >>= fun _ =>
        .ok (s.writeBr rd (.mx (substitute (s.entries .table tb 256) m)), 0)) :=
  complete_source h

theorem exec_mxrotl (h : s.readBr rs1 = some (.mx m)) :
    exec (.mxrotl rd rs1) s = succeedsWith (s.writeBr rd (.mx (rotateRowsLeft m))) 0 :=
  complete_source h

theorem exec_mxrotr (h : s.readBr rs1 = some (.mx m)) :
    exec (.mxrotr rd rs1) s = succeedsWith (s.writeBr rd (.mx (rotateRowsRight m))) 0 :=
  complete_source h

theorem exec_mxmul (hf : s.readBr rs1 = some (.mx f)) (hm : s.readBr rs2 = some (.mx m)) :
    exec (.mxmul rd rs1 rs2) s = complete 0x25 s
      (need (f.cols = m.rows) .mismatch >>= fun _ => .ok (s.writeBr rd (.mx (matMul f m)), 0)) :=
  complete_sources hf hm

end

/-- A packable unit is the byte it carries. -/
theorem toNat_byteOfUnit {u : CodeUnit} (h : u.toNat ≤ 0xFF) : (byteOfUnit u).toNat = u.toNat := by
  rw [byteOfUnit, BitVec.toNat_setWidth, Nat.mod_eq_of_lt (by omega)]

/-- Settles O40: the three checks in order, and each byte's entry, which is a byte. -/
theorem mxsubSubstitutesBytes : Obligations.MxsubSubstitutesBytes := by
  intro s rd rs1 tb n m hm
  refine ⟨fun h => ?_, fun h1 h2 => ?_, fun h1 h2 => ⟨fun ⟨i, hi, hbig⟩ => ?_, fun hsmall => ?_⟩⟩
  · exact (exec_mxsub tb n hm).trans (complete_need_not h.not_ge)
  · rw [exec_mxsub tb n hm, complete_need h1]
    exact complete_need_not h2.not_ge
  · rw [exec_mxsub tb n hm, complete_need h1, complete_need h2]
    exact complete_need_not fun hall => (all_packable_entries.1 hall i hi).not_gt hbig
  · refine ⟨substitute (s.entries .table tb 256) m, ?_, rfl, rfl, List.length_map _, fun k hk hk' => ?_⟩
    · rw [exec_mxsub tb n hm, complete_need h1, complete_need h2]
      exact complete_need (all_packable_entries.2 hsmall)
    · have hbyte : m.bytes[k].toNat < 256 := m.bytes[k].isLt
      simp only [substitute, List.getElem_map]
      rw [getD_entries hbyte, toNat_byteOfUnit (hsmall _ hbyte)]

/-! ### Row rotations and the product, element by element (42_bytematrix_gf.md R105 - R107) -/

section
variable {f m : ByteMatrix} {r c : Nat}

theorem elem_rotateRowsLeft (hr : r < m.rows) (hc : c < m.cols) :
    elem (rotateRowsLeft m) r c = elem m r ((c + r) % m.cols) :=
  elem_buildMatrix _ hr hc

theorem elem_rotateRowsRight (hr : r < m.rows) (hc : c < m.cols) :
    elem (rotateRowsRight m) r c = elem m r (((c : Int) - r) % m.cols).toNat :=
  elem_buildMatrix _ hr hc

/-- The column that R106 reads from is one, and R105's shift takes it to the column written. -/
theorem rotateRight_column {n c : Nat} (hc : c < n) (r : Nat) :
    (((c : Int) - r) % n).toNat < n ∧ ((((c : Int) - r) % n).toNat + r) % n = c := by
  have hn : (0 : Int) < n := by omega
  have h0 := Int.emod_nonneg ((c : Int) - r) hn.ne'
  have hlt := Int.emod_lt_of_pos ((c : Int) - r) hn
  refine ⟨by omega, Int.natCast_inj.1 ?_⟩
  rw [Int.natCast_mod, Int.natCast_add, Int.toNat_of_nonneg h0, Int.emod_add_emod, Int.sub_add_cancel,
    Int.emod_eq_of_lt (by omega) (by omega)]

/-- R106 takes the column that R105's shift gives back. -/
theorem rotateRight_column_shift {n c : Nat} (hc : c < n) (r : Nat) :
    ((((c + r) % n : Nat) : Int) - r) % n = c := by
  rw [Int.natCast_mod, Int.natCast_add, Int.emod_sub_emod, Int.add_sub_cancel, Int.emod_eq_of_lt (by omega) (by omega)]

theorem elem_rotateRowsRight_shift (hr : r < m.rows) (hc : c < m.cols) :
    elem (rotateRowsRight m) r ((c + r) % m.cols) = elem m r c := by
  rw [elem_rotateRowsRight hr (Nat.mod_lt _ (by omega)), rotateRight_column_shift hc, Int.toNat_natCast]

theorem elem_matMul (hr : r < f.rows) (hc : c < m.cols) :
    elem (matMul f m) r c = xorAll ((List.range f.cols).map fun k => gmul (elem f r k) (elem m k c)) :=
  elem_buildMatrix _ hr hc

end

/-- Settles O41: both results are built element by element. -/
theorem rowRotations : Obligations.RowRotations := fun _ _ _ _ hm =>
  ⟨⟨_, exec_mxrotl hm, rfl, rfl, buildMatrix_bytes_length .., fun _ _ => elem_rotateRowsLeft⟩,
    ⟨_, exec_mxrotr hm, rfl, rfl, buildMatrix_bytes_length .., fun _ _ => elem_rotateRowsRight_shift⟩⟩

/-- Settles O42: the one check, and the product's XOR as a fold. -/
theorem mxmulIsTheProduct : Obligations.MxmulIsTheProduct := by
  refine fun s rd rs1 rs2 f m hf hm => ⟨fun h => ⟨matMul f m, (exec_mxmul hf hm).trans (complete_need h), rfl, rfl,
    buildMatrix_bytes_length .., fun r c hr hc => ?_⟩, fun h => (exec_mxmul hf hm).trans (complete_need_not h)⟩
  rw [elem_matMul hr hc, foldl_xor_eq_xorAll]
  exact BitVec.zero_xor.symm

/-! ### Laws of the matrix operations (42_bytematrix_gf.md R100, R105 - R107) -/

section
variable {m : ByteMatrix} (hbytes : m.bytes.length = m.rows * m.cols)
include hbytes

theorem rotateRowsRight_rotateRowsLeft : rotateRowsRight (rotateRowsLeft m) = m := by
  refine matrix_ext rfl rfl (buildMatrix_bytes_length ..) hbytes fun r c hr hc => ?_
  obtain ⟨hlt, hback⟩ := rotateRight_column hc r
  calc elem (rotateRowsRight (rotateRowsLeft m)) r c
    _ = elem (rotateRowsLeft m) r (((c : Int) - r) % m.cols).toNat := elem_rotateRowsRight (m := rotateRowsLeft m) hr hc
    _ = elem m r (((((c : Int) - r) % m.cols).toNat + r) % m.cols) := elem_rotateRowsLeft hr hlt
    _ = elem m r c := congrArg _ hback

theorem rotateRowsLeft_rotateRowsRight : rotateRowsLeft (rotateRowsRight m) = m := by
  refine matrix_ext rfl rfl (buildMatrix_bytes_length ..) hbytes fun r c hr hc => ?_
  calc elem (rotateRowsLeft (rotateRowsRight m)) r c
    _ = elem (rotateRowsRight m) r ((c + r) % m.cols) := elem_rotateRowsLeft (m := rotateRowsRight m) hr hc
    _ = elem m r c := elem_rotateRowsRight_shift hr hc

/-- The row of the identity factor selects one term of each sum. -/
theorem matMul_identityMatrix : matMul (identityMatrix m.rows) m = m := by
  refine matrix_ext rfl rfl (buildMatrix_bytes_length ..) hbytes fun r c hr hc => ?_
  have hr : r < m.rows := hr
  have hterm : ∀ k ∈ List.range m.rows, gmul (elem (identityMatrix m.rows) r k) (elem m k c) =
      if r = k then elem m k c else 0 := by
    intro k hk
    rw [identityMatrix, elem_buildMatrix _ hr (List.mem_range.1 hk)]
    split
    · exact gmul_one_left _
    · exact gmul_zero_left _
  calc elem (matMul (identityMatrix m.rows) m) r c
    _ = xorAll ((List.range m.rows).map fun k => gmul (elem (identityMatrix m.rows) r k) (elem m k c)) :=
      elem_matMul (f := identityMatrix m.rows) hr hc
    _ = xorAll ((List.range m.rows).map fun k => if r = k then elem m k c else 0) :=
      congrArg xorAll (List.map_congr_left hterm)
    _ = elem m r c := by rw [xorAll_range_ite, if_pos hr]

end

/-- R100: the first row of the diffusion matrix is 2, 3, 1, 1. -/
theorem elem_matMul_mixColumnsMatrix {m : ByteMatrix} {c : Nat} (hc : c < m.cols) :
    elem (matMul mixColumnsMatrix m) 0 c =
      xtime (elem m 0 c) ^^^ xtime (elem m 1 c) ^^^ elem m 1 c ^^^ elem m 2 c ^^^ elem m 3 c := by
  calc elem (matMul mixColumnsMatrix m) 0 c
    _ = gmul 2 (elem m 0 c) ^^^ (gmul 3 (elem m 1 c) ^^^ (gmul 1 (elem m 2 c) ^^^ (gmul 1 (elem m 3 c) ^^^ 0))) :=
      elem_matMul (by decide) hc
    _ = _ := by
      rw [gmul_two_left, gmul_three_left, gmul_one_left, gmul_one_left]
      simp only [BitVec.xor_assoc, BitVec.ofNat_eq_ofNat, BitVec.xor_zero]

/-- Settles O43: each law of a legal matrix element by element, and the diffusion matrix by its first row. -/
theorem matrixLaws : Obligations.MatrixLaws := by
  refine ⟨fun m hm => ?_, fun m c _ hc => elem_matMul_mixColumnsMatrix hc⟩
  obtain ⟨-, -, hbytes⟩ := legal_mx.1 hm
  exact ⟨rotateRowsRight_rotateRowsLeft hbytes, rotateRowsLeft_rotateRowsRight hbytes, matMul_identityMatrix hbytes⟩

end Sys2Proof.Machine

/-! ### Feistel decryption undoes encryption (43_structures.md R113 - R115)

A decryption round is an encryption round on the swapped halves, so one fact about the encryption rounds, that the reversed
keys lead back from the swapped result, gives both directions. -/

namespace Sys2Proof.Machine

section
variable {p : Ports} {keys : List BlockVal}

/-- R112: decryption rounds are encryption rounds on the swapped halves. -/
theorem feistelDecRounds_eq_ok {ks : List BlockVal} : ∀ {l r l' r' : Bits},
    feistelDecRounds p ks l r = .ok (l', r') ↔ feistelEncRounds p ks r l = .ok (r', l') := by
  induction ks with
  | nil => intro l r l' r'; simp [feistelDecRounds, feistelEncRounds, and_comm]
  | cons k ks ih =>
    intro l r l' r'
    simp only [feistelDecRounds, feistelEncRounds, bind_eq_ok, ih]

/-- R113: round by round, the reversed keys lead back from the swapped result to the swapped halves. -/
theorem feistelEncRounds_reverse : ∀ {ks : List BlockVal} {l r l' r' : Bits}, l.length = r.length →
    feistelEncRounds p ks l r = .ok (l', r') → feistelEncRounds p ks.reverse r' l' = .ok (r, l) := by
  intro ks
  induction ks with
  | nil => rintro l r l' r' - ⟨⟩; rfl
  | cons k ks ih =>
    intro l r l' r' hlr h
    obtain ⟨f, hf, h⟩ := bind_eq_ok.1 h
    have hfl : f.length = l.length := (roundF_eq_ok hf).trans hlr.symm
    have hrx : r.length = (xorBits l f).length := by rw [xorBits_length, hfl, Nat.min_self, hlr]
    have hundo : xorBits (xorBits l f) f = l := xorBits_self_right hfl.ge
    rw [List.reverse_cons, feistelEncRounds_append, ih hrx h]
    simp only [ok_bind, feistelEncRounds, hf, hundo]

theorem exists_halves {x : Bits} (h : x.length % 2 = 0) : ∃ l r : Bits, l.length = r.length ∧ x = l ++ r := by
  obtain ⟨hl, hr⟩ := length_halves x
  have hx : 2 * (x.length / 2) = x.length := by omega
  refine ⟨_, _, hl.trans hr.symm, ?_⟩
  rw [slice_append_slice x (Nat.zero_le _) (by omega), hx, slice_all]

/-- FeistelEnc on a vector given by its halves. -/
theorem feistelEnc_halves (p : Ports) (keys : List BlockVal) {l r : Bits} (h : l.length = r.length) :
    feistelEnc p keys (l ++ r) = feistelEncRounds p keys l r >>= fun q => .ok (q.1 ++ q.2) := by
  obtain ⟨h1, h2⟩ := slice_halves h
  simp only [feistelEnc, h1, h2]
  rfl

theorem feistelDec_of_feistelEnc {x y : Bits} (hx : x.length % 2 = 0) (h : feistelEnc p keys x = .ok y) :
    feistelDec p keys y = .ok x := by
  obtain ⟨l, r, hlr, rfl⟩ := exists_halves hx
  rw [feistelEnc_halves p keys hlr] at h
  obtain ⟨⟨l', r'⟩, hq, h⟩ := bind_eq_ok.1 h
  obtain rfl := Except.ok.inj h
  obtain ⟨h1, h2⟩ := length_feistelEncRounds hlr hq
  rw [feistelDec_halves p keys (h1.trans h2.symm), feistelDecRounds_eq_ok.2 (feistelEncRounds_reverse hlr hq)]
  rfl

theorem feistelEnc_of_feistelDec {x y : Bits} (hx : x.length % 2 = 0) (h : feistelDec p keys x = .ok y) :
    feistelEnc p keys y = .ok x := by
  obtain ⟨l, r, hlr, rfl⟩ := exists_halves hx
  rw [feistelDec_halves p keys hlr] at h
  obtain ⟨⟨l', r'⟩, hq, h⟩ := bind_eq_ok.1 h
  obtain rfl := Except.ok.inj h
  obtain ⟨h1, h2⟩ := length_feistelDecRounds hlr hq
  have hback := feistelEncRounds_reverse hlr.symm (feistelDecRounds_eq_ok.1 hq)
  rw [List.reverse_reverse] at hback
  rw [feistelEnc_halves p keys (h1.trans h2.symm), hback]
  rfl

/-- R113: with no round FeistelEnc is the identity. -/
theorem feistelEnc_nil {x : Bits} (hx : x.length % 2 = 0) : feistelEnc p [] x = .ok x := by
  obtain ⟨l, r, hlr, rfl⟩ := exists_halves hx
  exact feistelEnc_halves p [] hlr

theorem feistelDec_nil {x : Bits} (hx : x.length % 2 = 0) : feistelDec p [] x = .ok x :=
  feistelDec_of_feistelEnc hx (feistelEnc_nil hx)

end

/-! What FEN and FDE share (R114, R115): the sources and checks in order, and then a transform of the vector. -/

theorem complete_bind_ok {α : Type} {opc : Byte} {s : State} {x : Except Err α} {f : α → Effect} {v : α} (h : x = .ok v) :
    complete opc s (x >>= f) = complete opc s (f v) := by
  rw [h, ok_bind]

theorem complete_bind_error {α : Type} {opc : Byte} {s : State} {x : Except Err α} {f : α → Effect} {e : Err}
    (h : x = .error e) : complete opc s (x >>= f) = failsWith s opc.toNat e.classCode e.detailCode := by
  rw [h, error_bind, complete_error]

/-- R114, R115: the Feistel command of opcode `opc`, with `f` in place of FeistelEnc or FeistelDec. -/
def feistelCommand (opc : Byte) (f : List BlockVal → Bits → Except Err Bits) (rd rs1 : Reg) (s : State) :
    Host.Outcome State Fault Refusal :=
  complete opc s (s.source rs1 >>= fun v => s.feistelKeys >>= fun keys => feistelInput s v >>= fun x =>
    f keys x >>= fun y => .ok (s.writeBr rd (.bv y), 0))

section
variable {s t : State} {rd rs1 : Reg} {opc : Byte} {f : List BlockVal → Bits → Except Err Bits} {keys : List BlockVal}
  {x : Bits}

theorem exec_fen (rd rs1 : Reg) (s : State) :
    exec (.fen rd rs1) s = feistelCommand 0x30 (feistelEnc Config.ports) rd rs1 s := rfl

theorem exec_fde (rd rs1 : Reg) (s : State) :
    exec (.fde rd rs1) s = feistelCommand 0x31 (feistelDec Config.ports) rd rs1 s := rfl

/-- A Feistel command past its checks. -/
theorem feistelCommand_of_checks (ha : s.readBr rs1 = some (.bv x)) (hk : s.feistelKeys = .ok keys)
    (heven : x.length % 2 = 0) (hlen : x.length = s.blockBits.toNat) :
    feistelCommand opc f rd rs1 s = complete opc s (f keys x >>= fun y => .ok (s.writeBr rd (.bv y), 0)) :=
  (complete_source ha).trans <| (complete_bind_ok hk).trans <|
    complete_bind_ok (feistelInput_eq_ok.2 ⟨rfl, heven, hlen⟩)

/-- A Feistel command that raises nothing has passed every check. -/
theorem feistelCommand_success (h : feistelCommand opc f rd rs1 s = .next t) (herr : t.err = false) :
    ∃ x keys y, s.readBr rs1 = some (.bv x) ∧ s.feistelKeys = .ok keys ∧ x.length % 2 = 0 ∧
      x.length = s.blockBits.toNat ∧ f keys x = .ok y ∧ t = (s.writeBr rd (.bv y)).succeed 0 := by
  obtain ⟨u, resp, hr, rfl⟩ | ⟨e, -, rfl⟩ := complete_cases h
  · obtain ⟨v, hv, hr⟩ := bind_eq_ok.1 hr
    obtain ⟨keys, hk, hr⟩ := bind_eq_ok.1 hr
    obtain ⟨x, hx, hr⟩ := bind_eq_ok.1 hr
    obtain ⟨y, hy, hr⟩ := bind_eq_ok.1 hr
    obtain ⟨rfl, rfl⟩ := Prod.mk.inj (Except.ok.inj hr)
    obtain ⟨rfl, heven, hlen⟩ := feistelInput_eq_ok.1 hx
    exact ⟨x, keys, y, source_eq_ok.1 hv, hk, heven, hlen, hy, rfl⟩
  · cases herr

end

/-- R115: FDE on what FEN left writes the original block. -/
theorem exec_fde_of_fen {s t : State} {rd rs1 rd' : Reg} (h : exec (.fen rd rs1) s = .next t) (herr : t.err = false) :
    ∃ u, exec (.fde rd' rd) t = .next u ∧ u.err = false ∧ u.readBr rd' = s.readBr rs1 := by
  obtain ⟨x, keys, y, hx, hk, heven, hlen, hy, rfl⟩ := feistelCommand_success h herr
  have hyx : y.length = x.length := by have := length_feistelEnc hy; omega
  have hsrc : ((s.writeBr rd (.bv y)).succeed 0).readBr rd = some (.bv y) := readBr_writeBr_same s rd _
  refine ⟨_, (feistelCommand_of_checks hsrc hk (hyx ▸ heven) (hyx.trans hlen)).trans
    (complete_bind_ok (feistelDec_of_feistelEnc heven hy)), rfl, ?_⟩
  exact (readBr_writeBr_same _ rd' (.bv x)).trans hx.symm

/-- Settles O47: the rounds undone in reverse, and FEN and FDE on one state's keys. -/
theorem feistelInvolution : Obligations.FeistelInvolution := by
  refine ⟨fun p keys x y hx => ⟨feistelDec_of_feistelEnc hx, feistelEnc_of_feistelDec hx, ?_⟩,
    fun s t rd rs1 rd' => exec_fde_of_fen⟩
  rintro rfl
  exact ⟨feistelEnc_nil hx, feistelDec_nil hx⟩

end Sys2Proof.Machine

/-! ### SP decryption undoes encryption (43_structures.md R119) -/

namespace Sys2Proof.Machine

theorem withFlat_withFlat (v : BlockVal) (x y : Bits) : withFlat (withFlat v x) y = withFlat v y := by cases v <;> rfl

@[simp] theorem withFlat_flat (v : BlockVal) : withFlat v (flat v) = v := by
  cases v with
  | bv x => rfl
  | mx m => simp [withFlat, flat]

/-- R99: whitening twice with one key gives the block back. -/
theorem xorBlock_self_right {v k : BlockVal} (hv : v.legal = true) (hk : k.legal = true) (h : shape v = shape k) :
    xorBlock (xorBlock v k) k = v := by
  have hlen : (flat v).length = (flat k).length := blockLen_eq_of_shape hv hk h
  calc xorBlock (xorBlock v k) k
    _ = withFlat (xorBlock v k) (xorBits (xorBits (flat v) (flat k)) (flat k)) := by rw [xorBlock, flat_xorBlock hv hk h]
    _ = withFlat (xorBlock v k) (flat v) := by rw [xorBits_self_right hlen.le]
    _ = v := by rw [xorBlock, withFlat_withFlat, withFlat_flat]

theorem spDecRounds_append (p : Ports) (ks js : List BlockVal) : ∀ x : BlockVal,
    spDecRounds p (ks ++ js) x = spDecRounds p ks x >>= spDecRounds p js := by
  induction ks with
  | nil => intro x; rfl
  | cons k ks ih => intro x; simp only [List.cons_append, spDecRounds, ih, bind_assoc]

/-- R119: the inverse layers undo the layers on every legal matrix of this shape. -/
def LayersUndone (p : Ports) (rows cols : Nat) : Prop :=
  ∀ m : BlockVal, m.legal = true → shape m = .mx rows cols →
    (p.spIsub (p.spSub m).val).val = m ∧ (p.spIperm (p.spPerm m).val).val = m

section
variable {p : Ports} {rows cols : Nat} (hp : LayersUndone p rows cols)
include hp

/-- R118, R119: one decryption round undoes one encryption round on the same key. -/
theorem spDecRounds_of_round {k x y z : BlockVal} (hx : x.legal = true) (hs : shape x = .mx rows cols)
    (hk : k.legal = true) (hks : shape k = .mx rows cols) (hy : layer p.spSub x = .ok y) (hz : layer p.spPerm y = .ok z) :
    spDecRounds p [k] (xorBlock z k) = .ok x := by
  obtain ⟨hyl, hyx⟩ := legal_of_layer hy
  obtain ⟨hzl, hzy⟩ := legal_of_layer hz
  obtain ⟨-, rfl⟩ := layer_eq_ok.1 hy
  obtain ⟨-, rfl⟩ := layer_eq_ok.1 hz
  have hwhite := xorBlock_self_right hzl hk (hzy.trans <| hyx.trans <| hs.trans hks.symm)
  have hperm := (hp _ hyl (hyx.trans hs)).2
  have hsub := (hp x hx hs).1
  have h1 : layer p.spIperm (p.spPerm (p.spSub x).val).val = .ok (p.spSub x).val :=
    layer_eq_ok.2 ⟨by rw [hperm, hzy], hperm⟩
  have h2 : layer p.spIsub (p.spSub x).val = .ok x := layer_eq_ok.2 ⟨by rw [hsub, hyx], hsub⟩
  simp only [spDecRounds, hwhite, h1, h2, ok_bind]

/-- R119: round t of SPDec undoes round t of SPEnc. -/
theorem spDecRounds_reverse : ∀ {ks : List BlockVal} {x y : BlockVal}, x.legal = true → shape x = .mx rows cols →
    KeysFit ks x → spEncRounds p ks x = .ok y → spDecRounds p ks.reverse y = .ok x := by
  intro ks
  induction ks with
  | nil => rintro x y - - - ⟨⟩; rfl
  | cons k ks ih =>
    intro x y hx hs hfit h
    obtain ⟨v, hv, h⟩ := bind_eq_ok.1 h
    obtain ⟨w, hw, h⟩ := bind_eq_ok.1 h
    obtain ⟨hwl, hwv⟩ := legal_of_layer hw
    have hwx : shape w = shape x := hwv.trans (legal_of_layer hv).2
    obtain ⟨hkl, hkx⟩ := hfit k List.mem_cons_self
    obtain ⟨hl, hsw, hfit⟩ := (hfit.of_shape_eq hwx).whiten hwl
    rw [List.reverse_cons, spDecRounds_append, ih hl (hsw.trans (hwx.trans hs)) (hfit.of_shape_eq hsw) h, ok_bind]
    exact spDecRounds_of_round hp hx hs hkl (hkx.trans hs) hv hw

theorem spDec_of_spEnc {keys : List BlockVal} {x y : BlockVal} (hx : x.legal = true) (hs : shape x = .mx rows cols)
    (hfit : KeysFit keys x) (h : spEnc p keys x = .ok y) : spDec p keys y = .ok x := by
  cases keys with
  | nil => cases h; rfl
  | cons k0 ks =>
    obtain ⟨hkl, hkx⟩ := hfit k0 List.mem_cons_self
    obtain ⟨hl, hsw, hfit⟩ := hfit.whiten hx
    have hback := spDecRounds_reverse hp hl (hsw.trans hs) (hfit.of_shape_eq hsw) h
    simp only [spDec, hback, ok_bind, pure_eq_ok, xorBlock_self_right hx hkl hkx.symm]

end

/-- Settles O50: one key whitens alone, and the rounds are undone in reverse. -/
theorem spInverse : Obligations.SpInverse :=
  ⟨fun _ _ _ => ⟨rfl, rfl⟩, fun _ _ _ _ _ _ hp hx hs hk =>
    spDec_of_spEnc hp hx hs fun k hm => ⟨(hk k hm).1, (hk k hm).2.trans hs.symm⟩⟩

end Sys2Proof.Machine

/-! ### A missing key, and the checks of a mode command in order (43_structures.md R111, R117, 44_modes.md R123, R124) -/

namespace Sys2Proof.Machine

theorem presentKeys_of_none_mem {l : List RegVal} (h : none ∈ l) : presentKeys l = .error .absent := by
  cases hk : presentKeys l with
  | error e => rw [raises_presentKeys (q := (· = .absent)) rfl l e hk]
  | ok keys => rw [presentKeys_eq_ok.1 hk] at h; simp at h

section
variable {s : State} {keys : List BlockVal} {c : Cipher} {chained dec : Bool}

theorem feistelKeys_of_none_mem (h : none ∈ s.keyF.toList.take s.frounds.toNat) : s.feistelKeys = .error .absent :=
  presentKeys_of_none_mem h

theorem spKeys_of_none_mem (h : none ∈ s.keyS.toList.take (s.sprounds.toNat + 1)) : s.spKeys = .error .absent :=
  presentKeys_of_none_mem h

theorem mem_iff_of_spKeys (hk : s.spKeys = .ok keys) (k : BlockVal) :
    some k ∈ s.keyS.toList.take (s.sprounds.toNat + 1) ↔ k ∈ keys := by
  rw [spKeys_eq_ok.1 hk, List.mem_map_of_injective (Option.some_injective _)]

/-! The selected cipher and its shape. -/

theorem cipherPresent_eq_ok_of_sp (hsel : s.cipherSel = .sp) (hc : s.cipherPresent = .ok c) :
    ∃ keys, s.spKeys = .ok keys ∧ c = .sp s.sprows.toNat s.spCols keys := by
  rw [cipherPresent_sp hsel] at hc
  obtain ⟨keys, hk, hc⟩ := bind_eq_ok.1 hc
  exact ⟨keys, hk, (Except.ok.inj hc).symm⟩

theorem cipherShape_sp (s : State) (rows cols : Nat) (keys : List BlockVal) : s.cipherShape (.sp rows cols keys) =
    need (s.nu % s.sprows.toNat = 0 ∧ s.spCols ≤ 64) .config >>= fun _ => s.spKeysShape keys := rfl

/-- R123: the view check comes first. -/
theorem cipherShape_of_view_not_fit (hsel : s.cipherSel = .sp) (hc : s.cipherPresent = .ok c)
    (h : s.nu % s.sprows.toNat ≠ 0 ∨ 64 < s.spCols) : s.cipherShape c = .error .config := by
  obtain ⟨keys, -, rfl⟩ := cipherPresent_eq_ok_of_sp hsel hc
  rw [cipherShape_sp, need_false (by omega), error_bind]

theorem cipherShape_of_key_not_fit (hsel : s.cipherSel = .sp) (hc : s.cipherPresent = .ok c)
    (hview : s.nu % s.sprows.toNat = 0 ∧ s.spCols ≤ 64) {k : BlockVal}
    (hk : some k ∈ s.keyS.toList.take (s.sprounds.toNat + 1)) (hshape : shape k ≠ .mx s.sprows.toNat s.spCols) :
    s.cipherShape c = .error .mismatch := by
  obtain ⟨keys, hkeys, rfl⟩ := cipherPresent_eq_ok_of_sp hsel hc
  rw [cipherShape_sp, need_true hview, ok_bind]
  exact need_false (fun hall => hshape (hall k ((mem_iff_of_spKeys hkeys k).1 hk))) _

/-- R123: only the SP cipher has a shape to check. -/
theorem cipherShape_of_ne_sp (hsel : s.cipherSel ≠ .sp) (hc : s.cipherPresent = .ok c) : s.cipherShape c = .ok () := by
  unfold State.cipherPresent at hc
  split at hc
  · cases hc
  · obtain ⟨keys, -, hc⟩ := bind_eq_ok.1 hc
    cases hc; rfl
  · exact absurd ‹_› hsel
  · cases hc; rfl
  · cases hc; rfl

theorem cipherShape_of_fit (hc : s.cipherPresent = .ok c)
    (h : s.cipherSel = .sp → s.nu % s.sprows.toNat = 0 ∧ s.spCols ≤ 64 ∧
      ∀ k, some k ∈ s.keyS.toList.take (s.sprounds.toNat + 1) → shape k = .mx s.sprows.toNat s.spCols) :
    s.cipherShape c = .ok () := by
  by_cases hsel : s.cipherSel = .sp
  · obtain ⟨keys, hkeys, rfl⟩ := cipherPresent_eq_ok_of_sp hsel hc
    obtain ⟨hdiv, hcols, hshape⟩ := h hsel
    rw [cipherShape_sp, need_true ⟨hdiv, hcols⟩, ok_bind]
    exact need_true (fun k hk => hshape k ((mem_iff_of_spKeys hkeys k).2 hk)) _
  · exact cipherShape_of_ne_sp hsel hc

theorem all_packable_message_iff :
    s.message.all packable = true ↔ ∀ j, j < s.inLen.toNat → (s.entry .input j).toNat ≤ 0xFF := by
  rw [State.message, all_packable_entries]
  simp only [Nat.zero_add]

/-! The checks passed so far, and what is left to check. -/

theorem modeCheck_of_no_cipher {e : Err} (hc : s.cipherPresent = .error e) : s.modeCheck chained dec = .error e := by
  rw [State.modeCheck, hc, error_bind]

theorem modeCheck_of_no_seed (hc : s.cipherPresent = .ok c) (hchained : chained = true) (hseed : s.seedValid = false) :
    s.modeCheck chained dec = .error .absent := by
  rw [State.modeCheck, hc, ok_bind, need_false (by simp [hchained, hseed]), error_bind]

theorem modeCheck_of_seed (hc : s.cipherPresent = .ok c) (hseed : chained = true → s.seedValid = true) :
    s.modeCheck chained dec = s.cipherShape c >>= fun _ => need (s.inLen.toNat ≤ 128 * s.nu) .bound >>= fun _ =>
      need (dec = true → s.inLen.toNat % s.nu = 0) .notMult >>= fun _ =>
        need (s.message.all packable = true) .unitRange >>= fun _ => .ok c := by
  rw [State.modeCheck, hc, ok_bind, need_true hseed]
  rfl

end

/-- Settles O51: each check by the case in which those before it pass. -/
theorem modeChecksInOrder : Obligations.ModeChecksInOrder := by
  intro s chained dec nu cols
  refine ⟨fun hsel => modeCheck_of_no_cipher (by rw [State.cipherPresent, hsel]), fun hsel hn => modeCheck_of_no_cipher ?_,
    fun hsel hn => modeCheck_of_no_cipher ?_, fun c hc => ⟨modeCheck_of_no_seed hc, fun hseed => ?_⟩⟩
  · rw [cipherPresent_feistel hsel, feistelKeys_of_none_mem hn, error_bind]
  · rw [cipherPresent_sp hsel, spKeys_of_none_mem hn, error_bind]
  rw [modeCheck_of_seed hc hseed]
  refine ⟨fun hsel hview => ?_, fun hsel hdiv hcols ⟨k, hk, hshape⟩ => ?_, fun hfit => ?_⟩
  · rw [cipherShape_of_view_not_fit hsel hc hview, error_bind]
  · rw [cipherShape_of_key_not_fit hsel hc ⟨hdiv, hcols⟩ hk hshape, error_bind]
  rw [cipherShape_of_fit hc hfit, ok_bind]
  refine ⟨fun (hlong : 128 * s.nu < _) => ?_, fun (hbound : _ ≤ 128 * s.nu) => ?_⟩
  · rw [need_false hlong.not_ge, error_bind]
  rw [need_true hbound, ok_bind]
  refine ⟨fun hdec (hmod : _ % s.nu ≠ 0) => ?_, fun (hmult : dec = true → _ % s.nu = 0) => ?_⟩
  · rw [need_false fun h => hmod (h hdec), error_bind]
  rw [need_true hmult, ok_bind]
  refine ⟨fun ⟨j, hj, hbig⟩ => ?_, fun hsmall => ?_⟩
  · rw [need_false fun h => (all_packable_message_iff.1 h j hj).not_gt hbig, error_bind]
  · rw [need_true (all_packable_message_iff.2 hsmall), ok_bind]

end Sys2Proof.Machine

/-! ### FEN, FDE, SPEN and SPDE: the checks in order (43_structures.md R114, R115, R120, R121) -/

namespace Sys2Proof.Machine

/-- R112, R118: the structures raise MISMATCH only, so a structure command completes with its result or with that record. -/
theorem complete_result {α : Type} {opc : Byte} {s : State} {r : Except Err α} {write : α → State}
    {o : Host.Outcome State Fault Refusal} (hr : Raises (.mismatch = ·) r)
    (hok : ∀ y, r = .ok y → o = succeedsWith (write y) 0) (herr : ∀ e, r = .error e → o = failsWith s opc.toNat 1 0x02) :
    complete opc s (r >>= fun y => .ok (write y, 0)) = o := by
  cases r with
  | ok y => exact (hok y rfl).symm
  | error e => obtain rfl := hr e rfl; exact (herr _ rfl).symm

section
variable {s : State} {rd rs1 : Reg} {a : BlockVal} {keys : List BlockVal}

/-! Feistel. -/

section
variable {opc : Byte} {f : List BlockVal → Bits → Except Err Bits}

theorem feistelCommand_of_missing_key (ha : s.readBr rs1 = some a) (hn : none ∈ s.keyF.toList.take s.frounds.toNat) :
    feistelCommand opc f rd rs1 s = failsWith s opc.toNat 1 0x01 :=
  (complete_source ha).trans (complete_bind_error (feistelKeys_of_none_mem hn))

theorem feistelCommand_of_input_error (e : Err) (ha : s.readBr rs1 = some a) (hk : s.feistelKeys = .ok keys)
    (hi : feistelInput s a = .error e) :
    feistelCommand opc f rd rs1 s = failsWith s opc.toNat e.classCode e.detailCode :=
  (complete_source ha).trans ((complete_bind_ok hk).trans (complete_bind_error hi))

end

theorem feistelInput_mx (s : State) (m : ByteMatrix) : feistelInput s (.mx m) = .error .kind := rfl

theorem feistelInput_bv (s : State) (x : Bits) : feistelInput s (.bv x) =
    need (x.length % 2 = 0) .width >>= fun _ => need (x.length = s.blockBits.toNat) .width >>= fun _ => .ok x := rfl

theorem feistelInput_of_width {x : Bits} (h : x.length % 2 ≠ 0 ∨ x.length ≠ s.blockBits.toNat) :
    feistelInput s (.bv x) = .error .width := by
  rw [feistelInput_bv]
  by_cases heven : x.length % 2 = 0
  · rw [need_true heven, ok_bind, need_false (h.resolve_left (not_not_intro heven)), error_bind]
  · rw [need_false heven, error_bind]

/-! SP. -/

/-- R120, R121: the SP command of opcode `opc`, with `f` in place of SPEnc or SPDec. -/
def spCommand (opc : Byte) (f : List BlockVal → BlockVal → Except Err BlockVal) (rd rs1 : Reg) (s : State) :
    Host.Outcome State Fault Refusal :=
  complete opc s (s.source rs1 >>= fun v => s.spKeys >>= fun keys => spInput s v keys >>= fun _ =>
    f keys v >>= fun y => .ok (s.writeBr rd y, 0))

theorem exec_spen (rd rs1 : Reg) (s : State) :
    exec (.spen rd rs1) s = spCommand 0x32 (spEnc Config.ports) rd rs1 s := rfl

theorem exec_spde (rd rs1 : Reg) (s : State) :
    exec (.spde rd rs1) s = spCommand 0x33 (spDec Config.ports) rd rs1 s := rfl

section
variable {opc : Byte} {f : List BlockVal → BlockVal → Except Err BlockVal}

theorem spCommand_of_missing_key (ha : s.readBr rs1 = some a)
    (hn : none ∈ s.keyS.toList.take (s.sprounds.toNat + 1)) :
    spCommand opc f rd rs1 s = failsWith s opc.toNat 1 0x01 :=
  (complete_source ha).trans (complete_bind_error (spKeys_of_none_mem hn))

theorem spCommand_of_input_error (e : Err) (ha : s.readBr rs1 = some a) (hk : s.spKeys = .ok keys)
    (hi : spInput s a keys = .error e) :
    spCommand opc f rd rs1 s = failsWith s opc.toNat e.classCode e.detailCode :=
  (complete_source ha).trans ((complete_bind_ok hk).trans (complete_bind_error hi))

/-- An SP command past its checks. -/
theorem spCommand_of_checks (ha : s.readBr rs1 = some a) (hk : s.spKeys = .ok keys) (hi : spInput s a keys = .ok ()) :
    spCommand opc f rd rs1 s = complete opc s (f keys a >>= fun y => .ok (s.writeBr rd y, 0)) :=
  (complete_source ha).trans ((complete_bind_ok hk).trans (complete_bind_ok hi))

end

theorem spInput_bv (s : State) (x : Bits) (keys : List BlockVal) : spInput s (.bv x) keys = .error .kind := rfl

theorem spInput_mx (s : State) (m : ByteMatrix) (keys : List BlockVal) : spInput s (.mx m) keys =
    need (m.rows = s.sprows.toNat ∧ 8 * m.rows * m.cols = s.blockBits.toNat) .width >>= fun _ => s.spKeysShape keys := rfl

theorem spInput_of_width {m : ByteMatrix} (h : m.rows ≠ s.sprows.toNat ∨ 8 * m.rows * m.cols ≠ s.blockBits.toNat)
    (keys : List BlockVal) : spInput s (.mx m) keys = .error .width := by
  rw [spInput_mx, need_false fun hfit => h.elim (· hfit.1) (· hfit.2), error_bind]

theorem spInput_of_fit {m : ByteMatrix} (hrows : m.rows = s.sprows.toNat)
    (hbits : 8 * m.rows * m.cols = s.blockBits.toNat) (keys : List BlockVal) :
    spInput s (.mx m) keys = s.spKeysShape keys := by
  rw [spInput_mx, need_true ⟨hrows, hbits⟩, ok_bind]

theorem spKeysShape_of_key_not_fit (h : ∃ k ∈ keys, shape k ≠ .mx s.sprows.toNat s.spCols) :
    s.spKeysShape keys = .error .mismatch :=
  need_false (fun hall => h.elim fun k ⟨hk, hne⟩ => hne (hall k hk)) _

theorem spKeysShape_of_fit (h : ∀ k ∈ keys, shape k = .mx s.sprows.toNat s.spCols) : s.spKeysShape keys = .ok () :=
  need_true h _

end

/-- Settles O46: each check by the case in which those before it pass, for any opcode and transform at once. -/
theorem feistelCommands : Obligations.FeistelCommands := by
  intro s rd rs1 a ha
  rw [exec_fen, exec_fde]
  refine ⟨fun hn => ⟨feistelCommand_of_missing_key ha hn, feistelCommand_of_missing_key ha hn⟩, fun keys hkeys => ?_⟩
  have hk := feistelKeys_eq_ok.2 hkeys
  refine ⟨fun m hm => ?_, fun x hx => ⟨fun hw => ?_, fun heven hlen => ?_⟩⟩ <;> subst a
  · have hi := feistelInput_mx s m
    exact ⟨feistelCommand_of_input_error .kind ha hk hi, feistelCommand_of_input_error .kind ha hk hi⟩
  · have hi := feistelInput_of_width hw
    exact ⟨feistelCommand_of_input_error .width ha hk hi, feistelCommand_of_input_error .width ha hk hi⟩
  rw [feistelCommand_of_checks ha hk heven hlen, feistelCommand_of_checks ha hk heven hlen]
  refine ⟨complete_result (raises_feistelEnc rfl keys x) (fun _ h => by rw [h]; rfl) fun _ h => by rw [h]; rfl,
    complete_result (raises_feistelDec rfl keys x) (fun _ h => by rw [h]; rfl) fun _ h => by rw [h]; rfl, fun h0 => ?_⟩
  have hnil : keys = [] := by simpa [h0] using hkeys.symm
  rw [hnil, feistelEnc_nil heven, feistelDec_nil heven]
  exact ⟨rfl, rfl⟩

/-- Settles O48: each check by the case in which those before it pass, for any opcode and transform at once. -/
theorem spCommands : Obligations.SpCommands := by
  intro s rd rs1 a ha
  rw [exec_spen, exec_spde]
  refine ⟨fun hn => ⟨spCommand_of_missing_key ha hn, spCommand_of_missing_key ha hn⟩, fun keys hkeys => ?_⟩
  have hk := spKeys_eq_ok.2 hkeys
  refine ⟨fun x hx => ?_, fun m hm => ⟨fun hw => ?_, fun hrows hbits => ⟨fun hbad => ?_, fun hfit => ?_⟩⟩⟩ <;> subst a
  · have hi := spInput_bv s x keys
    exact ⟨spCommand_of_input_error .kind ha hk hi, spCommand_of_input_error .kind ha hk hi⟩
  · have hi := spInput_of_width hw keys
    exact ⟨spCommand_of_input_error .width ha hk hi, spCommand_of_input_error .width ha hk hi⟩
  · have hi := (spInput_of_fit hrows hbits keys).trans (spKeysShape_of_key_not_fit hbad)
    exact ⟨spCommand_of_input_error .mismatch ha hk hi, spCommand_of_input_error .mismatch ha hk hi⟩
  have hi := (spInput_of_fit hrows hbits keys).trans (spKeysShape_of_fit hfit)
  rw [spCommand_of_checks ha hk hi, spCommand_of_checks ha hk hi]
  refine ⟨complete_result (raises_spEnc rfl keys _) (fun _ h => by rw [h]; rfl) fun _ h => by rw [h]; rfl,
    complete_result (raises_spDec rfl keys _) (fun _ h => by rw [h]; rfl) fun _ h => by rw [h]; rfl, ?_⟩
  rintro k rfl
  exact ⟨rfl, rfl⟩

end Sys2Proof.Machine

/-! ### The message put back into IN (44_modes.md R124, R138) -/

namespace Sys2Proof.Machine

variable {s : State} {w : List CodeUnit} {m : Memory} {d : Nat}

/-- `s` with `n` units of `m` as its message, at the draw number `d`. -/
def State.withMessage (s : State) (m : Memory) (n d : Nat) : State :=
  { s with inBuf := m, inLen := BitVec.ofNat 64 n, draws := d }

theorem nu_withMessage (s : State) (m : Memory) (n d : Nat) : (s.withMessage m n d).nu = s.nu := rfl

theorem toNat_inLen_withMessage {n : Nat} (hn : n < 2 ^ 64) : (s.withMessage m n d).inLen.toNat = n :=
  Nat.mod_eq_of_lt hn

theorem message_withMessage (hm : ∀ i, i < w.length → m.find i = w[i]?) (hn : w.length < 2 ^ 64) :
    (s.withMessage m w.length d).message = w := by
  refine List.ext_getElem (by rw [length_message, toNat_inLen_withMessage hn]) fun i _ hi => ?_
  have hfind : ((s.withMessage m w.length d).space .input).find i = some w[i] :=
    (hm i hi).trans (List.getElem?_eq_getElem hi)
  simp [State.message, State.entries, entry_of_find hfind]

/-- R124: the checks read nothing else that the message changes, so a message within the bound, whole chunks where they must
be, and of byte units passes them again. -/
theorem modeCheck_withMessage {chained dec dec' : Bool} {c : Cipher} (hc : s.modeCheck chained dec = .ok c)
    (hm : ∀ i, i < w.length → m.find i = w[i]?) (hn : w.length < 2 ^ 64) (hbound : w.length ≤ 128 * s.nu)
    (hmult : dec' = true → w.length % s.nu = 0) (hbytes : w.all packable = true) :
    (s.withMessage m w.length d).modeCheck chained dec' = .ok c := by
  obtain ⟨hsel, hseed, hshape, -, -, -⟩ := modeCheck_eq_ok hc
  have hsel' : (s.withMessage m w.length d).cipherPresent = .ok c := hsel
  have hshape' : (s.withMessage m w.length d).cipherShape c = .ok () := hshape
  rw [modeCheck_of_seed hsel' hseed, hshape', ok_bind, nu_withMessage, toNat_inLen_withMessage hn,
    message_withMessage hm hn, need_true hbound, ok_bind, need_true hmult, ok_bind, need_true hbytes, ok_bind]

end Sys2Proof.Machine

/-! ### The stream modes (44_modes.md R129, R134 - R138)

CFB and OFB run one unit loop and differ in the byte fed back, so each fact is of the loop, for any feedback. -/

namespace Sys2Proof.Machine

variable {s : State} {p : Ports} {c : Cipher} {e : Bits → Except Err Bits} {fb fb' : Feedback} {w : List CodeUnit}

/-- The result of a stream mode that feeds back `fb` (R134 - R137). -/
def streamModeUnits (p : Ports) (s : State) (fb : Feedback) : Except Err (List CodeUnit) :=
  s.modeCheck true false >>= fun c => streamUnits (c.enc p) fb ⟨s.seed⟩ s.message

/-- The stream mode commands, each with its feedback. -/
def streamCommands : List (Instr × Feedback) :=
  [(.cfbe, cfbEncFeedback), (.cfbd, cfbDecFeedback), (.ofbe, ofbFeedback), (.ofbd, ofbFeedback)]

theorem exec_streamCommand {i : Instr} (h : (i, fb) ∈ streamCommands) (s : State) :
    exec i s = completeMode i.opcode s (streamModeUnits Config.ports s fb) := by
  simp only [streamCommands, List.mem_cons, List.not_mem_nil, or_false, Prod.mk.injEq] at h
  obtain ⟨rfl, rfl⟩ | ⟨rfl, rfl⟩ | ⟨rfl, rfl⟩ | ⟨rfl, rfl⟩ := h
  all_goals rfl

theorem keyByte_eq (e : Bits → Except Err Bits) (sr : Bits) :
    (StreamReg.mk sr).keyByte e = e sr >>= fun z => .ok (byteOf z 1) := rfl

/-- R129: SR without its first byte, then the byte shifted in. -/
theorem shift_eq (sr : Bits) (b : Byte) : (StreamReg.mk sr).shift b = ⟨sr.drop 8 ++ bitsOfByte b⟩ := by
  have hdrop : slice sr 8 sr.length = sr.drop 8 := List.take_of_length_le (List.length_drop ..).le
  rw [StreamReg.shift, hdrop]

/-- R134 - R137: one unit of the loop. -/
theorem streamUnits_cons (e : Bits → Except Err Bits) (fb : Feedback) (sr : StreamReg) (u : CodeUnit) (us : List CodeUnit) :
    streamUnits e fb sr (u :: us) = sr.keyByte e >>= fun k =>
      streamUnits e fb (sr.shift (fb k u (u ^^^ unitOfByte k))) us >>= fun ys => .ok ((u ^^^ unitOfByte k) :: ys) := rfl

/-- R138: a loop that feeds back, from what it reads, the byte the other fed back, from what it made, undoes the other. -/
theorem streamUnits_undo (hfb : ∀ k u y, fb' k y u = fb k u y) {us : List CodeUnit} : ∀ {sr : StreamReg} {ys : List CodeUnit},
    streamUnits e fb sr us = .ok ys → streamUnits e fb' sr ys = .ok us := by
  induction us with
  | nil => rintro sr ys ⟨⟩; rfl
  | cons u us ih =>
    intro sr ys h
    obtain ⟨k, hk, h⟩ := bind_eq_ok.1 h
    obtain ⟨ys', hys, h⟩ := bind_eq_ok.1 h
    obtain rfl := Except.ok.inj h
    have hback : (u ^^^ unitOfByte k) ^^^ unitOfByte k = u := by rw [BitVec.xor_assoc, BitVec.xor_self, BitVec.xor_zero]
    rw [streamUnits_cons, hk, ok_bind, hback, hfb, ih hys, ok_bind]

/-- R138: the output of a stream mode has as many units as the message, each a byte. -/
theorem streamModeUnits_bytes (h : streamModeUnits p s fb = .ok w) :
    w.length = s.inLen.toNat ∧ w.all packable = true := by
  obtain ⟨c, hc, h⟩ := bind_eq_ok.1 h
  obtain ⟨-, -, -, -, -, hunits⟩ := modeCheck_eq_ok hc
  obtain ⟨hlen, hbytes⟩ := streamUnits_bytes hunits h
  exact ⟨hlen.trans (length_message s), List.all_eq_true.2 fun u hu => decide_eq_true (hbytes u hu)⟩

/-- R138: a stream mode on the output of another. -/
theorem streamModeUnits_undo {m : Memory} {d : Nat} (hfb : ∀ k u y, fb' k y u = fb k u y)
    (hm : ∀ i, i < w.length → m.find i = w[i]?) (h : streamModeUnits p s fb = .ok w) :
    streamModeUnits p (s.withMessage m w.length d) fb' = .ok s.message := by
  obtain ⟨hlen, hbytes⟩ := streamModeUnits_bytes h
  obtain ⟨c, hc, hw⟩ := bind_eq_ok.1 h
  obtain ⟨-, -, -, hbound, -, -⟩ := modeCheck_eq_ok hc
  have hn : w.length < 2 ^ 64 := hlen ▸ s.inLen.isLt
  rw [streamModeUnits, modeCheck_withMessage hc hm hn (hlen.trans_le hbound) Bool.noConfusion hbytes, ok_bind,
    message_withMessage hm hn]
  exact streamUnits_undo hfb hw

/-- Settles O56: CFB decryption feeds back the byte it reads, which is the one CFB encryption made; OFB feeds back the key
byte either way. -/
theorem streamModesRoundTrip : Obligations.StreamModesRoundTrip := fun _ _ _ _ _ hm =>
  ⟨streamModeUnits_undo (fb := cfbEncFeedback) (fb' := cfbDecFeedback) (fun _ _ _ => rfl) hm, fun h =>
    have hback := streamModeUnits_undo (fb := ofbFeedback) (fb' := ofbFeedback) (fun _ _ _ => rfl) hm h
    ⟨hback, hback⟩⟩

/-- R128, R153, R155, R157: past its checks a stream mode command outputs its loop's result, or fails with MISMATCH. -/
theorem exec_streamMode {i : Instr} (h : (i, fb) ∈ streamCommands) (hc : s.modeCheck true false = .ok c) :
    ∃ t, exec i s = .next t ∧
      match streamUnits (c.enc Config.ports) fb ⟨s.seed⟩ s.message with
      | .ok w => OutputsOnly s t w s.batchCount
      | .error _ => ModeFails s t i.opcode.toNat 1 0x02 := by
  rw [exec_streamCommand h, streamModeUnits, hc, ok_bind]
  cases hw : streamUnits (c.enc Config.ports) fb ⟨s.seed⟩ s.message with
  | ok w => exact completeMode_ok i.opcode s w
  | error e =>
    obtain rfl := raises_streamUnits (raises_enc (q := (· = .mismatch)) rfl c) fb _ _ e hw
    exact completeMode_error i.opcode s .mismatch

/-- Settles O54: one unit of the loop, by whether E answers, and the commands by `exec_streamMode`. -/
theorem streamModeResults : Obligations.StreamModeResults := by
  refine ⟨fun e fb sr => ⟨rfl, fun u us => ⟨fun er he => ?_, fun z hz => ⟨byteOf z 1, fun hlen j hj => ?_, ?_⟩⟩⟩,
    fun k u y => ⟨rfl, rfl, rfl⟩, fun s c hc i fb hi => exec_streamMode hi hc⟩
  · rw [streamUnits_cons, keyByte_eq, he, error_bind, error_bind]
  · simpa using byteOf_getMsbD (k := 0) hlen hj
  · rw [streamUnits_cons, keyByte_eq, hz, ok_bind, ok_bind, shift_eq, bind_ok_eq_map]
    rfl

end Sys2Proof.Machine

/-! ### Mode commands that are refused (44_modes.md R122 - R124, 45_executor.md R142, 60_exceptions.md R154 - R157) -/

namespace Sys2Proof.Machine

variable {s : State} {i j : Instr} {chained dec : Bool} {c : Cipher} {e : Err}

/-- Mode command `i` completes from `s` with the record of `e` (R157). -/
def ModeRefuses (s : State) (e : Err) (i : Instr) : Prop :=
  ∃ t, exec i s = .next t ∧ ModeFails s t i.opcode.toNat e.classCode e.detailCode

theorem ecbe_mem : (.ecbeMt, .ecbe, false, false) ∈ blockCommands := .head _

theorem ecbd_mem : (.ecbdMt, .ecbd, false, true) ∈ blockCommands := .tail _ (.head _)

theorem cbce_mem : (.cbceMt, .cbce, true, false) ∈ blockCommands := .tail _ (.tail _ (.head _))

theorem cbcd_mem : (.cbcdMt, .cbcd, true, true) ∈ blockCommands := .tail _ (.tail _ (.tail _ (.head _)))

/-- R124, R157: a block mode command whose checks fail. -/
theorem blockCommand_refuses (h : (i, j, chained, dec) ∈ blockCommands) (he : s.modeCheck chained dec = .error e) :
    ModeRefuses s e i ∧ ModeRefuses s e j := by
  obtain ⟨hi, hj⟩ := exec_blockCommand h s
  rw [blockMtUnits, he, error_bind] at hi
  rw [blockUnits, he, error_bind] at hj
  rw [ModeRefuses, ModeRefuses, hi, hj]
  exact ⟨completeMt_error i.opcode s e, completeMode_error j.opcode s e⟩

/-- R124, R157: a stream mode command whose checks fail. -/
theorem streamCommand_refuses {fb : Feedback} (h : (i, fb) ∈ streamCommands) (he : s.modeCheck true false = .error e) :
    ModeRefuses s e i := by
  rw [ModeRefuses, exec_streamCommand h, streamModeUnits, he, error_bind]
  exact completeMode_error i.opcode s e

/-- R142, R157: a multithreaded command past its checks, whose pool is not READY. -/
theorem mtCommand_refuses (h : (i, chained, dec) ∈ mtCommands) (hc : s.modeCheck chained dec = .ok c)
    (hp : s.poolCheck = .error e) : ModeRefuses s e i := by
  have h' : (i, chained, dec) ∈ blockCommands.map fun q => (q.1, q.2.2) := h
  obtain ⟨⟨_, j, _, _⟩, hmem, heq⟩ := List.mem_map.1 h'
  cases heq
  rw [ModeRefuses, (exec_blockCommand hmem s).1, blockMtUnits, hc, ok_bind, hp, error_bind]
  exact completeMt_error _ s e

theorem poolCheck_absent (h : s.poolState = .absent) : s.poolCheck = .error .poolAbsent := by
  rw [State.poolCheck, need_false (not_not_intro h), error_bind]

theorem poolCheck_shutdown (h : s.poolState = .shutdown) : s.poolCheck = .error .poolShutdown := by
  rw [State.poolCheck, need_true (by rw [h]; decide), ok_bind, need_false (not_not_intro h)]

/-- Settles O52: the numbers by R154's table, and the refusals of the block, stream and multithreaded commands. -/
theorem modeRefusalsRecorded : Obligations.ModeRefusalsRecorded := by
  refine ⟨by decide, fun s e => ⟨fun he => ?_, fun he => ?_, fun he => ?_, fun he => ?_, fun i chained dec c hi hc => ?_⟩⟩
  · obtain ⟨hmt, hst⟩ := blockCommand_refuses ecbe_mem he
    exact List.forall_mem_cons.2 ⟨hst, List.forall_mem_singleton.2 hmt⟩
  · obtain ⟨hmt, hst⟩ := blockCommand_refuses ecbd_mem he
    exact List.forall_mem_cons.2 ⟨hst, List.forall_mem_singleton.2 hmt⟩
  · obtain ⟨hmt, hst⟩ := blockCommand_refuses cbce_mem he
    have hstream : ∀ i ∈ streamCommands.map Prod.fst, ModeRefuses s e i :=
      List.forall_mem_map.2 fun q hq => streamCommand_refuses hq he
    exact List.forall_mem_cons.2 ⟨hst, List.forall_mem_append.2 ⟨hstream, List.forall_mem_singleton.2 hmt⟩⟩
  · obtain ⟨hmt, hst⟩ := blockCommand_refuses cbcd_mem he
    exact List.forall_mem_cons.2 ⟨hst, List.forall_mem_singleton.2 hmt⟩
  · exact ⟨fun hp => mtCommand_refuses hi hc (poolCheck_absent hp), fun hp => mtCommand_refuses hi hc (poolCheck_shutdown hp)⟩

end Sys2Proof.Machine

/-! ### Whole chunks (44_modes.md R127, R130 - R133)

From a legal state every chunk has exactly BLOCK_BITS bits, before and after E and D. -/

namespace Sys2Proof.Machine

variable {s : State} {p : Ports} {c : Cipher} {W nu : Nat} {cs out : List Bits} {f : Bits → Except Err Bits}

/-- Every chunk has exactly `W` bits. -/
def WholeChunks (W : Nat) (cs : List Bits) : Prop := ∀ x ∈ cs, x.length = W

/-- A transform that answers `W` bits on `W` bits. -/
def KeepsWidth (W : Nat) (f : Bits → Except Err Bits) : Prop := ∀ x y : Bits, x.length = W → f x = .ok y → y.length = W

/-! The codec. -/

theorem wholeChunks_chunks (nu : Nat) (us : List CodeUnit) : WholeChunks (8 * nu) (chunks nu us) := by
  intro x hx
  obtain ⟨i, hi, rfl⟩ := List.mem_map.1 hx
  rw [length_packUnits, length_chunk (List.mem_range.1 hi)]

theorem slice_append_right {α : Type} (u v : List α) (a b : Nat) :
    slice (u ++ v) (u.length + a) (u.length + b) = slice v a b := by
  rw [slice, slice, List.drop_length_add_append, Nat.add_sub_add_left]

/-- R127: the first chunk is the first `nu` units packed. -/
theorem chunks_append {u : List CodeUnit} (hnu : 0 < nu) (hu : u.length = nu) (us : List CodeUnit) :
    chunks nu (u ++ us) = packUnits u :: chunks nu us := by
  have hdiv : (u ++ us).length / nu = us.length / nu + 1 := by rw [List.length_append, hu, Nat.add_div_left _ hnu]
  have hfirst : slice (u ++ us) (0 * nu) ((0 + 1) * nu) = u := by simp [slice, ← hu]
  have hnext : ∀ i, slice (u ++ us) ((i + 1) * nu) ((i + 1 + 1) * nu) = slice us (i * nu) ((i + 1) * nu) := fun i => by
    rw [Nat.succ_mul (i + 1), Nat.add_comm ((i + 1) * nu), Nat.succ_mul i, Nat.add_comm (i * nu), ← hu, slice_append_right]
  simp only [chunks, hdiv, List.range_succ_eq_map, List.map_cons, List.map_map, Function.comp_def, Nat.succ_eq_add_one,
    hfirst, hnext]

theorem wholeChunks_cons {x : Bits} {xs : List Bits} : WholeChunks W (x :: xs) ↔ x.length = W ∧ WholeChunks W xs :=
  List.forall_mem_cons

/-- R127: whole chunks unpacked are cut into the same chunks. -/
theorem chunks_unitsOfChunks (hnu : 0 < nu) (h : WholeChunks (8 * nu) cs) : chunks nu (unitsOfChunks cs) = cs := by
  induction cs with
  | nil => exact chunks_nil nu
  | cons x xs ih =>
    obtain ⟨hx, hxs⟩ := wholeChunks_cons.1 h
    have hu : (unpackBits x).length = nu := by rw [length_unpackBits, hx, Nat.mul_div_cancel_left nu (by decide)]
    rw [unitsOfChunks, List.flatMap_cons, chunks_append hnu hu, packUnits_unpackBits (by rw [hx, Nat.mul_mod_right])]
    exact congrArg (x :: ·) (ih hxs)

theorem length_unitsOfChunks (h : WholeChunks (8 * nu) cs) : (unitsOfChunks cs).length = cs.length * nu := by
  induction cs with
  | nil => exact (Nat.zero_mul nu).symm
  | cons x xs ih =>
    obtain ⟨hx, hxs⟩ := wholeChunks_cons.1 h
    rw [unitsOfChunks, List.flatMap_cons, List.length_append, ← unitsOfChunks, ih hxs, length_unpackBits, hx,
      Nat.mul_div_cancel_left nu (by decide), List.length_cons, Nat.succ_mul, Nat.add_comm]

theorem all_packable_unitsOfChunks (cs : List Bits) : (unitsOfChunks cs).all packable = true := by
  refine List.all_eq_true.2 fun u hu => ?_
  obtain ⟨x, -, hx⟩ := List.mem_flatMap.1 hu
  exact decide_eq_true (toNat_le_of_mem_unpackBits hx)

/-! The chunk loops. -/

/-- The shape all three chunk loops have: one result before those of the chunks after it. -/
theorem wholeChunks_of_loop {x : Bits} {a : Except Err Bits} {g : Bits → Bits} {rest : Bits → Except Err (List Bits)}
    (hx : ∀ y, a = .ok y → (g y).length = W)
    (hxs : ∀ {y ys}, a = .ok y → rest y = .ok ys → ys.length = cs.length ∧ WholeChunks W ys)
    (h : (a >>= fun y => rest y >>= fun ys => .ok (g y :: ys)) = .ok out) :
    out.length = (x :: cs).length ∧ WholeChunks W out := by
  obtain ⟨y, ha, h⟩ := bind_eq_ok.1 h
  obtain ⟨ys, hr, h⟩ := bind_eq_ok.1 h
  obtain rfl := Except.ok.inj h
  obtain ⟨hlen, hys⟩ := hxs ha hr
  exact ⟨congrArg (· + 1) hlen, wholeChunks_cons.2 ⟨hx y ha, hys⟩⟩

theorem wholeChunks_nil (W : Nat) : WholeChunks W [] := nofun

theorem wholeChunks_eachChunk (hf : KeepsWidth W f) : ∀ {out : List Bits}, WholeChunks W cs → eachChunk f cs = .ok out →
    out.length = cs.length ∧ WholeChunks W out := by
  induction cs with
  | nil => rintro out - ⟨⟩; exact ⟨rfl, wholeChunks_nil W⟩
  | cons x xs ih =>
    intro out hc h
    obtain ⟨hx, hxs⟩ := wholeChunks_cons.1 hc
    exact wholeChunks_of_loop (x := x) (fun y => hf x y hx) (fun _ => ih hxs) h

theorem length_xorBits_of_eq {x y : Bits} (hx : x.length = W) (hy : y.length = W) : (xorBits x y).length = W := by
  rw [xorBits_length, hx, hy, Nat.min_self]

theorem wholeChunks_cbcEncChain (hf : KeepsWidth W f) : ∀ {ch : Bits} {out : List Bits}, ch.length = W → WholeChunks W cs →
    cbcEncChain f ch cs = .ok out → out.length = cs.length ∧ WholeChunks W out := by
  induction cs with
  | nil => rintro ch out - - ⟨⟩; exact ⟨rfl, wholeChunks_nil W⟩
  | cons x xs ih =>
    intro ch out hch hc h
    obtain ⟨hx, hxs⟩ := wholeChunks_cons.1 hc
    have hy : ∀ y, f (xorBits x ch) = .ok y → y.length = W := fun y => hf _ y (length_xorBits_of_eq hx hch)
    exact wholeChunks_of_loop (x := x) hy (fun ha => ih (hy _ ha) hxs) h

theorem wholeChunks_cbcDecChain (hf : KeepsWidth W f) : ∀ {ch : Bits} {out : List Bits}, ch.length = W → WholeChunks W cs →
    cbcDecChain f ch cs = .ok out → out.length = cs.length ∧ WholeChunks W out := by
  induction cs with
  | nil => rintro ch out - - ⟨⟩; exact ⟨rfl, wholeChunks_nil W⟩
  | cons x xs ih =>
    intro ch out hch hc h
    obtain ⟨hx, hxs⟩ := wholeChunks_cons.1 hc
    exact wholeChunks_of_loop (x := x) (fun y hy => length_xorBits_of_eq (hf x y hx hy) hch) (fun _ => ih hx hxs) h

/-- R130 - R133: a block mode answers a whole chunk for each whole chunk. -/
theorem wholeChunks_blockSerial {seed : Bits} {chained dec : Bool} (henc : KeepsWidth W (c.enc p))
    (hdec : dec = true → KeepsWidth W (c.dec p)) (hseed : chained = true → seed.length = W) (hc : WholeChunks W cs)
    (h : blockSerial p c seed cs chained dec = .ok out) : out.length = cs.length ∧ WholeChunks W out := by
  cases chained <;> cases dec
  · exact wholeChunks_eachChunk henc hc h
  · exact wholeChunks_eachChunk (hdec rfl) hc h
  · exact wholeChunks_cbcEncChain henc (hseed rfl) hc h
  · exact wholeChunks_cbcDecChain (hdec rfl) (hseed rfl) hc h

/-! The block of a legal state. -/

theorem blockBits_eq (hs : s.LegalBody) : s.blockBits.toNat = 8 * s.nu := by
  have h := hs.csrs.blockBits
  simp only [Csr.legalValue, Bool.and_eq_true, decide_eq_true_eq] at h
  unfold State.nu
  omega

theorem seed_length {chained dec : Bool} (hs : s.Legal) (hc : s.modeCheck chained dec = .ok c) (h : chained = true) :
    s.seed.length = 8 * s.nu := by
  obtain ⟨-, hseed, -⟩ := modeCheck_eq_ok hc
  rw [hs.seed (hseed h), blockBits_eq (legal_iff.1 hs).1]

/-- R122, R123: the SP view of a checked state has the block's bits. -/
theorem blockLen_spView {keys : List BlockVal} (h : s.cipherShape (.sp s.sprows.toNat s.spCols keys) = .ok ()) (x : Bits) :
    blockLen (.mx (viewMatrix s.sprows.toNat s.spCols x)) = 8 * s.nu := by
  obtain ⟨_, hfit, -⟩ := bind_eq_ok.1 h
  obtain ⟨hdiv, -⟩ := need_eq_ok.1 hfit
  have hprod : s.sprows.toNat * s.spCols = s.nu := by
    rw [State.spCols, ← Nat.div_div_eq_div_mul]
    exact Nat.mul_div_cancel' (Nat.dvd_of_mod_eq_zero hdiv)
  simp [blockLen, flat, viewMatrix, hprod]

/-- R122: E of a checked state keeps the width of the block. -/
theorem keepsWidth_enc {chained dec : Bool} (hs : s.LegalBody) (h : s.modeCheck chained dec = .ok c) (p : Ports) :
    KeepsWidth (8 * s.nu) (c.enc p) := by
  obtain ⟨hc, -, hshape, -⟩ := modeCheck_eq_ok h
  intro x y hx hy
  obtain ⟨keys, -, rfl⟩ | ⟨keys, hk, rfl⟩ | rfl | rfl := cipherPresent_cases hc
  · have := length_feistelEnc hy
    omega
  · obtain ⟨hl, hfit, -⟩ := spView_fits hs hk hshape x
    obtain ⟨v, hv, hy⟩ := bind_eq_ok.1 hy
    obtain rfl := Except.ok.inj hy
    obtain ⟨hvl, hvs⟩ := legal_spEnc hl hfit hv
    exact (blockLen_eq_of_shape hvl hl hvs).trans (blockLen_spView hshape x)
  · exact (length_of_extResult hy).trans (blockBits_eq hs)
  · exact Except.ok.inj hy ▸ hx

end Sys2Proof.Machine

/-! ### ECB and CBC decryption undo encryption (44_modes.md R125, R126, R138) -/

namespace Sys2Proof.Machine

variable {s : State} {p : Ports} {c : Cipher} {W : Nat} {cs out : List Bits} {w : List CodeUnit} {e d : Bits → Except Err Bits}

/-- D undoes E on every vector of `W` bits. -/
def Undoes (W : Nat) (d e : Bits → Except Err Bits) : Prop := ∀ x y : Bits, x.length = W → e x = .ok y → d y = .ok x

theorem eachChunk_cons (f : Bits → Except Err Bits) (x : Bits) (xs : List Bits) :
    eachChunk f (x :: xs) = f x >>= fun y => eachChunk f xs >>= fun ys => .ok (y :: ys) := rfl

theorem cbcDecChain_cons (d : Bits → Except Err Bits) (ch x : Bits) (xs : List Bits) :
    cbcDecChain d ch (x :: xs) = d x >>= fun y => cbcDecChain d x xs >>= fun ys => .ok (xorBits y ch :: ys) := rfl

theorem eachChunk_undo (hd : Undoes W d e) : ∀ {out : List Bits}, WholeChunks W cs → eachChunk e cs = .ok out →
    eachChunk d out = .ok cs := by
  induction cs with
  | nil => rintro out - ⟨⟩; rfl
  | cons x xs ih =>
    intro out hc h
    obtain ⟨hx, hxs⟩ := wholeChunks_cons.1 hc
    obtain ⟨y, hy, h⟩ := bind_eq_ok.1 h
    obtain ⟨ys, hys, h⟩ := bind_eq_ok.1 h
    obtain rfl := Except.ok.inj h
    rw [eachChunk_cons, hd x y hx hy, ok_bind, ih hxs hys, ok_bind]

/-- R132, R133: the chain value taken off after D is the one put on before E. -/
theorem cbcDecChain_undo (he : KeepsWidth W e) (hd : Undoes W d e) : ∀ {ch : Bits} {out : List Bits}, ch.length = W →
    WholeChunks W cs → cbcEncChain e ch cs = .ok out → cbcDecChain d ch out = .ok cs := by
  induction cs with
  | nil => rintro ch out - - ⟨⟩; rfl
  | cons x xs ih =>
    intro ch out hch hc h
    obtain ⟨hx, hxs⟩ := wholeChunks_cons.1 hc
    obtain ⟨y, hy, h⟩ := bind_eq_ok.1 h
    obtain ⟨ys, hys, h⟩ := bind_eq_ok.1 h
    obtain rfl := Except.ok.inj h
    have hmix := length_xorBits_of_eq hx hch
    rw [cbcDecChain_cons, hd _ y hmix hy, ok_bind, ih (he _ y hmix hy) hxs hys, ok_bind,
      xorBits_self_right (hx.trans hch.symm).le]

theorem blockSerial_undo {seed : Bits} {chained : Bool} (he : KeepsWidth W (c.enc p)) (hd : Undoes W (c.dec p) (c.enc p))
    (hseed : chained = true → seed.length = W) (hc : WholeChunks W cs)
    (h : blockSerial p c seed cs chained false = .ok out) : blockSerial p c seed out chained true = .ok cs := by
  cases chained with
  | false => exact eachChunk_undo hd hc h
  | true => exact cbcDecChain_undo he hd (hseed rfl) hc h

/-! Stripping. -/

theorem stripUnits_replicate (k : Nat) : stripUnits (List.replicate k Config.pad) = [] := by
  induction k with
  | zero => rfl
  | succ k ih => rw [List.replicate_succ, stripUnits, ih]; rfl

theorem stripUnits_append_pad (u : List CodeUnit) (k : Nat) :
    stripUnits (u ++ List.replicate k Config.pad) = stripUnits u := by
  induction u with
  | nil => exact stripUnits_replicate k
  | cons x xs ih => simp only [List.cons_append, stripUnits, ih]

/-- R125, R126: stripping takes the padding off. -/
theorem stripUnits_padUnits (nu : Nat) (u : List CodeUnit) : stripUnits (padUnits nu u) = stripUnits u :=
  stripUnits_append_pad u _

theorem stripUnits_of_getLast? {u : List CodeUnit} (h : u.getLast? ≠ some 0) : stripUnits u = u := by
  obtain ⟨k, hu, -⟩ := stripUnits_spec u
  cases k with
  | zero => rw [List.replicate_zero, List.append_nil] at hu; exact hu.symm
  | succ k => rw [hu, List.replicate_succ', ← List.append_assoc, List.getLast?_concat] at h; exact absurd rfl h

/-- R130, R132: what block encryption outputs is at most 128 whole chunks. -/
theorem blockUnits_enc_eq_ok {chained : Bool} (hs : s.Legal) (h : blockUnits p s chained false = .ok w) :
    ∃ c out, s.modeCheck chained false = .ok c ∧
      blockSerial p c s.seed (chunks s.nu (padUnits s.nu s.message)) chained false = .ok out ∧
      w = unitsOfChunks out ∧ out.length ≤ 128 ∧ WholeChunks (8 * s.nu) out := by
  have hbody := (legal_iff.1 hs).1
  obtain ⟨c, hc, h⟩ := bind_eq_ok.1 h
  obtain ⟨out, hout, h⟩ := bind_eq_ok.1 h
  obtain ⟨hlen, hwhole⟩ := wholeChunks_blockSerial (dec := false) (keepsWidth_enc hbody hc p) nofun (seed_length hs hc)
    (wholeChunks_chunks _ _) hout
  exact ⟨c, out, hc, hout, (Except.ok.inj h).symm, hlen.trans_le (fitChunks_padded hbody hc).1, hwhole⟩

/-- R131, R133: a block decryption of whole chunks put into IN. -/
theorem blockUnits_dec_withMessage {chained dec : Bool} {m : Memory} {n : Nat} (hs : s.Legal)
    (hc : s.modeCheck chained dec = .ok c) (hm : ∀ i, i < (unitsOfChunks cs).length → m.find i = (unitsOfChunks cs)[i]?)
    (hcount : cs.length ≤ 128) (hwhole : WholeChunks (8 * s.nu) cs) :
    blockUnits p (s.withMessage m (unitsOfChunks cs).length n) chained true =
      blockSerial p c s.seed cs chained true >>= fun out => .ok (stripUnits (unitsOfChunks out)) := by
  obtain ⟨hnu, hmax, -⟩ := nu_bounds (legal_iff.1 hs).1
  have hlen := length_unitsOfChunks hwhole
  have hbound : (unitsOfChunks cs).length ≤ 128 * s.nu := hlen.trans_le (Nat.mul_le_mul_right _ hcount)
  have hlt : (unitsOfChunks cs).length < 2 ^ 64 := by omega
  rw [blockUnits, modeCheck_withMessage hc hm hlt hbound (fun _ => by rw [hlen, Nat.mul_mod_left])
    (all_packable_unitsOfChunks cs), ok_bind, nu_withMessage, State.modeInput, if_pos rfl, message_withMessage hm hlt,
    chunks_unitsOfChunks hnu hwhole]
  rfl

/-- R138: a block mode's decryption of its encryption's output. -/
theorem blockUnits_undo {chained : Bool} {m : Memory} {n : Nat} (hs : s.Legal) (hsel : s.cipherPresent = .ok c)
    (hd : Undoes s.blockBits.toNat (c.dec p) (c.enc p)) (hm : ∀ i, i < w.length → m.find i = w[i]?)
    (h : blockUnits p s chained false = .ok w) :
    blockUnits p (s.withMessage m w.length n) chained true = .ok (stripUnits s.message) := by
  have hbody := (legal_iff.1 hs).1
  obtain ⟨hnu, -, -⟩ := nu_bounds hbody
  obtain ⟨c', out, hc, hout, rfl, hcount, hwhole⟩ := blockUnits_enc_eq_ok hs h
  obtain ⟨hsel', -, -, -, -, hunits⟩ := modeCheck_eq_ok hc
  obtain rfl : c = c' := Except.ok.inj (hsel.symm.trans hsel')
  rw [blockBits_eq hbody] at hd
  rw [blockUnits_dec_withMessage hs hc hm hcount hwhole,
    blockSerial_undo (keepsWidth_enc hbody hc p) hd (seed_length hs hc) (wholeChunks_chunks _ _) hout, ok_bind,
    unitsOfChunks_chunks (all_packable_padUnits hunits s.nu) (length_padUnits_mod hnu s.message), stripUnits_padUnits]

/-- Settles O57: the decryption of either mode gives the padded message, of which stripping leaves what it leaves of the
message. -/
theorem blockModesRoundTrip : Obligations.BlockModesRoundTrip := fun _ _ _ _ _ _ hs hsel hd hm =>
  ⟨blockUnits_undo (chained := false) hs hsel hd hm, blockUnits_undo (chained := true) hs hsel hd hm, stripUnits_of_getLast?⟩

end Sys2Proof.Machine

/-! ### The single-threaded mode commands on the IDENTITY cipher (44_modes.md R122, R130 - R137) -/

namespace Sys2Proof.Machine

variable {s : State} {i j : Instr} {chained dec : Bool}

/-- Where nothing can be raised there is a value. -/
theorem ok_of_raises_nothing {α : Type} {r : Except Err α} (h : Raises (fun _ => False) r) : ∃ a, r = .ok a := by
  cases r with
  | ok a => exact ⟨a, rfl⟩
  | error e => exact (h e rfl).elim

theorem blockSerial_identity (p : Ports) (seed : Bits) (cs : List Bits) (chained dec : Bool) :
    ∃ out, blockSerial p .identity seed cs chained dec = .ok out := by
  have hid : ∀ x : Bits, Raises (fun _ => False) (.ok x : Except Err Bits) := raises_ok
  refine ok_of_raises_nothing ?_
  cases chained <;> cases dec
  · exact raises_eachChunk hid cs
  · exact raises_eachChunk hid cs
  · exact raises_cbcEncChain hid cs seed
  · exact raises_cbcDecChain hid cs seed

theorem eachChunk_ok (cs : List Bits) : eachChunk .ok cs = .ok cs := by
  induction cs with
  | nil => rfl
  | cons x xs ih => rw [eachChunk_cons, ok_bind, ih, ok_bind]

theorem keepsWidth_identity (W : Nat) (p : Ports) :
    KeepsWidth W (Cipher.identity.enc p) ∧ KeepsWidth W (Cipher.identity.dec p) :=
  ⟨fun _ _ hx hy => Except.ok.inj hy ▸ hx, fun _ _ hx hy => Except.ok.inj hy ▸ hx⟩

/-- R130 - R133: a block mode command on the IDENTITY cipher makes as many units as it cuts into chunks, in ECB the same. -/
theorem exec_block_identity (h : (i, j, chained, dec) ∈ blockCommands) (hs : s.Legal)
    (hc : s.modeCheck chained dec = .ok .identity) :
    ∃ t w, exec j s = .next t ∧ OutputsOnly s t (if dec then stripUnits w else w) s.batchCount ∧
      w.length = (s.modeInput dec).length ∧ (chained = false → w = s.modeInput dec) := by
  obtain ⟨hnu, -, -⟩ := nu_bounds (legal_iff.1 hs).1
  obtain ⟨-, -, -, -, hmult, hunits⟩ := modeCheck_eq_ok hc
  have hmod : (s.modeInput dec).length % s.nu = 0 := length_modeInput_mod hnu hmult
  obtain ⟨out, hout⟩ := blockSerial_identity Config.ports s.seed (chunks s.nu (s.modeInput dec)) chained dec
  obtain ⟨t, ht, hres⟩ := exec_blockMode h hc
  rw [hout] at hres
  obtain ⟨henc, hdec⟩ := keepsWidth_identity (8 * s.nu) Config.ports
  obtain ⟨hlen, hwhole⟩ := wholeChunks_blockSerial henc (fun _ => hdec) (seed_length hs hc) (wholeChunks_chunks _ _) hout
  refine ⟨t, unitsOfChunks out, ht, hres, ?_, ?_⟩
  · rw [length_unitsOfChunks hwhole, hlen, length_chunks, Nat.div_mul_cancel (Nat.dvd_of_mod_eq_zero hmod)]
  · rintro rfl
    have hcopy : blockSerial Config.ports .identity s.seed (chunks s.nu (s.modeInput dec)) false dec =
        .ok (chunks s.nu (s.modeInput dec)) := by
      cases dec <;> exact eachChunk_ok _
    obtain rfl := Except.ok.inj (hout.symm.trans hcopy)
    exact unitsOfChunks_chunks (all_packable_modeInput hunits) hmod

/-- R134 - R137: a stream mode command on the IDENTITY cipher outputs as many units as the message has. -/
theorem exec_stream_identity {fb : Feedback} (h : (i, fb) ∈ streamCommands) (hc : s.modeCheck true false = .ok .identity) :
    ∃ t w, exec i s = .next t ∧ OutputsOnly s t w s.batchCount ∧ w.length = s.inLen.toNat := by
  obtain ⟨-, -, -, -, -, hunits⟩ := modeCheck_eq_ok hc
  obtain ⟨w, hw⟩ := ok_of_raises_nothing (raises_streamUnits (f := .ok) raises_ok fb s.message ⟨s.seed⟩)
  obtain ⟨t, ht, hres⟩ := exec_streamMode h hc
  have hw' : streamUnits (Cipher.identity.enc Config.ports) fb ⟨s.seed⟩ s.message = .ok w := hw
  rw [hw'] at hres
  exact ⟨t, w, ht, hres, (streamUnits_bytes hunits hw).1.trans (length_message s)⟩

/-- Settles O55: the checks pass, and the IDENTITY cipher raises nothing. -/
theorem identityCipherModesComplete : Obligations.IdentityCipherModesComplete := by
  intro s hs hsel hbound hbytes
  have hunits := all_packable_message hbytes
  have hcheck : ∀ {chained dec : Bool}, (chained = true → s.seedValid = true) →
      (dec = true → s.inLen.toNat % s.nu = 0) → s.modeCheck chained dec = .ok .identity :=
    fun hseed hmult => modeCheck_identity hsel hseed hbound hmult hunits
  refine ⟨?_, fun hmult => ?_, fun hseed => ⟨?_, fun hmult => ?_, ?_⟩⟩
  · obtain ⟨t, w, ht, hres, -, hcopy⟩ := exec_block_identity ecbe_mem hs (hcheck nofun nofun)
    obtain rfl := hcopy rfl
    exact ⟨t, ht, hres⟩
  · obtain ⟨t, w, ht, hres, -, hcopy⟩ := exec_block_identity ecbd_mem hs (hcheck nofun fun _ => hmult)
    obtain rfl := hcopy rfl
    exact ⟨t, ht, hres⟩
  · obtain ⟨t, w, ht, hres, hlen, -⟩ := exec_block_identity cbce_mem hs (hcheck (fun _ => hseed) nofun)
    exact ⟨t, w, ht, hres, hlen⟩
  · obtain ⟨t, w, ht, hres, hlen, -⟩ := exec_block_identity cbcd_mem hs (hcheck (fun _ => hseed) fun _ => hmult)
    exact ⟨t, w, ht, hres, hlen.trans (length_message s)⟩
  · intro i hi
    have hi' : i ∈ streamCommands.map Prod.fst := hi
    obtain ⟨q, hq, rfl⟩ := List.mem_map.1 hi'
    exact exec_stream_identity hq (hcheck (fun _ => hseed) nofun)

end Sys2Proof.Machine

/-! ### What a failing command changes (60_exceptions.md R156, R157) -/

namespace Sys2Proof.Machine

/-- R64, R156: a word that fails decoding takes its error with no effect before it. -/
theorem runCommand_of_decode_error {cw : Word} {why : Illegal} (h : decode cw = .error why) (s : State) :
    runCommand cw s = .next (s.raiseIllegal cw why) := by
  rw [runCommand, h]

/-- A command that leaves ERR set took an error, as its family takes one (R156, R157). -/
theorem exec_failed_cases {i : Instr} {s t : State} (h : exec i s = .next t) (herr : t.err = true) :
    (i.isMode = false ∧ ∃ e, t = s.raise i.opcode e) ∨ (i.isMode = true ∧ ∃ e, t = s.raiseMode i.opcode e) := by
  obtain ⟨u, resp, -, rfl⟩ | hfail := exec_cases h
  · cases herr
  · exact hfail

/-- R73: while OUT holds no result, OUTRD refuses every index. -/
theorem exec_outrd_of_invalid {s : State} (h : s.outValid = false) (idx : Nat) :
    exec (.outrd idx) s = failsWith s 0x04 2 0x03 := by
  obtain ⟨hreads, -⟩ := entryReads
  obtain ⟨-, hrefused, -⟩ := hreads s idx
  exact hrefused (.inl h)

/-- Settles O14: a failure is `raise`, which leaves OUT, or for a mode command `raiseMode`, which makes OUT unreadable; an
illegal word is `raise` too. -/
theorem failingCommandChangesOnlyRecord : Obligations.FailingCommandChangesOnlyRecord := by
  refine ⟨fun i s t h herr => ?_, fun cw why s hd => ⟨_, runCommand_of_decode_error hd s, rfl⟩⟩
  obtain ⟨hm, e, rfl⟩ | ⟨hm, e, rfl⟩ := exec_failed_cases h herr
  · exact ⟨rfl, fun _ => ⟨rfl, rfl, rfl⟩, fun hmode => absurd (hm.symm.trans hmode) Bool.false_ne_true⟩
  · exact ⟨rfl, fun hother => absurd (hother.symm.trans hm) Bool.false_ne_true,
      fun _ => ⟨rfl, rfl, exec_outrd_of_invalid rfl⟩⟩

end Sys2Proof.Machine

/-! ### Before the first reset (70_reset_and_hazards.md R169, R170) -/

namespace Sys2Proof.Machine

/-- R170: before the first reset, a word presented or in execution leaves the block waiting for RST, at this edge or a
later one. -/
theorem step_before_reset {s : State} {cw : Word} (hseen : s.resetSeen = false)
    (hcmd : s.running = some cw ∨ s.port.head? = some (.present cw)) : step s = s.stuckUntilReset := by
  unfold step
  split
  case h_1 rest hp => exact (stuckUntilReset_rst (pre := []) hp List.not_mem_nil).symm
  case h_2 => rw [hseen]; rfl
  case h_3 => rw [hseen]; rfl
  case h_4 hp hrun => rw [hp, hrun] at hcmd; exact hcmd.elim nofun nofun
  case h_5 hp hrun => rw [hp, hrun] at hcmd; exact hcmd.elim nofun nofun

/-- Settles O10: the block waits for RST, so the port decides: without RST the stop, else the reset by the first RST. -/
theorem commandBeforeResetStops : Obligations.CommandBeforeResetStops := by
  refine ⟨fun s cw hseen hcmd => ?_, fun s rest hp => ⟨s.applyReset rest, step_rst hp, applyReset_resetSeen s rest⟩⟩
  rw [step_before_reset hseen hcmd]
  exact ⟨stuckUntilReset_fault, fun pre rest hp hpre => ⟨s.applyReset rest, stuckUntilReset_rst hp hpre, rfl⟩⟩

end Sys2Proof.Machine
